-- ==== Sys2Proof/Word.lean ====
section
/-!
DEFINITION. The part's data unit is the byte of a transaction (12 R167). Wider quantities are exact integers (03 R32);
only what the handbook wraps or masks is a bit vector.
-/
namespace Sys2Proof

/-- One byte of a transaction, of a chart stream or of a link frame. -/
abbrev Byte := BitVec 8

end Sys2Proof
end

