-- ==== Sys2Proof/Syntax.lean ====
section
/-!
DEFINITION. The commands of the part: one constructor of `Instr` for each row of spec/opcode_table.json, and the types
of their operands. Numbering of stages, panels, players and lanes: 00_scope section 1.5.
-/
namespace Sys2Proof

/-- A player (00_scope 1.5). -/
inductive Player where
  | p1
  | p2
  deriving DecidableEq, Repr

/-- A stage of the floor, and the link that serves it: link A serves stage A, link B stage B (00_scope 1.5). -/
inductive Stage where
  | a
  | b
  deriving DecidableEq, Repr

/-- A master port MP0, MP1 or MP2. -/
abbrev Port := Fin 3

/-- A physical panel: stage × 6 + row × 3 + column (00_scope 1.5). -/
abbrev Panel := Fin 12

/-- A lane queue LQ0 to LQ11. -/
abbrev LaneQueue := Fin 12

/-- The low seven bits of a transaction header: bit 6 must be 0, bits 5 to 0 name the channel (12 R167). The row of a
command fixes bit 7, read or write. -/
abbrev ChannelField := BitVec 7

/-- The role of a port, in the order of the strap coding (00_scope 1.6, 12 R173). -/
inductive Role where
  | game
  | audio
  | lamp
  | watch
  deriving DecidableEq, Repr

/-- The role straps of the three ports as a power-on reset samples them (12 R173). -/
structure Straps where
  mp0 : Role
  mp1 : Role
  mp2 : Role
  deriving DecidableEq, Repr

/-- A character as received on a link: its data bits, its parity bit, and whether its stop bit was high (05 R71). -/
structure LineCharacter where
  data   : Byte
  parity : Bool
  stop   : Bool
  deriving DecidableEq, Repr

/-- The six characters of a REPORT, in their order on the line (05 R73). -/
structure ReportFrame where
  echo   : LineCharacter
  s0     : LineCharacter
  s1     : LineCharacter
  s2     : LineCharacter
  s3     : LineCharacter
  status : LineCharacter
  deriving DecidableEq, Repr

/-- A chart write, whole, or one of the moments of it that the rules tell apart: its header, where acceptance is
decided, a data byte as it is clocked in, and the rise of SEL_N (04 R47). -/
inductive ChartTransfer where
  | whole  (player : Player) (data : List Byte)
  | header (player : Player)
  | byte   (data : Byte)
  | rise
  deriving DecidableEq, Repr

/-- A write transaction by its data bytes, whole, or one of the moments of it that the rules tell apart: the fall of
SEL_N, its header, a data byte as it is clocked in, and the rise of SEL_N, where the write is taken (12 R167, R168, R170,
R177). -/
inductive WriteTransfer where
  | whole (data : List Byte)
  | fall
  | header
  | byte (data : Byte)
  | rise
  deriving DecidableEq, Repr

/-- A read transaction by the low seven bits of its header, whole, or one of the moments of it that the rules tell apart:
the fall of SEL_N, where the status byte is fixed; a header under way, its last clock edge still to come; the header's
eighth edge, where the snapshot is fixed; and the rise of SEL_N (12 R167 to R169; 08 R131). -/
inductive ReadTransfer where
  | whole (channel : ChannelField)
  | fall
  | heading (channel : ChannelField)
  | header (channel : ChannelField)
  | rise
  deriving DecidableEq, Repr

/-- A RING read of a port, whole, with no record clocked out, or one of its moments: its header under way; the header's
eighth edge, where its snapshot is fixed; and the rise of SEL_N (10 R154, R155; 12 R167). -/
inductive RingTransfer where
  | whole (port : Port)
  | heading (port : Port)
  | header (port : Port)
  | rise (port : Port)
  deriving DecidableEq, Repr

/-- A POLL on a link, whole, or one of its two ends: the choice of the board at the end of the line gap, where the POLL
begins, and the stop bit of its second character, where it ends (05 R72, R74, R76). -/
inductive PollTransfer where
  | whole (link : Stage)
  | begins (link : Stage)
  | ends (link : Stage)
  deriving DecidableEq, Repr

/-- The commands. A COMMAND write carries its port and the data bytes after the command code (12 R171). -/
inductive Instr where
  | openSong (port : Port) (fields : List Byte)
  | start (port : Port) (fields : List Byte)
  | abort (port : Port) (fields : List Byte)
  | close (port : Port) (fields : List Byte)
  | position (port : Port) (fields : List Byte)
  | setSync (port : Port) (fields : List Byte)
  | setStage (port : Port) (fields : List Byte)
  | setPanel (port : Port) (fields : List Byte)
  | setMap (port : Port) (fields : List Byte)
  | setWindows (port : Port) (fields : List Byte)
  | setScoring (port : Port) (fields : List Byte)
  | setLife (port : Port) (fields : List Byte)
  | setLamps (port : Port) (fields : List Byte)
  | subscribe (port : Port) (fields : List Byte)
  | unsubscribe (port : Port) (fields : List Byte)
  | softReset (port : Port) (fields : List Byte)
  | chartWrite (port : Port) (transfer : ChartTransfer)
  | noticeWrite (port : Port) (data : List Byte)
  | noticeMaskWrite (port : Port) (data : List Byte)
  | lampWrite (port : Port) (data : List Byte)
  | registerWrite (port : Port) (channel : ChannelField) (transfer : WriteTransfer)
  | ringRead (transfer : RingTransfer)
  | ringRecordConsumed (port : Port)
  | powerOnReset (straps : Straps)
  | fsyncEdge
  | microsecondTick
  | stallEnd
  | syncTimeout
  | tempoEntryReached (player : Player)
  | beatCrossing (player : Player)
  | poll (transfer : PollTransfer)
  | emptyRound (link : Stage)
  | report (link : Stage) (frame : ReportFrame) (quarters : Nat)
  | replyDeadline (link : Stage)
  | stuckExpiry (panel : Panel)
  | sweep (lane : LaneQueue)
  | avoidDue (lane : LaneQueue)
  | avoidPastWindow (lane : LaneQueue)
  | tailReached (lane : LaneQueue)
  | graceExpiry (lane : LaneQueue)
  | flashEnd (panel : Panel)
  | beatPulseEnd (panel : Panel)
  | headerEntry (player : Player)
  | rowsEntry (player : Player)
  | notesEntry (player : Player)
  | repeatEntry (player : Player)
  | tempoEntry (player : Player)
  | dwellEntry (player : Player)
  | endEntry (player : Player)
  | badTag (player : Player)
  | stallRelease (player : Player)
  | refusedRead (port : Port) (transfer : ReadTransfer)
  deriving DecidableEq, Repr

end Sys2Proof
end

