-- ==== Sys2Proof/Decode.lean ====
section
/-!
DEFINITION. The command a word spells by the bits of spec/opcode_table.json. The table gives none of its 52 rows any
bits ("fields": [], no "fixed"), so no word spells a command (notes/assumptions 23). What the bytes of a transaction
spell is decoded by the meanings themselves: the COMMAND codes in Machine/Ports.lean (12 R171), the chart entries in
Machine/Chart.lean (04 R49).
-/
namespace Sys2Proof

/-- No row of the table gives bits: every word is rejected. -/
def decodeTableWord (_nbits _w : Nat) : Option Instr := none

end Sys2Proof
end

