-- ==== Sys2Proof/Config.lean ====
section
/-!
DEFINITION. What the handbook leaves open: free values, which no proof can evaluate. Each is read through the counter
`Device.choices`, so that two readings need not agree (notes/assumptions 4, 6, 10, 31).
-/
namespace Sys2Proof.Config

/-- Which of two events is taken first where a rule says that either may be (01 R12, 08 R120, 09 R144): a free bit. -/
opaque raceBit : Nat → Bool

/-- Which of the events due at one instant on different lanes, players and panels is taken next (08 R113, R132): a
free number. -/
opaque pickEvent : Nat → Nat

/-- What the 16-bit count field of a result record shows for more than 65,535 bytes, which 12 R170 does not say: a
free value. -/
opaque countBeyond : Nat → BitVec 16

end Sys2Proof.Config
end

