-- ==== Sys2Proof/Machine/Bytes.lean ====
section
/-!
DEFINITION. Multi-byte fields: most significant byte first, signed fields in two's complement (00_scope 1.9).
-/
namespace Sys2Proof.Machine

/-- The unsigned value of bytes, most significant first. -/
def unsignedOf (bytes : List Byte) : Nat := bytes.foldl (fun v b => v * 256 + b.toNat) 0

/-- The two's complement value of an unsigned value of the given number of bits. -/
def signedOf (bits v : Nat) : Int := if v < 2 ^ (bits - 1) then (v : Int) else (v : Int) - 2 ^ bits

/-- The low bytes of a value, most significant first: `width` bytes. -/
def bytesOf : Nat → Nat → List Byte
  | 0, _ => []
  | width + 1, v => bytesOf width (v / 256) ++ [BitVec.ofNat 8 v]

/-- A signed value as `width` bytes in two's complement. -/
def signedBytesOf (width : Nat) (v : Int) : List Byte := bytesOf width (v % (256 ^ width : Nat)).toNat

/-- The byte at a place of a field list; 0 beyond its end, which no length-checked command reads. -/
def u8 (fields : List Byte) (at_ : Nat) : Nat := (fields.getD at_ 0).toNat

/-- The 16-bit unsigned field at a place. -/
def u16 (fields : List Byte) (at_ : Nat) : Nat := u8 fields at_ * 256 + u8 fields (at_ + 1)

/-- The 32-bit unsigned field at a place. -/
def u32 (fields : List Byte) (at_ : Nat) : Nat := u16 fields at_ * 65536 + u16 fields (at_ + 2)

/-- The 16-bit signed field at a place. -/
def s16 (fields : List Byte) (at_ : Nat) : Int := signedOf 16 (u16 fields at_)

/-- The 32-bit signed field at a place. -/
def s32 (fields : List Byte) (at_ : Nat) : Int := signedOf 32 (u32 fields at_)

/-- "Clamped": a value outside its range is replaced by the nearer end (00_scope 1.9). -/
def clampNat (lo hi v : Nat) : Nat := max lo (min hi v)

/-- "Clamped", for a signed quantity (00_scope 1.9). -/
def clampInt (lo hi v : Int) : Int := max lo (min hi v)

end Sys2Proof.Machine
end

