-- ==== Sys2Proof/Machine/Limits.lean ====
section
/-!
DEFINITION. The capacities and limits the handbook states, each with its rule.
-/
namespace Sys2Proof.Machine

/-- The greatest song time, due time and segment time (02 R17, 03 R36). -/
def maxTime : Nat := 2147483647

/-- The greatest row (03 R33). -/
def maxRow : Nat := 16777215

/-- The least period (03 R34). -/
def minPeriod : Nat := 65536

/-- The greatest period (03 R34). -/
def maxPeriod : Nat := 268435455

/-- The longest dwell (03 R40). -/
def maxDwell : Nat := 60000000

/-- The longest lead-in (01 R4). -/
def maxLeadIn : Nat := 10000000

/-- The lead-in that 0xFFFFFFFF selects (01 R4). -/
def defaultLeadIn : Nat := 3000000

/-- A chart buffer's capacity in bytes (04 R46). -/
def bufferCapacity : Nat := 512

/-- A lane queue's capacity in notes (08 R109). -/
def queueCapacity : Nat := 24

/-- A tempo map's capacity in entries (02 R27). -/
def mapCapacity : Nat := 16

/-- The capture list's capacity (02 R20). -/
def captureCapacity : Nat := 4

/-- The ring's capacity in records (10 R147). -/
def ringCapacity : Nat := 64

/-- The unread count at which NEAR is raised (10 R156). -/
def nearMark : Nat := 62

/-- The longest stall an error beyond JUMP starts (02 R23). -/
def maxStall : Nat := 1000000

/-- Rows in a beat (03 section 3.2). -/
def rowsPerBeat : Nat := 48

/-- The greatest 16-bit count, where a count saturates (09 R137, R141). -/
def maxCount : Nat := 65535

/-- The greatest EARNED (09 R138). -/
def maxEarned : Nat := 4294967295

/-- The greatest life (09 R142). -/
def maxLife : Nat := 1000

end Sys2Proof.Machine
end

