-- ==== Sys2Proof/Machine/State.lean ====
section
/-!
DEFINITION. The state of the part, block by block (00_scope 1.3), as plain data, and its value after a power-on reset.
Quantities the handbook clamps or compares exactly are integers (03 R32); what it wraps or masks is a bit vector.
-/
namespace Sys2Proof.Machine

/-- One value for each of P1 and P2. -/
structure PerPlayer (α : Type) where
  p1 : α
  p2 : α
  deriving DecidableEq, Repr

/-- The value of a player. -/
def PerPlayer.get {α : Type} (v : PerPlayer α) : Player → α
  | .p1 => v.p1
  | .p2 => v.p2

/-- The pair with one player's value replaced. -/
def PerPlayer.set {α : Type} (v : PerPlayer α) (p : Player) (x : α) : PerPlayer α :=
  match p with
  | .p1 => { v with p1 := x }
  | .p2 => { v with p2 := x }

/-- One value for each of stage A and stage B. -/
structure PerStage (α : Type) where
  a : α
  b : α
  deriving DecidableEq, Repr

/-- The value of a stage. -/
def PerStage.get {α : Type} (v : PerStage α) : Stage → α
  | .a => v.a
  | .b => v.b

/-- The pair with one stage's value replaced. -/
def PerStage.set {α : Type} (v : PerStage α) (s : Stage) (x : α) : PerStage α :=
  match s with
  | .a => { v with a := x }
  | .b => { v with b := x }

/-! ## Session controller (chapter 1) -/

/-- The session state (01 R1). -/
inductive SessionState where
  | idle
  | preload
  | run
  | ended
  deriving DecidableEq, Repr

/-- The player state (01 R9). -/
inductive PlayerState where
  | off
  | joined
  | playing
  | cleared
  | failed
  deriving DecidableEq, Repr

/-- STYLE (01 R2). -/
inductive Style where
  | versus
  | doubles
  deriving DecidableEq, Repr

/-- FAIL_POLICY (01 R2). -/
inductive FailPolicy where
  | stop
  | carryOn
  deriving DecidableEq, Repr

/-- The session controller: session state, player states and the four song parameters (01 R1, R2, R9). -/
structure Session where
  state      : SessionState
  style      : Style
  named      : PerPlayer Bool
  failPolicy : FailPolicy
  leadIn     : Nat
  players    : PerPlayer PlayerState
  deriving DecidableEq, Repr

/-- 01 R15. -/
def Session.reset : Session :=
  { state := .idle, style := .versus, named := ⟨false, false⟩, failPolicy := .stop, leadIn := 3000000,
    players := ⟨.off, .off⟩ }

/-! ## Song clock (chapter 2) -/

/-- LOCAL or FOLLOW (02 R19). -/
inductive ClockMode where
  | localMode
  | followMode
  deriving DecidableEq, Repr

/-- PRESENT or LOST (02 R26). -/
inductive SyncStatus where
  | present
  | lost
  deriving DecidableEq, Repr

/-- A capture of an FSYNC edge (02 R20). -/
structure Capture where
  edge : BitVec 8
  free : BitVec 32
  time : Int
  deriving DecidableEq, Repr

/-- A segment entry of a beat tracker (02 R27). -/
structure Segment where
  row     : Nat
  rowTime : Nat
  segTime : Nat
  period  : Nat
  deriving DecidableEq, Repr

/-- The initial segment: row 0, row time 0, segment time 0, 120 beats per minute (02 R27). -/
def Segment.initial : Segment := { row := 0, rowTime := 0, segTime := 0, period := 2666667 }

/-- A player's beat tracker (02 R27, R29). -/
structure Tracker where
  segment   : Segment
  map       : List Segment
  beatIndex : Int
  deriving DecidableEq, Repr

/-- 02 R31. -/
def Tracker.reset : Tracker := { segment := .initial, map := [], beatIndex := 0 }

/-- The song clock (02 R16 to R29). `stall` is the pending stall's remaining count; `silenceStart` is the
free-counter reading at which the silence timer was last restarted (R26). -/
structure Clock where
  free         : BitVec 32
  songTime     : Int
  mode         : ClockMode
  slew         : Nat
  jump         : Nat
  syncTimeout  : Nat
  offsets      : PerStage Int
  stall        : Option Nat
  captures     : List Capture
  edgeCount    : BitVec 8
  sync         : SyncStatus
  silenceStart : BitVec 32
  trackers     : PerPlayer Tracker
  deriving DecidableEq, Repr

/-- 02 R31. DESIGN CHOICE for `silenceStart` (notes/assumptions 18). -/
def Clock.reset : Clock :=
  { free := 0, songTime := 0, mode := .localMode, slew := 250, jump := 50000, syncTimeout := 100000,
    offsets := ⟨0, 0⟩, stall := none, captures := [], edgeCount := 0, sync := .present, silenceStart := 0,
    trackers := ⟨.reset, .reset⟩ }

/-! ## Chart decoders (chapter 4) -/

/-- The kind of a lane queue entry (08 R109). -/
inductive NoteKind where
  | tap
  | holdStart
  | avoid
  deriving DecidableEq, Repr

/-- A lane queue entry (08 R109). `reached` is the model's own: lane time has already reached this AVOID's due time
(08 R119, notes/assumptions 16). -/
structure Note where
  row        : Nat
  due        : Nat
  kind       : NoteKind
  tail       : Option Nat
  lateDecode : Bool
  forcedEnd  : Bool
  reached    : Bool
  deriving DecidableEq, Repr

/-- The decoder states (04 R50). -/
inductive DecoderState where
  | idle
  | waitHeader
  | decoding
  | stalledLane
  | stalledTempo
  | ended
  | discard
  deriving DecidableEq, Repr

/-- The decoder's current segment (03 R37). -/
structure DecoderSegment where
  row     : Nat
  segTime : Nat
  period  : Nat
  deriving DecidableEq, Repr

/-- The sub-kinds of a NOTES entry (04 R49). -/
inductive SubKind where
  | tap
  | holdStart
  | holdEnd
  | avoid
  deriving DecidableEq, Repr

/-- One step left of a NOTES entry: move to a repetition's row (04 R60), place a note on a lane (04 R55), or hand a
refused note for appending again (04 R56). -/
inductive Work where
  | moveTo (row : Nat)
  | place (kind : SubKind) (lane : Fin 12)
  | append (lane : Fin 12) (note : Note)
  deriving DecidableEq, Repr

/-- What an entry in hand still has to do: a NOTES entry's work, or a tempo map entry to offer (04 R51, R54). -/
inductive Task where
  | notes (work : List Work)
  | offer (segment : Segment)
  deriving DecidableEq, Repr

/-- The entry in hand: its byte count, kept until its bytes leave the buffer, and what it still has to do (04 R51). -/
structure InHand where
  size : Nat
  task : Task
  deriving DecidableEq, Repr

/-- A chart decoder with its buffer (04 R46, R50, R52, R55, R58, R60, R66, R67; 03 R37). -/
structure Decoder where
  buffer        : List Byte
  state         : DecoderState
  cursor        : Nat
  rowTime       : Nat
  segment       : DecoderSegment
  pendingRepeat : Option (Nat × Nat)
  inHand        : Option InHand
  openHold      : Vector (Option Nat) 12
  lastRow       : Vector (Option Nat) 12
  faults        : BitVec 13
  noteTotal     : Nat
  holdTotal     : Nat
  taps          : Nat
  holds         : Nat
  avoids        : Nat
  deriving DecidableEq, Repr

/-- The segment a decoder starts from (03 R37). -/
def DecoderSegment.initial : DecoderSegment := { row := 0, segTime := 0, period := 2666667 }

/-- 04 R70. -/
def Decoder.reset : Decoder :=
  { buffer := [], state := .idle, cursor := 0, rowTime := 0, segment := .initial, pendingRepeat := none,
    inHand := none, openHold := Vector.replicate 12 none, lastRow := Vector.replicate 12 none, faults := 0,
    noteTotal := 0, holdTotal := 0, taps := 0, holds := 0, avoids := 0 }

/-! ## Panel links (chapter 5) -/

/-- The board states (05 R78). -/
inductive BoardState where
  | disabled
  | absent
  | online
  | degraded
  | offline
  deriving DecidableEq, Repr

/-- An entry of the board table (05 section 5.4). -/
structure Board where
  state  : BoardState
  misses : Nat
  seen   : Bool
  levels : Vector Byte 4
  faults : BitVec 4
  deriving DecidableEq, Repr

/-- 05 R85. -/
def Board.reset : Board :=
  { state := .absent, misses := 0, seen := false, levels := Vector.replicate 4 0, faults := 0 }

/-- Where a link stands in its schedule: between transactions (the line gap, or silence), sending the POLL of a
transaction, waiting for its REPORT, or in the idle interval of an empty round (05 R71, R72, R76, R77). A transaction
holds its address, the lamp level its POLL carries, whether its REPORT is to be discarded (R83) and, from the end of
its POLL on, the REPLY_LIMIT that stood there (R74). -/
inductive LinkPhase where
  | gap
  | sending (address : Fin 6) (level : Byte) (void : Bool)
  | transaction (address : Fin 6) (level : Byte) (replyLimit : Nat) (void : Bool)
  | emptyRound
  deriving DecidableEq, Repr

/-- A panel link controller (05 R76, R78, R82, R84). -/
structure Link where
  boards     : Vector Board 6
  enable     : BitVec 6
  replyLimit : Nat
  missLimit  : Nat
  parity     : Nat
  round      : Nat
  last       : Option (Fin 6)
  phase      : LinkPhase
  deriving DecidableEq, Repr

/-- 05 R85. -/
def Link.reset : Link :=
  { boards := Vector.replicate 6 .reset, enable := 0x3F, replyLimit := 24, missLimit := 4, parity := 0, round := 0,
    last := none, phase := .gap }

/-! ## Press detector (chapter 6) -/

/-- A sensor: its baseline in sixteenths of a level, none when unseeded, its active flag and the fault flag of the
panel's previous good report (06 R88, R90, R91). -/
structure Sensor where
  baseline  : Option Nat
  active    : Bool
  prevFault : Bool
  deriving DecidableEq, Repr

/-- 06 R99. -/
def Sensor.reset : Sensor := { baseline := none, active := false, prevFault := false }

/-- A panel of the press detector (06 R87, R92, R94, R96). `stuckSince` is the start time of a running stuck timer. -/
structure PanelPress where
  press      : Nat
  release    : Nat
  quorum     : Nat
  sensors    : Vector Sensor 4
  pressed    : Bool
  counter    : BitVec 8
  stuckSince : Option (BitVec 32)
  deriving DecidableEq, Repr

/-- 06 R99. -/
def PanelPress.reset : PanelPress :=
  { press := 40, release := 24, quorum := 1, sensors := Vector.replicate 4 .reset, pressed := false, counter := 0,
    stuckSince := none }

/-- The press detector (06 R87). -/
structure PressDetector where
  panels     : Vector PanelPress 12
  stuckLimit : Nat
  deriving DecidableEq, Repr

/-- 06 R99. -/
def PressDetector.reset : PressDetector := { panels := Vector.replicate 12 .reset, stuckLimit := 8000000 }

/-! ## Lane mapper (chapter 7) -/

/-- A player's modifier settings (07 R101). -/
structure Modifiers where
  x : Bool
  y : Bool
  s : Bool
  deriving DecidableEq, Repr

/-- The modifier that names a suppressed pair (07 R107). -/
inductive Modifier where
  | x
  | y
  | s
  deriving DecidableEq, Repr

/-- A panel pair of a modifier (07 R103, R107). -/
structure PanelPair where
  modifier : Modifier
  first    : Panel
  second   : Panel
  deriving DecidableEq, Repr

/-- A forward table: for each panel the lane queue it feeds, or none (07 R104). -/
abbrev LaneMap := Vector (Option LaneQueue) 12

/-- The lane mapper (07 R101, R104, R107). -/
structure Mapper where
  modifiers  : PerPlayer Modifiers
  frozen     : Option LaneMap
  suppressed : PerPlayer (List PanelPair)
  deriving DecidableEq, Repr

/-- 07 R108. -/
def Mapper.reset : Mapper :=
  { modifiers := ⟨⟨false, false, false⟩, ⟨false, false, false⟩⟩, frozen := none, suppressed := ⟨[], []⟩ }

/-! ## Judge (chapter 8) -/

/-- The grades of a struck note, best first (00_scope 1.7). -/
inductive Grade where
  | exact
  | great
  | good
  | fair
  | poor
  deriving DecidableEq, Repr

/-- The active-hold record, but for the grace expiry, which only GRACE has (08 R121). -/
structure ActiveHold where
  row       : Nat
  tail      : Option Nat
  forcedEnd : Bool
  deriving DecidableEq, Repr

/-- The hold state of a lane with its active-hold record (08 R121). -/
inductive HoldState where
  | idle
  | holding (hold : ActiveHold)
  | grace (hold : ActiveHold) (expiry : Int)
  deriving DecidableEq, Repr

/-- A lane queue and its lane's hold (08 R109, R121). -/
structure Lane where
  queue : List Note
  hold  : HoldState
  deriving DecidableEq, Repr

/-- 08 R130. -/
def Lane.reset : Lane := { queue := [], hold := .idle }

/-- An early and a late limit in µs (08 R112). -/
structure Window where
  early : Nat
  late  : Nat
  deriving DecidableEq, Repr

/-- The grade window table (08 R112). -/
structure Windows where
  exact : Window
  great : Window
  good  : Window
  fair  : Window
  poor  : Window
  deriving DecidableEq, Repr

/-- The judge (08 R109, R112, R121). -/
structure Judge where
  lanes     : Vector Lane 12
  windows   : Windows
  avoid     : Window
  holdGrace : Nat
  deriving DecidableEq, Repr

/-- The default grade windows (08 R112). -/
def Windows.default : Windows :=
  { exact := ⟨15000, 15000⟩, great := ⟨35000, 35000⟩, good := ⟨70000, 70000⟩, fair := ⟨110000, 110000⟩,
    poor := ⟨150000, 150000⟩ }

/-- 08 R130. -/
def Judge.reset : Judge :=
  { lanes := Vector.replicate 12 .reset, windows := .default, avoid := ⟨50000, 50000⟩, holdGrace := 250000 }

/-! ## Score keeper (chapter 9) -/

/-- The ten outcome counts (09 R133). -/
structure Counts where
  exact    : Nat
  great    : Nat
  good     : Nat
  fair     : Nat
  poor     : Nat
  miss     : Nat
  held     : Nat
  letGo    : Nat
  avoidHit : Nat
  stray    : Nat
  deriving DecidableEq, Repr

/-- All counts 0. -/
def Counts.zero : Counts :=
  { exact := 0, great := 0, good := 0, fair := 0, poor := 0, miss := 0, held := 0, letGo := 0, avoidHit := 0,
    stray := 0 }

/-- The fields of a score record that the score keeper owns (09 R133). -/
structure ScoreRecord where
  earned       : Nat
  headerUnits  : Nat
  decodedUnits : Nat
  units        : Nat
  score        : Nat
  combo        : Nat
  maxCombo     : Nat
  counts       : Counts
  life         : Nat
  zero         : Bool
  deriving DecidableEq, Repr

/-- The record of an unnamed player at OPEN, and after a reset (09 R146). -/
def ScoreRecord.reset : ScoreRecord :=
  { earned := 0, headerUnits := 0, decodedUnits := 0, units := 0, score := 0, combo := 0, maxCombo := 0,
    counts := .zero, life := 0, zero := false }

/-- The weight table (09 R134). -/
structure Weights where
  exact : Nat
  great : Nat
  good  : Nat
  fair  : Nat
  poor  : Nat
  held  : Nat
  deriving DecidableEq, Repr

/-- The life deltas (09 R135). -/
structure Deltas where
  exact    : Int
  great    : Int
  good     : Int
  fair     : Int
  poor     : Int
  miss     : Int
  held     : Int
  letGo    : Int
  avoidHit : Int
  deriving DecidableEq, Repr

/-- The score keeper (09 R133 to R135). -/
structure ScoreKeeper where
  records    : PerPlayer ScoreRecord
  weights    : Weights
  comboFloor : Grade
  lifeStart  : Nat
  deltas     : Deltas
  deriving DecidableEq, Repr

/-- 09 R134, R135, R146. -/
def ScoreKeeper.reset : ScoreKeeper :=
  { records := ⟨.reset, .reset⟩, weights := ⟨1000, 800, 500, 200, 0, 1000⟩, comboFloor := .good, lifeStart := 500,
    deltas := ⟨8, 6, 2, 0, -20, -60, 6, -40, -80⟩ }

/-! ## Judgement ring (chapter 10) -/

/-- How a TAP or HOLD_START ended: graded, or MISS (10 R148). -/
inductive NoteResult where
  | graded (grade : Grade)
  | miss
  deriving DecidableEq, Repr

/-- The mark kinds (10 R148). -/
inductive MarkKind where
  | opened
  | started
  | ended
  | aborted
  | cleared
  | failed
  deriving DecidableEq, Repr

/-- The type of a record with its outcome (10 R148). -/
inductive RecordType where
  | tap (result : NoteResult)
  | holdStart (result : NoteResult)
  | holdBody (held : Bool)
  | avoidHit
  | mark (kind : MarkKind)
  deriving DecidableEq, Repr

/-- A ring record (10 R148). `lap` is the model's own and is not sent: how often the sequence counter had gone from 65,535
to 0 when the record was appended, so that no two records since the last reset are equal (10 R155;
notes/assumptions 20). -/
structure Record where
  seq        : BitVec 16
  lap        : Nat := 0
  type       : RecordType
  player     : Player
  lane       : Fin 12
  early      : Bool
  lateDecode : Bool
  forcedEnd  : Bool
  timed      : Bool
  offset     : Int
  row        : Nat
  deriving DecidableEq, Repr

/-- A subscription (10 R151): the cursor is at the head (none) or stands on the record of that sequence number. -/
structure Subscription where
  cursor    : Option (BitVec 16)
  unread    : Nat
  threshold : Nat
  deriving DecidableEq, Repr

/-- The judgement ring (10 R147, R151). `lap` is the model's own: how often `seq` has gone from 65,535 to 0 since the last
reset (notes/assumptions 20). -/
structure Ring where
  records : List Record
  seq     : BitVec 16
  lap     : Nat
  subs    : Vector (Option Subscription) 3
  deriving DecidableEq, Repr

/-- 10 R158. -/
def Ring.reset : Ring := { records := [], seq := 0, lap := 0, subs := Vector.replicate 3 none }

/-! ## Lamp mixer (chapter 11) -/

/-- The lamp mixer (11 R160, R161, R163, R164). A running timer is the free-counter value at which it ends. -/
structure Lamps where
  patterns   : Vector Byte 12
  override   : BitVec 12
  echoLevel  : Byte
  flashLevel : Byte
  beatLevel  : Byte
  flashTime  : Nat
  beatTime   : Nat
  flashFloor : Grade
  flash      : Vector (Option (BitVec 32)) 12
  beat       : Vector (Option (BitVec 32)) 12
  deriving DecidableEq, Repr

/-- 11 R160, R166. -/
def Lamps.reset : Lamps :=
  { patterns := Vector.replicate 12 0, override := 0, echoLevel := 96, flashLevel := 255, beatLevel := 64,
    flashTime := 80000, beatTime := 60000, flashFloor := .good, flash := Vector.replicate 12 none,
    beat := Vector.replicate 12 none }

/-! ## Port interface (chapter 12) -/

/-- The codes of a result record (12 R170). -/
inductive ResultCode where
  | done
  | wrongState
  | noRight
  | badLength
  | badValue
  | badTable
  | stale
  | deferred
  | unknown
  deriving DecidableEq, Repr

/-- A port's result record (12 R170). -/
structure ResultRecord where
  channel : BitVec 6
  code    : ResultCode
  count   : BitVec 16
  deriving DecidableEq, Repr

/-- 12 R176. -/
def ResultRecord.reset : ResultRecord := { channel := 0, code := .done, count := 0 }

/-- A transaction in progress on a port, from the fall of SEL_N to its rise (12 R167):
- before its header, with the status byte fixed at the fall (12 R168);
 a read whose header is under way, with that byte and the header's low seven bits; the eighth edge, which takes the
  header, is still to come (12 R167);
- a chart write after its header (04 R47, R70), with the verdict of its header, the bytes that have entered, whether a
  byte has found the buffer full, and whether an ABORT or CLOSE, or a soft reset, has cut it off;
- any other write after its header, with the data bytes clocked in (12 R170, R177);
- a RING read of a port with a cursor after its header (10 R154, R155, R158), with its snapshot, the records clocked
  out, and whether a soft reset has ended it;
- any other read after its header, with its snapshot (12 R169, R177). -/
inductive Transaction where
  | selected (status : Byte)
  | heading (status : Byte) (channel : ChannelField)
  | write (channel : ChannelField) (data : List Byte)
  | read (channel : ChannelField) (snapshot : List Byte)
  | chart (player : Player) (verdict : ResultCode) (entered : Nat) (full cut reset : Bool)
  | ringRead (snapshot : List Record) (sent : Nat) (dead : Bool)
  deriving DecidableEq, Repr

/-- A master port (12 R170, R172, R174). -/
structure PortState where
  role        : Role
  notices     : BitVec 16
  mask        : BitVec 16
  result      : ResultRecord
  transaction : Option Transaction
  deriving DecidableEq, Repr

/-- A port after a power-on reset that gives it a role (12 R176). -/
def PortState.reset (role : Role) : PortState :=
  { role := role, notices := 0, mask := 0, result := .reset, transaction := none }

/-! ## The whole part -/

/-- The eleven blocks (00_scope 1.3), and the model's own counter of the free values read (notes/assumptions 6). -/
structure Device where
  session  : Session
  clock    : Clock
  decoders : PerPlayer Decoder
  links    : PerStage Link
  press    : PressDetector
  mapper   : Mapper
  judge    : Judge
  score    : ScoreKeeper
  ring     : Ring
  lamps    : Lamps
  ports    : Vector PortState 3
  choices  : Nat
  deriving DecidableEq, Repr

/-- Every block in its power-on state, with the ports as they are given. -/
def Device.reset (ports : Vector PortState 3) : Device :=
  { session := .reset, clock := .reset, decoders := ⟨.reset, .reset⟩, links := ⟨.reset, .reset⟩, press := .reset,
    mapper := .reset, judge := .reset, score := .reset, ring := .reset, lamps := .reset, ports := ports,
    choices := 0 }

/-- The state of the model: the part, and the commands that wait for it, first in first out. -/
structure State where
  device  : Device
  pending : List Instr
  deriving DecidableEq, Repr

/-- The part right after a power-on reset, no command waiting. DESIGN CHOICE: the straps read GAME, AUDIO, LAMP
(notes/assumptions 1). -/
def State.reset : State :=
  { device := .reset #v[.reset .game, .reset .audio, .reset .lamp], pending := [] }

/-- What stops the part with a fault: nothing. The handbook reports every error in the part's own state (result
codes, fault sets, notices) and goes on, so no command of the model raises a fault. -/
inductive Fault where
  deriving DecidableEq, Repr

/-- Why a command has no meaning. -/
inductive Refusal where
  /-- Raised by `exec` for a row whose meaning has not been written. Safe: the model stops where the part goes on. -/
  | notModelled (mnemonic : String)
  deriving DecidableEq, Repr

end Sys2Proof.Machine
end

