-- ==== Sys2Proof/Machine/Arithmetic.lean ====
section
/-!
DEFINITION. The sums of chapter 3: due times, offsets and grades, the comparisons of R42, beat positions. All exact
(R32); `Int` division by a positive number is the floor.
-/
namespace Sys2Proof.Machine

/-- The due time of a row at or after a segment's first row, before the clamp of R36 (03 R35). -/
def rawDue (segment : DecoderSegment) (row : Nat) : Nat :=
  segment.segTime + ((row - segment.row) * segment.period + 128) / 256

/-- The clamp of a due time or segment time (03 R36). -/
def clampTime (t : Nat) : Nat := min t maxTime

/-- The due time of a row (03 R35, R36). -/
def dueTime (segment : DecoderSegment) (row : Nat) : Nat := clampTime (rawDue segment row)

/-- The offset of a press from a note (03 R41). -/
def pressOffset (stamp : Int) (due : Nat) : Int := stamp - due

/-- A window holds an offset, both ends included (03 R41). -/
def Window.holds (w : Window) (o : Int) : Bool := -(w.early : Int) ≤ o && o ≤ (w.late : Int)

/-- The first window that holds an offset, EXACT first (03 R41). -/
def Windows.gradeOf (w : Windows) (o : Int) : Option Grade :=
  if w.exact.holds o then some .exact
  else if w.great.holds o then some .great
  else if w.good.holds o then some .good
  else if w.fair.holds o then some .fair
  else if w.poor.holds o then some .poor
  else none

/-- The late limit that a note's kind is swept by: POOR.late, or AVOID.late (03 R42). -/
def Judge.lateLimit (j : Judge) : NoteKind → Nat
  | .tap | .holdStart => j.windows.poor.late
  | .avoid => j.avoid.late

/-- A note is past its window at a lane time (03 R42). -/
def Judge.pastWindow (j : Judge) (n : Note) (laneTime : Int) : Bool :=
  (n.due : Int) + j.lateLimit n.kind < laneTime

/-- The offset field of a record: clamped to the signed 24-bit field (03 R43). -/
def recordOffset (o : Int) : Int := max (-8388607) (min 8388607 o)

/-- The beat position in 256ths of a row counted from the segment's first row (03 R44). -/
def Segment.quarterBeat (seg : Segment) (songTime : Int) : Int :=
  if seg.rowTime < seg.segTime ∧ (seg.rowTime : Int) ≤ songTime ∧ songTime < seg.segTime then 0
  else (songTime - seg.segTime) * 65536 / seg.period

/-- The row count of a beat position (03 R44). -/
def Segment.beatRow (seg : Segment) (songTime : Int) : Int := seg.row + seg.quarterBeat songTime / 256

/-- The fraction of a beat position, 0 to 255 (03 R44). -/
def Segment.beatFraction (seg : Segment) (songTime : Int) : Int := seg.quarterBeat songTime % 256

/-- The beat index of a beat position (02 R29, 03 R45). -/
def Segment.beatIndex (seg : Segment) (songTime : Int) : Int := seg.beatRow songTime / rowsPerBeat

end Sys2Proof.Machine
end

