-- ==== Sys2Proof/Machine/Flags.lean ====
section
/-!
DEFINITION. The flag words: notice kinds (12 R174), chart fault kinds (04 section 4.12), result codes (12 R170), the
codes of states in snapshots, and the flag byte of a record (10 R148).
-/
namespace Sys2Proof.Machine

/-- The sixteen notice kinds, bit k for kind k (12 R174). -/
inductive Notice where
  | session
  | player
  | capture
  | corrected
  | jumped
  | syncLost
  | chartFault
  | linkParity
  | boardOffline
  | sensorFault
  | stuck
  | mapDegraded
  | water
  | near
  | overrun
  | roleConflict
  deriving DecidableEq, Repr

/-- The bit number of a notice kind (12 R174). -/
def Notice.bit : Notice → Nat
  | .session => 0
  | .player => 1
  | .capture => 2
  | .corrected => 3
  | .jumped => 4
  | .syncLost => 5
  | .chartFault => 6
  | .linkParity => 7
  | .boardOffline => 8
  | .sensorFault => 9
  | .stuck => 10
  | .mapDegraded => 11
  | .water => 12
  | .near => 13
  | .overrun => 14
  | .roleConflict => 15

/-- The set that holds one kind alone. -/
def Notice.mask (k : Notice) : BitVec 16 := BitVec.twoPow 16 k.bit

/-- The thirteen chart fault kinds, in the order of the table of section 4.12. -/
inductive FaultKind where
  | noHeader
  | lateHeader
  | badTag
  | badLane
  | duplicate
  | badRepeat
  | strayEnd
  | holdOverlap
  | rowClamped
  | dueClamped
  | tempoClamped
  | dwellClamped
  | afterEnd
  deriving DecidableEq, Repr

/-- The bit number of a fault kind: NO_HEADER bit 0 (04 R66, 12 R178). -/
def FaultKind.bit : FaultKind → Nat
  | .noHeader => 0
  | .lateHeader => 1
  | .badTag => 2
  | .badLane => 3
  | .duplicate => 4
  | .badRepeat => 5
  | .strayEnd => 6
  | .holdOverlap => 7
  | .rowClamped => 8
  | .dueClamped => 9
  | .tempoClamped => 10
  | .dwellClamped => 11
  | .afterEnd => 12

/-- The set that holds one fault kind alone. -/
def FaultKind.mask (k : FaultKind) : BitVec 13 := BitVec.twoPow 13 k.bit

/-- 12 R170. -/
def ResultCode.toNat : ResultCode → Nat
  | .done => 0
  | .wrongState => 1
  | .noRight => 2
  | .badLength => 3
  | .badValue => 4
  | .badTable => 5
  | .stale => 6
  | .deferred => 7
  | .unknown => 8

/-- 01 R1. -/
def SessionState.toNat : SessionState → Nat
  | .idle => 0
  | .preload => 1
  | .run => 2
  | .ended => 3

/-- 01 R9. -/
def PlayerState.toNat : PlayerState → Nat
  | .off => 0
  | .joined => 1
  | .playing => 2
  | .cleared => 3
  | .failed => 4

/-- 04 R50. -/
def DecoderState.toNat : DecoderState → Nat
  | .idle => 0
  | .waitHeader => 1
  | .decoding => 2
  | .stalledLane => 3
  | .stalledTempo => 4
  | .ended => 5
  | .discard => 6

/-- 05 section 5.4. -/
def BoardState.toNat : BoardState → Nat
  | .disabled => 0
  | .absent => 1
  | .online => 2
  | .degraded => 3
  | .offline => 4

/-- 00_scope 1.6. -/
def roleCode : Role → Nat
  | .game => 0
  | .audio => 1
  | .lamp => 2
  | .watch => 3

/-- The order and the codes of the grades (09 R134, 10 R148, 11 R160). -/
def Grade.toNat : Grade → Nat
  | .exact => 0
  | .great => 1
  | .good => 2
  | .fair => 3
  | .poor => 4

/-- 12 R178. -/
def HoldState.toNat : HoldState → Nat
  | .idle => 0
  | .holding _ => 1
  | .grace _ _ => 2

/-- The type byte of a record (10 R148). -/
def RecordType.typeByte : RecordType → Nat
  | .tap _ => 0
  | .holdStart _ => 1
  | .holdBody _ => 2
  | .avoidHit => 3
  | .mark _ => 4

/-- The outcome code of a graded or missed note (10 R148). -/
def NoteResult.toNat : NoteResult → Nat
  | .graded g => g.toNat
  | .miss => 5

/-- The code of a mark kind (10 R148). -/
def MarkKind.toNat : MarkKind → Nat
  | .opened => 0
  | .started => 1
  | .ended => 2
  | .aborted => 3
  | .cleared => 4
  | .failed => 5

/-- The outcome byte of a record (10 R148). -/
def RecordType.outcomeByte : RecordType → Nat
  | .tap r => r.toNat
  | .holdStart r => r.toNat
  | .holdBody true => 6
  | .holdBody false => 7
  | .avoidHit => 8
  | .mark k => k.toNat

/-- The flag byte of a record: EARLY, LATE_DECODE, FORCED_END, TIMED from bit 0 (10 R148). -/
def Record.flagByte (r : Record) : Nat :=
  r.early.toNat + 2 * r.lateDecode.toNat + 4 * r.forcedEnd.toNat + 8 * r.timed.toNat

/-- ATTN_N is low: the notice set holds a kind that the mask does not name (12 R175). -/
def PortState.attnLow (p : PortState) : Bool := p.notices &&& ~~~p.mask != 0

end Sys2Proof.Machine
end

