-- ==== Sys2Proof/Machine/Ops.lean ====
section
/-!
DEFINITION. The named operations over the state that every block uses: reading and replacing one item of a block,
raising notices (12 R174), who owns a lane queue and which stage measures it (01 R9, 07 R104), lane time (02 R18).
-/
namespace Sys2Proof.Machine

/-- A function applied to every item of a vector. -/
def vecMap {α β : Type} {n : Nat} (f : α → β) (v : Vector α n) : Vector β n := Vector.ofFn fun i => f v[i]

/-- A function applied to one item of a vector. -/
def vecModify {α : Type} {n : Nat} (v : Vector α n) (i : Fin n) (f : α → α) : Vector α n :=
  v.set i.val (f v[i]) i.isLt

/-! ## Items of the blocks -/

/-- The decoder of a player. -/
def Device.decoder (d : Device) (p : Player) : Decoder := d.decoders.get p

/-- One player's decoder replaced by a function of it. -/
def Device.onDecoder (d : Device) (p : Player) (f : Decoder → Decoder) : Device :=
  { d with decoders := d.decoders.set p (f (d.decoder p)) }

/-- The link of a stage. -/
def Device.link (d : Device) (l : Stage) : Link := d.links.get l

/-- One link replaced by a function of it. -/
def Device.onLink (d : Device) (l : Stage) (f : Link → Link) : Device :=
  { d with links := d.links.set l (f (d.link l)) }

/-- A panel of the press detector. -/
def Device.panel (d : Device) (p : Panel) : PanelPress := d.press.panels[p]

/-- One panel replaced by a function of it. -/
def Device.onPanel (d : Device) (p : Panel) (f : PanelPress → PanelPress) : Device :=
  { d with press := { d.press with panels := vecModify d.press.panels p f } }

/-- A lane of the judge. -/
def Device.lane (d : Device) (q : LaneQueue) : Lane := d.judge.lanes[q]

/-- One lane replaced by a function of it. -/
def Device.onLane (d : Device) (q : LaneQueue) (f : Lane → Lane) : Device :=
  { d with judge := { d.judge with lanes := vecModify d.judge.lanes q f } }

/-- The score record of a player. -/
def Device.record (d : Device) (p : Player) : ScoreRecord := d.score.records.get p

/-- One score record replaced by a function of it. -/
def Device.onRecord (d : Device) (p : Player) (f : ScoreRecord → ScoreRecord) : Device :=
  { d with score := { d.score with records := d.score.records.set p (f (d.record p)) } }

/-- A master port. -/
def Device.port (d : Device) (i : Port) : PortState := d.ports[i]

/-- One port replaced by a function of it. -/
def Device.onPort (d : Device) (i : Port) (f : PortState → PortState) : Device :=
  { d with ports := vecModify d.ports i f }

/-- The beat tracker of a player. -/
def Device.tracker (d : Device) (p : Player) : Tracker := d.clock.trackers.get p

/-- One beat tracker replaced by a function of it. -/
def Device.onTracker (d : Device) (p : Player) (f : Tracker → Tracker) : Device :=
  { d with clock := { d.clock with trackers := d.clock.trackers.set p (f (d.tracker p)) } }

/-- The player state (01 R9). -/
def Device.playerState (d : Device) (p : Player) : PlayerState := d.session.players.get p

/-- One player's state replaced (01 R9). -/
def Device.setPlayer (d : Device) (p : Player) (x : PlayerState) : Device :=
  { d with session := { d.session with players := d.session.players.set p x } }

/-- The counter of free values advanced by one (notes/assumptions 6). -/
def Device.countChoice (d : Device) : Device := { d with choices := d.choices + 1 }

/-- The session is in RUN or ENDED, where song time runs (02 section 2.2). -/
def Device.songRuns (d : Device) : Bool := d.session.state = .run || d.session.state = .ended

/-! ## Notices -/

/-- A notice kind added to one port's set (12 R174). -/
def Device.raiseAt (d : Device) (i : Port) (kinds : BitVec 16) : Device :=
  d.onPort i fun p => { p with notices := p.notices ||| kinds }

/-- A notice kind added to the set of every port (12 R174). -/
def Device.raise (d : Device) (k : Notice) : Device :=
  { d with ports := vecMap (fun p => { p with notices := p.notices ||| k.mask }) d.ports }

/-- A chart fault kind joins a player's fault set; CHART_FAULT is raised when it was not in it (04 R66). -/
def Device.addFault (d : Device) (p : Player) (k : FaultKind) : Device :=
  if (d.decoder p).faults.getLsbD k.bit then d
  else (d.onDecoder p fun c => { c with faults := c.faults ||| k.mask }).raise .chartFault

/-- A fault kind added where a condition holds. -/
def Device.addFaultIf (d : Device) (p : Player) (k : FaultKind) (cond : Bool) : Device :=
  if cond then d.addFault p k else d

/-! ## Panels, stages, players, lanes (00_scope 1.5) -/

/-- The stage of a panel. -/
def stageOfPanel (p : Panel) : Stage := if p.val < 6 then .a else .b

/-- The board address of a panel on its link. -/
def addressOfPanel (p : Panel) : Fin 6 := ⟨p.val % 6, Nat.mod_lt _ (by decide)⟩

/-- The panel of a board: stage × 6 + address. -/
def panelOf (l : Stage) (address : Fin 6) : Panel :=
  match l with
  | .a => ⟨address.val, Nat.lt_trans address.isLt (by decide)⟩
  | .b => ⟨address.val + 6, Nat.add_lt_add_right address.isLt 6⟩

/-- All panels, in order. -/
def allPanels : List Panel := List.finRange 12

/-- All lane queues, in order. -/
def allQueues : List LaneQueue := List.finRange 12

/-- The player that STYLE gives a lane queue (01 R9). -/
def ownerOf (style : Style) (q : LaneQueue) : Player :=
  match style with
  | .versus => if q.val < 6 then .p1 else .p2
  | .doubles => .p1

/-- The logical lane of a lane queue (07 R100). -/
def logicalLane (style : Style) (q : LaneQueue) : Fin 12 :=
  match style with
  | .versus => ⟨q.val % 6, Nat.lt_trans (Nat.mod_lt _ (by decide)) (by decide)⟩
  | .doubles => q

/-- The lane queue of a player's logical lane, where STYLE gives the player that lane (04 R55). -/
def queueOf (style : Style) (p : Player) (lane : Fin 12) : Option LaneQueue :=
  match style, p with
  | .doubles, .p1 => some lane
  | .doubles, .p2 => none
  | .versus, .p1 => if lane.val < 6 then some lane else none
  | .versus, .p2 => if h : lane.val < 6 then some ⟨lane.val + 6, Nat.add_lt_add_right h 6⟩ else none

/-- The number of lanes STYLE gives a player: 6, 12 or 0 (12 R178). -/
def laneCount (style : Style) (p : Player) : Nat :=
  match style, p with
  | .versus, _ => 6
  | .doubles, .p1 => 12
  | .doubles, .p2 => 0

/-- The player that owns a lane queue under the current STYLE (01 R9). -/
def Device.owner (d : Device) (q : LaneQueue) : Player := ownerOf d.session.style q

/-- A player owns a lane queue (01 R9). -/
def Device.owns (d : Device) (p : Player) (q : LaneQueue) : Bool := d.owner q = p

/-- The lane queue a panel feeds under the map in force (07 R104, R106). -/
def Device.feeds (d : Device) (p : Panel) : Option LaneQueue := d.mapper.frozen.bind fun m => m[p]

/-- The panel that feeds a lane queue: the inverse table (07 R104). -/
def Device.feeder (d : Device) (q : LaneQueue) : Option Panel := allPanels.find? fun p => d.feeds p = some q

/-- The stage that measures a lane queue: its panel's stage, or the identity map's where no panel feeds it
(07 R100, R104). -/
def Device.stageOfQueue (d : Device) (q : LaneQueue) : Stage :=
  match d.feeder q with
  | some p => stageOfPanel p
  | none => stageOfPanel q

/-- The lane time of a stage: song time plus its offset, exact (02 R18). -/
def Device.stageTime (d : Device) (l : Stage) : Int := d.clock.songTime + d.clock.offsets.get l

/-- The lane time that measures a lane queue (02 R18, 07 R106). -/
def Device.laneTime (d : Device) (q : LaneQueue) : Int := d.stageTime (d.stageOfQueue q)

/-- The press state of the panel that feeds a lane queue; a lane fed by no panel reads released (07 R106). -/
def Device.feederPressed (d : Device) (q : LaneQueue) : Bool :=
  match d.feeder q with
  | some p => (d.panel p).pressed
  | none => false

/-- The judge acts on a lane: its owner is PLAYING and the session is in RUN (08 R113). -/
def Device.judging (d : Device) (q : LaneQueue) : Bool :=
  d.session.state = .run && d.playerState (d.owner q) = .playing

end Sys2Proof.Machine
end

