-- ==== Sys2Proof/Machine/Lamps.lean ====
section
/-!
DEFINITION. The lamp mixer (chapter 11): the mixing rule, flashes and beat pulses.
-/
namespace Sys2Proof.Machine

/-- The greater of two levels. -/
def greater (x y : Byte) : Byte := if x.toNat < y.toNat then y else x

/-- The level of a panel at the beginning of a POLL (11 R162). -/
def Device.lampLevel (d : Device) (p : Panel) : Byte :=
  let pattern := d.lamps.patterns[p]
  if d.lamps.override.getLsbD p.val then pattern
  else
    let echo : Byte := if (d.panel p).pressed then d.lamps.echoLevel else 0
    let flash : Byte := if (d.lamps.flash[p]).isSome then d.lamps.flashLevel else 0
    let beat : Byte := if (d.lamps.beat[p]).isSome then d.lamps.beatLevel else 0
    greater (greater pattern echo) (greater flash beat)

/-- A grade in the flash set starts or restarts the flash timer of the panel that feeds the lane queue (11 R163). -/
def Device.flashFor (d : Device) (g : Grade) (q : LaneQueue) : Device :=
  if g.toNat ≤ d.lamps.flashFloor.toNat ∧ 0 < d.lamps.flashTime then
    match d.feeder q with
    | none => d
    | some p =>
      { d with lamps := { d.lamps with
          flash := d.lamps.flash.set p.val (some (d.clock.free + BitVec.ofNat 32 d.lamps.flashTime)) p.isLt } }
  else d

/-- The stages that a player's beat pulses light (11 R164). -/
def pulsesStage (style : Style) (p : Player) (l : Stage) : Bool :=
  match style, p, l with
  | .versus, .p1, .a => true
  | .versus, .p2, .b => true
  | .doubles, .p1, _ => true
  | .versus, .p1, .b => false
  | .versus, .p2, .a => false
  | .doubles, .p2, _ => false

/-- A beat crossing of a player starts or restarts the beat pulse timer of every panel of the player's stages
(11 R164). -/
def Device.beatPulse (d : Device) (p : Player) : Device :=
  if 0 < d.lamps.beatTime then
    { d with lamps := { d.lamps with
        beat := Vector.ofFn fun i =>
          if pulsesStage d.session.style p (stageOfPanel i) then
            some (d.clock.free + BitVec.ofNat 32 d.lamps.beatTime)
          else d.lamps.beat[i] } }
  else d

/-- A flash timer has reached its end (11 R163). -/
def Device.flashDue (d : Device) (p : Panel) : Bool := d.lamps.flash[p] = some d.clock.free

/-- The end of a flash (11 R163). -/
def Device.endFlash (d : Device) (p : Panel) : Device :=
  if d.flashDue p then { d with lamps := { d.lamps with flash := d.lamps.flash.set p.val none p.isLt } } else d

/-- A beat pulse timer has reached its end (11 R164). -/
def Device.beatPulseDue (d : Device) (p : Panel) : Bool := d.lamps.beat[p] = some d.clock.free

/-- The end of a beat pulse (11 R164). -/
def Device.endBeatPulse (d : Device) (p : Panel) : Device :=
  if d.beatPulseDue p then { d with lamps := { d.lamps with beat := d.lamps.beat.set p.val none p.isLt } } else d

/-- The lamp mixer at the OPEN event: every timer stopped (11 R166). -/
def Lamps.timersStopped (l : Lamps) : Lamps :=
  { l with flash := Vector.replicate 12 none, beat := Vector.replicate 12 none }

end Sys2Proof.Machine
end

