-- ==== Sys2Proof/Machine/Clock.lean ====
section
/-!
DEFINITION. The song clock (chapter 2): the microsecond, captures, position reports and corrections, the sync
detector, and the beat trackers.
-/
namespace Sys2Proof.Machine

/-- Song time raised by an amount, stopping at its limit (02 R17). -/
def raiseSongTime (t amount : Int) : Int := min (t + amount) maxTime

/-! ## Beat trackers -/

/-- How many front entries of a tempo map have a row time at or before song time (02 R28). -/
def Tracker.passed (k : Tracker) (songTime : Int) : List Segment :=
  k.map.takeWhile fun e => (e.rowTime : Int) ≤ songTime

/-- A tracker after the removal of every front entry that song time has reached: the last of them becomes the current
segment (02 R28). -/
def Tracker.advanced (k : Tracker) (songTime : Int) : Tracker :=
  { k with
    segment := (k.passed songTime).getLast?.getD k.segment
    map := k.map.drop (k.passed songTime).length }

/-- The front entry of a player's tempo map is due to be removed (02 R28). -/
def Device.tempoDue (d : Device) (p : Player) : Bool :=
  d.songRuns && !((d.tracker p).passed d.clock.songTime).isEmpty

/-- The beat index that song time and the current segment give (02 R29). -/
def Device.beatIndexNow (d : Device) (p : Player) : Int := (d.tracker p).segment.beatIndex d.clock.songTime

/-- The beat index recomputed: one crossing to the lamp mixer when it rises, by one or by more (02 R29). -/
def Device.recomputeBeat (d : Device) (p : Player) : Device :=
  if d.songRuns && d.playerState p != .off then
    let crossed := (d.tracker p).beatIndex < d.beatIndexNow p
    let moved := d.onTracker p fun k => { k with beatIndex := d.beatIndexNow p }
    if crossed then moved.beatPulse p else moved
  else d

/-- Song time or the segment has changed: due entries leave the map, then the beat index follows (02 R28, R29). -/
def Device.advanceTracker (d : Device) (p : Player) : Device :=
  if d.songRuns then (d.onTracker p fun k => k.advanced d.clock.songTime).recomputeBeat p else d

/-- The beat index held differs from the one song time gives, and no tempo map entry waits to be removed first
(02 R28, R29). -/
def Device.beatDue (d : Device) (p : Player) : Bool :=
  d.songRuns && d.playerState p != .off && !d.tempoDue p && (d.tracker p).beatIndex != d.beatIndexNow p

/-- The front entry of a tempo map is reached (02 R28). -/
def Device.reachTempo (d : Device) (p : Player) : Device := if d.tempoDue p then d.advanceTracker p else d

/-- A player's beat index moves (02 R29). -/
def Device.crossBeat (d : Device) (p : Player) : Device := if d.beatDue p then d.recomputeBeat p else d

/-- A tracker at the OPEN, ABORT and CLOSE events: the initial segment and an empty map (02 R27). -/
def Tracker.cleared (k : Tracker) : Tracker := { k with segment := .initial, map := [] }

/-- Both trackers cleared (02 R27). -/
def Clock.trackersCleared (c : Clock) : Clock :=
  { c with trackers := ⟨c.trackers.p1.cleared, c.trackers.p2.cleared⟩ }

/-- A tracker at the START event: due entries leave the map, then the beat index is set without a crossing (02 R28,
R29). -/
def Tracker.started (k : Tracker) (songTime : Int) : Tracker :=
  let k := k.advanced songTime
  { k with beatIndex := k.segment.beatIndex songTime }

/-! ## Session events at the clock -/

/-- The OPEN event (02 R17, R27). -/
def Clock.opened (c : Clock) (leadIn : Nat) : Clock := { c with songTime := -(leadIn : Int) }.trackersCleared

/-- The START event (02 R17, R20, R21, R26, R28, R29). -/
def Clock.started (c : Clock) (leadIn : Nat) : Clock :=
  let t : Int := -(leadIn : Int)
  { c with
    songTime := t, captures := [], edgeCount := 0, silenceStart := c.free
    trackers := ⟨c.trackers.p1.started t, c.trackers.p2.started t⟩ }

/-- The ABORT and CLOSE events (02 R17, R21, R24, R27). -/
def Clock.stopped (c : Clock) : Clock := { c with songTime := 0, stall := none, captures := [] }.trackersCleared

/-- The clock after a soft reset: the free counter counts on (02 R31); the silence timer runs on with it (notes/assumptions
18). -/
def Clock.softReset (c : Clock) : Clock := { Clock.reset with free := c.free, silenceStart := c.silenceStart }

/-! ## The microsecond -/

/-- One microsecond of the clock: the free counter advances; in RUN and ENDED a pending stall counts down, or song time
advances (02 R16, R17, R24). -/
def Clock.tick (c : Clock) (runs : Bool) : Clock :=
  let c := { c with free := c.free + 1 }
  if runs then
    match c.stall with
    | some (n + 1) => { c with stall := some n }
    | some 0 => { c with songTime := raiseSongTime c.songTime 1 }
    | none => { c with songTime := raiseSongTime c.songTime 1 }
  else c

/-- The remaining count of a stall has reached 0 (02 R24). -/
def Device.stallOver (d : Device) : Bool := d.clock.stall = some 0

/-- A stall whose count has run out ends (02 R24). -/
def Device.endStall (d : Device) : Device :=
  if d.stallOver then { d with clock := { d.clock with stall := none } } else d

/-! ## Captures and the sync detector -/

/-- A capture appended to the capture list, the oldest of four removed first (02 R20). -/
def Clock.captureNow (c : Clock) : Clock :=
  let kept := if c.captures.length < captureCapacity then c.captures else c.captures.tail
  { c with
    captures := kept ++ [{ edge := c.edgeCount, free := c.free, time := c.songTime }]
    edgeCount := c.edgeCount + 1 }

/-- A rising edge of FSYNC: the silence timer restarts and the sync status is PRESENT; in RUN and ENDED it is captured
(02 R20, R26). -/
def Device.edge (d : Device) : Device :=
  let c := { d.clock with silenceStart := d.clock.free, sync := .present }
  if d.songRuns then ({ d with clock := c.captureNow }).raise .capture else { d with clock := c }

/-- The silence timer has reached SYNC_TIMEOUT and the status is PRESENT, in FOLLOW in RUN or ENDED (02 R26). -/
def Device.syncLossDue (d : Device) : Bool :=
  d.songRuns && d.clock.mode = .followMode && d.clock.sync = .present
    && d.clock.syncTimeout ≤ (d.clock.free - d.clock.silenceStart).toNat

/-- The loss of sync (02 R26). -/
def Device.loseSync (d : Device) : Device :=
  if d.syncLossDue then ({ d with clock := { d.clock with sync := .lost } }).raise .syncLost else d

/-! ## Position reports -/

/-- What a report's error calls for: a rise of song time, or a stall, and whether it is a jump (02 R23). -/
inductive Correction where
  | nothing
  | rise (amount : Int) (jump : Bool)
  | stall (length : Nat) (jump : Bool)
  deriving DecidableEq, Repr

/-- The correction table (02 R23). -/
def correctionFor (slew jump : Nat) (e : Int) : Correction :=
  if e = 0 then .nothing
  else if 0 < e then
    if e ≤ slew then .rise e false
    else if e ≤ jump then .rise slew false
    else .rise e true
  else if -(slew : Int) ≤ e then .stall e.natAbs false
  else if -(jump : Int) ≤ e then .stall slew false
  else .stall (min e.natAbs maxStall) true

/-- A stall of a length; none of length 0 is started (02 R23, R24). -/
def startStall (length : Nat) (stall : Option Nat) : Option Nat := if length = 0 then stall else some length

/-- The clock after a correction, the capture list emptied (02 R21, R23). -/
def Clock.corrected (c : Clock) (x : Correction) : Clock :=
  match x with
  | .nothing => { c with captures := [] }
  | .rise amount _ => { c with captures := [], songTime := raiseSongTime c.songTime amount }
  | .stall length _ => { c with captures := [], stall := startStall length c.stall }

/-- The notice of a correction (02 R23). -/
def Correction.notice : Correction → Option Notice
  | .nothing => none
  | .rise _ jump => some (if jump then .jumped else .corrected)
  | .stall _ jump => some (if jump then .jumped else .corrected)

/-- The checks of a position report, in order (02 R22): the named capture, or the refusal. DESIGN CHOICE
(notes/assumptions 44): a second report of an edge whose first report began a stall fails the check of the stall first
and is DEFERRED, where the last row of 02 R25 has it STALE. -/
def Device.reportCheck (d : Device) (edge : BitVec 8) : Except ResultCode Capture :=
  if ¬(d.clock.mode = .followMode ∧ d.songRuns) then .error .wrongState
  else if d.clock.stall.isSome then .error .deferred
  else
    match d.clock.captures.find? fun x => x.edge = edge with
    | none => .error .stale
    | some x => .ok x

/-- A correction applied against a named capture, with its notice, and the beat trackers moved on (02 R23, R28, R29). -/
def Device.correct (d : Device) (x : Capture) (reported : Int) : Device :=
  let k := correctionFor d.clock.slew d.clock.jump (reported - x.time)
  let d := { d with clock := d.clock.corrected k }
  let d := match k.notice with
    | none => d
    | some n => d.raise n
  (d.advanceTracker .p1).advanceTracker .p2

/-- SET_SYNC at the song clock (02 R19). -/
def setSync (fields : List Byte) (d : Device) : ResultCode × Device :=
  if d.session.state ≠ .idle then (.wrongState, d)
  else
    let mode := u8 fields 0
    if 1 < mode then (.badValue, d)
    else
      let slew := clampNat 0 4000 (u32 fields 1)
      (.done, { d with clock := { d.clock with
        mode := if mode = 1 then .followMode else .localMode
        slew := slew
        jump := clampNat slew 1000000 (u32 fields 5)
        syncTimeout := clampNat 1000 1000000 (u32 fields 9)
        sync := .present } })

end Sys2Proof.Machine
end

