-- ==== Sys2Proof/Machine/Mapper.lean ====
section
/-!
DEFINITION. The lane mapper (chapter 7): the identity map, presence, the computation of the frozen map at START, and
the map that PANELS reports.
-/
namespace Sys2Proof.Machine

/-- The identity map: panel p feeds LQp in both styles (07 R100). -/
def identityMap : LaneMap := Vector.ofFn fun p => some p

/-- A panel is present: its board is enabled and has been seen (07 R102). -/
def Device.present (d : Device) (p : Panel) : Bool :=
  let l := d.link (stageOfPanel p)
  l.enable.getLsbD (addressOfPanel p).val && l.boards[addressOfPanel p].seen

/-- A pair of a modifier. -/
def pair (m : Modifier) (a b : Fin 12) : PanelPair := { modifier := m, first := a, second := b }

/-- The X pairs, stage A's before stage B's (07 R103). -/
def pairsX : List PanelPair := [pair .x 0 2, pair .x 3 5, pair .x 6 8, pair .x 9 11]

/-- The Y pairs, stage A's before stage B's (07 R103). -/
def pairsY : List PanelPair :=
  [pair .y 0 3, pair .y 1 4, pair .y 2 5, pair .y 6 9, pair .y 7 10, pair .y 8 11]

/-- The S pairs (07 R103). -/
def pairsS : List PanelPair := [pair .s 0 6, pair .s 1 7, pair .s 2 8, pair .s 3 9, pair .s 4 10, pair .s 5 11]

/-- The pairs of a player's modifiers that are on, X then Y then S, on the player's own panels; S in DOUBLES only
(07 R103). -/
def modifierPairs (style : Style) (p : Player) (m : Modifiers) : List PanelPair :=
  let own := fun (x : PanelPair) => ownerOf style x.first = p
  (if m.x then pairsX.filter own else []) ++ (if m.y then pairsY.filter own else [])
    ++ (if m.s && style = .doubles then pairsS.filter own else [])

/-- The two panels exchange the lanes they feed (07 R103). -/
def LaneMap.exchange (t : LaneMap) (a b : Panel) : LaneMap := (t.set a.val t[b] a.isLt).set b.val t[a] b.isLt

/-- The pairs in turn: exchanged, or suppressed and listed when exactly one panel is present (07 R103). -/
def applyPairs (present : Panel → Bool) : List PanelPair → LaneMap × List PanelPair → LaneMap × List PanelPair
  | [], r => r
  | x :: xs, (t, suppressed) =>
    if present x.first = present x.second then applyPairs present xs (t.exchange x.first x.second, suppressed)
    else applyPairs present xs (t, suppressed ++ [x])

/-- A player's panels feed their lanes only while the player is PLAYING (07 R104). -/
def Device.startMap (d : Device) : LaneMap :=
  Vector.ofFn fun p => if d.playerState (d.owner p) = .playing then identityMap[p] else none

/-- One PLAYING player's part of the computation: the map so far and the player's suppressed list (07 R103). -/
def Device.mapPlayer (d : Device) (t : LaneMap) (p : Player) : LaneMap × List PanelPair :=
  if d.playerState p = .playing then
    applyPairs d.present (modifierPairs d.session.style p (d.mapper.modifiers.get p)) (t, [])
  else (t, [])

/-- The computation of the map at START: P1 first, both lists emptied before it (07 R103, R107). -/
def Device.computeMap (d : Device) : Mapper :=
  let first := d.mapPlayer d.startMap .p1
  let second := d.mapPlayer first.1 .p2
  { d.mapper with frozen := some second.1, suppressed := ⟨first.2, second.2⟩ }

/-- The lane mapper takes the START event; MAP_DEGRADED once when any pair was suppressed (07 R103). -/
def Device.freezeMap (d : Device) : Device :=
  let m := d.computeMap
  let d := { d with mapper := m }
  if m.suppressed.p1.isEmpty && m.suppressed.p2.isEmpty then d else d.raise .mapDegraded

/-- The reported map: the frozen forward table in RUN, otherwise the identity map of the current STYLE (07 R107). -/
def Device.reportedMap (d : Device) : LaneMap :=
  if d.session.state = .run then d.mapper.frozen.getD identityMap else identityMap

/-- SET_MAP at the lane mapper (07 R101). -/
def setMap (fields : List (BitVec 8)) (d : Device) : ResultCode × Device :=
  let player := (fields.getD 0 0).toNat
  let bits := fields.getD 1 0
  if d.session.state = .idle ∨ d.session.state = .preload then
    if (player ≠ 1 ∧ player ≠ 2) ∨ 8 ≤ bits.toNat then (.badValue, d)
    else
      let p : Player := if player = 1 then .p1 else .p2
      let m : Modifiers := { x := bits.getLsbD 0, y := bits.getLsbD 1, s := bits.getLsbD 2 }
      (.done, { d with mapper := { d.mapper with modifiers := d.mapper.modifiers.set p m } })
  else (.wrongState, d)

end Sys2Proof.Machine
end

