-- ==== Sys2Proof/Machine/Ring.lean ====
section
/-!
DEFINITION. The judgement ring (chapter 10): appending records and marks, subscriptions, what a read takes and what it
consumes.
-/
namespace Sys2Proof.Machine

/-- A subscription after an append (10 R150). `removed` is the sequence number of the record a full ring loses,
`oldest` that of the record that is oldest afterwards, `appended` that of the new record. -/
def Subscription.onAppend (removed : Option (BitVec 16)) (oldest appended : BitVec 16) (s : Subscription) :
    Subscription :=
  match s.cursor with
  | none => { s with cursor := some appended, unread := s.unread + 1 }
  | some c =>
    if removed = some c then { s with cursor := some oldest } else { s with unread := s.unread + 1 }

/-- The notices an append raises to a subscribed port (10 R156). -/
def Subscription.appendNotices (removed : Option (BitVec 16)) (s : Subscription) : BitVec 16 :=
  if s.cursor.isSome ∧ removed = s.cursor then Notice.overrun.mask
  else (if s.unread + 1 = s.threshold then Notice.water.mask else 0)
    ||| (if s.unread + 1 = nearMark then Notice.near.mask else 0)

/-- The sequence number of the record that the next append removes: the oldest of a full ring (10 R150). -/
def Ring.loses (r : Ring) : Option (BitVec 16) :=
  if r.records.length < ringCapacity then none else r.records.head?.map (·.seq)

/-- The records that an append leaves of those before it (10 R150). -/
def Ring.kept (r : Ring) : List Record :=
  if r.records.length < ringCapacity then r.records else r.records.tail

/-- The record as the ring numbers it (10 R150); with its lap, the model's own (notes/assumptions 20). -/
def Ring.numbered (r : Ring) (x : Record) : Record := { x with seq := r.seq, lap := r.lap }

/-- The lap after an append: one more when the sequence counter goes from 65,535 to 0 (10 R150; notes/assumptions 20). -/
def Ring.nextLap (r : Ring) : Nat := if r.seq = 65535 then r.lap + 1 else r.lap

/-- The ring after an append (10 R150). -/
def Ring.append (r : Ring) (x : Record) : Ring :=
  let oldest := (r.kept.head?.map (·.seq)).getD r.seq
  { records := r.kept ++ [r.numbered x]
    seq := r.seq + 1
    lap := r.nextLap
    subs := vecMap (Option.map (Subscription.onAppend r.loses oldest r.seq)) r.subs }

/-- The notices an append raises to a port (10 R156). -/
def Ring.appendNotices (r : Ring) (i : Port) : BitVec 16 :=
  match r.subs[i] with
  | none => 0
  | some s => s.appendNotices r.loses

/-- A record handed to the ring, with the notices of R156 to each subscribed port (10 R149, R150). -/
def Device.appendRecord (d : Device) (x : Record) : Device :=
  { d with
    ring := d.ring.append x
    ports := Vector.ofFn fun i => { d.ports[i] with notices := d.ports[i].notices ||| d.ring.appendNotices i } }

/-- A MARK record (10 R148): lane 0, no flags, offset 0, row 0. -/
def markRecord (kind : MarkKind) (p : Player) : Record :=
  { seq := 0, type := .mark kind, player := p, lane := 0, early := false, lateDecode := false, forcedEnd := false,
    timed := false, offset := 0, row := 0 }

/-- A mark handed to the ring; a session mark carries P1 (01 R14). -/
def Device.mark (d : Device) (kind : MarkKind) (p : Player) : Device := d.appendRecord (markRecord kind p)

/-- The ring at the OPEN event, before the OPEN mark: empty, every cursor at the head (10 R157). -/
def Ring.emptied (r : Ring) : Ring :=
  { r with records := [], subs := vecMap (Option.map fun s => { s with cursor := none, unread := 0 }) r.subs }

/-- The threshold a SUBSCRIBE byte selects (10 R152). -/
def subscribeThreshold (byte : Nat) : Nat := if byte = 0 then 16 else min byte 63

/-- The subscription a SUBSCRIBE sets: OLDEST (0) or NEXT (10 R152). -/
def Ring.subscription (r : Ring) (start threshold : Nat) : Subscription :=
  if start = 0 then
    { cursor := r.records.head?.map (·.seq), unread := r.records.length, threshold := subscribeThreshold threshold }
  else { cursor := none, unread := 0, threshold := subscribeThreshold threshold }

/-- The notices of an accepted SUBSCRIBE (10 R152). -/
def Subscription.startNotices (s : Subscription) : BitVec 16 :=
  (if s.threshold ≤ s.unread then Notice.water.mask else 0) ||| (if nearMark ≤ s.unread then Notice.near.mask else 0)

/-- SUBSCRIBE at the ring (10 R152). -/
def ringSubscribe (i : Port) (fields : List (BitVec 8)) (d : Device) : ResultCode × Device :=
  let start := (fields.getD 0 0).toNat
  if 1 < start then (.badValue, d)
  else
    let sub := d.ring.subscription start (fields.getD 1 0).toNat
    (.done, ({ d with ring := { d.ring with subs := d.ring.subs.set i.val (some sub) i.isLt } }).raiseAt i
      sub.startNotices)

/-- UNSUBSCRIBE at the ring (10 R153). -/
def ringUnsubscribe (i : Port) (d : Device) : ResultCode × Device :=
  (.done, { d with ring := { d.ring with subs := d.ring.subs.set i.val none i.isLt } })

/-- The records from a cursor to the newest: what a RING read takes at its header (10 R154). -/
def Ring.snapshotFrom (r : Ring) (cursor : Option (BitVec 16)) : List Record :=
  match cursor with
  | none => []
  | some c => r.records.dropWhile fun x => x.seq != c

/-- The record on which a cursor stands; none at the head (10 R151). -/
def Ring.under (r : Ring) (cursor : Option (BitVec 16)) : Option Record := (r.snapshotFrom cursor).head?

/-- A subscription after the twelfth byte of a record has been clocked out: it moves on if its cursor stands on that very
record, and a later record that bears the same sequence number is another record (10 R155). -/
def Subscription.consume (r : Ring) (x : Record) (s : Subscription) : Subscription :=
  if r.under s.cursor = some x then
    { s with cursor := ((r.snapshotFrom s.cursor).tail.head?).map (·.seq), unread := s.unread - 1 }
  else s

/-- The port's cursor after one of its records is complete (10 R155). -/
def Device.consumeRecord (d : Device) (i : Port) (x : Record) : Device :=
  { d with ring := { d.ring with subs := vecModify d.ring.subs i (Option.map (Subscription.consume d.ring x)) } }

end Sys2Proof.Machine
end

