-- ==== Sys2Proof/Machine/Score.lean ====
section
/-!
DEFINITION. The score keeper (chapter 9): how an outcome changes a player's record, and the decoder's two hand-offs.
-/
namespace Sys2Proof.Machine

/-- The ten outcomes the judge hands to the score keeper (08 R126). -/
inductive Outcome where
  | graded (grade : Grade)
  | miss
  | held
  | letGo
  | avoidHit
  | stray
  deriving DecidableEq, Repr

/-- A count rises by one and stops at 65,535 (09 R137, R141). -/
def saturatingSucc (n : Nat) : Nat := min (n + 1) maxCount

/-- The count of an outcome's own name rises (09 R137). -/
def Counts.bump (c : Counts) : Outcome → Counts
  | .graded .exact => { c with exact := saturatingSucc c.exact }
  | .graded .great => { c with great := saturatingSucc c.great }
  | .graded .good => { c with good := saturatingSucc c.good }
  | .graded .fair => { c with fair := saturatingSucc c.fair }
  | .graded .poor => { c with poor := saturatingSucc c.poor }
  | .miss => { c with miss := saturatingSucc c.miss }
  | .held => { c with held := saturatingSucc c.held }
  | .letGo => { c with letGo := saturatingSucc c.letGo }
  | .avoidHit => { c with avoidHit := saturatingSucc c.avoidHit }
  | .stray => { c with stray := saturatingSucc c.stray }

/-- The weight of an outcome, for those that have one (09 R134). -/
def Weights.of (w : Weights) : Outcome → Option Nat
  | .graded .exact => some w.exact
  | .graded .great => some w.great
  | .graded .good => some w.good
  | .graded .fair => some w.fair
  | .graded .poor => some w.poor
  | .held => some w.held
  | .miss | .letGo | .avoidHit | .stray => none

/-- The life delta of an outcome; STRAY has none (09 R135). -/
def Deltas.of (t : Deltas) : Outcome → Option Int
  | .graded .exact => some t.exact
  | .graded .great => some t.great
  | .graded .good => some t.good
  | .graded .fair => some t.fair
  | .graded .poor => some t.poor
  | .miss => some t.miss
  | .held => some t.held
  | .letGo => some t.letGo
  | .avoidHit => some t.avoidHit
  | .stray => none

/-- The normalized score (09 R140). -/
def normalizedScore (earned units : Nat) : Nat := if units = 0 then 0 else earned * 1000 / units

/-- SCORE recomputed (09 R140). -/
def ScoreRecord.rescored (r : ScoreRecord) : ScoreRecord := { r with score := normalizedScore r.earned r.units }

/-- The points of an outcome, with the recomputation of SCORE (09 R138). -/
def ScoreRecord.earn (r : ScoreRecord) (weight : Option Nat) : ScoreRecord :=
  match weight with
  | none => r
  | some w => ({ r with earned := min (r.earned + w) maxEarned }).rescored

/-- What an outcome makes of COMBO; nothing for AVOID_HIT and STRAY (09 R141). -/
def comboAfter (floor : Grade) (combo : Nat) : Outcome → Option Nat
  | .graded .poor | .miss | .letGo => some 0
  | .graded g => if g.toNat ≤ floor.toNat then some (saturatingSucc combo) else some 0
  | .held => some (saturatingSucc combo)
  | .avoidHit | .stray => none

/-- The combo step: after COMBO is changed, MAX_COMBO is the greater of the two (09 R141). -/
def ScoreRecord.combine (r : ScoreRecord) (floor : Grade) (o : Outcome) : ScoreRecord :=
  match comboAfter floor r.combo o with
  | none => r
  | some combo => { r with combo := combo, maxCombo := max r.maxCombo combo }

/-- LIFE after a delta: clamped to 0 to 1,000 (09 R142). -/
def lifeAfter (life : Nat) (delta : Option Int) : Nat :=
  match delta with
  | none => life
  | some x => (max 0 (min (maxLife : Int) ((life : Int) + x))).toNat

/-- A score record after an applied outcome, in the order of 09 R136: counts, points and score, combo, life, ZERO. The
life delta is applied whenever the outcome is: a LET_GO with a positive delta that follows the MISS that took LIFE to 0
lifts LIFE again, where 09 R144 says that it stays at 0: DESIGN CHOICE (notes/assumptions 35). -/
def ScoreRecord.apply (r : ScoreRecord) (k : ScoreKeeper) (policy : FailPolicy) (o : Outcome) : ScoreRecord :=
  let r := { r with counts := r.counts.bump o }
  let r := r.earn (k.weights.of o)
  let r := r.combine k.comboFloor o
  let life := lifeAfter r.life (k.deltas.of o)
  { r with life := life, zero := r.zero || (0 < r.life && life = 0 && policy = .carryOn) }

/-- Life reaches 0: an applied outcome takes LIFE from above 0 to 0 (09 R143). -/
def ScoreRecord.reachesZero (r : ScoreRecord) (k : ScoreKeeper) (o : Outcome) : Bool :=
  0 < r.life && lifeAfter r.life (k.deltas.of o) = 0

/-- The score keeper takes an outcome: applied to a PLAYING player's record, otherwise nothing (09 R136). -/
def Device.takeOutcome (d : Device) (p : Player) (o : Outcome) : Device :=
  if d.playerState p = .playing then d.onRecord p fun r => r.apply d.score d.session.failPolicy o else d

/-- The outcome makes the report of 09 R143. -/
def Device.outcomeReports (d : Device) (p : Player) (o : Outcome) : Bool :=
  d.playerState p = .playing && (d.record p).reachesZero d.score o

/-- UNITS and SCORE after a hand-off of the decoder (09 R139). -/
def ScoreRecord.recount (r : ScoreRecord) : ScoreRecord :=
  ({ r with units := max r.headerUnits r.decodedUnits }).rescored

/-- The header hand-off (09 R139). -/
def Device.takeHeader (d : Device) (p : Player) (noteTotal holdTotal : Nat) : Device :=
  d.onRecord p fun r => ({ r with headerUnits := noteTotal + 2 * holdTotal }).recount

/-- The decoded-units hand-off (09 R139). -/
def Device.takeDecodedUnits (d : Device) (p : Player) (n : Nat) : Device :=
  d.onRecord p fun r => ({ r with decodedUnits := n }).recount

/-- The record of a player at the OPEN event (09 R146). -/
def ScoreKeeper.opened (k : ScoreKeeper) (named : Bool) : ScoreRecord :=
  { ScoreRecord.reset with life := if named then k.lifeStart else 0 }

end Sys2Proof.Machine
end

