-- ==== Sys2Proof/Machine/SessionCore.lean ====
section
/-!
DEFINITION. The two conditions that move players in play, and the end of the song (01 R10 to R13), with what a failure
hands to the judge (08 R128) and to the decoder (04 R68).
-/
namespace Sys2Proof.Machine

/-- The session becomes ENDED when no player is left PLAYING in RUN (01 R13). -/
def Device.examineEnd (d : Device) : Device :=
  if d.session.state = .run ∧ d.playerState .p1 ≠ .playing ∧ d.playerState .p2 ≠ .playing then
    (({ d with session := { d.session with state := .ended } }).mark .ended .p1).raise .session
  else d

/-- Every lane queue of a player is empty and every lane of it IDLE (01 R10). -/
def Device.lanesDone (d : Device) (p : Player) : Bool :=
  allQueues.all fun q => !d.owns p q || ((d.lane q).queue.isEmpty && (d.lane q).hold = .idle)

/-- The done condition of a PLAYING player (01 R10). -/
def Device.doneHolds (d : Device) (p : Player) : Bool :=
  d.playerState p = .playing && (d.decoder p).state = .ended && d.lanesDone p

/-- The session controller examines a player's done condition (01 R10). -/
def Device.examineDone (d : Device) (p : Player) : Device :=
  if d.doneHolds p then (((d.setPlayer p .cleared).mark .cleared p).raise .player).examineEnd else d

/-- The judge's part of a failure: the player's queues emptied, its lanes IDLE, no record (08 R128). -/
def Device.emptyLanes (d : Device) (p : Player) : Device :=
  { d with judge := { d.judge with lanes := Vector.ofFn fun q => if d.owns p q then Lane.reset else d.judge.lanes[q] } }

/-- A decoder enters DISCARD: the entry in hand goes with its bytes, and the pending repeat and the open-hold marks
are cleared (04 R68). -/
def Decoder.discarded (c : Decoder) : Decoder :=
  if c.state = .idle then c
  else { c with
    state := .discard, buffer := c.buffer.drop (c.inHand.elim 0 (·.size)), inHand := none, pendingRepeat := none,
    openHold := Vector.replicate 12 none }

/-- A report of life at 0 would make the player FAILED: PLAYING, under STOP (01 R11). -/
def Device.wouldFail (d : Device) (p : Player) : Bool :=
  d.playerState p = .playing && d.session.failPolicy = .stop

/-- The session controller takes a report of life at 0 (01 R11). The judge's emptying and the decoder's entry into
DISCARD come with it, in one step: DESIGN CHOICE (notes/assumptions 33). Nothing stands between the FAILED mark and the
END mark that it brings, the LET_GO record of a swept hold neither: DESIGN CHOICE (notes/assumptions 46). -/
def Device.takeReport (d : Device) (p : Player) : Device :=
  if d.wouldFail p then
    ((((((d.setPlayer p .failed).emptyLanes p).onDecoder p Decoder.discarded).mark .failed p).raise .player)).examineEnd
  else d

end Sys2Proof.Machine
end

