-- ==== Sys2Proof/Machine/Snapshots.lean ====
section
/-!
DEFINITION. What the masters see: the status byte, the result record, the notice words, the free counts and the
snapshots of every read channel (chapter 12). All are functions of the state (notes/assumptions 24). The header of a
read, which fixes its snapshot, stands here too, since it can fall between two outcomes of the judge (08 R131); what a
read does with its snapshot is in Machine/Ports.lean.
-/
namespace Sys2Proof.Machine

/-- One byte of a value that fits it. -/
def byteOf (n : Nat) : Byte := BitVec.ofNat 8 n

/-- A flag as a byte: 0 or 1. -/
def flagByteOf (b : Bool) : Byte := if b then 1 else 0

/-- A list of bytes filled up to a length with 0xFF, the filler of unused slots (12 R178, R179). -/
def padTo (n : Nat) (bytes : List Byte) : List Byte := bytes ++ List.replicate (n - bytes.length) 0xFF

/-! ## The port itself -/

/-- A port holds a ring cursor with unread count above 0 (12 R168). -/
def Device.hasUnread (d : Device) (i : Port) : Bool := d.ring.subs[i].any fun s => 0 < s.unread

/-- The port status byte, as it is at the fall of SEL_N (12 R168). -/
def Device.statusByte (d : Device) (i : Port) : Byte :=
  byteOf ((d.port i).attnLow.toNat * 128 + (decide ((d.port i).result.code ≠ .done)).toNat * 64
    + (d.hasUnread i).toNat * 32 + d.session.state.toNat * 4 + roleCode (d.port i).role)

/-- A read of RESULT (12 R170). -/
def ResultRecord.bytes (r : ResultRecord) : List Byte :=
  [byteOf r.channel.toNat, byteOf r.code.toNat] ++ bytesOf 2 r.count.toNat

/-- A read of CHART_P1 or CHART_P2: the free count (04 R48). -/
def Device.freeCountBytes (d : Device) (p : Player) : List Byte :=
  bytesOf 2 (bufferCapacity - (d.decoder p).buffer.length)

/-! ## RING -/

/-- The 12 bytes of a record (10 R148). -/
def Record.bytes (r : Record) : List Byte :=
  bytesOf 2 r.seq.toNat
    ++ [byteOf r.type.typeByte, byteOf r.type.outcomeByte,
        byteOf ((if r.player = .p2 then 128 else 0) + r.lane.val), byteOf r.flagByte]
    ++ signedBytesOf 3 r.offset ++ bytesOf 3 r.row

/-- What a RING read takes at its header: the unread records of the port's cursor, one after another (10 R154). -/
def Device.ringBytes (d : Device) (i : Port) : List Byte :=
  match d.ring.subs[i] with
  | none => []
  | some s => (d.ring.snapshotFrom s.cursor).flatMap Record.bytes

/-! ## SCORE -/

/-- The two bytes of a player's logical lane: queue length and hold state, or 0xFF 0xFF for a lane the player does not
own (12 R178). -/
def Device.laneBytes (d : Device) (p : Player) (lane : Fin 12) : List Byte :=
  match queueOf d.session.style p lane with
  | none => [0xFF, 0xFF]
  | some q => [byteOf (d.lane q).queue.length, byteOf (d.lane q).hold.toNat]

/-- The ten counts in order (12 R178). -/
def Counts.bytes (c : Counts) : List Byte :=
  [c.exact, c.great, c.good, c.fair, c.poor, c.miss, c.held, c.letGo, c.avoidHit, c.stray].flatMap (bytesOf 2)

/-- The weights in order (12 R178). -/
def Weights.bytes (w : Weights) : List Byte :=
  [w.exact, w.great, w.good, w.fair, w.poor, w.held].flatMap (bytesOf 2)

/-- The life deltas in order (12 R178). -/
def Deltas.bytes (t : Deltas) : List Byte :=
  [t.exact, t.great, t.good, t.fair, t.poor, t.miss, t.held, t.letGo, t.avoidHit].flatMap (signedBytesOf 2)

/-- The part of a SCORE snapshot that the decoder owns, bytes 1 to 22 (12 R178). -/
def Decoder.scoreBytes (c : Decoder) : List Byte :=
  [byteOf c.state.toNat] ++ bytesOf 3 c.cursor ++ bytesOf 2 c.faults.toNat ++ bytesOf 2 c.noteTotal
    ++ bytesOf 2 c.holdTotal ++ bytesOf 4 c.taps ++ bytesOf 4 c.holds ++ bytesOf 4 c.avoids

/-- The score keeper's own fields, bytes 23 to 71 (12 R178). -/
def ScoreRecord.bytes (r : ScoreRecord) : List Byte :=
  bytesOf 4 r.headerUnits ++ bytesOf 5 r.decodedUnits ++ bytesOf 5 r.units ++ bytesOf 4 r.earned
    ++ bytesOf 4 r.score ++ bytesOf 2 r.combo ++ bytesOf 2 r.maxCombo ++ r.counts.bytes ++ bytesOf 2 r.life
    ++ [flagByteOf r.zero]

/-- The settings of the score keeper, bytes 97 to 129 (12 R178). -/
def ScoreKeeper.settingBytes (k : ScoreKeeper) : List Byte :=
  k.weights.bytes ++ [byteOf k.comboFloor.toNat] ++ bytesOf 2 k.lifeStart ++ k.deltas.bytes

/-- The SCORE_P1 or SCORE_P2 snapshot (09 R145, 12 R178). -/
def Device.scoreBytes (d : Device) (p : Player) : List Byte :=
  [byteOf (d.playerState p).toNat] ++ (d.decoder p).scoreBytes ++ (d.record p).bytes
    ++ [byteOf (laneCount d.session.style p)] ++ (List.finRange 12).flatMap (d.laneBytes p) ++ d.score.settingBytes

/-! ## CLOCK -/

/-- A capture slot (12 R178). -/
def Capture.bytes (c : Capture) : List Byte :=
  bytesOf 1 c.edge.toNat ++ bytesOf 4 c.free.toNat ++ signedBytesOf 4 c.time

/-- A player block of the CLOCK snapshot (12 R178; 03 R44). -/
def Tracker.bytes (k : Tracker) (songTime : Int) : List Byte :=
  bytesOf 3 k.segment.row ++ bytesOf 4 k.segment.rowTime ++ bytesOf 4 k.segment.segTime ++ bytesOf 4 k.segment.period
    ++ [byteOf k.map.length] ++ signedBytesOf 4 (k.segment.beatRow songTime)
    ++ [byteOf (k.segment.beatFraction songTime).toNat]

/-- The session state and the song parameters, bytes 0 to 7 of the CLOCK snapshot (12 R178). -/
def Session.bytes (s : Session) : List Byte :=
  [byteOf s.state.toNat, flagByteOf (s.style = .doubles), byteOf (s.named.p1.toNat + 2 * s.named.p2.toNat),
    flagByteOf (s.failPolicy = .carryOn)] ++ bytesOf 4 s.leadIn

/-- The song clock's part of the CLOCK snapshot, bytes 8 to 112 (12 R178). -/
def Clock.bytes (c : Clock) : List Byte :=
  signedBytesOf 4 c.songTime ++ bytesOf 4 c.free.toNat
    ++ [flagByteOf (c.mode = .followMode), flagByteOf (c.sync = .lost)]
    ++ bytesOf 4 c.slew ++ bytesOf 4 c.jump ++ bytesOf 4 c.syncTimeout ++ bytesOf 4 (c.stall.getD 0)
    ++ [byteOf c.captures.length] ++ padTo 36 (c.captures.flatMap Capture.bytes)
    ++ c.trackers.p1.bytes c.songTime ++ c.trackers.p2.bytes c.songTime

/-- The CLOCK snapshot (02 R30, 12 R178). -/
def Device.clockBytes (d : Device) : List Byte := d.session.bytes ++ d.clock.bytes

/-! ## PANELS -/

/-- Six flags as a byte, bit k for address k (12 R179). -/
def seenByte (boards : Vector Board 6) : Byte :=
  byteOf ((List.finRange 6).foldl (fun n k => n + if boards[k].seen then 2 ^ k.val else 0) 0)

/-- A link's block (05 R84, 12 R179). -/
def Link.bytes (l : Link) (offset : Int) : List Byte :=
  (l.boards.toList.map fun b => byteOf b.state.toNat) ++ (l.boards.toList.map fun b => byteOf b.misses)
    ++ [seenByte l.boards, byteOf l.parity, byteOf l.enable.toNat] ++ signedBytesOf 4 offset
    ++ [byteOf l.replyLimit, byteOf l.missLimit]

/-- A baseline: 0xFFFF when unseeded (06 R98). -/
def Sensor.bytes (s : Sensor) : List Byte := bytesOf 2 (s.baseline.getD 0xFFFF)

/-- The reported map's byte of a panel (07 R107, 12 R179). -/
def Device.mapByte (d : Device) (p : Panel) : Byte :=
  match d.reportedMap[p] with
  | none => 0xFF
  | some q => byteOf ((if d.owner q = .p2 then 128 else 0) + q.val)

/-- A panel's block (06 R98, 12 R179). -/
def Device.panelBytes (d : Device) (p : Panel) : List Byte :=
  let board := (d.link (stageOfPanel p)).boards[addressOfPanel p]
  let x := d.panel p
  board.levels.toList ++ [byteOf board.faults.toNat, flagByteOf x.pressed, byteOf x.counter.toNat]
    ++ x.sensors.toList.flatMap Sensor.bytes ++ [byteOf x.press, byteOf x.release, byteOf x.quorum, d.mapByte p]

/-- A player's modifiers: bit 0 X, bit 1 Y, bit 2 S (12 R179). -/
def Modifiers.byte (m : Modifiers) : Byte := byteOf (m.x.toNat + 2 * m.y.toNat + 4 * m.s.toNat)

/-- The code of a modifier in a suppressed list (12 R179). -/
def Modifier.toNat : Modifier → Nat
  | .x => 0
  | .y => 1
  | .s => 2

/-- An entry of a suppressed list (12 R179). -/
def PanelPair.bytes (x : PanelPair) : List Byte := [byteOf x.modifier.toNat, byteOf x.first.val, byteOf x.second.val]

/-- A suppressed list: its count and sixteen entries (12 R179). -/
def suppressedBytes (xs : List PanelPair) : List Byte :=
  [byteOf xs.length] ++ padTo 48 (xs.flatMap PanelPair.bytes)

/-- The PANELS snapshot (05 R84, 12 R179). -/
def Device.panelsBytes (d : Device) : List Byte :=
  (d.link .a).bytes d.clock.offsets.a ++ (d.link .b).bytes d.clock.offsets.b ++ bytesOf 4 d.press.stuckLimit
    ++ allPanels.flatMap d.panelBytes ++ [d.mapper.modifiers.p1.byte, d.mapper.modifiers.p2.byte]
    ++ suppressedBytes d.mapper.suppressed.p1 ++ suppressedBytes d.mapper.suppressed.p2

/-! ## LAMP -/

/-- The LAMP snapshot (11 R161, 12 R179). -/
def Device.lampBytes (d : Device) : List Byte :=
  d.lamps.patterns.toList ++ bytesOf 2 d.lamps.override.toNat
    ++ [d.lamps.echoLevel, d.lamps.flashLevel, d.lamps.beatLevel] ++ bytesOf 4 d.lamps.flashTime
    ++ bytesOf 4 d.lamps.beatTime ++ [byteOf d.lamps.flashFloor.toNat] ++ allPanels.map d.lampLevel

/-! ## Every channel -/

/-- The snapshot that a read takes at its header, by the header's low seven bits (12 R169): nothing but 0xFF for
COMMAND and for an unknown channel. -/
def Device.snapshot (d : Device) (i : Port) (channel : ChannelField) : List Byte :=
  match channel.toNat with
  | 0x00 => (d.port i).result.bytes
  | 0x02 => bytesOf 2 (d.port i).notices.toNat
  | 0x03 => bytesOf 2 (d.port i).mask.toNat
  | 0x04 => d.freeCountBytes .p1
  | 0x05 => d.freeCountBytes .p2
  | 0x06 => d.ringBytes i
  | 0x07 => d.scoreBytes .p1
  | 0x08 => d.scoreBytes .p2
  | 0x09 => d.clockBytes
  | 0x0A => d.panelsBytes
  | 0x0B => d.lampBytes
  | _ => []

/-- Data byte number k of a read whose header is taken now: every byte past the snapshot's length reads 0xFF (12 R169). -/
def Device.readByte (d : Device) (i : Port) (channel : ChannelField) (k : Nat) : Byte :=
  (d.snapshot i channel).getD k 0xFF

/-! ## The header of a read -/

/-- The transaction of a read whose header is taken now, with the snapshot fixed there (12 R167, R169): of RING, the unread
records of a port with a cursor (10 R154); otherwise the snapshot's bytes. -/
def Device.readStarted (d : Device) (i : Port) (channel : ChannelField) : Transaction :=
  match if channel = 0x06#7 then d.ring.subs[i] else none with
  | some s => .ringRead (d.ring.snapshotFrom s.cursor) 0 false
  | none => .read channel (d.snapshot i channel)

/-- The header of a read is taken on a port. -/
def Device.takeReadHeader (d : Device) (i : Port) (channel : ChannelField) : Device :=
  d.onPort i fun p => { p with transaction := some (d.readStarted i channel) }

/-- A header under way on a port may be taken at this moment: a free bit says whether it is (08 R131,
notes/assumptions 47). -/
def Device.headerMayFall (d : Device) (i : Port) : Device :=
  match (d.port i).transaction with
  | some (.heading _ channel) =>
    if Config.raceBit d.choices then d.countChoice.takeReadHeader i channel else d.countChoice
  | some (.selected _) => d
  | some (.write _ _) => d
  | some (.read _ _) => d
  | some (.chart _ _ _ _ _ _) => d
  | some (.ringRead _ _ _) => d
  | none => d

/-- A moment within a step, between two outcomes: every header under way may be taken at it (08 R131). -/
def Device.headersMayFall (d : Device) : Device := ((d.headerMayFall 0).headerMayFall 1).headerMayFall 2

end Sys2Proof.Machine
end

