-- ==== Sys2Proof/Machine/Judge.lean ====
section
/-!
DEFINITION. The judge (chapter 8): presses, releases, the sweep, holds and AVOID notes, appends and tails, and what
each outcome hands on, in the order of R127.

An event at the judge can hand several outcomes. `Flow` carries the device through them, and whether a report of life
at 0 has been made that the session controller has not yet taken: the rules leave open when it takes it (01 R12,
09 R144), and a free bit chooses among the orders they allow (notes/assumptions 6, 7). It carries too whether an outcome
has been handed whole, since the header of a read can fall between it and the next (08 R131).
-/
namespace Sys2Proof.Machine

/-- An event of the judge under way: the device, a report of 09 R143 that has not yet been taken, and whether an outcome
of the event has been handed whole. -/
structure Flow where
  device : Device
  owed   : Bool
  handed : Bool

/-- An event of the judge at its beginning. -/
def Flow.start (d : Device) : Flow := { device := d, owed := false, handed := false }

/-- Before the next outcome of an event that has handed one: a read's header may be taken here, and its snapshot shows
the state after each outcome handed whole by now (08 R131). -/
def Flow.between (f : Flow) : Flow := if f.handed then { f with device := f.device.headersMayFall } else f

/-- Where a report is owed that would fail the player, a free bit says whether the session controller takes it at this
point (09 R144). -/
def Flow.mayReport (f : Flow) (p : Player) : Flow :=
  if f.owed && f.device.wouldFail p then
    if Config.raceBit f.device.choices then
      { f with device := f.device.countChoice.takeReport p, owed := false }
    else { f with device := f.device.countChoice }
  else f

/-- The judge goes on to the next part of an event of a lane. A report owed may be taken first, and the judge then finds
nothing left on the lane (08 R128, 09 R144). -/
def Flow.goOn (f : Flow) (q : LaneQueue) : Flow := f.mayReport (f.device.owner q)

/-- The device after the record of an outcome, where it writes one (08 R126). -/
def Flow.record (f : Flow) (x : Option Record) : Flow :=
  match x with
  | none => f
  | some x => { f with device := f.device.appendRecord x }

/-- The device after the score keeper has taken an outcome (08 R127, 09 R136). -/
def Flow.score (f : Flow) (p : Player) (o : Outcome) : Flow :=
  { device := f.device.takeOutcome p o, owed := f.owed || f.device.outcomeReports p o, handed := true }

/-- The hand-off of a grade to the lamp mixer (08 R127, 11 R163). -/
def Flow.flash (f : Flow) (q : LaneQueue) : Outcome → Flow
  | .graded g => { f with device := f.device.flashFor g q }
  | .miss | .held | .letGo | .avoidHit | .stray => f

/-- One outcome of a lane, up to the removal events: first the record, then the outcome, then a grade to the lamp mixer
(08 R127). -/
def Flow.outcome (f : Flow) (q : LaneQueue) (x : Option Record) (o : Outcome) : Flow :=
  let p := f.device.owner q
  ((((f.mayReport p).record x).mayReport p).score p o).flash q o

/-- The removal events of R111 or the return to IDLE of R122 and R123: the session controller examines the done
condition. Where the condition holds and a report that would fail the player is owed, a free bit says which is taken
first (01 R12). -/
def Flow.handOff (f : Flow) (p : Player) : Flow :=
  if f.owed && f.device.wouldFail p && f.device.doneHolds p then
    if Config.raceBit f.device.choices then { f with device := f.device.countChoice.examineDone p }
    else { f with device := f.device.countChoice.takeReport p, owed := false }
  else { f with device := f.device.examineDone p }

/-- The end of the judge's event: a report still owed is taken (01 R11). -/
def Flow.finish (f : Flow) (p : Player) : Device := if f.owed then f.device.takeReport p else f.device

/-- A record of a lane with the fields of 08 R126; a timed record carries its offset as 03 R43 states. -/
def Device.laneRecord (d : Device) (q : LaneQueue) (type : RecordType) (row : Nat) (late forced : Bool)
    (timed : Option Int) : Record :=
  { seq := 0, type := type, player := d.owner q, lane := logicalLane d.session.style q,
    early := timed.any (· < 0), lateDecode := late, forcedEnd := forced, timed := timed.isSome,
    offset := (timed.map recordOffset).getD 0, row := row }

/-- A note taken out of its queue; the rest stay in their order (08 R109). -/
def Device.removeNote (d : Device) (q : LaneQueue) (n : Note) : Device :=
  d.onLane q fun l => { l with queue := l.queue.erase n }

/-- A lane's hold state replaced. -/
def Device.setHold (d : Device) (q : LaneQueue) (h : HoldState) : Device := d.onLane q fun l => { l with hold := h }

/-- The target of a lane: its first TAP or HOLD_START (08 R116, R118). -/
def Lane.target (l : Lane) : Option Note := l.queue.find? fun n => n.kind != .avoid

/-- The type of the record of a TAP or HOLD_START that has come to a result. -/
def NoteKind.recordType (k : NoteKind) (r : NoteResult) : RecordType :=
  match k with
  | .tap => .tap r
  | .holdStart => .holdStart r
  | .avoid => .avoidHit

/-- A hold ends: the lane returns to IDLE, with a HOLD_BODY record of HELD or LET_GO for the head row (08 R122,
R123). -/
def Flow.endHold (f : Flow) (q : LaneQueue) (h : ActiveHold) (held : Bool) : Flow :=
  let f := f.between
  let d := f.device.setHold q .idle
  let x := d.laneRecord q (.holdBody held) h.row false h.forcedEnd none
  (({ f with device := d }).outcome q (some x) (if held then .held else .letGo)).handOff (d.owner q)

/-- A tail is known and its due time is at or before a time. -/
def ActiveHold.tailBy (h : ActiveHold) (t : Int) : Bool := h.tail.any fun u => (u : Int) ≤ t

/-- A TAP or HOLD_START is swept: MISS, and for a hold head LET_GO at once after it (08 R118). The HOLD_START and
HOLD_BODY records carry FORCED_END when the head's tail was forced. A read's header may be taken between the two (08
R131). Both records are appended in the one step, so no record of the other player comes between them: DESIGN CHOICE
(notes/assumptions 36). -/
def Flow.sweepNote (f : Flow) (q : LaneQueue) (n : Note) : Flow :=
  let f := f.between
  let d := f.device.removeNote q n
  let miss := d.laneRecord q (n.kind.recordType .miss) n.row n.lateDecode (n.kind = .holdStart && n.forcedEnd) none
  let f := ({ f with device := d }).outcome q (some miss) .miss
  let f :=
    if n.kind = .holdStart then
      f.between.outcome q (some (d.laneRecord q (.holdBody false) n.row n.lateDecode n.forcedEnd none)) .letGo
    else f
  f.handOff (d.owner q)

/-- An AVOID is hit: by a press, with its offset, or by a held panel, untimed (08 R114, R119). -/
def Flow.hitAvoid (f : Flow) (q : LaneQueue) (n : Note) (timed : Option Int) : Flow :=
  let f := f.between
  let d := f.device.removeNote q n
  let x := d.laneRecord q .avoidHit n.row n.lateDecode false timed
  (({ f with device := d }).outcome q (some x) .avoidHit).handOff (d.owner q)

/-- A press grades its target: removed, with its record, and for a HOLD_START a hold starts, which ends HELD at once
when its tail is at or before the stamp (08 R116, R117). -/
def Flow.gradeNote (f : Flow) (q : LaneQueue) (n : Note) (stamp : Int) : Flow :=
  let f := f.between
  let o := pressOffset stamp n.due
  let g := (f.device.judge.windows.gradeOf o).getD .poor
  let hold : ActiveHold := { row := n.row, tail := n.tail, forcedEnd := n.forcedEnd }
  let d := f.device.removeNote q n
  let d := if n.kind = .holdStart then d.setHold q (.holding hold) else d
  let x := d.laneRecord q (n.kind.recordType (.graded g)) n.row n.lateDecode (n.kind = .holdStart && n.forcedEnd)
    (some o)
  let f := ((({ f with device := d }).outcome q (some x) (.graded g)).handOff (d.owner q)).goOn q
  if n.kind = .holdStart && hold.tailBy stamp && f.device.judging q then f.endHold q hold true else f

/-- A press without a target: STRAY, without a record, unless it hit an AVOID (08 R116). -/
def Flow.stray (f : Flow) (q : LaneQueue) (hitAvoid : Bool) : Flow :=
  if hitAvoid then f else f.between.outcome q none .stray

/-- A press looks for its target, sweeping each one that its stamp has passed (08 R116). The fuel is one more than the
number of notes in the queue, so it never runs out. -/
def Flow.strike (q : LaneQueue) (stamp : Int) (hitAvoid : Bool) : Nat → Flow → Flow
  | 0, f => f
  | fuel + 1, f =>
    let f := f.goOn q
    if f.device.judging q then
      match (f.device.lane q).target with
      | none => f.stray q hitAvoid
      | some n =>
        if f.device.judge.pastWindow n stamp then Flow.strike q stamp hitAvoid fuel (f.sweepNote q n)
        else if stamp < (n.due : Int) - f.device.judge.windows.poor.early then f.stray q hitAvoid
        else f.gradeNote q n stamp
    else f

/-- The press goes on to its target (08 R116). -/
def Flow.strikeTarget (f : Flow) (q : LaneQueue) (stamp : Int) (hitAvoid : Bool) : Flow :=
  Flow.strike q stamp hitAvoid ((f.device.lane q).queue.length + 1) f

/-- The AVOID notes that a press hits, in queue order (08 R114). -/
def Device.avoidsHit (d : Device) (q : LaneQueue) (stamp : Int) : List Note :=
  (d.lane q).queue.filter fun n => n.kind = .avoid && d.judge.avoid.holds (pressOffset stamp n.due)

/-- The press hits its AVOID notes one after another (08 R114). -/
def Flow.hitAvoids (q : LaneQueue) (stamp : Int) (f : Flow) (notes : List Note) : Flow :=
  notes.foldl (fun f n =>
    let f := f.goOn q
    if f.device.judging q then f.hitAvoid q n (some (pressOffset stamp n.due)) else f) f

/-- The press meets the lane's hold state: an outcome its stamp has decided is settled by value, and the press goes on;
otherwise the hold is resumed (08 R115). -/
def Flow.meetHold (f : Flow) (q : LaneQueue) (stamp : Int) (hitAvoid : Bool) : Flow :=
  match (f.device.lane q).hold with
  | .idle => f.strikeTarget q stamp hitAvoid
  | .holding h =>
    if h.tailBy stamp then (f.endHold q h true).strikeTarget q stamp hitAvoid
    else { f with device := f.device.setHold q (.holding h) }
  | .grace h expiry =>
    if expiry ≤ stamp then (f.endHold q h (h.tailBy expiry)).strikeTarget q stamp hitAvoid
    else if h.tailBy stamp then (f.endHold q h true).strikeTarget q stamp hitAvoid
    else { f with device := f.device.setHold q (.holding h) }

/-- A press on a lane, as one event (08 R113 to R117). -/
def Device.pressLane (d : Device) (q : LaneQueue) (stamp : Int) : Device :=
  if d.judging q then
    let hits := d.avoidsHit q stamp
    let f := (Flow.hitAvoids q stamp (Flow.start d) hits).goOn q
    let f := if f.device.judging q then f.meetHold q stamp (!hits.isEmpty) else f
    f.finish (d.owner q)
  else d

/-- A release on a lane: a hold whose tail the stamp has reached ends HELD; otherwise HOLDING becomes GRACE
(08 R121). -/
def Device.releaseLane (d : Device) (q : LaneQueue) (stamp : Int) : Device :=
  if d.judging q then
    match (d.lane q).hold with
    | .holding h =>
      if h.tailBy stamp then ((Flow.start d).endHold q h true).finish (d.owner q)
      else d.setHold q (.grace h (stamp + d.judge.holdGrace))
    | .idle => d
    | .grace _ _ => d
  else d

/-! ## Lane-time events -/

/-- A target is due for the sweep (08 R118). -/
def Device.sweepDue (d : Device) (q : LaneQueue) : Option Note :=
  if d.judging q then
    match (d.lane q).target with
    | none => none
    | some n => if d.judge.pastWindow n (d.laneTime q) then some n else none
  else none

/-- The sweep of a lane's first TAP or HOLD_START (08 R118). -/
def Device.sweepLane (d : Device) (q : LaneQueue) : Device :=
  match d.sweepDue q with
  | none => d
  | some n => ((Flow.start d).sweepNote q n).finish (d.owner q)

/-- The first AVOID whose due time lane time has reached and that has not been looked at for it (08 R119). -/
def Device.avoidDue (d : Device) (q : LaneQueue) : Option Note :=
  if d.judging q then
    (d.lane q).queue.find? fun n => n.kind = .avoid && !n.reached && (n.due : Int) ≤ d.laneTime q
  else none

/-- The first occurrence of a note in a queue is marked as reached (08 R119). -/
def markReached (n : Note) : List Note → List Note
  | [] => []
  | x :: xs => if x = n then { x with reached := true } :: xs else x :: markReached n xs

/-- Lane time reaches an AVOID's due time: hit if the panel that feeds the lane is pressed (08 R119). -/
def Device.reachAvoid (d : Device) (q : LaneQueue) (n : Note) : Device :=
  if d.feederPressed q then ((Flow.start d).hitAvoid q n none).finish (d.owner q)
  else d.onLane q fun l => { l with queue := markReached n l.queue }

/-- The due time of a lane's next AVOID (08 R119). -/
def Device.avoidDueLane (d : Device) (q : LaneQueue) : Device :=
  match d.avoidDue q with
  | none => d
  | some n => d.reachAvoid q n

/-- The first AVOID past its window (08 R119). -/
def Device.avoidPast (d : Device) (q : LaneQueue) : Option Note :=
  if d.judging q then
    (d.lane q).queue.find? fun n => n.kind = .avoid && d.judge.pastWindow n (d.laneTime q)
  else none

/-- An AVOID past its window is removed without a record; one whose due time lane time has passed on the way is first
examined for it (08 R119). -/
def Device.expireAvoid (d : Device) (q : LaneQueue) (n : Note) : Device :=
  if !n.reached && d.feederPressed q then d.reachAvoid q n
  else (d.removeNote q n).examineDone (d.owner q)

/-- The closing of the window of a lane's next AVOID (08 R119). -/
def Device.avoidPastLane (d : Device) (q : LaneQueue) : Device :=
  match d.avoidPast q with
  | none => d
  | some n => d.expireAvoid q n

/-- The active hold of a lane, in HOLDING or GRACE. -/
def HoldState.active : HoldState → Option ActiveHold
  | .idle => none
  | .holding h => some h
  | .grace h _ => some h

/-- A hold whose known tail lane time has reached (08 R122). -/
def Device.tailDue (d : Device) (q : LaneQueue) : Option ActiveHold :=
  if d.judging q then (d.lane q).hold.active.filter fun h => h.tailBy (d.laneTime q) else none

/-- Lane time reaches the tail of a hold: HELD (08 R122). -/
def Device.tailLane (d : Device) (q : LaneQueue) : Device :=
  match d.tailDue q with
  | none => d
  | some h => ((Flow.start d).endHold q h true).finish (d.owner q)

/-- A hold whose grace has expired, with its expiry (08 R123). -/
def Device.graceDue (d : Device) (q : LaneQueue) : Option (ActiveHold × Int) :=
  if d.judging q then
    match (d.lane q).hold with
    | .grace h expiry => if expiry ≤ d.laneTime q then some (h, expiry) else none
    | .idle => none
    | .holding _ => none
  else none

/-- A grace expires: HELD when the known tail is at or before the expiry, otherwise LET_GO (08 R123). -/
def Device.graceLane (d : Device) (q : LaneQueue) : Device :=
  match d.graceDue q with
  | none => d
  | some (h, expiry) => ((Flow.start d).endHold q h (h.tailBy expiry)).finish (d.owner q)

/-! ## Appends and tails -/

/-- Every target past its window is swept, in queue order (08 R118); a read's header may be taken between two of them
(08 R131). -/
def Device.sweepAll (q : LaneQueue) : Nat → Device → Device
  | 0, d => d
  | fuel + 1, d =>
    if (d.sweepDue q).isSome then
      let e := d.sweepLane q
      Device.sweepAll q fuel (if (e.sweepDue q).isSome then e.headersMayFall else e)
    else d

/-- An append in RUN is at once a lane-time event for the new note (08 R110, R119). -/
def Device.examineAppended (d : Device) (q : LaneQueue) (n : Note) : Device :=
  if d.judging q then
    match n.kind with
    | .tap | .holdStart => Device.sweepAll q (d.lane q).queue.length d
    | .avoid =>
      if d.judge.pastWindow n (d.laneTime q) then d.expireAvoid q n
      else if (n.due : Int) ≤ d.laneTime q then d.reachAvoid q n
      else d
  else d

/-- The judge takes appends for a JOINED or PLAYING owner (08 R110). -/
def Device.appendsFor (d : Device) (p : Player) : Bool := d.playerState p = .joined || d.playerState p = .playing

/-- The tail goes into the queued HOLD_START of its row (08 R124). -/
def tailQueue (row due : Nat) (forced : Bool) (queue : List Note) : List Note :=
  queue.map fun n =>
    if n.kind = .holdStart ∧ n.row = row then { n with tail := some due, forcedEnd := n.forcedEnd || forced } else n

/-- The queue holds the HOLD_START of a row. -/
def holdsHead (row : Nat) (queue : List Note) : Bool := queue.any fun n => n.kind = .holdStart && n.row = row

/-- The active hold with the tail attached (08 R124). -/
def ActiveHold.attach (h : ActiveHold) (due : Nat) (forced : Bool) : ActiveHold :=
  { h with tail := some due, forcedEnd := h.forcedEnd || forced }

/-- After a tail has attached to an active hold: a grace already expired, or a tail already reached, ends the hold at
once (08 R124). -/
def Device.settleTail (d : Device) (q : LaneQueue) : Device :=
  if (d.graceDue q).isSome then d.graceLane q else d.tailLane q

/-- The judge takes a tail at a lane (08 R124). -/
def Device.takeTail (d : Device) (q : LaneQueue) (row due : Nat) (forced : Bool) : Device :=
  if holdsHead row (d.lane q).queue then
    d.onLane q fun l => { l with queue := tailQueue row due forced l.queue }
  else
    match (d.lane q).hold with
    | .idle => d
    | .holding h =>
      if h.row = row then (d.setHold q (.holding (h.attach due forced))).settleTail q else d
    | .grace h expiry =>
      if h.row = row then (d.setHold q (.grace (h.attach due forced) expiry)).settleTail q else d

/-- Every lane queue emptied and every lane IDLE (08 R129). -/
def Judge.emptied (j : Judge) : Judge := { j with lanes := Vector.replicate 12 .reset }

end Sys2Proof.Machine
end

