-- ==== Sys2Proof/Machine/Chart.lean ====
section
/-!
DEFINITION. The chart decoders (chapter 4) and their arithmetic (03 R33 to R40): the entry layout, what each entry
does, appends with their stalls, repeats, and the chart buffer.
-/
namespace Sys2Proof.Machine

/-! ## The entry layout -/

/-- A complete entry at the front of a buffer (04 R49). -/
inductive Entry where
  | header (noteTotal holdTotal : Nat)
  | rows (count : Nat)
  | notes (kind : SubKind) (mask : Nat)
  | repeated (times spacing : Nat)
  | tempo (period : Nat)
  | dwell (length : Nat)
  | ending
  | badTag
  deriving DecidableEq, Repr

/-- The sub-kind of a NOTES tag's lower nibble (04 R49). -/
def subKindOf (nibble : Nat) : Option SubKind :=
  match nibble with
  | 0 => some .tap
  | 1 => some .holdStart
  | 2 => some .holdEnd
  | 3 => some .avoid
  | _ => none

/-- The number of bytes of an entry, its tag included; a bad tag is one byte (04 R49, R65). -/
def Entry.size : Entry → Nat
  | .header _ _ | .tempo _ | .dwell _ => 5
  | .rows _ | .notes _ _ | .repeated _ _ => 3
  | .ending | .badTag => 1

/-- The entry at the front of a buffer, once all of its bytes are there (04 R49, R65): none while it waits. -/
def frontEntry (buffer : List Byte) : Option Entry :=
  match buffer with
  | [] => none
  | tag :: rest =>
    match tag.toNat / 16 with
    | 1 => if 4 ≤ rest.length then some (.header (u16 rest 0) (u16 rest 2)) else none
    | 2 => if 2 ≤ rest.length then some (if u16 rest 0 = 0 then .badTag else .rows (u16 rest 0)) else none
    | 3 =>
      match subKindOf (tag.toNat % 16) with
      | none => some .badTag
      | some k => if 2 ≤ rest.length then some (.notes k (u16 rest 0)) else none
    | 4 =>
      if 2 ≤ rest.length then
        some (if u8 rest 0 = 0 ∨ u8 rest 1 = 0 then .badTag else .repeated (u8 rest 0) (u8 rest 1))
      else none
    | 5 => if 4 ≤ rest.length then some (.tempo (u32 rest 0)) else none
    | 6 => if 4 ≤ rest.length then some (.dwell (u32 rest 0)) else none
    | 15 => some .ending
    | _ => some .badTag

/-- The decoder takes entries in these states (04 R51). -/
def DecoderState.takes : DecoderState → Bool
  | .waitHeader | .decoding | .discard => true
  | .idle | .stalledLane | .stalledTempo | .ended => false

/-- The entry that a player's decoder would take next (04 R51). -/
def Device.nextEntry (d : Device) (p : Player) : Option Entry :=
  if (d.decoder p).state.takes then frontEntry (d.decoder p).buffer else none

/-! ## Position (03 R33 to R40) -/

/-- The cursor moved to a row: clamped with ROW_CLAMPED, the row time formed afresh with DUE_CLAMPED (03 R33, R36,
R38). A ROWS at the row clamp after a DWELL of row 16,777,215 follows the formula too, and so moves the row time to the
DWELL's end, where the last sentence of R38 would leave it: DESIGN CHOICE (notes/assumptions 32). -/
def Device.moveCursor (d : Device) (p : Player) (row : Nat) : Device :=
  let at_ := min row maxRow
  let raw := rawDue (d.decoder p).segment at_
  let d := d.addFaultIf p .rowClamped (maxRow < row)
  let d := d.addFaultIf p .dueClamped (maxTime < raw)
  d.onDecoder p fun c => { c with cursor := at_, rowTime := clampTime raw }

/-- The period a TEMPO uses (03 R34). -/
def clampPeriod (period : Nat) : Nat := clampNat minPeriod maxPeriod period

/-- The length a DWELL uses (03 R40). -/
def clampDwell (length : Nat) : Nat := clampNat 1 maxDwell length

/-- The tempo map entry of a TEMPO (03 R39). -/
def Decoder.tempoSegment (c : Decoder) (period : Nat) : Segment :=
  { row := c.cursor, rowTime := c.rowTime, segTime := c.rowTime, period := clampPeriod period }

/-- The tempo map entry of a DWELL (03 R40). -/
def Decoder.dwellSegment (c : Decoder) (length : Nat) : Segment :=
  { row := c.cursor, rowTime := c.rowTime, segTime := clampTime (c.rowTime + clampDwell length),
    period := c.segment.period }

/-- The decoder's segment that goes with a tempo map entry (03 R39, R40). -/
def Segment.forDecoder (s : Segment) : DecoderSegment := { row := s.row, segTime := s.segTime, period := s.period }

/-! ## Finishing and stalling -/

/-- The entry in hand is finished: its bytes leave the buffer (04 R51). -/
def Decoder.finished (c : Decoder) : Decoder :=
  { c with buffer := c.buffer.drop (c.inHand.elim 0 (·.size)), inHand := none }

/-- An entry is taken in hand. -/
def Decoder.takeInHand (c : Decoder) (size : Nat) (task : Task) : Decoder :=
  { c with inHand := some { size := size, task := task } }

/-- The decoder stalls with the entry in hand at this task (04 R54, R56). -/
def Decoder.stalled (c : Decoder) (state : DecoderState) (task : Task) : Decoder :=
  { c with state := state, inHand := c.inHand.map fun h => { h with task := task } }

/-- The bytes of an entry that acts at once leave the buffer (04 R51, R65). -/
def Device.dropFront (d : Device) (p : Player) (n : Nat) : Device :=
  d.onDecoder p fun c => { c with buffer := c.buffer.drop n }

/-- In ENDED every byte that reaches the front is discarded, the first adding AFTER_END (04 R64). -/
def Device.discardAfterEnd (d : Device) (p : Player) : Device :=
  if (d.decoder p).state = .ended ∧ (d.decoder p).buffer ≠ [] then
    (d.addFault p .afterEnd).onDecoder p fun c => { c with buffer := [] }
  else d

/-! ## What comes before an entry acts -/

/-- The first entry ends WAIT_HEADER, with NO_HEADER unless it is a HEADER (04 R50, R52). -/
def Device.firstEntry (d : Device) (p : Player) (isHeader : Bool) : Device :=
  if (d.decoder p).state = .waitHeader then
    (d.addFaultIf p .noHeader (!isHeader)).onDecoder p fun c => { c with state := .decoding }
  else d

/-- A pending repeat that meets an entry it does not apply to (04 R61). -/
def Device.dropRepeat (d : Device) (p : Player) : Device :=
  if (d.decoder p).pendingRepeat.isSome then
    (d.addFault p .badRepeat).onDecoder p fun c => { c with pendingRepeat := none }
  else d

/-! ## Notes -/

/-- A note of the cursor row (04 R55). -/
def Decoder.noteAt (c : Decoder) (kind : NoteKind) : Note :=
  { row := c.cursor, due := c.rowTime, kind := kind, tail := none, lateDecode := false, forcedEnd := false,
    reached := false }

/-- A tail handed to the judge for a player's lane (04 R58, R59, R63). -/
def Device.handTail (d : Device) (p : Player) (lane : Fin 12) (row due : Nat) (forced : Bool) : Device :=
  match queueOf d.session.style p lane with
  | none => d
  | some q => d.takeTail q row due forced

/-- A lane's open-hold mark cleared (04 R58). -/
def Device.clearMark (d : Device) (p : Player) (lane : Fin 12) : Device :=
  d.onDecoder p fun c => { c with openHold := c.openHold.set lane.val none lane.isLt }

/-- The decoded units: the TAP count plus twice the HOLD_START count (04 R67). -/
def Decoder.decodedUnits (c : Decoder) : Nat := c.taps + 2 * c.holds

/-- The decoder's side of an accepted append: the last row, the count, and the mark of a HOLD_START (04 R56, R58,
R67). -/
def Decoder.appended (c : Decoder) (lane : Fin 12) (n : Note) : Decoder :=
  let c := { c with lastRow := c.lastRow.set lane.val (some n.row) lane.isLt }
  match n.kind with
  | .tap => { c with taps := c.taps + 1 }
  | .holdStart =>
    { c with holds := c.holds + 1, openHold := c.openHold.set lane.val (some n.row) lane.isLt }
  | .avoid => { c with avoids := c.avoids + 1 }

/-- The decoded-units hand-off of an accepted TAP or HOLD_START (04 R67). -/
def Device.handUnits (d : Device) (p : Player) (kind : NoteKind) : Device :=
  match kind with
  | .tap | .holdStart => d.takeDecodedUnits p (d.decoder p).decodedUnits
  | .avoid => d

/-- LATE_DECODE, decided when the append is accepted in RUN (04 R57). -/
def Device.isLate (d : Device) (q : LaneQueue) (n : Note) : Bool :=
  d.session.state = .run && d.judge.pastWindow n (d.laneTime q)

/-- The judge's answer to an append (08 R110). -/
inductive AppendAnswer where
  | notPlaying
  | full
  | accepted
  deriving DecidableEq, Repr

/-- The judge's answer to an append of a player at a queue (08 R110). -/
def Device.appendAnswer (d : Device) (p : Player) (q : LaneQueue) : AppendAnswer :=
  if !d.appendsFor p then .notPlaying
  else if (d.lane q).queue.length < queueCapacity then .accepted
  else .full

/-- An accepted append, with everything it hands on (04 R56, R57, R67; 08 R110). -/
def Device.acceptNote (d : Device) (p : Player) (lane : Fin 12) (q : LaneQueue) (n : Note) : Device :=
  let n := { n with lateDecode := d.isLate q n }
  let d := d.onLane q fun l => { l with queue := l.queue ++ [n] }
  let d := (d.onDecoder p fun c => c.appended lane n).handUnits p n.kind
  d.examineAppended q n

/-- A note handed for appending: the device after it, or none where the full queue stalls the decoder (04 R56,
R68). -/
def Device.tryAppend (d : Device) (p : Player) (lane : Fin 12) (n : Note) : Option Device :=
  match queueOf d.session.style p lane with
  | none => some d
  | some q =>
    match d.appendAnswer p q with
    | .notPlaying => some d
    | .full => none
    | .accepted => some (d.acceptNote p lane q n)

/-- The forced end of an open hold that a new TAP or HOLD_START meets (04 R58). -/
def Device.endOverlap (d : Device) (p : Player) (lane : Fin 12) (due : Nat) : Device :=
  match (d.decoder p).openHold[lane] with
  | none => d
  | some row => ((d.addFault p .holdOverlap).clearMark p lane).handTail p lane row due true

/-- A HOLD_END on a lane (04 R59). -/
def Device.placeHoldEnd (d : Device) (p : Player) (lane : Fin 12) : Device :=
  match (d.decoder p).openHold[lane] with
  | none => d.addFault p .strayEnd
  | some row => (d.clearMark p lane).handTail p lane row (d.decoder p).rowTime false

/-- The step that a NOTES entry's work leads to. -/
inductive WorkResult where
  | done (device : Device)
  | stall (device : Device) (note : Note)

/-- A note handed for appending, as a step of a NOTES entry's work (04 R56). -/
def Device.appendStep (d : Device) (p : Player) (lane : Fin 12) (n : Note) : WorkResult :=
  match d.tryAppend p lane n with
  | some d => .done d
  | none => .stall d n

/-- A TAP, HOLD_START or AVOID on a lane: dropped as a DUPLICATE, or appended after the forced end of a hold it
overlaps (04 R55, R56, R58). A player whom that end fails has its note dropped (04 R68). -/
def Device.placeNote (d : Device) (p : Player) (kind : NoteKind) (lane : Fin 12) : WorkResult :=
  let c := d.decoder p
  if c.lastRow[lane] = some c.cursor then .done (d.addFault p .duplicate)
  else
    let d := if kind = .avoid then d else d.endOverlap p lane c.rowTime
    d.appendStep p lane (c.noteAt kind)

/-- One step of a NOTES entry's work (04 R55, R60). -/
def Device.workStep (d : Device) (p : Player) : Work → WorkResult
  | .moveTo row => .done (d.moveCursor p row)
  | .place .tap lane => d.placeNote p .tap lane
  | .place .holdStart lane => d.placeNote p .holdStart lane
  | .place .avoid lane => d.placeNote p .avoid lane
  | .place .holdEnd lane => .done (d.placeHoldEnd p lane)
  | .append lane n => d.appendStep p lane n

/-- The lane that a step of work places a note on. -/
def Work.laneOf : Work → Fin 12
  | .moveTo _ => 0
  | .place _ lane => lane
  | .append lane _ => lane

/-- A NOTES entry is finished, and with it the pending repeat that it was expanded under (04 R51, R60). -/
def Decoder.notesFinished (c : Decoder) : Decoder := { c.finished with pendingRepeat := none }

/-- The work of a NOTES entry, to its end, to a stall (04 R56), or to the player's failure, which has dropped the rest
of it already: the decoder enters DISCARD together with the judge's emptying, so nothing of a NOTES entry or of a
repeat in progress happens after it: DESIGN CHOICE, as 04 R68 allows either order (notes/assumptions 33). -/
def runWork (p : Player) : List Work → Device → Device
  | [], d => if (d.decoder p).state = .discard then d else d.onDecoder p Decoder.notesFinished
  | w :: ws, d =>
    if (d.decoder p).state = .discard then d
    else
      match d.workStep p w with
      | .done d => runWork p ws d
      | .stall d n => d.onDecoder p fun c => c.stalled .stalledLane (.notes (.append w.laneOf n :: ws))

/-- The lanes that a mask names, of those STYLE gives a player, in ascending order (04 R55). -/
def maskLanes (lanes mask : Nat) : List (Fin 12) :=
  (List.finRange 12).filter fun k => k.val < lanes && mask.testBit k.val

/-- The work of one repetition. -/
def placements (kind : SubKind) (lanes : List (Fin 12)) : List Work := lanes.map (Work.place kind)

/-- The work of repetitions 1 to n − 1 of a repeated NOTES entry (04 R60). -/
def laterRepetitions (kind : SubKind) (lanes : List (Fin 12)) (base spacing : Nat) (times : Nat) : List Work :=
  (List.range (times - 1)).flatMap fun k => Work.moveTo (base + (k + 1) * spacing) :: placements kind lanes

/-- A pending repeat applies to this sub-kind (04 R60). -/
def SubKind.repeats : SubKind → Bool
  | .tap | .avoid => true
  | .holdStart | .holdEnd => false

/-- The work of a NOTES entry under the pending repeat (04 R55, R60). -/
def notesWork (c : Decoder) (lanes : Nat) (kind : SubKind) (mask : Nat) : List Work :=
  let ks := maskLanes lanes mask
  match c.pendingRepeat with
  | none => placements kind ks
  | some (times, spacing) => placements kind ks ++ laterRepetitions kind ks c.cursor spacing times

/-! ## Offers -/

/-- An accepted offer: the map takes the entry, the decoder changes its segment, and an entry already reached goes at
once (02 R27, R28; 04 R54). -/
def Device.acceptOffer (d : Device) (p : Player) (s : Segment) : Device :=
  let d := d.onTracker p fun k => { k with map := k.map ++ [s] }
  let d := d.onDecoder p fun c => { c with segment := s.forDecoder }
  (d.onDecoder p Decoder.finished).advanceTracker p

/-- The map has room (02 R27). -/
def Device.mapHasRoom (d : Device) (p : Player) : Bool := (d.tracker p).map.length < mapCapacity

/-- A tempo map entry offered: accepted, or refused by a full map, which stalls the decoder (04 R54). -/
def Device.offer (d : Device) (p : Player) (s : Segment) : Device :=
  if d.mapHasRoom p then d.acceptOffer p s
  else d.onDecoder p fun c => c.stalled .stalledTempo (.offer s)

/-! ## The entries -/

/-- A HEADER (04 R52). -/
def Device.actHeader (d : Device) (p : Player) (noteTotal holdTotal : Nat) : Device :=
  if (d.decoder p).state = .waitHeader then
    (((d.firstEntry p true).onDecoder p fun c =>
      { c with noteTotal := noteTotal, holdTotal := holdTotal }).takeHeader p noteTotal holdTotal).dropFront p 5
  else ((d.dropRepeat p).addFault p .lateHeader).dropFront p 5

/-- A ROWS entry (04 R53, 03 R38). -/
def Device.actRows (d : Device) (p : Player) (count : Nat) : Device :=
  let d := (d.firstEntry p false).dropRepeat p
  (d.moveCursor p ((d.decoder p).cursor + count)).dropFront p 3

/-- A NOTES entry (04 R55, R60). -/
def Device.actNotes (d : Device) (p : Player) (kind : SubKind) (mask : Nat) : Device :=
  let d := d.firstEntry p false
  let d := if kind.repeats then d else d.dropRepeat p
  let lanes := laneCount d.session.style p
  let d := d.addFaultIf p .badLane (mask / 2 ^ lanes != 0)
  let work := notesWork (d.decoder p) lanes kind mask
  runWork p work (d.onDecoder p fun c => c.takeInHand 3 (.notes work))

/-- A REPEAT entry (04 R60, R61). -/
def Device.actRepeat (d : Device) (p : Player) (times spacing : Nat) : Device :=
  let d := (d.firstEntry p false).dropRepeat p
  (d.onDecoder p fun c => { c with pendingRepeat := some (times, spacing) }).dropFront p 3

/-- The clamp faults of a TEMPO (03 R34). -/
def Device.tempoFaults (d : Device) (p : Player) (period : Nat) : Device :=
  d.addFaultIf p .tempoClamped (clampPeriod period != period)

/-- The clamp faults of a DWELL (03 R36, R40). -/
def Device.dwellFaults (d : Device) (p : Player) (length : Nat) : Device :=
  (d.addFaultIf p .dwellClamped (clampDwell length != length)).addFaultIf p .dueClamped
    (maxTime < (d.decoder p).rowTime + clampDwell length)

/-- A TEMPO entry (04 R54, 03 R39). -/
def Device.actTempo (d : Device) (p : Player) (period : Nat) : Device :=
  let d := ((d.firstEntry p false).dropRepeat p).tempoFaults p period
  let s := (d.decoder p).tempoSegment period
  (d.onDecoder p fun c => c.takeInHand 5 (.offer s)).offer p s

/-- A DWELL entry (04 R54, 03 R40). -/
def Device.actDwell (d : Device) (p : Player) (length : Nat) : Device :=
  let d := ((d.firstEntry p false).dropRepeat p).dwellFaults p length
  let s := (d.decoder p).dwellSegment length
  (d.onDecoder p fun c => c.takeInHand 5 (.offer s)).offer p s

/-- The forced end of one lane's open hold at END (04 R63). Where the outcome of one forced tail fails the player, the
failure is taken first and the rest of the END, the further tails among it, is cut off: DESIGN CHOICE
(notes/assumptions 34). -/
def Device.forceEnd (p : Player) (d : Device) (lane : Fin 12) : Device :=
  if (d.decoder p).state = .discard then d
  else
    match (d.decoder p).openHold[lane] with
    | none => d
    | some row => (d.clearMark p lane).handTail p lane row (d.decoder p).rowTime true

/-- The decoder enters ENDED and tells the session controller; what stands behind the END is discarded (04 R63,
R64). Nothing of this happens where a forced tail of the same END has failed the player: DESIGN CHOICE
(notes/assumptions 34). -/
def Device.enterEnded (d : Device) (p : Player) : Device :=
  if (d.decoder p).state = .discard then d
  else
    ((d.onDecoder p fun c => { c.finished with state := .ended }).discardAfterEnd p).examineDone p

/-- An END entry (04 R63). -/
def Device.actEnd (d : Device) (p : Player) : Device :=
  let d := (d.firstEntry p false).dropRepeat p
  let d := d.onDecoder p fun c => c.takeInHand 1 (.notes [])
  ((List.finRange 12).foldl (Device.forceEnd p) d).enterEnded p

/-- A bad tag: its byte is skipped, and that byte alone (04 R65). -/
def Device.actBadTag (d : Device) (p : Player) : Device := (d.addFault p .badTag).dropFront p 1

/-- An entry taken in DISCARD: dropped, but for what ROWS, TEMPO and DWELL do to the position (04 R68). -/
def Device.discardEntry (d : Device) (p : Player) (e : Entry) : Device :=
  match e with
  | .rows count => (d.moveCursor p ((d.decoder p).cursor + count)).dropFront p e.size
  | .tempo period =>
    ((d.tempoFaults p period).onDecoder p fun c => { c with segment := (c.tempoSegment period).forDecoder }).dropFront p
      e.size
  | .dwell length =>
    ((d.dwellFaults p length).onDecoder p fun c => { c with segment := (c.dwellSegment length).forDecoder }).dropFront p
      e.size
  | .badTag => d.actBadTag p
  | .header _ _ => d.dropFront p e.size
  | .notes _ _ => d.dropFront p e.size
  | .repeated _ _ => d.dropFront p e.size
  | .ending => d.dropFront p e.size

/-- An entry taken outside DISCARD (04 R51). -/
def Device.actEntry (d : Device) (p : Player) (e : Entry) : Device :=
  match e with
  | .header noteTotal holdTotal => d.actHeader p noteTotal holdTotal
  | .rows count => d.actRows p count
  | .notes kind mask => d.actNotes p kind mask
  | .repeated times spacing => d.actRepeat p times spacing
  | .tempo period => d.actTempo p period
  | .dwell length => d.actDwell p length
  | .ending => d.actEnd p
  | .badTag => d.actBadTag p

/-- An entry taken (04 R51, R68). -/
def Device.takeEntry (d : Device) (p : Player) (e : Entry) : Device :=
  if (d.decoder p).state = .discard then d.discardEntry p e else d.actEntry p e

/-- The kinds of chart entries, one for each row of the table. -/
inductive EntryKind where
  | header
  | rows
  | notes
  | repeated
  | tempo
  | dwell
  | ending
  | badTag
  deriving DecidableEq, Repr

/-- The kind of an entry. -/
def Entry.kind : Entry → EntryKind
  | .header _ _ => .header
  | .rows _ => .rows
  | .notes _ _ => .notes
  | .repeated _ _ => .repeated
  | .tempo _ => .tempo
  | .dwell _ => .dwell
  | .ending => .ending
  | .badTag => .badTag

/-- The decoder takes the entry at the front of its buffer if it is complete and of a kind (04 R51). -/
def Device.takeKind (d : Device) (p : Player) (k : EntryKind) : Device :=
  match d.nextEntry p with
  | none => d
  | some e => if e.kind = k then d.takeEntry p e else d

/-! ## Stalls -/

/-- The stalled note or entry would no longer be refused as full (04 R62). -/
def Device.stallFree (d : Device) (p : Player) : Bool :=
  match (d.decoder p).state, (d.decoder p).inHand with
  | .stalledLane, some { size := _, task := .notes (.append lane _ :: _) } =>
    match queueOf d.session.style p lane with
    | none => true
    | some q => d.appendAnswer p q != .full
  | .stalledTempo, some { size := _, task := .offer _ } => d.mapHasRoom p
  | _, _ => false

/-- A stall's release: the retry is accepted, the decoder returns to DECODING and goes on with the entry in hand
(04 R62). -/
def Device.releaseStall (d : Device) (p : Player) : Device :=
  if d.stallFree p then
    match (d.decoder p).inHand with
    | none => d
    | some h =>
      let d := d.onDecoder p fun c => { c with state := .decoding }
      match h.task with
      | .notes work => runWork p work d
      | .offer s => d.offer p s
  else d

/-- The decoder waits, in STALLED_LANE, for room in a lane queue (04 R56, R62). -/
def Device.waitsOn (d : Device) (p : Player) (q : LaneQueue) : Bool :=
  match (d.decoder p).state, (d.decoder p).inHand with
  | .stalledLane, some { size := _, task := .notes (.append lane _ :: _) } => queueOf d.session.style p lane = some q
  | _, _ => false

/-- A removal from a lane queue handed to the decoder, which retries its append if it waits on that queue (04 R62,
08 R111). -/
def Device.retryAt (d : Device) (q : LaneQueue) : Device :=
  if d.waitsOn (d.owner q) q then d.releaseStall (d.owner q) else d

/-! ## The buffer -/

/-- A byte of an accepted chart write enters the buffer if there is room (04 R46, R47); in ENDED it is discarded at
once (R64). -/
def Device.bufferByte (d : Device) (p : Player) (b : Byte) : Device :=
  (d.onDecoder p fun c => { c with buffer := c.buffer ++ [b] }).discardAfterEnd p

/-- A buffer has room for a byte (04 R46). -/
def Device.bufferHasRoom (d : Device) (p : Player) : Bool := (d.decoder p).buffer.length < bufferCapacity

/-! ## Session events at the decoder -/

/-- A decoder at the OPEN event (04 R69). -/
def Decoder.opened (named : Bool) : Decoder := { Decoder.reset with state := if named then .waitHeader else .idle }

/-- A decoder at the ABORT and CLOSE events: the fault set, the header totals and the counts stay (04 R69). -/
def Decoder.closed (c : Decoder) : Decoder :=
  { Decoder.reset with
    faults := c.faults, noteTotal := c.noteTotal, holdTotal := c.holdTotal, taps := c.taps, holds := c.holds,
    avoids := c.avoids }

end Sys2Proof.Machine
end

