-- ==== Sys2Proof/Machine/Press.lean ====
section
/-!
DEFINITION. The press detector (chapter 6): good reports, board-lost events and stuck expiries, and the press and
release events they make, routed by the lane mapper (07 R105).
-/
namespace Sys2Proof.Machine

/-- What a link controller hands on with a good report (05 R79). -/
structure GoodReport where
  levels  : Vector Byte 4
  faults  : BitVec 4
  fresh   : Bool
  wasGone : Bool
  deriving DecidableEq, Repr

/-- The baseline that a level seeds (06 R88). -/
def seedOf (level : Byte) : Nat := level.toNat * 16

/-- A sensor after a seeding report: seeded, inactive, its fault flag recorded (06 R88, R91). -/
def Sensor.seeded (level : Byte) (fault : Bool) : Sensor :=
  { baseline := some (seedOf level), active := false, prevFault := fault }

/-- The rise of a level over a baseline (06 R90). -/
def riseOver (level : Byte) (baseline : Nat) : Int := (level.toNat : Int) - (baseline / 16 : Nat)

/-- The active flag with hysteresis (06 R90). -/
def activeAfter (press release : Nat) (rise : Int) (wasActive : Bool) : Bool :=
  if (press : Int) ≤ rise then true else if (release : Int) ≤ rise then wasActive else false

/-- A sensor in a good report that is not a seeding report: faulty, returned, or compared (06 R90, R91). -/
def Sensor.report (s : Sensor) (press release : Nat) (level : Byte) (fault : Bool) : Sensor :=
  if fault then { s with active := false, prevFault := true }
  else if s.prevFault then Sensor.seeded level false
  else
    { s with active := activeAfter press release (riseOver level (s.baseline.getD 0)) s.active, prevFault := false }

/-- A baseline moved a sixteenth of the way toward a level, truncated toward zero (06 R89). -/
def trackedBaseline (baseline : Nat) (level : Byte) : Nat :=
  ((baseline : Int) + ((seedOf level : Int) - baseline).tdiv 16).toNat

/-- A sensor tracked in the report that follows its previous fault flag `before` (06 R89). -/
def Sensor.track (s : Sensor) (before : Sensor) (level : Byte) (fault : Bool) : Sensor :=
  if s.active || fault || before.prevFault then s
  else { s with baseline := s.baseline.map fun b => trackedBaseline b level }

/-- A report is a seeding report for the panel (06 R88). -/
def PanelPress.seeds (p : PanelPress) (r : GoodReport) : Bool :=
  r.wasGone || r.fresh || p.sensors.toList.any (·.baseline.isNone)

/-- How many of four flags hold. -/
def countTrue (v : Vector Bool 4) : Nat := v.toList.countP id

/-- The press state that the sensors make: the active sensors reach the effective quorum of the working ones
(06 R92). -/
def quorumReached (quorum : Nat) (sensors : Vector Sensor 4) (faults : BitVec 4) : Bool :=
  let working := countTrue (Vector.ofFn fun i => !faults.getLsbD i.val)
  let active := countTrue (vecMap (·.active) sensors)
  if working = 0 then false else min quorum working ≤ active

/-- A panel after a good report, but for what a press or release event changes (06 R93). -/
def PanelPress.afterReport (p : PanelPress) (r : GoodReport) : PanelPress :=
  if p.seeds r then
    { p with sensors := Vector.ofFn fun i => Sensor.seeded r.levels[i] (r.faults.getLsbD i.val), pressed := false }
  else
    let sensors : Vector Sensor 4 :=
      Vector.ofFn fun i => p.sensors[i].report p.press p.release r.levels[i] (r.faults.getLsbD i.val)
    if quorumReached p.quorum sensors r.faults then { p with sensors := sensors, pressed := true }
    else
      { p with
        sensors := Vector.ofFn fun i => sensors[i].track p.sensors[i] r.levels[i] (r.faults.getLsbD i.val)
        pressed := false }

/-- SENSOR_FAULT is raised: a flag set in the report that was clear in the previous one (06 R91). -/
def PanelPress.newFault (p : PanelPress) (r : GoodReport) : Bool :=
  (List.finRange 4).any fun i => r.faults.getLsbD i.val && !p.sensors[i].prevFault

/-- The stamp of an event of a panel made now: lane time of its own stage in RUN and ENDED, otherwise the free counter
(06 R94). -/
def Device.stampFor (d : Device) (p : Panel) : Int :=
  if d.songRuns then d.stageTime (stageOfPanel p) else (d.clock.free.toNat : Int)

/-- A press event made: counted, and the stuck timer started (06 R94, R96). -/
def Device.countPress (d : Device) (p : Panel) : Device :=
  d.onPanel p fun x => { x with counter := x.counter + 1, stuckSince := some d.clock.free }

/-- A release event made: the stuck timer stopped (06 R96). -/
def Device.stopStuck (d : Device) (p : Panel) : Device := d.onPanel p fun x => { x with stuckSince := none }

/-- Lane time's reaching of AVOID due times of a lane whose panel has just been pressed, taken before the press or not:
08 R120 allows either order, and a free bit chooses for each (notes/assumptions 31). The fuel is the length of the
queue, of which each takes or marks one note. A decoder that waits on the queue retries its append at each of these
removals (04 R62, 08 R111), before the next of them and before the press; and a read's header may be taken there (08
R131). -/
def Device.raceAvoids (q : LaneQueue) : Nat → Device → Device
  | 0, d => d
  | fuel + 1, d =>
    if (d.avoidDue q).isSome then
      if Config.raceBit d.choices then Device.raceAvoids q fuel ((d.countChoice.avoidDueLane q).retryAt q).headersMayFall
      else d.countChoice
    else d

/-- The lane mapper takes a press event (07 R105). DESIGN CHOICE (notes/assumptions 41): a press that finds its AVOID
already hit, untimed, goes on as 08 R116 says, and without a target is counted a STRAY, though 08 R120 has the two orders
differ only in the record's offset. -/
def Device.routePress (d : Device) (p : Panel) : Device :=
  match d.feeds p with
  | none => d
  | some q => (Device.raceAvoids q (d.lane q).queue.length d).pressLane q (d.stampFor p)

/-- The lane mapper takes a release event (07 R105). -/
def Device.routeRelease (d : Device) (p : Panel) : Device :=
  match d.feeds p with
  | none => d
  | some q => d.releaseLane q (d.stampFor p)

/-- The event that a change of a panel's press state makes (06 R93, R94). -/
def Device.pressChange (d : Device) (p : Panel) (before : Bool) : Device :=
  match before, (d.panel p).pressed with
  | false, true => (d.countPress p).routePress p
  | true, false => (d.stopStuck p).routeRelease p
  | true, true => d
  | false, false => d

/-- The press detector takes a good report (06 R93). DESIGN CHOICE (notes/assumptions 40): a report taken after a stuck
expiry is judged like any other, against the re-seeded baselines (06 R96), so it can make a press event where the row of
06 R97 for a report "that releases the panel" says that it gives none. -/
def Device.takeGoodReport (d : Device) (p : Panel) (r : GoodReport) : Device :=
  let before := d.panel p
  let d := d.onPanel p fun x => x.afterReport r
  let d := if before.newFault r then d.raise .sensorFault else d
  d.pressChange p before.pressed

/-- A panel whose sensors are made inactive and which is released. -/
def PanelPress.forcedUp (p : PanelPress) : PanelPress :=
  { p with sensors := vecMap (fun s => { s with active := false }) p.sensors, pressed := false }

/-- The press detector takes a board-lost event (06 R95). -/
def Device.takeBoardLost (d : Device) (p : Panel) : Device :=
  let before := (d.panel p).pressed
  (d.onPanel p PanelPress.forcedUp).pressChange p before

/-- A running stuck timer has reached STUCK_LIMIT (06 R96). -/
def Device.stuckDue (d : Device) (p : Panel) : Bool :=
  match (d.panel p).stuckSince with
  | none => false
  | some start => d.press.stuckLimit ≤ (d.clock.free - start).toNat

/-- The lane that a panel feeds is in a hold (06 R96). -/
def Device.feedsHold (d : Device) (p : Panel) : Bool :=
  match d.feeds p with
  | none => false
  | some q => (d.lane q).hold.active.isSome

/-- A panel found stuck: all four baselines seeded from the board table's LEVELS, released (06 R96). -/
def PanelPress.stuckReleased (p : PanelPress) (levels : Vector Byte 4) : PanelPress :=
  { p with
    sensors := Vector.ofFn fun i => { p.sensors[i] with baseline := some (seedOf levels[i]), active := false }
    pressed := false }

/-- The LEVELS that the board table holds for a panel (06 R96). -/
def Device.boardLevels (d : Device) (p : Panel) : Vector Byte 4 :=
  (d.link (stageOfPanel p)).boards[addressOfPanel p].levels

/-- A stuck expiry: under a hold the timer is restarted; otherwise the panel is reseeded and released with STUCK, and
the timer is stopped (06 R96). -/
def Device.expireStuck (d : Device) (p : Panel) : Device :=
  if d.stuckDue p then
    if d.feedsHold p then d.onPanel p fun x => { x with stuckSince := some d.clock.free }
    else
      let before := (d.panel p).pressed
      let levels := d.boardLevels p
      ((((d.onPanel p fun x => x.stuckReleased levels).pressChange p before).raise .stuck).stopStuck p)
  else d

/-- A lowered STUCK_LIMIT: every expiry it brings is taken at once (06 R96). -/
def Device.expireAllStuck (d : Device) : Device := allPanels.foldl (fun d p => d.expireStuck p) d

/-- A panel's calibration record replaced (06 R87). -/
def PanelPress.calibrated (p : PanelPress) (press release quorum : Nat) : PanelPress :=
  { p with press := press, release := release, quorum := quorum }

/-- The calibration values of a SET_PANEL, clamped in their order (06 R87). -/
def clampedCalibration (press release quorum : Nat) : Nat × Nat × Nat :=
  let press := if press = 0 then 1 else press
  let release := if press ≤ release then press - 1 else release
  (press, release, clampNat 1 4 quorum)

/-- SET_PANEL at the press detector (06 R87). -/
def setPanel (fields : List Byte) (d : Device) : ResultCode × Device :=
  if d.session.state ≠ .idle then (.wrongState, d)
  else
    let selector := u8 fields 0
    if 12 ≤ selector ∧ selector ≠ 0xFF then (.badValue, d)
    else
      let c := clampedCalibration (u8 fields 1) (u8 fields 2) (u8 fields 3)
      let panels : Vector PanelPress 12 := Vector.ofFn fun i =>
        if selector = 0xFF ∨ selector = i.val then d.press.panels[i].calibrated c.1 c.2.1 c.2.2 else d.press.panels[i]
      let d := { d with press := { panels := panels, stuckLimit := clampNat 1000000 60000000 (u32 fields 4) } }
      (.done, d.expireAllStuck)

/-- The press detector after a soft reset: the calibration and STUCK_LIMIT at their defaults, the rest kept
(06 R99). -/
def PressDetector.softReset (x : PressDetector) : PressDetector :=
  { panels := vecMap (fun p => p.calibrated 40 24 1) x.panels, stuckLimit := 8000000 }

end Sys2Proof.Machine
end

