-- ==== Sys2Proof/Machine/Links.lean ====
section
/-!
DEFINITION. The panel link controllers (chapter 5): characters, the poll schedule, good reports and misses, and the
stage settings.
-/
namespace Sys2Proof.Machine

/-! ## Characters -/

/-- The number of ones among eight bits. -/
def onesIn (b : Byte) : Nat := (List.range 8).countP fun k => b.getLsbD k

/-- A character is good: odd parity over its data and parity bits, and a high stop bit (05 R71). -/
def goodCharacter (c : LineCharacter) : Bool := (onesIn c.data + c.parity.toNat) % 2 = 1 && c.stop

/-- A byte as the link controller sends it: the parity bit makes the number of ones odd, and the stop bit is high
(05 R71). -/
def sentCharacter (data : Byte) : LineCharacter := { data := data, parity := onesIn data % 2 = 0, stop := true }

/-- Every character of a REPORT is good (05 R75). -/
def goodFrame (f : ReportFrame) : Bool :=
  goodCharacter f.echo && goodCharacter f.s0 && goodCharacter f.s1 && goodCharacter f.s2 && goodCharacter f.s3
    && goodCharacter f.status

/-- The levels of a REPORT (05 R75). -/
def frameLevels (f : ReportFrame) : Vector Byte 4 := #v[f.s0.data, f.s1.data, f.s2.data, f.s3.data]

/-- The fault flags of a REPORT: status bits 0 to 3 (05 section 5.2). -/
def frameFaults (f : ReportFrame) : BitVec 4 := f.status.data.setWidth 4

/-- The FRESH bit of a REPORT (05 section 5.2). -/
def frameFresh (f : ReportFrame) : Bool := f.status.data.getLsbD 7

/-! ## The schedule -/

/-- A board is due in the current round: enabled, and polled every round or in round 0 (05 R76, R78). -/
def Link.boardDue (l : Link) (address : Fin 6) : Bool :=
  l.enable.getLsbD address.val &&
    match l.boards[address].state with
    | .absent | .online | .degraded => true
    | .offline => l.round = 0
    | .disabled => false

/-- The due board of lowest address above the last polled address (05 R76). -/
def Link.nextBoard (l : Link) : Option (Fin 6) :=
  (List.finRange 6).find? fun a => l.boardDue a && (l.last.all fun x => x < a)

/-- The round ends: the round number advances, the last polled address becomes none (05 R76). -/
def Link.nextRound (l : Link) : Link := { l with round := (l.round + 1) % 8, last := none }

/-- No board of the link is enabled (05 R77). -/
def Link.noneEnabled (l : Link) : Bool := l.enable = 0

/-- A transaction with a board begins: the controller starts to send its POLL, which carries the lamp level of the
board's panel at this moment (05 R72, R76). -/
def Link.begin_ (l : Link) (address : Fin 6) (level : Byte) : Link :=
  { l with last := some address, phase := .sending address level false }

/-- The POLL ends: the REPLY_LIMIT that stands at this moment is the deadline's (05 R72, R74). Nothing where no POLL is
being sent. -/
def Link.endPoll (l : Link) : Link :=
  match l.phase with
  | .sending address level void => { l with phase := .transaction address level l.replyLimit void }
  | .gap => l
  | .transaction _ _ _ _ => l
  | .emptyRound => l

/-- The characters of the POLL that a link is sending: the board's address, then the lamp level (05 R71, R72). -/
def Link.pollCharacters (l : Link) : List LineCharacter :=
  match l.phase with
  | .sending address level _ => [sentCharacter (BitVec.ofNat 8 address.val), sentCharacter level]
  | .gap => []
  | .transaction _ _ _ _ => []
  | .emptyRound => []

/-- The driver enable of a link, LA_DE or LB_DE: high while it sends a POLL, and low at all other times (05 R71). -/
def Link.driverEnable (l : Link) : Bool :=
  match l.phase with
  | .sending _ _ _ => true
  | .gap => false
  | .transaction _ _ _ _ => false
  | .emptyRound => false

/-- The choice in a round that has just begun: a board, or the interval of an empty round (05 R76, R77). -/
def Link.chooseFresh (l : Link) (level : Fin 6 → Byte) : Link :=
  match l.nextBoard with
  | some a => l.begin_ a (level a)
  | none => { l with phase := .emptyRound }

/-- The choice at the end of a line gap (05 R76, R77). A link with no enabled board is silent. -/
def Link.choose (l : Link) (level : Fin 6 → Byte) : Link :=
  if l.noneEnabled then { l with phase := .gap }
  else
    match l.nextBoard with
    | some a => l.begin_ a (level a)
    | none => if l.last.isSome then l.nextRound.chooseFresh level else { l with phase := .emptyRound }

/-- A new round, then the choice; nothing on a link with no enabled board, whose round number stands still (05
R77). -/
def Link.chooseInNextRound (l : Link) (level : Fin 6 → Byte) : Link :=
  if l.noneEnabled then { l with phase := .gap } else l.nextRound.chooseFresh level

/-- The lamp level of a board's panel (05 R72). -/
def Device.boardLevel (d : Device) (l : Stage) (address : Fin 6) : Byte := d.lampLevel (panelOf l address)

/-- The end of a line gap: the next board is chosen and its POLL begins (05 R76). -/
def Device.beginPoll (d : Device) (l : Stage) : Device :=
  if (d.link l).phase = .gap then d.onLink l fun x => x.choose (d.boardLevel l) else d

/-- The end of a POLL (05 R72, R74). -/
def Device.endPoll (d : Device) (l : Stage) : Device := d.onLink l Link.endPoll

/-- A POLL from the end of a line gap, with nothing taken between its beginning and its end, or one of the two
(notes/assumptions 12). -/
def Device.pollTransfer (d : Device) : PollTransfer → Device
  | .whole l => if (d.link l).phase = .gap then (d.beginPoll l).endPoll l else d
  | .begins l => d.beginPoll l
  | .ends l => d.endPoll l

/-- The interval of an empty round runs out (05 R77). -/
def Device.endEmptyRound (d : Device) (l : Stage) : Device :=
  if (d.link l).phase = .emptyRound then d.onLink l fun x => x.chooseInNextRound (d.boardLevel l) else d

/-- A silent link that has been given an enabled board begins at once with a new round (05 R77). -/
def Device.wakeLink (d : Device) (l : Stage) (wasSilent : Bool) : Device :=
  if wasSilent && !(d.link l).noneEnabled then d.onLink l fun x => x.chooseInNextRound (d.boardLevel l) else d

/-- A link is silent: no board enabled and no transaction in hand (05 R77, notes/assumptions 15). -/
def Link.silent (l : Link) : Bool := l.noneEnabled && l.phase = .gap

/-! ## Reports and misses -/

/-- A board of a link replaced by a function of it. -/
def Link.onBoard (l : Link) (address : Fin 6) (f : Board → Board) : Link :=
  { l with boards := vecModify l.boards address f }

/-- A board after a good report (05 R79). -/
def Board.reported (b : Board) (levels : Vector Byte 4) (faults : BitVec 4) : Board :=
  { b with state := .online, misses := 0, seen := true, levels := levels, faults := faults }

/-- A good report for a board: the table first, then the hand-over to the press detector (05 R79). -/
def Device.goodReport (d : Device) (l : Stage) (address : Fin 6) (f : ReportFrame) : Device :=
  let before := (d.link l).boards[address].state
  let d := d.onLink l fun x => x.onBoard address fun b => b.reported (frameLevels f) (frameFaults f)
  d.takeGoodReport (panelOf l address)
    { levels := frameLevels f, faults := frameFaults f, fresh := frameFresh f
      wasGone := before = .offline || before = .absent }

/-- The board state after a miss that brings MISSES to a count (05 R80). -/
def BoardState.afterMiss (s : BoardState) (misses missLimit : Nat) : BoardState :=
  match s with
  | .online | .degraded => if misses < missLimit then .degraded else .offline
  | .absent => .absent
  | .offline => .offline
  | .disabled => .disabled

/-- A board after a miss (05 R80). -/
def Board.missed (b : Board) (missLimit : Nat) : Board :=
  { b with misses := min (b.misses + 1) 255, state := b.state.afterMiss (min (b.misses + 1) 255) missLimit }

/-- A board is ONLINE or DEGRADED, where its loss releases the panel (05 R81). -/
def BoardState.answering : BoardState → Bool
  | .online | .degraded => true
  | .disabled | .absent | .offline => false

/-- A miss for a board; on entry into OFFLINE, BOARD_OFFLINE and the board-lost event (05 R80, R81). -/
def Device.miss (d : Device) (l : Stage) (address : Fin 6) : Device :=
  let before := (d.link l).boards[address].state
  let d := d.onLink l fun x => x.onBoard address fun b => b.missed x.missLimit
  if before.answering && (d.link l).boards[address].state = .offline then
    (d.raise .boardOffline).takeBoardLost (panelOf l address)
  else d

/-- The transaction in hand ends; the line gap follows (05 R74). -/
def Device.endTransaction (d : Device) (l : Stage) : Device := d.onLink l fun x => { x with phase := .gap }

/-- A parity miss: LINK_PARITY and the parity count (05 R75). -/
def Device.parityMiss (d : Device) (l : Stage) (address : Fin 6) : Device :=
  ((d.onLink l fun x => { x with parity := min (x.parity + 1) 255 }).raise .linkParity).miss l address

/-- A complete REPORT judged (05 R75). -/
def Device.judgeReport (d : Device) (l : Stage) (address : Fin 6) (f : ReportFrame) : Device :=
  if !goodFrame f then d.parityMiss l address
  else if f.echo.data.toNat ≠ address.val then d.miss l address
  else d.goodReport l address f

/-- The transaction's end is neither a good report nor a miss: its board is DISABLED, or has been since the POLL (05
R79, R83). -/
def Link.discards (l : Link) (address : Fin 6) (void : Bool) : Bool := void || l.boards[address].state = .disabled

/-- A REPORT complete by its deadline, `quarters` quarter microseconds after the end of the POLL, is judged, and the
transaction ends; one for a board disabled meanwhile is discarded (05 R74, R75, R83). A later REPORT is not complete in
time, and characters outside a transaction, or while its POLL is being sent, belong to no REPORT (05 R71, R73). -/
def Device.receiveReport (d : Device) (l : Stage) (f : ReportFrame) (quarters : Nat) : Device :=
  match (d.link l).phase with
  | .sending _ _ _ => d
  | .transaction address _ replyLimit void =>
    if quarters ≤ 4 * replyLimit then
      if (d.link l).discards address void then d.endTransaction l
      else (d.endTransaction l).judgeReport l address f
    else d
  | .gap => d
  | .emptyRound => d

/-- The reply deadline passes with the REPORT not complete (05 R74, R83). -/
def Device.passDeadline (d : Device) (l : Stage) : Device :=
  match (d.link l).phase with
  | .sending _ _ _ => d
  | .transaction address _ _ void =>
    if (d.link l).discards address void then d.endTransaction l else (d.endTransaction l).miss l address
  | .gap => d
  | .emptyRound => d

/-! ## Stage settings -/

/-- A board whose enable changes: DISABLED, or ABSENT, with MISSES 0 (05 R83). -/
def Board.enabledTo (b : Board) (was now : Bool) : Board :=
  if was = now then b
  else if now then { b with state := .absent, misses := 0 }
  else { b with state := .disabled, misses := 0 }

/-- The REPORT of the transaction in hand is to be discarded when its board is disabled, its POLL sent or still being
sent (05 R83, notes/assumptions 14); an empty round on a link left without a board ends in silence (05 R77,
notes/assumptions 15). -/
def LinkPhase.afterEnable (phase : LinkPhase) (enable : BitVec 6) : LinkPhase :=
  match phase with
  | .transaction address level replyLimit void =>
    .transaction address level replyLimit (void || !enable.getLsbD address.val)
  | .sending address level void => .sending address level (void || !enable.getLsbD address.val)
  | .emptyRound => if enable = 0 then .gap else .emptyRound
  | .gap => .gap

/-- A link with new settings (05 R82, R83). -/
def Link.withSettings (l : Link) (enable : BitVec 6) (replyLimit missLimit : Nat) : Link :=
  { l with
    boards := Vector.ofFn fun i => l.boards[i].enabledTo (l.enable.getLsbD i.val) (enable.getLsbD i.val)
    enable := enable, replyLimit := replyLimit, missLimit := missLimit, phase := l.phase.afterEnable enable }

/-- The addresses whose board a new enable mask takes from ONLINE or DEGRADED (05 R81, R83). -/
def Link.lostTo (l : Link) (enable : BitVec 6) : List (Fin 6) :=
  (List.finRange 6).filter fun a =>
    l.enable.getLsbD a.val && !enable.getLsbD a.val && l.boards[a].state.answering

/-- One stage's settings written, the boards acted on at once (05 R82, R83), a silent link woken (05 R77). -/
def Device.setLink (d : Device) (l : Stage) (enable : BitVec 6) (replyLimit missLimit : Nat) : Device :=
  let lost := (d.link l).lostTo enable
  let silent := (d.link l).silent
  let d := d.onLink l fun x => x.withSettings enable replyLimit missLimit
  let d := lost.foldl (fun d a => d.takeBoardLost (panelOf l a)) d
  d.wakeLink l silent

/-- SET_STAGE (05 R82, 02 R18). -/
def setStage (fields : List Byte) (d : Device) : ResultCode × Device :=
  if d.session.state ≠ .idle then (.wrongState, d)
  else if 64 ≤ u8 fields 0 ∨ 64 ≤ u8 fields 7 then (.badValue, d)
  else
    let offset := fun at_ => clampInt (-200000) 200000 (s32 fields at_)
    let d := { d with clock := { d.clock with offsets := ⟨offset 1, offset 8⟩ } }
    let d := d.setLink .a (BitVec.ofNat 6 (u8 fields 0)) (clampNat 17 60 (u8 fields 5)) (clampNat 1 15 (u8 fields 6))
    (.done, d.setLink .b (BitVec.ofNat 6 (u8 fields 7)) (clampNat 17 60 (u8 fields 12)) (clampNat 1 15 (u8 fields 13)))

/-! ## Soft reset -/

/-- A transaction in hand across a soft reset is judged under the board table as it stands after it (05 R86,
notes/assumptions 14). -/
def LinkPhase.afterSoftReset : LinkPhase → LinkPhase
  | .transaction address level replyLimit _ => .transaction address level replyLimit false
  | .sending address level _ => .sending address level false
  | .emptyRound => .emptyRound
  | .gap => .gap

/-- A board after a soft reset: one that was DISABLED becomes ABSENT (05 R86). -/
def Board.softReset (b : Board) : Board :=
  if b.state = .disabled then { b with state := .absent, misses := 0 } else b

/-- A link after a soft reset, but for the waking of a silent one (05 R86). DESIGN CHOICE (notes/assumptions 45): every
board is enabled, so by 07 R102 a board that was DISABLED and SEEN is present at the next START, though 07 R108 has that
START find the same boards present as before the reset. -/
def Link.softReset (l : Link) : Link :=
  { l with
    boards := vecMap Board.softReset l.boards, enable := 0x3F, replyLimit := 24, missLimit := 4
    phase := l.phase.afterSoftReset }

end Sys2Proof.Machine
end

