-- ==== Sys2Proof/Machine/Events.lean ====
section
/-!
DEFINITION. The part's own events: which of them are due in a state, what each does, and how those due at one instant
are taken. Each is also a row of the table; here they are gathered so that time never passes over one that is due
(notes/assumptions 3, 4, 5).
-/
namespace Sys2Proof.Machine

/-- An event at a lane (08 R118, R119, R122, R123). -/
inductive LaneEvent where
  | sweep
  | avoidDue
  | avoidPast
  | tail
  | grace
  deriving DecidableEq, Repr

/-- An event of the part itself. -/
inductive Event where
  | lane (event : LaneEvent) (q : LaneQueue)
  | stallEnd
  | syncTimeout
  | tempo (p : Player)
  | beat (p : Player)
  | stuck (panel : Panel)
  | flashEnd (panel : Panel)
  | beatPulseEnd (panel : Panel)
  | entry (p : Player)
  | stallRelease (p : Player)
  deriving DecidableEq, Repr

/-- The time that a lane event awaits, where it is due (08 R113): lane time has reached it. -/
def Device.laneEventTime (d : Device) (q : LaneQueue) : LaneEvent → Option Int
  | .sweep => (d.sweepDue q).map fun n => (n.due : Int) + d.judge.lateLimit n.kind + 1
  | .avoidDue => (d.avoidDue q).map fun n => (n.due : Int)
  | .avoidPast => (d.avoidPast q).map fun n => (n.due : Int) + d.judge.lateLimit n.kind + 1
  | .tail => (d.tailDue q).map fun h => ((h.tail.getD 0 : Nat) : Int)
  | .grace => (d.graceDue q).map fun x => x.2

/-- The kinds of lane events. -/
def laneEventKinds : List LaneEvent := [.avoidDue, .tail, .grace, .sweep, .avoidPast]

/-- The earliest time that a due event of a lane awaits. -/
def Device.earliest (d : Device) (q : LaneQueue) : Option Int :=
  (laneEventKinds.filterMap (d.laneEventTime q)).min?

/-- The events of one lane to take next: those due that await the earliest time (08 R113). -/
def Device.laneEvents (d : Device) (q : LaneQueue) : List Event :=
  (laneEventKinds.filter fun k => (d.laneEventTime q k).isSome && d.laneEventTime q k = d.earliest q).map
    fun k => .lane k q

/-- A lane event taken; nothing where it is not due. -/
def Device.takeLaneEvent (d : Device) (q : LaneQueue) : LaneEvent → Device
  | .sweep => d.sweepLane q
  | .avoidDue => d.avoidDueLane q
  | .avoidPast => d.avoidPastLane q
  | .tail => d.tailLane q
  | .grace => d.graceLane q

/-- The entry at the front of a player's buffer is taken, whatever its kind (04 R51). -/
def Device.takeNext (d : Device) (p : Player) : Device :=
  match d.nextEntry p with
  | none => d
  | some e => d.takeEntry p e

/-- An event taken; nothing where it is not due. -/
def Device.takeEvent (d : Device) : Event → Device
  | .lane k q => d.takeLaneEvent q k
  | .stallEnd => d.endStall
  | .syncTimeout => d.loseSync
  | .tempo p => d.reachTempo p
  | .beat p => d.crossBeat p
  | .stuck p => d.expireStuck p
  | .flashEnd p => d.endFlash p
  | .beatPulseEnd p => d.endBeatPulse p
  | .entry p => d.takeNext p
  | .stallRelease p => d.releaseStall p

/-- An event that is due, as a list of it or of nothing. -/
def dueWhen (due : Bool) (e : Event) : List Event := if due then [e] else []

/-- The lane events due, of all lanes. -/
def Device.dueLaneEvents (d : Device) : List Event := allQueues.flatMap d.laneEvents

/-- The events of a player's tracker and decoder that are due, but for a stall's release. -/
def Device.duePlayerEvents (d : Device) (p : Player) : List Event :=
  dueWhen (d.tempoDue p) (.tempo p) ++ dueWhen (d.beatDue p) (.beat p) ++ dueWhen (d.nextEntry p).isSome (.entry p)

/-- The events of a panel's timers that are due. -/
def Device.duePanelEvents (d : Device) (p : Panel) : List Event :=
  dueWhen (d.stuckDue p) (.stuck p) ++ dueWhen (d.flashDue p) (.flashEnd p)
    ++ dueWhen (d.beatPulseDue p) (.beatPulseEnd p)

/-- The stalled decoders whose retry is due: a removal has made room where they wait (04 R62). -/
def Device.dueRetries (d : Device) : List Event :=
  dueWhen (d.stallFree .p1) (.stallRelease .p1) ++ dueWhen (d.stallFree .p2) (.stallRelease .p2)

/-- A retry comes at the removal that makes its room (04 R54, R62, 08 R111), so before any further event
(notes/assumptions 39). -/
def Device.retriesFirst (d : Device) (es : List Event) : List Event :=
  if d.dueRetries.isEmpty then es else d.dueRetries

/-- Every event that is due, but for the retries. -/
def Device.dueOthers (d : Device) : List Event :=
  dueWhen d.stallOver .stallEnd ++ dueWhen d.syncLossDue .syncTimeout ++ d.duePlayerEvents .p1
    ++ d.duePlayerEvents .p2 ++ allPanels.flatMap d.duePanelEvents ++ d.dueLaneEvents

/-- The events to take next, of all that are due. -/
def Device.dueEvents (d : Device) : List Event := d.retriesFirst d.dueOthers

/-- The events to take next while a lane event is still due. -/
def Device.dueLaneWork (d : Device) : List Event :=
  if d.dueLaneEvents.isEmpty then [] else d.retriesFirst d.dueLaneEvents

/-- The event of those due that is taken next: where there are several, a free number chooses (08 R113, R132). -/
def Device.pick (d : Device) (es : List Event) : Option (Event × Device) :=
  match es with
  | [] => none
  | [e] => some (e, d)
  | e :: _ :: _ => some (es.getD (Config.pickEvent d.choices % es.length) e, d.countChoice)

/-- Due events taken one after another until none of the given kind is left, or the fuel is spent. A read's header may be
taken after each (08 R131). -/
def settle (due : Device → List Event) : Nat → Device → Device
  | 0, d => d
  | fuel + 1, d =>
    match d.pick (due d) with
    | none => d
    | some (e, d) => settle due fuel (d.takeEvent e).headersMayFall

/-- How many events are taken at one instant at most: more than a state that meets the capacities of the handbook can
have due (notes/assumptions 4). -/
def eventFuel : Nat := 8192

/-- The lane events that a step of time has made due (08 R113, R118). They are separate events of the judge, so at each
removal the decoder that waits there retries before the next of them (04 R62, 08 R111). What the last of them frees is
left to the step STALL_RELEASE, as after a SWEEP (notes/assumptions 39). -/
def Device.settleLanes (d : Device) : Device := settle Device.dueLaneWork eventFuel d

/-- Every event still due, before time moves on (notes/assumptions 4). -/
def Device.settleAll (d : Device) : Device := settle Device.dueEvents eventFuel d

/-- One microsecond (02 R16, R17, R24). -/
def Device.microsecond (d : Device) : Device :=
  let d := d.settleAll
  { d with clock := d.clock.tick d.songRuns }

end Sys2Proof.Machine
end

