-- ==== Sys2Proof/Machine/Session.lean ====
section
/-!
DEFINITION. The session commands (chapter 1) with what each hands to the other blocks, and the settings commands of
the score keeper, the judge and the lamp mixer.
-/
namespace Sys2Proof.Machine

/-! ## OPEN_SONG -/

/-- The lead-in that OPEN_SONG's field gives (01 R4). -/
def leadInOf (field : Nat) : Nat := if field = 0xFFFFFFFF then defaultLeadIn else min field maxLeadIn

/-- A value OPEN_SONG cannot use (01 R4). -/
def openSongBad (style mask policy : Nat) : Bool :=
  1 < style || 1 < policy || 4 ≤ mask || mask = 0 || (style = 1 && mask.testBit 1)

/-- The session at an accepted OPEN_SONG (01 R4). -/
def Session.opened (style mask policy leadIn : Nat) : Session :=
  { state := .preload
    style := if style = 1 then .doubles else .versus
    named := ⟨mask.testBit 0, mask.testBit 1⟩
    failPolicy := if policy = 1 then .carryOn else .stop
    leadIn := leadInOf leadIn
    players := ⟨if mask.testBit 0 then .joined else .off, if mask.testBit 1 then .joined else .off⟩ }

/-- The OPEN event, with the OPEN mark and the SESSION notice (01 R4; 02 R17, R27; 04 R69; 08 R129; 09 R146; 10 R157;
11 R166). -/
def Device.openWith (d : Device) (s : Session) : Device :=
  ((({ d with
    session := s
    clock := d.clock.opened s.leadIn
    decoders := ⟨.opened s.named.p1, .opened s.named.p2⟩
    judge := d.judge.emptied
    score := { d.score with records := ⟨d.score.opened s.named.p1, d.score.opened s.named.p2⟩ }
    ring := d.ring.emptied
    lamps := d.lamps.timersStopped }).mark .opened .p1).raise .session)

/-- OPEN_SONG at the session controller (01 R3, R4). -/
def openSong (fields : List Byte) (d : Device) : ResultCode × Device :=
  if d.session.state ≠ .idle then (.wrongState, d)
  else if openSongBad (u8 fields 0) (u8 fields 1) (u8 fields 2) then (.badValue, d)
  else (.done, d.openWith (Session.opened (u8 fields 0) (u8 fields 1) (u8 fields 2) (u32 fields 3)))

/-! ## START -/

/-- A JOINED player becomes PLAYING at START (01 R5). -/
def PlayerState.started : PlayerState → PlayerState
  | .joined => .playing
  | .off => .off
  | .playing => .playing
  | .cleared => .cleared
  | .failed => .failed

/-- The session at an accepted START (01 R5). -/
def Session.started (s : Session) : Session :=
  { s with state := .run, players := ⟨s.players.p1.started, s.players.p2.started⟩ }

/-- The START event up to its mark and notice: the clock, then the map (01 R5, 02 R17, 07 R103). -/
def Device.startSong (d : Device) : Device :=
  let d := { d with session := d.session.started, clock := d.clock.started d.session.leadIn }
  (d.freezeMap.mark .started .p1).raise .session

/-- START at the session controller: the done condition of each PLAYING player is then examined, and the first
lane-time events are evaluated (01 R5, R10; 08 R129). DESIGN CHOICE (notes/assumptions 38): P1 is examined before P2, so
where both clear, P1's CLEARED mark comes first. -/
def start (d : Device) : ResultCode × Device :=
  if d.session.state ≠ .preload then (.wrongState, d)
  else (.done, ((d.startSong.examineDone .p1).examineDone .p2).settleLanes)

/-! ## ABORT and CLOSE -/

/-- The session on the return to IDLE: every player OFF, the song parameters kept (01 R2, R7, R8). -/
def Session.closed (s : Session) : Session := { s with state := .idle, players := ⟨.off, .off⟩ }

/-- A chart write in progress is cut off by an ABORT or CLOSE (04 R47). -/
def Transaction.cutOff : Transaction → Transaction
  | .chart p verdict entered full _ reset => .chart p verdict entered full true reset
  | .ringRead snapshot sent dead => .ringRead snapshot sent dead
  | .selected status => .selected status
  | .heading status channel => .heading status channel
  | .write channel data => .write channel data
  | .read channel snapshot => .read channel snapshot

/-- What ABORT and CLOSE have in common (01 R7, R8; 02 R17, R27; 04 R69; 07 R104; 08 R129). -/
def Device.returnToIdle (d : Device) : Device :=
  { d with
    session := d.session.closed
    clock := d.clock.stopped
    decoders := ⟨d.decoders.p1.closed, d.decoders.p2.closed⟩
    mapper := { d.mapper with frozen := none }
    judge := d.judge.emptied
    ports := vecMap (fun p => { p with transaction := p.transaction.map Transaction.cutOff }) d.ports }

/-- ABORT at the session controller (01 R7). -/
def abort (d : Device) : ResultCode × Device :=
  if d.session.state = .idle then (.wrongState, d)
  else (.done, (d.returnToIdle.mark .aborted .p1).raise .session)

/-- CLOSE at the session controller (01 R8). -/
def close (d : Device) : ResultCode × Device :=
  if d.session.state ≠ .ended then (.wrongState, d) else (.done, d.returnToIdle.raise .session)

/-! ## POSITION -/

/-- POSITION at the song clock (02 R22, R23): a correction is followed by the lane-time events it makes due (02 R25,
08 R113). -/
def position (fields : List Byte) (d : Device) : ResultCode × Device :=
  match d.reportCheck (fields.getD 0 0) with
  | .error code => (code, d)
  | .ok x => (.done, (d.correct x (s32 fields 1)).settleLanes)

/-! ## Settings -/

/-- A grade window of SET_WINDOWS, each limit clamped to 500,000 (08 R112). -/
def gradeWindow (fields : List Byte) (at_ : Nat) : Window :=
  { early := min (u32 fields at_) 500000, late := min (u32 fields (at_ + 4)) 500000 }

/-- The clamped grade table of SET_WINDOWS (08 R112, 12 R171). -/
def gradeTable (fields : List Byte) : Windows :=
  { exact := gradeWindow fields 0, great := gradeWindow fields 8, good := gradeWindow fields 16
    fair := gradeWindow fields 24, poor := gradeWindow fields 32 }

/-- Each limit of one window is at least the same limit of the other (08 R112). -/
def Window.atLeast (outer inner : Window) : Bool := inner.early ≤ outer.early && inner.late ≤ outer.late

/-- The table is nested: eight comparisons (08 R112). -/
def Windows.nested (w : Windows) : Bool :=
  w.great.atLeast w.exact && w.good.atLeast w.great && w.fair.atLeast w.good && w.poor.atLeast w.fair

/-- SET_WINDOWS at the judge (08 R112). -/
def setWindows (fields : List Byte) (d : Device) : ResultCode × Device :=
  if d.session.state ≠ .idle then (.wrongState, d)
  else if !(gradeTable fields).nested then (.badTable, d)
  else
    (.done, { d with judge := { d.judge with
      windows := gradeTable fields
      avoid := { early := min (u32 fields 40) 200000, late := min (u32 fields 44) 200000 }
      holdGrace := min (u32 fields 48) 1000000 } })

/-- The grade that a floor byte selects, the last of a list for a byte beyond it (09 R134, 11 R160). -/
def gradeOfByte (byte : Nat) (last : Grade) : Grade :=
  if last.toNat < byte then last
  else
    match byte with
    | 0 => .exact
    | 1 => .great
    | 2 => .good
    | 3 => .fair
    | _ => .poor

/-- SET_SCORING at the score keeper (09 R134). -/
def setScoring (fields : List Byte) (d : Device) : ResultCode × Device :=
  if d.session.state ≠ .idle then (.wrongState, d)
  else
    let weight := fun at_ => min (u16 fields at_) 1000
    (.done, { d with score := { d.score with
      weights := ⟨weight 0, weight 2, weight 4, weight 6, weight 8, weight 10⟩
      comboFloor := gradeOfByte (u8 fields 12) .fair } })

/-- SET_LIFE at the score keeper (09 R135). -/
def setLife (fields : List Byte) (d : Device) : ResultCode × Device :=
  if d.session.state ≠ .idle then (.wrongState, d)
  else
    let delta := fun at_ => clampInt (-1000) 1000 (s16 fields at_)
    (.done, { d with score := { d.score with
      lifeStart := clampNat 1 1000 (u16 fields 0)
      deltas := ⟨delta 2, delta 4, delta 6, delta 8, delta 10, delta 12, delta 14, delta 16, delta 18⟩ } })

/-- SET_LAMPS at the lamp mixer, in every session state (11 R160). -/
def setLamps (fields : List Byte) (d : Device) : ResultCode × Device :=
  (.done, { d with lamps := { d.lamps with
    echoLevel := fields.getD 0 0, flashLevel := fields.getD 1 0, beatLevel := fields.getD 2 0
    flashTime := min (u32 fields 3) 1000000, beatTime := min (u32 fields 7) 1000000
    flashFloor := gradeOfByte (u8 fields 11) .poor } })

end Sys2Proof.Machine
end

