-- ==== Sys2Proof/Machine/Ports.lean ====
section
/-!
DEFINITION. The port interface (chapter 12): channels, the COMMAND table, rights, result records, notices, the two
resets, and the transactions with their moments.

An operation named `…Taken` is what a write does at its rise of SEL_N, on a port with no transaction in progress.
-/
namespace Sys2Proof.Machine

/-! ## Result records -/

/-- The count field of a result record; for more than 65,535 bytes a free value (12 R170, notes/assumptions 10). -/
def countField (n : Nat) : BitVec 16 := if n ≤ 65535 then BitVec.ofNat 16 n else Config.countBeyond n

/-- A port's result record replaced (12 R170). -/
def Device.setResult (d : Device) (i : Port) (channel : BitVec 6) (code : ResultCode) (count : Nat) : Device :=
  d.onPort i fun p => { p with result := { channel := channel, code := code, count := countField count } }

/-- The channel of a player's chart (12 R169). -/
def chartChannel : Player → BitVec 6
  | .p1 => 0x04
  | .p2 => 0x05

/-! ## The COMMAND table -/

/-- The commands (12 R171). -/
inductive Command where
  | openSong
  | start
  | abort
  | close
  | position
  | setSync
  | setStage
  | setPanel
  | setMap
  | setWindows
  | setScoring
  | setLife
  | setLamps
  | subscribe
  | unsubscribe
  | softReset
  deriving DecidableEq, Repr

/-- The command of a code (12 R171). -/
def commandOf (code : Byte) : Option Command :=
  match code.toNat with
  | 0x10 => some .openSong
  | 0x11 => some .start
  | 0x12 => some .abort
  | 0x13 => some .close
  | 0x20 => some .position
  | 0x21 => some .setSync
  | 0x30 => some .setStage
  | 0x31 => some .setPanel
  | 0x32 => some .setMap
  | 0x40 => some .setWindows
  | 0x41 => some .setScoring
  | 0x42 => some .setLife
  | 0x50 => some .setLamps
  | 0x60 => some .subscribe
  | 0x61 => some .unsubscribe
  | 0x7F => some .softReset
  | _ => none

/-- The length of a command, its code included (12 R171). -/
def Command.length : Command → Nat
  | .openSong => 8
  | .start => 1
  | .abort => 1
  | .close => 1
  | .position => 6
  | .setSync => 14
  | .setStage => 15
  | .setPanel => 9
  | .setMap => 3
  | .setWindows => 53
  | .setScoring => 14
  | .setLife => 21
  | .setLamps => 13
  | .subscribe => 3
  | .unsubscribe => 1
  | .softReset => 1

/-- The rights of a role to the commands (12 R172). -/
def roleMay (r : Role) (c : Command) : Bool :=
  match c with
  | .subscribe | .unsubscribe => true
  | .position => r = .audio
  | .start => r = .game || r = .audio
  | .setLamps => r = .game || r = .lamp
  | .openSong | .abort | .close | .setSync | .setStage | .setPanel | .setMap | .setWindows | .setScoring | .setLife
  | .softReset => r = .game

/-! ## Resets -/

/-- A transaction of another port across a soft reset (12 R177, 10 R158): a chart write and a RING read are cut short, any
other write is taken at its own rise, and any other read keeps its snapshot. -/
def Transaction.afterSoftReset : Transaction → Transaction
  | .chart p verdict entered full cut _ => .chart p verdict entered full cut true
  | .ringRead snapshot sent _ => .ringRead snapshot sent true
  | .selected status => .selected status
  | .heading status channel => .heading status channel
  | .write channel data => .write channel data
  | .read channel snapshot => .read channel snapshot

/-- A port after a soft reset: the role kept, the rest at its reset value (12 R176). -/
def PortState.softReset (p : PortState) : PortState :=
  { PortState.reset p.role with transaction := p.transaction.map Transaction.afterSoftReset }

/-- Every block's soft reset (12 R177; 01 R15; 02 R31; 04 R70; 05 R86; 06 R99; 07 R108; 08 R130; 09 R146; 10 R158; 11
R166; 12 R176), but for what follows from it at once. -/
def Device.softResetBlocks (d : Device) : Device :=
  { session := .reset, clock := d.clock.softReset, decoders := ⟨.reset, .reset⟩
    links := ⟨d.links.a.softReset, d.links.b.softReset⟩, press := d.press.softReset, mapper := .reset, judge := .reset
    score := .reset, ring := .reset, lamps := .reset, ports := vecMap PortState.softReset d.ports
    choices := d.choices }

/-- A soft reset: silent links begin a new round (05 R86), and a stuck timer beyond the default limit expires
(06 R96). -/
def Device.softReset (d : Device) : Device :=
  ((d.softResetBlocks.wakeLink .a (d.link .a).silent).wakeLink .b (d.link .b).silent).expireAllStuck

/-- A role that a lower-numbered port already holds becomes WATCH (12 R173). -/
def grantedRole (held : List Role) (r : Role) : Role := if r != .watch && held.contains r then .watch else r

/-- The roles that the straps give, in the order MP0, MP1, MP2 (12 R173). -/
def grantedRoles (s : Straps) : Straps :=
  let r0 := grantedRole [] s.mp0
  let r1 := grantedRole [r0] s.mp1
  { mp0 := r0, mp1 := r1, mp2 := grantedRole [r0, r1] s.mp2 }

/-- The ports after a power-on reset, before ROLE_CONFLICT (12 R176). -/
def portsOf (s : Straps) : Vector PortState 3 := #v[.reset s.mp0, .reset s.mp1, .reset s.mp2]

/-- A power-on reset (12 R173, R176): every block in its power-on state, ROLE_CONFLICT added where a role changed. -/
def Device.powerOn (d : Device) (s : Straps) : Device :=
  let fresh := { Device.reset (portsOf (grantedRoles s)) with choices := d.choices }
  if grantedRoles s = s then fresh else fresh.raise .roleConflict

/-! ## Commands -/

/-- A command handed to its owning block, with the block's code (12 R171). -/
def handCommand (i : Port) (c : Command) (fields : List Byte) (d : Device) : ResultCode × Device :=
  match c with
  | .openSong => openSong fields d
  | .start => start d
  | .abort => abort d
  | .close => close d
  | .position => position fields d
  | .setSync => setSync fields d
  | .setStage => setStage fields d
  | .setPanel => setPanel fields d
  | .setMap => setMap fields d
  | .setWindows => setWindows fields d
  | .setScoring => setScoring fields d
  | .setLife => setLife fields d
  | .setLamps => setLamps fields d
  | .subscribe => ringSubscribe i fields d
  | .unsubscribe => ringUnsubscribe i d
  | .softReset => (.done, d.softReset)

/-- The refusal of the port checks of a known command, rights before length (12 R171): none where they pass. -/
def portRefusal (role : Role) (c : Command) (fields : List Byte) : Option ResultCode :=
  if !roleMay role c then some .noRight else if fields.length + 1 ≠ c.length then some .badLength else none

/-- A block's answer with its code in the port's result record; SOFT_RESET leaves the record at its reset value
(12 R170, R171, R177). -/
def leaveResult (i : Port) (c : Command) (count : Nat) (answer : ResultCode × Device) : Device :=
  if c = .softReset then answer.2 else answer.2.setResult i 0x01 answer.1 count

/-- A COMMAND write of a known command, at the rise of SEL_N (12 R171). -/
def Device.commandTaken (d : Device) (i : Port) (c : Command) (fields : List Byte) : Device :=
  match portRefusal (d.port i).role c fields with
  | some code => d.setResult i 0x01 code (fields.length + 1)
  | none => leaveResult i c (fields.length + 1) (handCommand i c fields d)

/-- A COMMAND write, whatever its bytes (12 R171). -/
def Device.commandBytesTaken (d : Device) (i : Port) (data : List Byte) : Device :=
  match data with
  | [] => d.setResult i 0x01 .badLength 0
  | code :: fields =>
    match commandOf code with
    | none => d.setResult i 0x01 .unknown data.length
    | some c => d.commandTaken i c fields

/-! ## Notices -/

/-- The 16-bit mask of two data bytes (12 R174). -/
def maskOf (data : List Byte) : BitVec 16 := BitVec.ofNat 16 (u16 data 0)

/-- A write of NOTICE (12 R170, R174). -/
def Device.noticeTaken (d : Device) (i : Port) (data : List Byte) : Device :=
  if data.length = 2 then
    (d.onPort i fun p => { p with notices := p.notices &&& ~~~(maskOf data) }).setResult i 0x02 .done 2
  else d.setResult i 0x02 .badLength data.length

/-- A write of NOTICE_MASK (12 R170, R174). -/
def Device.maskTaken (d : Device) (i : Port) (data : List Byte) : Device :=
  if data.length = 2 then (d.onPort i fun p => { p with mask := maskOf data }).setResult i 0x03 .done 2
  else d.setResult i 0x03 .badLength data.length

/-! ## The LAMP channel -/

/-- The lamp mixer takes a LAMP write whole (11 R161). -/
def Lamps.written (l : Lamps) (data : List Byte) : Lamps :=
  { l with
    patterns := Vector.ofFn fun i => data.getD i.val l.patterns[i]
    override := if 14 ≤ data.length then BitVec.ofNat 12 (u16 data 12) else l.override }

/-- A write of LAMP (11 R161, 12 R170, R172). A lone thirteenth byte, which replaces nothing, counts as a byte taken:
DESIGN CHOICE (notes/assumptions 37). -/
def Device.lampTaken (d : Device) (i : Port) (data : List Byte) : Device :=
  if (d.port i).role = .lamp then
    ({ d with lamps := d.lamps.written data }).setResult i 0x0B .done (min data.length 14)
  else d.setResult i 0x0B .noRight 0

/-! ## Chart writes -/

/-- A chart write is accepted: PRELOAD or RUN, and the channel's player JOINED, PLAYING or FAILED (04 R47). -/
def Device.chartOpen (d : Device) (p : Player) : Bool :=
  (d.session.state = .preload || d.session.state = .run)
    && (d.playerState p = .joined || d.playerState p = .playing || d.playerState p = .failed)

/-- The verdict of a chart write at its header: rights, then the states (04 R47, 12 R172). -/
def Device.chartVerdict (d : Device) (i : Port) (p : Player) : ResultCode :=
  if (d.port i).role ≠ .game then .noRight else if d.chartOpen p then .done else .wrongState

/-- The header of a chart write (04 R47). -/
def Device.chartBegin (d : Device) (i : Port) (p : Player) : Device :=
  d.onPort i fun x => { x with transaction := some (.chart p (d.chartVerdict i p) 0 false false false) }

/-- A data byte of a chart write (04 R46, R47, R70). -/
def Device.chartByte (d : Device) (i : Port) (b : Byte) : Device :=
  match (d.port i).transaction with
  | some (.chart p .done entered false false false) =>
    if d.bufferHasRoom p then
      (d.bufferByte p b).onPort i fun x =>
        { x with transaction := some (.chart p .done (entered + 1) false false false) }
    else d.onPort i fun x => { x with transaction := some (.chart p .done entered true false false) }
  | _ => d

/-- The rise of SEL_N of a chart write leaves its result, but for one that a soft reset has met (04 R47, 12 R170, R177);
nothing where no chart write is in progress. -/
def Device.chartRise (d : Device) (i : Port) : Device :=
  match (d.port i).transaction with
  | some (.chart p verdict entered _ _ reset) =>
    let closed := d.onPort i fun x => { x with transaction := none }
    if reset then closed
    else closed.setResult i (chartChannel p) verdict (if verdict = .done then entered else 0)
  | some (.selected _) => d
  | some (.heading _ _) => d
  | some (.write _ _) => d
  | some (.read _ _) => d
  | some (.ringRead _ _ _) => d
  | none => d

/-- A whole chart write, with nothing taken between its header and its end (04 R47). -/
def Device.chartTaken (d : Device) (i : Port) (p : Player) (data : List Byte) : Device :=
  (data.foldl (fun d b => d.chartByte i b) (d.chartBegin i p)).chartRise i

/-! ## What a write and a read leave at the rise of SEL_N -/

/-- The channel code of a header, bits 5 to 0 (12 R167, R170). -/
def channelCode (channel : ChannelField) : BitVec 6 := channel.setWidth 6

/-- A header names a channel of the table: bit 6 is 0 and the code is below 0x0C (12 R167, R169). -/
def knownChannel (channel : ChannelField) : Bool := channel.toNat < 12

/-- A write at its rise of SEL_N, by its header and data bytes (12 R170). -/
def Device.writeTaken (d : Device) (i : Port) (channel : ChannelField) (data : List Byte) : Device :=
  match channel.toNat with
  | 0x01 => d.commandBytesTaken i data
  | 0x02 => d.noticeTaken i data
  | 0x03 => d.maskTaken i data
  | 0x04 => d.chartTaken i .p1 data
  | 0x05 => d.chartTaken i .p2 data
  | 0x0B => d.lampTaken i data
  | _ => d.setResult i (channelCode channel) (if knownChannel channel then .noRight else .unknown) 0

/-- A read at its rise of SEL_N leaves a result in three cases: of COMMAND, of an unknown channel, and of RING by a port
without a cursor (12 R169, 10 R154). -/
def Device.readTaken (d : Device) (i : Port) (channel : ChannelField) : Device :=
  if knownChannel channel then
    if channel = 0x01#7 ∨ (channel = 0x06#7 ∧ d.ring.subs[i] = none) then
      d.setResult i (channelCode channel) .noRight 0
    else d
  else d.setResult i (channelCode channel) .unknown 0

/-! ## The moments of a transaction -/

/-- The rise of SEL_N, which ends the transaction in progress on a port (12 R167): a write is taken, a refused read
leaves its result, and one whose header has not come has no effect. DESIGN CHOICE (notes/assumptions 43): a RING read
begun with a cursor leaves no result (10 R154), also where a soft reset has taken the cursor meanwhile. -/
def Device.rise (d : Device) (i : Port) : Device :=
  let closed := d.onPort i fun p => { p with transaction := none }
  match (d.port i).transaction with
  | none => closed
  | some (.selected _) => closed
  | some (.heading _ _) => closed
  | some (.write channel data) => closed.writeTaken i channel data
  | some (.read channel _) => closed.readTaken i channel
  | some (.chart _ _ _ _ _ _) => d.chartRise i
  | some (.ringRead _ _ _) => closed

/-- The fall of SEL_N, where the status byte is fixed (12 R167, R168). A transaction still in progress must have ended
first (notes/assumptions 8). DESIGN CHOICE (notes/assumptions 42): the whole byte is of this moment (12 R168), where
10 R151 says of its ring bit, and 01 R1 of its session bits, the moment of the header. -/
def Device.fall (d : Device) (i : Port) : Device :=
  let d := d.rise i
  d.onPort i fun p => { p with transaction := some (.selected (d.statusByte i)) }

/-- The header of a write (12 R167); of a chart channel, 04 R47. -/
def Device.writeHeader (d : Device) (i : Port) (channel : ChannelField) : Device :=
  let d := d.rise i
  match channel.toNat with
  | 0x04 => d.chartBegin i .p1
  | 0x05 => d.chartBegin i .p2
  | _ => d.onPort i fun p => { p with transaction := some (.write channel []) }

/-- A data byte of a write clocked in; a read ignores SDI, and outside a transaction the port does (12 R167). -/
def Device.byteIn (d : Device) (i : Port) (b : Byte) : Device :=
  match (d.port i).transaction with
  | some (.write channel data) => d.onPort i fun p => { p with transaction := some (.write channel (data ++ [b])) }
  | some (.chart _ _ _ _ _ _) => d.chartByte i b
  | some (.selected _) => d
  | some (.heading _ _) => d
  | some (.read _ _) => d
  | some (.ringRead _ _ _) => d
  | none => d

/-- The header of a read under way, all but its eighth clock edge, which takes it (12 R167): the status byte is that of
the fall. The header may then be taken within a step of the judge (08 R131), and at the latest by its own moment. -/
def Device.headingRead (d : Device) (i : Port) (channel : ChannelField) : Device :=
  match (d.port i).transaction with
  | some (.selected status) => d.onPort i fun p => { p with transaction := some (.heading status channel) }
  | some (.heading _ _) | some (.write _ _) | some (.read _ _) | some (.chart _ _ _ _ _ _) | some (.ringRead _ _ _)
  | none =>
    let d := d.rise i
    d.onPort i fun p => { p with transaction := some (.heading (d.statusByte i) channel) }

/-- The header of a read, where its snapshot is fixed (12 R167, R169; 10 R154). -/
def Device.readHeader (d : Device) (i : Port) (channel : ChannelField) : Device := (d.rise i).takeReadHeader i channel

/-- The twelfth byte of the next record of a RING read goes out (10 R155, R158). -/
def Device.recordSent (d : Device) (i : Port) : Device :=
  match (d.port i).transaction with
  | some (.ringRead snapshot sent false) =>
    match snapshot[sent]? with
    | none => d
    | some x =>
      (d.consumeRecord i x).onPort i fun p => { p with transaction := some (.ringRead snapshot (sent + 1) false) }
  | _ => d

/-- What a port sends on SDO: nothing outside a transaction, where SDO is at high impedance; the status byte during the
header; and as data byte number k, 0xFF during a write, the snapshot's byte during a read, 0xFF past its end, and for
every byte of a RING read that a soft reset has ended (12 R167 to R169, R177; 10 R154, R158). -/
def Device.sends (d : Device) (i : Port) (k : Nat) : Option Byte :=
  match (d.port i).transaction with
  | none => none
  | some (.selected status) => some status
  | some (.heading status _) => some status
  | some (.write _ _) => some 0xFF
  | some (.chart _ _ _ _ _ _) => some 0xFF
  | some (.read _ snapshot) => some (snapshot.getD k 0xFF)
  | some (.ringRead snapshot _ false) => some ((snapshot.flatMap Record.bytes).getD k 0xFF)
  | some (.ringRead _ _ true) => some 0xFF

/-! ## Whole transactions and their moments -/

/-- A COMMAND write of a known command, whole (12 R171). -/
def Device.command (d : Device) (i : Port) (c : Command) (fields : List Byte) : Device :=
  (d.rise i).commandTaken i c fields

/-- A write of NOTICE, whole (12 R174). -/
def Device.noticeWrite (d : Device) (i : Port) (data : List Byte) : Device := (d.rise i).noticeTaken i data

/-- A write of NOTICE_MASK, whole (12 R174). -/
def Device.noticeMaskWrite (d : Device) (i : Port) (data : List Byte) : Device := (d.rise i).maskTaken i data

/-- A write of LAMP, whole (11 R161). -/
def Device.lampWrite (d : Device) (i : Port) (data : List Byte) : Device := (d.rise i).lampTaken i data

/-- A chart write, or one of its moments (04 R47). -/
def Device.chartTransfer (d : Device) (i : Port) : ChartTransfer → Device
  | .whole p data => (d.rise i).chartTaken i p data
  | .header p => (d.rise i).chartBegin i p
  | .byte b => d.chartByte i b
  | .rise => d.chartRise i

/-- A write transaction by its header, or one of its moments (12 R167, R170). -/
def Device.writeTransfer (d : Device) (i : Port) (channel : ChannelField) : WriteTransfer → Device
  | .whole data => (d.rise i).writeTaken i channel data
  | .fall => d.fall i
  | .header => d.writeHeader i channel
  | .byte b => d.byteIn i b
  | .rise => d.rise i

/-- A read transaction by its header, or one of its moments (12 R167, R169; 10 R154). -/
def Device.readTransfer (d : Device) (i : Port) : ReadTransfer → Device
  | .whole channel => (d.rise i).readTaken i channel
  | .fall => d.fall i
  | .heading channel => d.headingRead i channel
  | .header channel => d.readHeader i channel
  | .rise => d.rise i

/-- A RING read, or one of its moments (10 R154). -/
def Device.ringTransfer (d : Device) : RingTransfer → Device
  | .whole i => (d.rise i).readTaken i 0x06#7
  | .heading i => d.headingRead i 0x06#7
  | .header i => d.readHeader i 0x06#7
  | .rise i => d.rise i

end Sys2Proof.Machine
end

