-- ==== Sys2Proof/Machine/Operands.lean ====
section
/-!
DEFINITION. How a command acts on the whole state: on the device, the queue of waiting commands left alone.
-/
namespace Sys2Proof.Machine

/-- The state with its device replaced by a function of it; the commands that wait stay as they are. -/
def State.onDevice (s : State) (f : Device → Device) : State := { s with device := f s.device }

/-- A command's answer: the next state, in which it has changed the device alone. -/
def answer (s : State) (f : Device → Device) : Host.Outcome State Fault Refusal := .next (s.onDevice f)

end Sys2Proof.Machine
end

