-- ==== Sys2Proof/Machine/Commands.lean ====
section
/-!
DEFINITION. The meanings of the COMMAND writes, each handed to its block by the port interface: one definition for each row.
-/
namespace Sys2Proof.Machine

/-- OPEN_SONG, a COMMAND write (01 R4, 12 R171). -/
def execOpenSong (port : Port) (fields : List Byte) (s : State) : Host.Outcome State Fault Refusal :=
  answer s fun d => d.command port .openSong fields

/-- START, a COMMAND write (01 R5, 12 R171). -/
def execStart (port : Port) (fields : List Byte) (s : State) : Host.Outcome State Fault Refusal :=
  answer s fun d => d.command port .start fields

/-- ABORT, a COMMAND write (01 R7, 12 R171). -/
def execAbort (port : Port) (fields : List Byte) (s : State) : Host.Outcome State Fault Refusal :=
  answer s fun d => d.command port .abort fields

/-- CLOSE, a COMMAND write (01 R8, 12 R171). -/
def execClose (port : Port) (fields : List Byte) (s : State) : Host.Outcome State Fault Refusal :=
  answer s fun d => d.command port .close fields

/-- POSITION, a COMMAND write (02 R22, 12 R171). -/
def execPosition (port : Port) (fields : List Byte) (s : State) : Host.Outcome State Fault Refusal :=
  answer s fun d => d.command port .position fields

/-- SET_SYNC, a COMMAND write (02 R19, 12 R171). -/
def execSetSync (port : Port) (fields : List Byte) (s : State) : Host.Outcome State Fault Refusal :=
  answer s fun d => d.command port .setSync fields

/-- SET_STAGE, a COMMAND write (05 R82, 12 R171). -/
def execSetStage (port : Port) (fields : List Byte) (s : State) : Host.Outcome State Fault Refusal :=
  answer s fun d => d.command port .setStage fields

/-- SET_PANEL, a COMMAND write (06 R87, 12 R171). -/
def execSetPanel (port : Port) (fields : List Byte) (s : State) : Host.Outcome State Fault Refusal :=
  answer s fun d => d.command port .setPanel fields

/-- SET_MAP, a COMMAND write (07 R101, 12 R171). -/
def execSetMap (port : Port) (fields : List Byte) (s : State) : Host.Outcome State Fault Refusal :=
  answer s fun d => d.command port .setMap fields

/-- SET_WINDOWS, a COMMAND write (08 R112, 12 R171). -/
def execSetWindows (port : Port) (fields : List Byte) (s : State) : Host.Outcome State Fault Refusal :=
  answer s fun d => d.command port .setWindows fields

/-- SET_SCORING, a COMMAND write (09 R134, 12 R171). -/
def execSetScoring (port : Port) (fields : List Byte) (s : State) : Host.Outcome State Fault Refusal :=
  answer s fun d => d.command port .setScoring fields

/-- SET_LIFE, a COMMAND write (09 R135, 12 R171). -/
def execSetLife (port : Port) (fields : List Byte) (s : State) : Host.Outcome State Fault Refusal :=
  answer s fun d => d.command port .setLife fields

/-- SET_LAMPS, a COMMAND write (11 R160, 12 R171). -/
def execSetLamps (port : Port) (fields : List Byte) (s : State) : Host.Outcome State Fault Refusal :=
  answer s fun d => d.command port .setLamps fields

/-- SUBSCRIBE, a COMMAND write (10 R152, 12 R171). -/
def execSubscribe (port : Port) (fields : List Byte) (s : State) : Host.Outcome State Fault Refusal :=
  answer s fun d => d.command port .subscribe fields

/-- UNSUBSCRIBE, a COMMAND write (10 R153, 12 R171). -/
def execUnsubscribe (port : Port) (fields : List Byte) (s : State) : Host.Outcome State Fault Refusal :=
  answer s fun d => d.command port .unsubscribe fields

/-- SOFT_RESET, a COMMAND write (12 R177, 12 R171). -/
def execSoftReset (port : Port) (fields : List Byte) (s : State) : Host.Outcome State Fault Refusal :=
  answer s fun d => d.command port .softReset fields

end Sys2Proof.Machine
end

