-- ==== Sys2Proof/Machine/Entries.lean ====
section
/-!
DEFINITION. The meanings of the events of the chart decoders: one definition for each row.
-/
namespace Sys2Proof.Machine

/-- HEADER (04 R52). -/
def execHeaderEntry (player : Player) (s : State) : Host.Outcome State Fault Refusal :=
  answer s fun d => d.takeKind player .header

/-- ROWS (04 R53). -/
def execRowsEntry (player : Player) (s : State) : Host.Outcome State Fault Refusal :=
  answer s fun d => d.takeKind player .rows

/-- NOTES (04 R55). -/
def execNotesEntry (player : Player) (s : State) : Host.Outcome State Fault Refusal :=
  answer s fun d => d.takeKind player .notes

/-- REPEAT (04 R60). -/
def execRepeatEntry (player : Player) (s : State) : Host.Outcome State Fault Refusal :=
  answer s fun d => d.takeKind player .repeated

/-- TEMPO (04 R54, 03 R39). -/
def execTempoEntry (player : Player) (s : State) : Host.Outcome State Fault Refusal :=
  answer s fun d => d.takeKind player .tempo

/-- DWELL (04 R54, 03 R40). -/
def execDwellEntry (player : Player) (s : State) : Host.Outcome State Fault Refusal :=
  answer s fun d => d.takeKind player .dwell

/-- END (04 R63). -/
def execEndEntry (player : Player) (s : State) : Host.Outcome State Fault Refusal :=
  answer s fun d => d.takeKind player .ending

/-- BAD_TAG (04 R65). -/
def execBadTag (player : Player) (s : State) : Host.Outcome State Fault Refusal :=
  answer s fun d => d.takeKind player .badTag

/-- STALL_RELEASE (04 R62). -/
def execStallRelease (player : Player) (s : State) : Host.Outcome State Fault Refusal :=
  answer s fun d => d.releaseStall player

end Sys2Proof.Machine
end

