-- ==== Sys2Proof/Machine/Moments.lean ====
section
/-!
DEFINITION. The meanings of the events of the pins, of time, of the links and of the lanes: one definition for each row.
-/
namespace Sys2Proof.Machine

/-- FSYNC_EDGE (02 R20, R26). -/
def execFsyncEdge (s : State) : Host.Outcome State Fault Refusal :=
  answer s fun d => d.edge

/-- MICROSECOND_TICK (02 R16). -/
def execMicrosecondTick (s : State) : Host.Outcome State Fault Refusal :=
  answer s fun d => d.microsecond

/-- STALL_END (02 R24). -/
def execStallEnd (s : State) : Host.Outcome State Fault Refusal :=
  answer s fun d => d.endStall

/-- SYNC_TIMEOUT (02 R26). -/
def execSyncTimeout (s : State) : Host.Outcome State Fault Refusal :=
  answer s fun d => d.loseSync

/-- TEMPO_ENTRY_REACHED (02 R28). -/
def execTempoEntryReached (player : Player) (s : State) : Host.Outcome State Fault Refusal :=
  answer s fun d => d.reachTempo player

/-- BEAT_CROSSING (02 R29). -/
def execBeatCrossing (player : Player) (s : State) : Host.Outcome State Fault Refusal :=
  answer s fun d => d.crossBeat player

/-- POLL (05 R76), whole or one of its two ends (05 R72, R74). -/
def execPoll (transfer : PollTransfer) (s : State) : Host.Outcome State Fault Refusal :=
  answer s fun d => d.pollTransfer transfer

/-- EMPTY_ROUND (05 R77). -/
def execEmptyRound (link : Stage) (s : State) : Host.Outcome State Fault Refusal :=
  answer s fun d => d.endEmptyRound link

/-- REPORT (05 R74, R75). -/
def execReport (link : Stage) (frame : ReportFrame) (quarters : Nat) (s : State) : Host.Outcome State Fault Refusal :=
  answer s fun d => d.receiveReport link frame quarters

/-- REPLY_DEADLINE (05 R74). -/
def execReplyDeadline (link : Stage) (s : State) : Host.Outcome State Fault Refusal :=
  answer s fun d => d.passDeadline link

/-- STUCK_EXPIRY (06 R96). -/
def execStuckExpiry (panel : Panel) (s : State) : Host.Outcome State Fault Refusal :=
  answer s fun d => d.expireStuck panel

/-- SWEEP (08 R118). -/
def execSweep (lane : LaneQueue) (s : State) : Host.Outcome State Fault Refusal :=
  answer s fun d => d.sweepLane lane

/-- AVOID_DUE (08 R119). -/
def execAvoidDue (lane : LaneQueue) (s : State) : Host.Outcome State Fault Refusal :=
  answer s fun d => d.avoidDueLane lane

/-- AVOID_PAST_WINDOW (08 R119). -/
def execAvoidPastWindow (lane : LaneQueue) (s : State) : Host.Outcome State Fault Refusal :=
  answer s fun d => d.avoidPastLane lane

/-- TAIL_REACHED (08 R122). -/
def execTailReached (lane : LaneQueue) (s : State) : Host.Outcome State Fault Refusal :=
  answer s fun d => d.tailLane lane

/-- GRACE_EXPIRY (08 R123). -/
def execGraceExpiry (lane : LaneQueue) (s : State) : Host.Outcome State Fault Refusal :=
  answer s fun d => d.graceLane lane

/-- FLASH_END (11 R163). -/
def execFlashEnd (panel : Panel) (s : State) : Host.Outcome State Fault Refusal :=
  answer s fun d => d.endFlash panel

/-- BEAT_PULSE_END (11 R164). -/
def execBeatPulseEnd (panel : Panel) (s : State) : Host.Outcome State Fault Refusal :=
  answer s fun d => d.endBeatPulse panel

end Sys2Proof.Machine
end

