-- ==== Sys2Proof/Machine/Transfers.lean ====
section
/-!
DEFINITION. The meanings of the other transactions of the ports, and the power-on reset: one definition for each row.
-/
namespace Sys2Proof.Machine

/-- CHART_WRITE (04 R47). -/
def execChartWrite (port : Port) (transfer : ChartTransfer) (s : State) : Host.Outcome State Fault Refusal :=
  answer s fun d => d.chartTransfer port transfer

/-- NOTICE_WRITE (12 R174). -/
def execNoticeWrite (port : Port) (data : List Byte) (s : State) : Host.Outcome State Fault Refusal :=
  answer s fun d => d.noticeWrite port data

/-- NOTICE_MASK_WRITE (12 R174). -/
def execNoticeMaskWrite (port : Port) (data : List Byte) (s : State) : Host.Outcome State Fault Refusal :=
  answer s fun d => d.noticeMaskWrite port data

/-- LAMP_WRITE (11 R161). -/
def execLampWrite (port : Port) (data : List Byte) (s : State) : Host.Outcome State Fault Refusal :=
  answer s fun d => d.lampWrite port data

/-- REGISTER_WRITE (12 R170), and any write, whole or in its moments, spelled by its header (notes/assumptions 9). -/
def execRegisterWrite (port : Port) (channel : ChannelField) (transfer : WriteTransfer) (s : State) :
    Host.Outcome State Fault Refusal :=
  answer s fun d => d.writeTransfer port channel transfer

/-- RING_READ, whole or one of its moments (10 R154). -/
def execRingRead (transfer : RingTransfer) (s : State) : Host.Outcome State Fault Refusal :=
  answer s fun d => d.ringTransfer transfer

/-- RING_RECORD_CONSUMED (10 R155). -/
def execRingRecordConsumed (port : Port) (s : State) : Host.Outcome State Fault Refusal :=
  answer s fun d => d.recordSent port

/-- POWER_ON_RESET (12 R173, R176). -/
def execPowerOnReset (straps : Straps) (s : State) : Host.Outcome State Fault Refusal :=
  answer s fun d => d.powerOn straps

/-- REFUSED_READ (12 R169), and any read, whole or in its moments, spelled by its header (notes/assumptions 9). -/
def execRefusedRead (port : Port) (transfer : ReadTransfer) (s : State) : Host.Outcome State Fault Refusal :=
  answer s fun d => d.readTransfer port transfer

end Sys2Proof.Machine
end

