-- ==== Sys2Proof/Machine/Dispatch.lean ====
section
/-!
DEFINITION. Each command sent to its meaning: one arm per constructor of `Instr`.
-/
namespace Sys2Proof.Machine

def exec (i : Instr) (s : State) : Host.Outcome State Fault Refusal :=
  match i with
  | .openSong port fields => Sys2Proof.Machine.execOpenSong port fields s
  | .start port fields => Sys2Proof.Machine.execStart port fields s
  | .abort port fields => Sys2Proof.Machine.execAbort port fields s
  | .close port fields => Sys2Proof.Machine.execClose port fields s
  | .position port fields => Sys2Proof.Machine.execPosition port fields s
  | .setSync port fields => Sys2Proof.Machine.execSetSync port fields s
  | .setStage port fields => Sys2Proof.Machine.execSetStage port fields s
  | .setPanel port fields => Sys2Proof.Machine.execSetPanel port fields s
  | .setMap port fields => Sys2Proof.Machine.execSetMap port fields s
  | .setWindows port fields => Sys2Proof.Machine.execSetWindows port fields s
  | .setScoring port fields => Sys2Proof.Machine.execSetScoring port fields s
  | .setLife port fields => Sys2Proof.Machine.execSetLife port fields s
  | .setLamps port fields => Sys2Proof.Machine.execSetLamps port fields s
  | .subscribe port fields => Sys2Proof.Machine.execSubscribe port fields s
  | .unsubscribe port fields => Sys2Proof.Machine.execUnsubscribe port fields s
  | .softReset port fields => Sys2Proof.Machine.execSoftReset port fields s
  | .chartWrite port transfer => Sys2Proof.Machine.execChartWrite port transfer s
  | .noticeWrite port data => Sys2Proof.Machine.execNoticeWrite port data s
  | .noticeMaskWrite port data => Sys2Proof.Machine.execNoticeMaskWrite port data s
  | .lampWrite port data => Sys2Proof.Machine.execLampWrite port data s
  | .registerWrite port channel transfer => Sys2Proof.Machine.execRegisterWrite port channel transfer s
  | .ringRead transfer => Sys2Proof.Machine.execRingRead transfer s
  | .ringRecordConsumed port => Sys2Proof.Machine.execRingRecordConsumed port s
  | .powerOnReset straps => Sys2Proof.Machine.execPowerOnReset straps s
  | .fsyncEdge => Sys2Proof.Machine.execFsyncEdge s
  | .microsecondTick => Sys2Proof.Machine.execMicrosecondTick s
  | .stallEnd => Sys2Proof.Machine.execStallEnd s
  | .syncTimeout => Sys2Proof.Machine.execSyncTimeout s
  | .tempoEntryReached player => Sys2Proof.Machine.execTempoEntryReached player s
  | .beatCrossing player => Sys2Proof.Machine.execBeatCrossing player s
  | .poll transfer => Sys2Proof.Machine.execPoll transfer s
  | .emptyRound link => Sys2Proof.Machine.execEmptyRound link s
  | .report link frame quarters => Sys2Proof.Machine.execReport link frame quarters s
  | .replyDeadline link => Sys2Proof.Machine.execReplyDeadline link s
  | .stuckExpiry panel => Sys2Proof.Machine.execStuckExpiry panel s
  | .sweep lane => Sys2Proof.Machine.execSweep lane s
  | .avoidDue lane => Sys2Proof.Machine.execAvoidDue lane s
  | .avoidPastWindow lane => Sys2Proof.Machine.execAvoidPastWindow lane s
  | .tailReached lane => Sys2Proof.Machine.execTailReached lane s
  | .graceExpiry lane => Sys2Proof.Machine.execGraceExpiry lane s
  | .flashEnd panel => Sys2Proof.Machine.execFlashEnd panel s
  | .beatPulseEnd panel => Sys2Proof.Machine.execBeatPulseEnd panel s
  | .headerEntry player => Sys2Proof.Machine.execHeaderEntry player s
  | .rowsEntry player => Sys2Proof.Machine.execRowsEntry player s
  | .notesEntry player => Sys2Proof.Machine.execNotesEntry player s
  | .repeatEntry player => Sys2Proof.Machine.execRepeatEntry player s
  | .tempoEntry player => Sys2Proof.Machine.execTempoEntry player s
  | .dwellEntry player => Sys2Proof.Machine.execDwellEntry player s
  | .endEntry player => Sys2Proof.Machine.execEndEntry player s
  | .badTag player => Sys2Proof.Machine.execBadTag player s
  | .stallRelease player => Sys2Proof.Machine.execStallRelease player s
  | .refusedRead port transfer => Sys2Proof.Machine.execRefusedRead port transfer s

end Sys2Proof.Machine
end

