-- ==== Sys2Proof/Safety.lean ====
section
/-!
DEFINITION. What the claims are made of: the laws that a state of the part keeps, the conditions under which a command
is taken, and which port a command belongs to. The part has no error state, so a safe run is one whose states keep
the laws.
-/
namespace Sys2Proof.Safety
open Sys2Proof.Machine

/-! ## Commands and their senders -/

/-- Commands run one after another: the state after the last of them, none where one does not answer a next state. -/
def runAll : List Instr → State → Option State
  | [], s => some s
  | c :: cs, s =>
    match exec c s with
    | .next t => runAll cs t
    | .fault _ => none
    | .refused _ => none

/-- The table row of a command (12 R171). -/
def instrOf (c : Command) (i : Port) (fields : List Byte) : Instr :=
  match c with
  | .openSong => .openSong i fields
  | .start => .start i fields
  | .abort => .abort i fields
  | .close => .close i fields
  | .position => .position i fields
  | .setSync => .setSync i fields
  | .setStage => .setStage i fields
  | .setPanel => .setPanel i fields
  | .setMap => .setMap i fields
  | .setWindows => .setWindows i fields
  | .setScoring => .setScoring i fields
  | .setLife => .setLife i fields
  | .setLamps => .setLamps i fields
  | .subscribe => .subscribe i fields
  | .unsubscribe => .unsubscribe i fields
  | .softReset => .softReset i fields

/-- The rights table of 12 R172, written out role by role. -/
def rightsOf : Role → List Command
  | .game =>
    [.openSong, .start, .abort, .close, .setSync, .setStage, .setPanel, .setMap, .setWindows, .setScoring, .setLife,
      .setLamps, .subscribe, .unsubscribe, .softReset]
  | .audio => [.start, .position, .subscribe, .unsubscribe]
  | .lamp => [.setLamps, .subscribe, .unsubscribe]
  | .watch => [.subscribe, .unsubscribe]

/-- The session states in which a command is accepted (01 section 1.2; 02 R19, R22; 05 R82; 06 R87; 07 R101; 08 R112;
09 R134, R135; 11 R160; 10 R152, R153; 12 R177). -/
def statesOf : Command → List SessionState
  | .openSong | .setSync | .setStage | .setPanel | .setWindows | .setScoring | .setLife => [.idle]
  | .start => [.preload]
  | .abort => [.preload, .run, .ended]
  | .close => [.ended]
  | .position => [.run, .ended]
  | .setMap => [.idle, .preload]
  | .setLamps | .subscribe | .unsubscribe | .softReset => [.idle, .preload, .run, .ended]

/-- The port checks pass: the port holds no other transaction, its role has the right, and the length is the command's
(12 R167, R171, R172). -/
abbrev Sendable (d : Device) (i : Port) (c : Command) (fields : List Byte) : Prop :=
  (d.port i).transaction = none ∧ c ∈ rightsOf (d.port i).role ∧ fields.length + 1 = c.length

/-- A port's result record shows a COMMAND write with this code and this count of data bytes (12 R170). -/
def Answered (d : Device) (i : Port) (code : ResultCode) (count : Nat) : Prop :=
  (d.port i).result = { channel := 0x01, code := code, count := BitVec.ofNat 16 count }

/-- The ports after a command that only answers: the sender's result record is that of a COMMAND write with this code
and count, and nothing else of any port differs (12 R170). -/
def PortsAnswered (d e : Device) (i : Port) (code : ResultCode) (count : Nat) : Prop :=
  (∀ j : Port, j ≠ i → e.port j = d.port j)
    ∧ e.port i = { d.port i with result := { channel := 0x01, code := code, count := BitVec.ofNat 16 count } }

/-- Every port has received a notice kind, and nothing else of any port differs (12 R174). -/
def PortsRaised (d e : Device) (k : Notice) : Prop :=
  ∀ i : Port, e.port i = { d.port i with notices := (d.port i).notices ||| k.mask }

/-- A board is due in its link's round (05 R76). -/
abbrev Due (l : Link) (a : Fin 6) : Prop :=
  l.enable.getLsbD a.val = true
    ∧ (l.boards[a].state = .absent ∨ l.boards[a].state = .online ∨ l.boards[a].state = .degraded
        ∨ (l.boards[a].state = .offline ∧ l.round = 0))

/-- The board that a link chooses in its round: the due board of lowest address above the last polled (05 R76). -/
abbrev Chosen (l : Link) (a : Fin 6) : Prop :=
  Due l a ∧ (∀ x, l.last = some x → x < a) ∧ ∀ b, Due l b → (∀ x, l.last = some x → x < b) → a ≤ b

/-- No board of a link is due above the last polled one (05 R76). -/
abbrev NoneAbove (l : Link) : Prop := ∀ b, Due l b → ∃ x, l.last = some x ∧ b ≤ x

/-- A link after the end of its round (05 R76, R77): the round number advanced, then a board chosen in it and its
POLL begun, with the lamp level of its panel, or the interval of an empty round. -/
def NextRound (l m : Link) (level : Fin 6 → Byte) : Prop :=
  ∀ next : Link, next = { l with round := (l.round + 1) % 8, last := none } →
    (∀ a, Chosen next a → m = { next with last := some a, phase := .sending a (level a) false })
      ∧ (NoneAbove next → m = { next with phase := .emptyRound })

/-- A report seeds its panel (06 R88): the board was OFFLINE or ABSENT, or the report is FRESH, or a sensor has no
baseline. -/
abbrev Seeding (x : PanelPress) (board : BoardState) (fresh : Bool) : Prop :=
  board = .offline ∨ board = .absent ∨ fresh = true ∨ ∃ k : Fin 4, x.sensors[k].baseline = none

/-- A sensor in a report that does not seed its panel (06 R89 to R91): faulty, returned, or compared with its baseline,
and tracked where neither it nor the panel is active. -/
def SensorMoved (x : PanelPress) (pressed : Bool) (before after : Sensor) (level : Byte) (fault : Bool) : Prop :=
  ∀ b, before.baseline = some b →
    (fault = true → after = { before with active := false, prevFault := true })
      ∧ (fault = false → before.prevFault = true →
          after = { baseline := some (16 * level.toNat), active := false, prevFault := false })
      ∧ (fault = false → before.prevFault = false →
          after.active
              = (if (x.press : Int) ≤ level.toNat - (b / 16 : Nat) then true
                else if (x.release : Int) ≤ level.toNat - (b / 16 : Nat) then before.active else false)
            ∧ after.baseline
              = some (if pressed || after.active then b
                  else ((b : Int) + (16 * (level.toNat : Int) - b).tdiv 16).toNat))

/-- What a good report makes of its panel `x` (06 R88 to R94, R96): sensors seeded or moved, the press state by the
quorum of the working sensors, and the count and the stuck timer of a press or a release. -/
def PanelMoved (x y : PanelPress) (board : BoardState) (fresh : Bool) (levels : Vector Byte 4) (fault : Fin 4 → Bool)
    (free : BitVec 32) : Prop :=
  y = { x with sensors := y.sensors, pressed := y.pressed, counter := y.counter, stuckSince := y.stuckSince }
    ∧ (∀ k : Fin 4, y.sensors[k].prevFault = fault k)
    ∧ (Seeding x board fresh → y.pressed = false
        ∧ ∀ k : Fin 4, y.sensors[k].baseline = some (16 * levels[k].toNat) ∧ y.sensors[k].active = false)
    ∧ (¬Seeding x board fresh →
        (∀ k : Fin 4, SensorMoved x y.pressed x.sensors[k] y.sensors[k] levels[k] (fault k))
          ∧ ∀ working, working = (List.finRange 4).countP (fun k => !fault k) →
              (y.pressed = true
                ↔ working ≠ 0
                  ∧ min x.quorum working ≤ (List.finRange 4).countP fun k => y.sensors[k].active))
    ∧ y.counter = (if x.pressed = false ∧ y.pressed = true then x.counter + 1 else x.counter)
    ∧ y.stuckSince = (if x.pressed = y.pressed then x.stuckSince else if y.pressed then some free else none)

/-- Nothing of the part but one port's result record differs. -/
def OnlyResult (d e : Device) (i : Port) : Prop :=
  e = { d with ports := e.ports } ∧ (∀ j : Port, j ≠ i → e.port j = d.port j)
    ∧ e.port i = { d.port i with result := (e.port i).result }

/-- A notice kind is in a port's set (12 R174). -/
def Holds (d : Device) (i : Port) (k : Notice) : Prop := (d.port i).notices.getLsbD k.bit = true

/-- The ports differ in nothing but their notice sets, and no kind has left a set. -/
def OnlyRaised (d e : Device) : Prop :=
  ∀ i : Port, e.port i = { d.port i with notices := (e.port i).notices }
    ∧ (d.port i).notices &&& ~~~(e.port i).notices = 0

/-- A transaction before and after a step of the part itself: the same, but that the header of a read, if one was under
way, may have been taken (08 R131, 12 R167). -/
def HeaderStep (x y : Option Transaction) : Prop :=
  y = x ∨ (∃ status channel, x = some (.heading status channel))
    ∧ ((∃ channel snapshot, y = some (.read channel snapshot)) ∨ ∃ snapshot, y = some (.ringRead snapshot 0 false))

/-- No header of a read is under way on any port. -/
def NoHeading (d : Device) : Prop := ∀ (i : Port) status channel, (d.port i).transaction ≠ some (.heading status channel)

/-- A player's chart is open to writes (04 R47): the session is in PRELOAD or RUN, and the player JOINED, PLAYING or
FAILED. -/
abbrev ChartOpen (d : Device) (p : Player) : Prop :=
  (d.session.state = .preload ∨ d.session.state = .run)
    ∧ (d.playerState p = .joined ∨ d.playerState p = .playing ∨ d.playerState p = .failed)

/-- A fault set that has gained the kinds given (04 R66). -/
def withFaults (faults : BitVec 13) (kinds : List FaultKind) : BitVec 13 := kinds.foldl (fun f k => f ||| k.mask) faults

/-- The ports differ in nothing but CHART_FAULT, raised where one of the kinds given was not in a player's fault set
(04 R66). -/
def ChartFaultsRaised (d e : Device) (p : Player) (kinds : List FaultKind) : Prop :=
  ∀ i : Port, e.port i = { d.port i with
    notices :=
      if ∃ k ∈ kinds, (d.decoder p).faults.getLsbD k.bit = false then (d.port i).notices ||| Notice.chartFault.mask
      else (d.port i).notices }

/-- Only one player's decoder has changed, to `c` but for its fault set, which has gained the kinds given, with
CHART_FAULT where one of them is new (04 R66). -/
def DecoderOnly (d e : Device) (p : Player) (c : Decoder) (kinds : List FaultKind) : Prop :=
  e = { d with decoders := d.decoders.set p { c with faults := withFaults c.faults kinds }, ports := e.ports }
    ∧ ChartFaultsRaised d e p kinds

/-- Whether song time has reached a tempo map entry (02 R28). -/
def reachedBy (songTime : Int) (g : Segment) : Bool := decide ((g.rowTime : Int) ≤ songTime)

/-- A player's tracker has followed song time through a tempo map `m`: the front entries reached have left it, the last of
them is the segment, the beat index of a player in play is song time's, and its rise has lit the player's stages (02
R28, R29; 11 R164). -/
def TrackerFollows (d e : Device) (p : Player) (m : List Segment) : Prop :=
  (e.tracker p).map = m.dropWhile (reachedBy d.clock.songTime)
    ∧ (e.tracker p).segment = ((m.takeWhile (reachedBy d.clock.songTime)).getLast?).getD (d.tracker p).segment
    ∧ (e.tracker p).beatIndex
        = (if d.playerState p = .off then (d.tracker p).beatIndex
          else (e.tracker p).segment.beatRow d.clock.songTime / 48)
    ∧ ∀ x : Panel, e.lamps.beat[x] =
        if (d.tracker p).beatIndex < (e.tracker p).beatIndex ∧ 0 < d.lamps.beatTime
            ∧ (if d.session.style = .doubles then p = .p1 else p = if x.val < 6 then .p1 else .p2) then
          some (d.clock.free + BitVec.ofNat 32 d.lamps.beatTime)
        else d.lamps.beat[x]

/-- What an offered tempo map entry `g` makes of a decoder `c` with `rest` behind the entry, in a state in which nothing
leaves the map: with room the map takes it and the decoder starts its segment; a full map stalls the decoder with the
entry in hand (02 R27, 03 R39, R40, 04 R54). -/
def Offered (d e : Device) (p : Player) (c : Decoder) (rest : List Byte) (g : Segment) (kinds : List FaultKind) : Prop :=
  ((d.tracker p).map.length < 16 →
      e.clock = { d.clock with
          trackers := d.clock.trackers.set p { d.tracker p with map := (d.tracker p).map ++ [g] } }
        ∧ DecoderOnly { d with clock := e.clock } e p
          { c with
            buffer := rest, inHand := none, segment := { row := g.row, segTime := g.segTime, period := g.period } }
          kinds)
    ∧ (16 ≤ (d.tracker p).map.length →
      DecoderOnly d e p { c with state := .stalledTempo, inHand := some { size := 5, task := .offer g } } kinds)

/-- The panel that a modifier exchanges a panel with (07 R103): X mirrors the columns of a stage, Y exchanges its rows,
S exchanges the stages. -/
def partnerOf (m : Modifier) (x : Panel) : Panel :=
  match m with
  | .x => ⟨(x.val - x.val % 3 + (2 - x.val % 3)) % 12, Nat.mod_lt _ (by decide)⟩
  | .y => ⟨(if x.val % 6 < 3 then x.val + 3 else x.val - 3) % 12, Nat.mod_lt _ (by decide)⟩
  | .s => ⟨(x.val + 6) % 12, Nat.mod_lt _ (by decide)⟩

/-- A modifier is on for a player and gives pairs: S in DOUBLES alone (07 R103). -/
def modifierOn (d : Device) (p : Player) : Modifier → Bool
  | .x => (d.mapper.modifiers.get p).x
  | .y => (d.mapper.modifiers.get p).y
  | .s => (d.mapper.modifiers.get p).s && d.session.style = .doubles

/-- The panel that a modifier of a player exchanges a panel with at START: its partner, where the modifier is on and both
or neither of the two are present; otherwise itself (07 R103). -/
def exchangedWith (d : Device) (p : Player) (m : Modifier) (x : Panel) : Panel :=
  if modifierOn d p m = true ∧ d.present x = d.present (partnerOf m x) then partnerOf m x else x

/-- The pairs of a player that START suppresses, in the order X, Y, S and stage A's first: those of which exactly one
panel is present (07 R103, R107). -/
def suppressedAt (d : Device) (p : Player) : List PanelPair :=
  [Modifier.x, .y, .s].flatMap fun m =>
    (allPanels.filter fun x => modifierOn d p m && d.owner x = p && x < partnerOf m x
      && d.present x != d.present (partnerOf m x)).map fun x => { modifier := m, first := x, second := partnerOf m x }

/-- A field of a byte string: `width` bytes from a place on hold a value, most significant byte first (00_scope 1.9). -/
def FieldAt (bytes : List Byte) (at_ width value : Nat) : Prop :=
  ∀ k, k < width → bytes[at_ + k]? = some (BitVec.ofNat 8 (value / 256 ^ (width - 1 - k)))

/-- A signed field of a byte string, in two's complement (00_scope 1.9). -/
def SignedFieldAt (bytes : List Byte) (at_ width : Nat) (value : Int) : Prop :=
  FieldAt bytes at_ width (value % (256 ^ width : Nat)).toNat

/-- The judge has changed one lane, one player's score record and nothing else but the ring and the notices (08 R127). -/
def OneOutcome (d e : Device) (q : LaneQueue) (o : Outcome) : Prop :=
  e = { d with judge := e.judge, score := e.score, ring := e.ring, ports := e.ports }
    ∧ (∀ x : LaneQueue, x ≠ q → e.lane x = d.lane x) ∧ e.judge = { d.judge with lanes := e.judge.lanes }
    ∧ e.score = { d.score with
        records := d.score.records.set (d.owner q)
          ((d.record (d.owner q)).apply d.score d.session.failPolicy o) }
    ∧ OnlyRaised d e

/-- A lane's hold has ended HELD or LET_GO, with its record (08 R122, R123, R126). -/
def HoldEnded (d e : Device) (q : LaneQueue) (h : ActiveHold) (held : Bool) : Prop :=
  OneOutcome d e q (if held then .held else .letGo) ∧ e.lane q = { d.lane q with hold := .idle }
    ∧ e.ring = d.ring.append
        { seq := 0, type := .holdBody held, player := d.owner q, lane := logicalLane d.session.style q,
          early := false, lateDecode := false, forcedEnd := h.forcedEnd, timed := false, offset := 0, row := h.row }

/-- A held panel has hit a lane's AVOID, which has left the queue, with its record (08 R119, R126). -/
def AvoidHit (d e : Device) (q : LaneQueue) (rest : List Note) (n : Note) : Prop :=
  OneOutcome d e q .avoidHit ∧ e.lane q = { d.lane q with queue := rest }
    ∧ e.ring = d.ring.append
        { seq := 0, type := .avoidHit, player := d.owner q, lane := logicalLane d.session.style q, early := false,
          lateDecode := n.lateDecode, forcedEnd := false, timed := false, offset := 0, row := n.row }

/-- The fields of a ring record's twelve bytes (10 R148). -/
def RecordLayout (x : Record) (bytes : List Byte) : Prop :=
  FieldAt bytes 0 2 x.seq.toNat
    ∧ (match x.type with
      | .tap (.graded g) => FieldAt bytes 2 1 0 ∧ FieldAt bytes 3 1 g.toNat
      | .tap .miss => FieldAt bytes 2 1 0 ∧ FieldAt bytes 3 1 5
      | .holdStart (.graded g) => FieldAt bytes 2 1 1 ∧ FieldAt bytes 3 1 g.toNat
      | .holdStart .miss => FieldAt bytes 2 1 1 ∧ FieldAt bytes 3 1 5
      | .holdBody held => FieldAt bytes 2 1 2 ∧ FieldAt bytes 3 1 (if held then 6 else 7)
      | .avoidHit => FieldAt bytes 2 1 3 ∧ FieldAt bytes 3 1 8
      | .mark k => FieldAt bytes 2 1 4 ∧ FieldAt bytes 3 1
          (match k with | .opened => 0 | .started => 1 | .ended => 2 | .aborted => 3 | .cleared => 4 | .failed => 5))
    ∧ FieldAt bytes 4 1 ((if x.player = .p2 then 128 else 0) + x.lane.val)
    ∧ FieldAt bytes 5 1 ((if x.early then 1 else 0) + (if x.lateDecode then 2 else 0) + (if x.forcedEnd then 4 else 0)
        + if x.timed then 8 else 0)
    ∧ SignedFieldAt bytes 6 3 x.offset ∧ FieldAt bytes 9 3 x.row

/-- The fields of a SCORE snapshot (12 R178). -/
def ScoreLayout (d : Device) (p : Player) (bytes : List Byte) : Prop :=
  ∀ (c : Decoder) (r : ScoreRecord), c = d.decoder p → r = d.record p →
    (FieldAt bytes 0 1 (d.playerState p).toNat ∧ FieldAt bytes 1 1 c.state.toNat ∧ FieldAt bytes 2 3 c.cursor
        ∧ FieldAt bytes 5 2 c.faults.toNat ∧ FieldAt bytes 7 2 c.noteTotal ∧ FieldAt bytes 9 2 c.holdTotal
        ∧ FieldAt bytes 11 4 c.taps ∧ FieldAt bytes 15 4 c.holds ∧ FieldAt bytes 19 4 c.avoids)
      ∧ (FieldAt bytes 23 4 r.headerUnits ∧ FieldAt bytes 27 5 r.decodedUnits ∧ FieldAt bytes 32 5 r.units
        ∧ FieldAt bytes 37 4 r.earned ∧ FieldAt bytes 41 4 r.score ∧ FieldAt bytes 45 2 r.combo
        ∧ FieldAt bytes 47 2 r.maxCombo)
      ∧ (FieldAt bytes 49 2 r.counts.exact ∧ FieldAt bytes 51 2 r.counts.great ∧ FieldAt bytes 53 2 r.counts.good
        ∧ FieldAt bytes 55 2 r.counts.fair ∧ FieldAt bytes 57 2 r.counts.poor ∧ FieldAt bytes 59 2 r.counts.miss
        ∧ FieldAt bytes 61 2 r.counts.held ∧ FieldAt bytes 63 2 r.counts.letGo ∧ FieldAt bytes 65 2 r.counts.avoidHit
        ∧ FieldAt bytes 67 2 r.counts.stray)
      ∧ (FieldAt bytes 69 2 r.life ∧ FieldAt bytes 71 1 (if r.zero then 1 else 0)
        ∧ FieldAt bytes 72 1 (match d.session.style, p with | .versus, _ => 6 | .doubles, .p1 => 12 | .doubles, .p2 => 0))
      ∧ (∀ k : Fin 12, match queueOf d.session.style p k with
          | none => FieldAt bytes (73 + 2 * k.val) 2 0xFFFF
          | some q => FieldAt bytes (73 + 2 * k.val) 1 (d.lane q).queue.length
              ∧ FieldAt bytes (74 + 2 * k.val) 1
                (match (d.lane q).hold with | .idle => 0 | .holding _ => 1 | .grace _ _ => 2))
      ∧ (FieldAt bytes 97 2 d.score.weights.exact ∧ FieldAt bytes 99 2 d.score.weights.great
        ∧ FieldAt bytes 101 2 d.score.weights.good ∧ FieldAt bytes 103 2 d.score.weights.fair
        ∧ FieldAt bytes 105 2 d.score.weights.poor ∧ FieldAt bytes 107 2 d.score.weights.held
        ∧ FieldAt bytes 109 1 d.score.comboFloor.toNat ∧ FieldAt bytes 110 2 d.score.lifeStart)
      ∧ (SignedFieldAt bytes 112 2 d.score.deltas.exact ∧ SignedFieldAt bytes 114 2 d.score.deltas.great
        ∧ SignedFieldAt bytes 116 2 d.score.deltas.good ∧ SignedFieldAt bytes 118 2 d.score.deltas.fair
        ∧ SignedFieldAt bytes 120 2 d.score.deltas.poor ∧ SignedFieldAt bytes 122 2 d.score.deltas.miss
        ∧ SignedFieldAt bytes 124 2 d.score.deltas.held ∧ SignedFieldAt bytes 126 2 d.score.deltas.letGo
        ∧ SignedFieldAt bytes 128 2 d.score.deltas.avoidHit)

/-- The fields of the CLOCK snapshot (02 R30, 12 R178). -/
def ClockLayout (d : Device) (bytes : List Byte) : Prop :=
  (FieldAt bytes 0 1 d.session.state.toNat ∧ FieldAt bytes 1 1 (if d.session.style = .doubles then 1 else 0)
      ∧ FieldAt bytes 2 1 ((if d.session.named.p1 then 1 else 0) + if d.session.named.p2 then 2 else 0)
      ∧ FieldAt bytes 3 1 (if d.session.failPolicy = .carryOn then 1 else 0) ∧ FieldAt bytes 4 4 d.session.leadIn)
    ∧ (SignedFieldAt bytes 8 4 d.clock.songTime ∧ FieldAt bytes 12 4 d.clock.free.toNat
      ∧ FieldAt bytes 16 1 (if d.clock.mode = .followMode then 1 else 0)
      ∧ FieldAt bytes 17 1 (if d.clock.sync = .lost then 1 else 0) ∧ FieldAt bytes 18 4 d.clock.slew
      ∧ FieldAt bytes 22 4 d.clock.jump ∧ FieldAt bytes 26 4 d.clock.syncTimeout
      ∧ FieldAt bytes 30 4 (match d.clock.stall with | none => 0 | some n => n)
      ∧ FieldAt bytes 34 1 d.clock.captures.length)
    ∧ (∀ (k : Nat) (h : k < d.clock.captures.length),
        FieldAt bytes (35 + 9 * k) 1 d.clock.captures[k].edge.toNat
          ∧ FieldAt bytes (36 + 9 * k) 4 d.clock.captures[k].free.toNat
          ∧ SignedFieldAt bytes (40 + 9 * k) 4 d.clock.captures[k].time)
    ∧ (∀ k, d.clock.captures.length ≤ k → k < 4 → ∀ m, m < 9 → FieldAt bytes (35 + 9 * k + m) 1 0xFF)
    ∧ ∀ (p : Player) (at_ : Nat) (g : Segment), at_ = (if p = .p1 then 71 else 92) → g = (d.tracker p).segment →
        FieldAt bytes at_ 3 g.row ∧ FieldAt bytes (at_ + 3) 4 g.rowTime ∧ FieldAt bytes (at_ + 7) 4 g.segTime
          ∧ FieldAt bytes (at_ + 11) 4 g.period ∧ FieldAt bytes (at_ + 15) 1 (d.tracker p).map.length
          ∧ SignedFieldAt bytes (at_ + 16) 4 (g.beatRow d.clock.songTime)
          ∧ FieldAt bytes (at_ + 20) 1 (g.beatFraction d.clock.songTime).toNat

/-- The fields of the PANELS snapshot (12 R179). -/
def PanelsLayout (d : Device) (bytes : List Byte) : Prop :=
  (∀ (l : Stage) (at_ : Nat), at_ = (if l = .a then 0 else 21) →
      (∀ a : Fin 6, FieldAt bytes (at_ + a.val) 1 (d.link l).boards[a].state.toNat
          ∧ FieldAt bytes (at_ + 6 + a.val) 1 (d.link l).boards[a].misses
          ∧ ∃ seen : Byte, bytes[at_ + 12]? = some seen ∧ seen.getLsbD a.val = (d.link l).boards[a].seen)
        ∧ FieldAt bytes (at_ + 13) 1 (d.link l).parity ∧ FieldAt bytes (at_ + 14) 1 (d.link l).enable.toNat
        ∧ SignedFieldAt bytes (at_ + 15) 4 (d.clock.offsets.get l)
        ∧ FieldAt bytes (at_ + 19) 1 (d.link l).replyLimit ∧ FieldAt bytes (at_ + 20) 1 (d.link l).missLimit)
    ∧ FieldAt bytes 42 4 d.press.stuckLimit
    ∧ (∀ (x : Panel) (at_ : Nat), at_ = 46 + 19 * x.val →
      (∀ k : Fin 4, bytes[at_ + k.val]?
            = some ((d.link (stageOfPanel x)).boards[addressOfPanel x].levels[k])
          ∧ FieldAt bytes (at_ + 7 + 2 * k.val) 2 (match (d.panel x).sensors[k].baseline with | none => 0xFFFF | some b => b))
        ∧ FieldAt bytes (at_ + 4) 1 (d.link (stageOfPanel x)).boards[addressOfPanel x].faults.toNat
        ∧ FieldAt bytes (at_ + 5) 1 (if (d.panel x).pressed then 1 else 0)
        ∧ FieldAt bytes (at_ + 6) 1 (d.panel x).counter.toNat ∧ FieldAt bytes (at_ + 15) 1 (d.panel x).press
        ∧ FieldAt bytes (at_ + 16) 1 (d.panel x).release ∧ FieldAt bytes (at_ + 17) 1 (d.panel x).quorum
        ∧ FieldAt bytes (at_ + 18) 1 (match d.reportedMap[x] with
          | none => 0xFF
          | some q => (if d.owner q = .p2 then 128 else 0) + q.val))
    ∧ (∀ p, FieldAt bytes (if p = .p1 then 274 else 275) 1
        ((if (d.mapper.modifiers.get p).x then 1 else 0) + (if (d.mapper.modifiers.get p).y then 2 else 0)
          + if (d.mapper.modifiers.get p).s then 4 else 0))
    ∧ ∀ (p : Player) (at_ : Nat) (xs : List PanelPair), at_ = (if p = .p1 then 276 else 325) →
        xs = d.mapper.suppressed.get p →
        FieldAt bytes at_ 1 xs.length
          ∧ (∀ (k : Nat) (h : k < xs.length),
              FieldAt bytes (at_ + 1 + 3 * k) 1 (match xs[k].modifier with | .x => 0 | .y => 1 | .s => 2)
                ∧ FieldAt bytes (at_ + 2 + 3 * k) 1 xs[k].first.val ∧ FieldAt bytes (at_ + 3 + 3 * k) 1 xs[k].second.val)
          ∧ ∀ k, xs.length ≤ k → k < 16 → ∀ m, m < 3 → FieldAt bytes (at_ + 1 + 3 * k + m) 1 0xFF

/-- The fields of the LAMP snapshot (11 R161, 12 R179). -/
def LampLayout (d : Device) (bytes : List Byte) : Prop :=
  (∀ x : Panel, bytes[x.val]? = some d.lamps.patterns[x] ∧ bytes[26 + x.val]? = some (d.lampLevel x))
    ∧ FieldAt bytes 12 2 d.lamps.override.toNat
    ∧ (bytes[14]? = some d.lamps.echoLevel ∧ bytes[15]? = some d.lamps.flashLevel
      ∧ bytes[16]? = some d.lamps.beatLevel)
    ∧ FieldAt bytes 17 4 d.lamps.flashTime ∧ FieldAt bytes 21 4 d.lamps.beatTime
    ∧ FieldAt bytes 25 1 d.lamps.flashFloor.toNat

/-- The port whose transaction a command is; none for the events of the pins, of time, of the links, of the lanes and
of the decoders. -/
def portOf : Instr → Option Port
  | .openSong i _ | .start i _ | .abort i _ | .close i _ | .position i _ | .setSync i _ | .setStage i _
  | .setPanel i _ | .setMap i _ | .setWindows i _ | .setScoring i _ | .setLife i _ | .setLamps i _
  | .subscribe i _ | .unsubscribe i _ | .softReset i _ | .chartWrite i _ | .noticeWrite i _
  | .noticeMaskWrite i _ | .lampWrite i _ | .registerWrite i _ _ | .ringRecordConsumed i
  | .refusedRead i _ => some i
  | .ringRead (.whole i) | .ringRead (.heading i) | .ringRead (.header i) | .ringRead (.rise i) => some i
  | .powerOnReset _ | .fsyncEdge | .microsecondTick | .stallEnd | .syncTimeout | .tempoEntryReached _
  | .beatCrossing _ | .poll _ | .emptyRound _ | .report _ _ _ | .replyDeadline _ | .stuckExpiry _ | .sweep _
  | .avoidDue _ | .avoidPastWindow _ | .tailReached _ | .graceExpiry _ | .flashEnd _ | .beatPulseEnd _
  | .headerEntry _ | .rowsEntry _ | .notesEntry _ | .repeatEntry _ | .tempoEntry _ | .dwellEntry _
  | .endEntry _ | .badTag _ | .stallRelease _ => none

/-- A write to COMMAND is in progress on the port of a transaction command, which may bring its rise of SEL_N. -/
def endsCommand (d : Device) (c : Instr) : Bool :=
  match portOf c with
  | none => false
  | some i =>
    match (d.port i).transaction with
    | some (.write channel _) => channel = 0x01#7
    | some (.selected _) => false
    | some (.heading _ _) => false
    | some (.read _ _) => false
    | some (.chart _ _ _ _ _ _) => false
    | some (.ringRead _ _ _) => false
    | none => false

/-- The command is a whole write to COMMAND spelled by its header. -/
def spellsCommand (c : Instr) : Bool :=
  match c with
  | .registerWrite _ channel (.whole _) => channel = 0x01#7
  | _ => false

/-- The command can bring a reset: POWER_ON_RESET, SOFT_RESET, or a write to COMMAND spelled by its header. -/
def mayReset (d : Device) (c : Instr) : Bool :=
  match c with
  | .softReset _ _ | .powerOnReset _ => true
  | _ => spellsCommand c || endsCommand d c

/-- The command can bring the OPEN event: OPEN_SONG, or a write to COMMAND spelled by its header. -/
def mayOpen (d : Device) (c : Instr) : Bool :=
  match c with
  | .openSong _ _ => true
  | _ => spellsCommand c || endsCommand d c

/-- The command is itself a COMMAND write that may bring the OPEN event, and finds one in progress on its port: both are
taken in one step (notes/assumptions 8). -/
def takesTwo (d : Device) (c : Instr) : Bool :=
  endsCommand d c &&
    match c with
    | .openSong _ _ => true
    | _ => spellsCommand c

/-! ## The laws of a state -/

/-- The session and player states agree (01 R4, R5, R9, R10, R13; 07 R104): in IDLE every player is OFF; in PRELOAD the
named players are JOINED; in RUN some player is PLAYING; in ENDED none is; a frozen map is held in RUN and ENDED
alone. -/
def SessionLaw (d : Device) : Prop :=
  (d.session.state = .idle → ∀ p, d.playerState p = .off)
    ∧ (d.session.state = .preload →
        (∀ p, d.playerState p = if d.session.named.get p then .joined else .off) ∧ ∃ p, d.playerState p = .joined)
    ∧ (d.session.state = .run →
        (∀ p, d.playerState p ≠ .joined ∧ (d.playerState p = .off ↔ d.session.named.get p = false))
          ∧ ∃ p, d.playerState p = .playing)
    ∧ (d.session.state = .ended →
        ∀ p, d.playerState p ≠ .joined ∧ d.playerState p ≠ .playing
          ∧ (d.playerState p = .off ↔ d.session.named.get p = false))
    ∧ (d.mapper.frozen.isSome = d.songRuns)

/-- The ring's list (10 R147): at most 64 records, their sequence numbers running on by one up to the counter; and so
too when the laps of the counter are counted in (notes/assumptions 20), whence no two of them are equal. -/
def RecordsLaw (r : Ring) : Prop :=
  r.records.length ≤ 64
    ∧ ∀ k (h : k < r.records.length), r.records[k].seq = r.seq - BitVec.ofNat 16 (r.records.length - k)
      ∧ r.records[k].lap * 65536 + r.records[k].seq.toNat + (r.records.length - k) = r.lap * 65536 + r.seq.toNat

/-- A subscription (10 R150, R151): a cursor at the head has nothing unread; one on a record has as many unread as run
from it to the newest. -/
def SubscriptionLaw (r : Ring) (s : Subscription) : Prop :=
  1 ≤ s.threshold ∧ s.threshold ≤ 63 ∧ s.unread ≤ r.records.length
    ∧ s.cursor = if s.unread = 0 then none else some (r.seq - BitVec.ofNat 16 s.unread)

/-- The ring with its cursors (10 R147, R150, R151). -/
def RingLaw (r : Ring) : Prop := RecordsLaw r ∧ ∀ (i : Port) s, r.subs[i] = some s → SubscriptionLaw r s

/-- Every list holds at most what the handbook gives it room for (02 R20, R27; 04 R46; 07 R107; 08 R109; 10 R147). -/
def CapacityLaw (d : Device) : Prop :=
  (∀ q : LaneQueue, (d.lane q).queue.length ≤ 24) ∧ (∀ p, (d.decoder p).buffer.length ≤ 512)
    ∧ (∀ p, (d.tracker p).map.length ≤ 16) ∧ d.clock.captures.length ≤ 4
    ∧ (∀ p, (d.mapper.suppressed.get p).length ≤ 16) ∧ d.ring.records.length ≤ 64

/-- Every setting lies in its range (01 R4; 02 R18, R19; 05 R82; 06 R87; 08 R112; 09 R134, R135; 11 R160). -/
def SettingsLaw (d : Device) : Prop :=
  d.session.leadIn ≤ 10000000
    ∧ (d.clock.slew ≤ 4000 ∧ d.clock.slew ≤ d.clock.jump ∧ d.clock.jump ≤ 1000000 ∧ 1000 ≤ d.clock.syncTimeout
        ∧ d.clock.syncTimeout ≤ 1000000)
    ∧ (∀ l, -200000 ≤ d.clock.offsets.get l ∧ d.clock.offsets.get l ≤ 200000)
    ∧ (∀ l, 17 ≤ (d.link l).replyLimit ∧ (d.link l).replyLimit ≤ 60 ∧ 1 ≤ (d.link l).missLimit
        ∧ (d.link l).missLimit ≤ 15)
    ∧ (∀ p : Panel, 1 ≤ (d.panel p).press ∧ (d.panel p).press ≤ 255 ∧ (d.panel p).release < (d.panel p).press
        ∧ 1 ≤ (d.panel p).quorum ∧ (d.panel p).quorum ≤ 4)
    ∧ (1000000 ≤ d.press.stuckLimit ∧ d.press.stuckLimit ≤ 60000000)
    ∧ (d.judge.windows.nested = true ∧ d.judge.windows.poor.early ≤ 500000 ∧ d.judge.windows.poor.late ≤ 500000
        ∧ d.judge.avoid.early ≤ 200000 ∧ d.judge.avoid.late ≤ 200000 ∧ d.judge.holdGrace ≤ 1000000)
    ∧ ((∀ o w, d.score.weights.of o = some w → w ≤ 1000) ∧ d.score.comboFloor ≠ .poor ∧ 1 ≤ d.score.lifeStart
        ∧ d.score.lifeStart ≤ 1000 ∧ (∀ o x, d.score.deltas.of o = some x → -1000 ≤ x ∧ x ≤ 1000))
    ∧ (d.lamps.flashTime ≤ 1000000 ∧ d.lamps.beatTime ≤ 1000000)

/-- The settings that only IDLE may change, and the song parameters (01 R2; 02 R18, R19; 05 R82; 06 R87; 08 R112;
09 R134, R135). -/
def SameSettings (d e : Device) : Prop :=
  (e.session.style = d.session.style ∧ e.session.named = d.session.named
      ∧ e.session.failPolicy = d.session.failPolicy ∧ e.session.leadIn = d.session.leadIn)
    ∧ (e.clock.mode = d.clock.mode ∧ e.clock.slew = d.clock.slew ∧ e.clock.jump = d.clock.jump
        ∧ e.clock.syncTimeout = d.clock.syncTimeout ∧ e.clock.offsets = d.clock.offsets)
    ∧ (∀ l, (e.link l).enable = (d.link l).enable ∧ (e.link l).replyLimit = (d.link l).replyLimit
        ∧ (e.link l).missLimit = (d.link l).missLimit)
    ∧ ((∀ p : Panel, (e.panel p).press = (d.panel p).press ∧ (e.panel p).release = (d.panel p).release
          ∧ (e.panel p).quorum = (d.panel p).quorum)
        ∧ e.press.stuckLimit = d.press.stuckLimit)
    ∧ (e.judge.windows = d.judge.windows ∧ e.judge.avoid = d.judge.avoid ∧ e.judge.holdGrace = d.judge.holdGrace)
    ∧ (e.score.weights = d.score.weights ∧ e.score.comboFloor = d.score.comboFloor
        ∧ e.score.lifeStart = d.score.lifeStart ∧ e.score.deltas = d.score.deltas)

/-- The ports' roles and their chart writes (12 R172, R173; 04 R47): no two ports hold one of the roles GAME, AUDIO and
LAMP, and an accepted chart write is the GAME port's. -/
def PortLaw (d : Device) : Prop :=
  (∀ i j : Port, (d.port i).role = (d.port j).role → (d.port i).role ≠ .watch → i = j)
    ∧ ∀ (i : Port) p entered full cut reset,
        (d.port i).transaction = some (.chart p .done entered full cut reset) → (d.port i).role = .game

/-- The rows that a NOTES entry's work still moves to, from a cursor on: never back (04 R60). -/
def WorkRows : Nat → List Work → Prop
  | _, [] => True
  | cursor, .moveTo row :: rest => cursor ≤ row ∧ WorkRows (min row maxRow) rest
  | cursor, .place _ _ :: rest => WorkRows cursor rest
  | _, .append _ _ :: _ => False

/-- The entry in hand of a stalled decoder (04 R54, R56): a note of the cursor row that is no duplicate, with work
that never moves back; or a tempo map entry of the cursor row. -/
def InHandLaw (c : Decoder) : Prop :=
  (c.state = .stalledLane → ∃ size lane n rest,
      c.inHand = some { size := size, task := .notes (.append lane n :: rest) }
        ∧ n.row = c.cursor ∧ n.due = c.rowTime ∧ c.lastRow[lane] ≠ some c.cursor ∧ WorkRows c.cursor rest)
    ∧ (c.state = .stalledTempo → ∃ size s,
      c.inHand = some { size := size, task := .offer s } ∧ s.row = c.cursor ∧ c.rowTime ≤ s.segTime)

/-- A decoder's position (03 R33, R35 to R37): the cursor in its range and at or after its segment's first row, the
row time never after the due time that the segment gives the cursor row, and no last row beyond the cursor. -/
def PositionLaw (c : Decoder) : Prop :=
  c.segment.row ≤ c.cursor ∧ c.cursor ≤ 16777215 ∧ c.rowTime ≤ 2147483647 ∧ c.rowTime ≤ dueTime c.segment c.cursor
    ∧ ∀ (k : Fin 12) r, c.lastRow[k] = some r → r ≤ c.cursor

/-- Every lane queue is in nondecreasing order of due time with rising rows, and nothing in it lies beyond what its
player's decoder has reached (08 R109). -/
def OrderLaw (d : Device) : Prop :=
  (∀ p, PositionLaw (d.decoder p) ∧ InHandLaw (d.decoder p))
    ∧ ∀ p lane q, queueOf d.session.style p lane = some q →
        (d.lane q).queue.Pairwise (fun a b => a.row < b.row ∧ a.due ≤ b.due)
          ∧ ∀ n ∈ (d.lane q).queue,
              n.due ≤ (d.decoder p).rowTime ∧ ∃ r, (d.decoder p).lastRow[lane] = some r ∧ n.row ≤ r

/-- A score record (09 R133, R137 to R142): every field in its range, UNITS the greater of its two sources, SCORE by
its formula, COMBO never above MAX_COMBO. -/
def RecordLaw (r : ScoreRecord) : Prop :=
  r.earned ≤ 4294967295 ∧ r.units = max r.headerUnits r.decodedUnits
    ∧ r.score = (if r.units = 0 then 0 else r.earned * 1000 / r.units)
    ∧ r.combo ≤ r.maxCombo ∧ r.maxCombo ≤ 65535 ∧ r.life ≤ 1000
    ∧ (r.counts.exact ≤ 65535 ∧ r.counts.great ≤ 65535 ∧ r.counts.good ≤ 65535 ∧ r.counts.fair ≤ 65535
        ∧ r.counts.poor ≤ 65535 ∧ r.counts.miss ≤ 65535 ∧ r.counts.held ≤ 65535 ∧ r.counts.letGo ≤ 65535
        ∧ r.counts.avoidHit ≤ 65535 ∧ r.counts.stray ≤ 65535)

/-- Both score records, with the two settings they take values from (09 R133 to R135). -/
def ScoreLaw (d : Device) : Prop :=
  (∀ p, RecordLaw (d.record p)) ∧ d.score.lifeStart ≤ 1000

/-- The scoring units still to be judged of a queue: one for a TAP, two for a HOLD_START (00_scope 1.7). -/
def queueUnits (queue : List Note) : Nat :=
  (queue.map fun n =>
    match n.kind with
    | .tap => 1
    | .holdStart => 2
    | .avoid => 0).sum

/-- The scoring units still to be judged of a lane: its queue's, and one for an active hold's body. -/
def laneUnits (l : Lane) : Nat := queueUnits l.queue + (if l.hold.active.isSome then 1 else 0)

/-- The scoring units still to be judged of a player. -/
def openUnits (d : Device) (p : Player) : Nat :=
  (allQueues.map fun q => if d.owns p q then laneUnits (d.lane q) else 0).sum

/-- No unit pays more than once (09 R140): what a player has earned, with the full weight of every unit still to be
judged, is at most the full weight of the units decoded, which are the decoder's counts. -/
def UnitLaw (d : Device) : Prop :=
  (∀ o w, d.score.weights.of o = some w → w ≤ 1000)
    ∧ ∀ p, (d.record p).earned + 1000 * openUnits d p ≤ 1000 * (d.record p).decodedUnits
        ∧ (d.record p).decodedUnits = (d.decoder p).decodedUnits
        ∧ (d.record p).units = max (d.record p).headerUnits (d.record p).decodedUnits
        ∧ (d.record p).score = if (d.record p).units = 0 then 0 else (d.record p).earned * 1000 / (d.record p).units

/-- The board of a panel (05 section 5.4). -/
def boardOf (d : Device) (p : Panel) : Board := (d.link (stageOfPanel p)).boards[addressOfPanel p]

/-- A panel's stuck timer runs, and has run for a limit or longer (06 R96). -/
def StuckAt (d : Device) (p : Panel) (limit : Nat) : Prop :=
  ∃ start, (d.panel p).stuckSince = some start ∧ limit ≤ (d.clock.free - start).toNat

/-- The boards and the panels agree (05 R78, R83; 06 R89, R95, R96): a board is DISABLED exactly where its enable is
clear; a panel whose board is DISABLED, ABSENT or OFFLINE is released; the stuck timer runs exactly while the panel is
pressed; a baseline is unseeded or within 0 to 4,080; the counts and round numbers are within their ranges. -/
def PanelLaw (d : Device) : Prop :=
  (∀ p : Panel, (boardOf d p).state = .disabled
      ↔ (d.link (stageOfPanel p)).enable.getLsbD (addressOfPanel p).val = false)
    ∧ (∀ p : Panel, (d.panel p).pressed = true → (boardOf d p).state = .online ∨ (boardOf d p).state = .degraded)
    ∧ (∀ p : Panel, (d.panel p).stuckSince.isSome = (d.panel p).pressed)
    ∧ (∀ (p : Panel) (k : Fin 4) b, (d.panel p).sensors[k].baseline = some b → b ≤ 4080)
    ∧ (∀ p : Panel, (boardOf d p).misses ≤ 255)
    ∧ (∀ l, (d.link l).parity ≤ 255 ∧ (d.link l).round < 8)

/-- Only a live player's lanes hold anything (08 R110, R121): a lane queue with a note belongs to a JOINED or PLAYING
player, and a lane with an active hold to a PLAYING one. -/
def LaneLaw (d : Device) : Prop :=
  ∀ q : LaneQueue,
    ((d.lane q).queue ≠ [] → d.playerState (d.owner q) = .joined ∨ d.playerState (d.owner q) = .playing)
      ∧ ((d.lane q).hold ≠ .idle → d.playerState (d.owner q) = .playing)

/-- The frozen map is one to one (07 R100): no two panels feed one lane queue. -/
def MapLaw (d : Device) : Prop :=
  ∀ (a b : Panel) q, d.feeds a = some q → d.feeds b = some q → a = b

end Sys2Proof.Safety
end

