-- ==== Sys2Proof/WellFormed.lean ====
section
/-!
DEFINITION. When a command is one that its row of the table names: a write or a read that belongs to another row, or
a REPORT faster than its six characters, is ill-formed. `exec` is total all the same.
-/
namespace Sys2Proof

/-- The codes of the COMMAND table (12 R171). -/
def commandCodes : List Byte :=
  [0x10, 0x11, 0x12, 0x13, 0x20, 0x21, 0x30, 0x31, 0x32, 0x40, 0x41, 0x42, 0x50, 0x60, 0x61, 0x7F]

/-- A write that no other row of the table stands for: to RESULT, RING, SCORE_P1, SCORE_P2, CLOCK or PANELS, to an
unknown channel (12 R170), or to COMMAND with no command code or an unknown one (12 R171). -/
def registerWriteFits (channel : ChannelField) (data : List Byte) : Bool :=
  if channel = 0x01#7 then
    match data with
    | [] => true
    | code :: _ => !commandCodes.contains code
  else
    !([0x02#7, 0x03#7, 0x04#7, 0x05#7, 0x0B#7].contains channel)

/-- A read that is refused whoever sends it: of COMMAND or of an unknown channel (12 R169). -/
def refusedReadFits (channel : ChannelField) : Bool :=
  channel = 0x01#7 || 0x0C#7 ≤ channel

/-- A whole refused write belongs to its row alone; a moment of a write may be one of any write but a chart write, whose
moments have a row of their own (notes/assumptions 9). -/
def registerTransferFits (channel : ChannelField) : WriteTransfer → Bool
  | .whole data => registerWriteFits channel data
  | .fall | .header | .byte _ | .rise => !([0x04#7, 0x05#7].contains channel)

/-- A whole refused read belongs to its row alone; a header may be one of any read but a RING read, which has a row of
its own (notes/assumptions 9). -/
def refusedTransferFits : ReadTransfer → Bool
  | .whole channel => refusedReadFits channel
  | .heading channel | .header channel => channel != 0x06#7
  | .fall | .rise => true

/-- The six characters of a REPORT last 16.5 µs, that is 66 quarter microseconds (05 R71, R74). -/
def reportFits (quarters : Nat) : Bool := 66 ≤ quarters

/-- The command is one of its row's. -/
def Instr.wellFormed : Instr → Bool
  | .registerWrite _ channel transfer => registerTransferFits channel transfer
  | .refusedRead _ transfer => refusedTransferFits transfer
  | .report _ _ quarters => reportFits quarters
  | .openSong _ _ | .start _ _ | .abort _ _ | .close _ _ | .position _ _ | .setSync _ _ | .setStage _ _
  | .setPanel _ _ | .setMap _ _ | .setWindows _ _ | .setScoring _ _ | .setLife _ _ | .setLamps _ _
  | .subscribe _ _ | .unsubscribe _ _ | .softReset _ _ | .chartWrite _ _ | .noticeWrite _ _
  | .noticeMaskWrite _ _ | .lampWrite _ _ | .ringRead _ | .ringRecordConsumed _ | .powerOnReset _ | .fsyncEdge
  | .microsecondTick | .stallEnd | .syncTimeout | .tempoEntryReached _ | .beatCrossing _ | .poll _
  | .emptyRound _ | .replyDeadline _ | .stuckExpiry _ | .sweep _ | .avoidDue _ | .avoidPastWindow _
  | .tailReached _ | .graceExpiry _ | .flashEnd _ | .beatPulseEnd _ | .headerEntry _ | .rowsEntry _
  | .notesEntry _ | .repeatEntry _ | .tempoEntry _ | .dwellEntry _ | .endEntry _ | .badTag _
  | .stallRelease _ => true

end Sys2Proof
end

