-- ==== Sys2Proof/Certificates/Slice0/Obligations.lean ====
section
/-!
DEFINITION. The statements for the provers. Each is about the whole part: what a command does in every state that
meets its conditions, with everything it leaves alone, and the laws that every command keeps.
-/

section Statements
open Sys2Proof Sys2Proof.Machine Sys2Proof.Safety

/-! ## The step and the resets -/

/-- A step takes the command at the front of the queue and runs it with the queue's rest. -/
def Obligations.StepTakesTheFrontCommand : Prop :=
  ∀ (c : Instr) (rest : List Instr) (s : State),
    step { s with pending := c :: rest } = exec c { s with pending := rest }

/-- Every command answers a next state and leaves the commands that wait alone: nothing stops the part
(notes/assumptions 3). -/
def Obligations.EveryCommandAnswersNext : Prop :=
  ∀ (c : Instr) (s : State), ∃ t, exec c s = .next t ∧ t.pending = s.pending

/-- 01 R15, 02 R31, 04 R70, 05 R85, 06 R99, 07 R108, 08 R130, 09 R146, 10 R158, 11 R166, 12 R173, R176: the roles that a
power-on reset gives the ports, ROLE_CONFLICT where one was changed, and the value it leaves in every block. The
silence timer, which no rule gives a value, is not in it (notes/assumptions 18). -/
def Obligations.PowerOnResetLeaves : Prop :=
  (∀ (s : State) (st : Straps), ∃ t, exec (.powerOnReset st) s = .next t
    ∧ (t.device.port 0).role = st.mp0
    ∧ (t.device.port 1).role = (if st.mp1 ≠ .watch ∧ st.mp1 = st.mp0 then .watch else st.mp1)
    ∧ (t.device.port 2).role
        = (if st.mp2 ≠ .watch ∧ (st.mp2 = st.mp0 ∨ st.mp2 = st.mp1) then .watch else st.mp2)
    ∧ ∀ i : Port,
        (t.device.port i).notices
            = (if (t.device.port 1).role = st.mp1 ∧ (t.device.port 2).role = st.mp2 then 0
                else Notice.roleConflict.mask)
          ∧ (t.device.port i).mask = 0
          ∧ (t.device.port i).result = { channel := 0, code := .done, count := 0 }
          ∧ (t.device.port i).transaction = none)
  ∧ (∀ (s : State) (st : Straps), ∃ t, exec (.powerOnReset st) s = .next t
    ∧ t.device.session =
        { state := .idle, style := .versus, named := ⟨false, false⟩, failPolicy := .stop, leadIn := 3000000,
          players := ⟨.off, .off⟩ }
    ∧ (t.device.clock.free = 0 ∧ t.device.clock.songTime = 0 ∧ t.device.clock.mode = .localMode
        ∧ t.device.clock.slew = 250 ∧ t.device.clock.jump = 50000 ∧ t.device.clock.syncTimeout = 100000
        ∧ t.device.clock.offsets = ⟨0, 0⟩ ∧ t.device.clock.stall = none ∧ t.device.clock.captures = []
        ∧ t.device.clock.edgeCount = 0 ∧ t.device.clock.sync = .present
        ∧ ∀ p, t.device.tracker p
            = { segment := { row := 0, rowTime := 0, segTime := 0, period := 2666667 }, map := [], beatIndex := 0 })
    ∧ (∀ p, (t.device.decoder p).state = .idle ∧ (t.device.decoder p).buffer = []
        ∧ (t.device.decoder p).cursor = 0 ∧ (t.device.decoder p).rowTime = 0
        ∧ (t.device.decoder p).segment = { row := 0, segTime := 0, period := 2666667 }
        ∧ (t.device.decoder p).pendingRepeat = none ∧ (t.device.decoder p).inHand = none
        ∧ (∀ k : Fin 12, (t.device.decoder p).openHold[k] = none ∧ (t.device.decoder p).lastRow[k] = none)
        ∧ (t.device.decoder p).faults = 0 ∧ (t.device.decoder p).noteTotal = 0
        ∧ (t.device.decoder p).holdTotal = 0 ∧ (t.device.decoder p).taps = 0 ∧ (t.device.decoder p).holds = 0
        ∧ (t.device.decoder p).avoids = 0)
    ∧ (∀ l, (t.device.link l).enable = 0x3F ∧ (t.device.link l).replyLimit = 24 ∧ (t.device.link l).missLimit = 4
        ∧ (t.device.link l).parity = 0 ∧ (t.device.link l).round = 0 ∧ (t.device.link l).last = none
        ∧ (t.device.link l).phase = .gap
        ∧ ∀ a : Fin 6, (t.device.link l).boards[a].state = .absent ∧ (t.device.link l).boards[a].misses = 0
            ∧ (t.device.link l).boards[a].seen = false ∧ (t.device.link l).boards[a].faults = 0
            ∧ ∀ k : Fin 4, (t.device.link l).boards[a].levels[k] = 0)
    ∧ (t.device.press.stuckLimit = 8000000
        ∧ ∀ p : Panel, (t.device.panel p).press = 40 ∧ (t.device.panel p).release = 24
            ∧ (t.device.panel p).quorum = 1 ∧ (t.device.panel p).pressed = false ∧ (t.device.panel p).counter = 0
            ∧ (t.device.panel p).stuckSince = none
            ∧ ∀ k : Fin 4, (t.device.panel p).sensors[k]
                = { baseline := none, active := false, prevFault := false })
    ∧ (t.device.mapper.frozen = none ∧ t.device.mapper.suppressed = ⟨[], []⟩
        ∧ t.device.mapper.modifiers = ⟨⟨false, false, false⟩, ⟨false, false, false⟩⟩)
    ∧ ((∀ q : LaneQueue, t.device.lane q = { queue := [], hold := .idle })
        ∧ t.device.judge.windows =
            { exact := ⟨15000, 15000⟩, great := ⟨35000, 35000⟩, good := ⟨70000, 70000⟩, fair := ⟨110000, 110000⟩,
              poor := ⟨150000, 150000⟩ }
        ∧ t.device.judge.avoid = ⟨50000, 50000⟩ ∧ t.device.judge.holdGrace = 250000)
    ∧ (t.device.score.weights = ⟨1000, 800, 500, 200, 0, 1000⟩ ∧ t.device.score.comboFloor = .good
        ∧ t.device.score.lifeStart = 500 ∧ t.device.score.deltas = ⟨8, 6, 2, 0, -20, -60, 6, -40, -80⟩
        ∧ ∀ p, t.device.record p =
            { earned := 0, headerUnits := 0, decodedUnits := 0, units := 0, score := 0, combo := 0, maxCombo := 0,
              counts := ⟨0, 0, 0, 0, 0, 0, 0, 0, 0, 0⟩, life := 0, zero := false })
    ∧ (t.device.ring.records = [] ∧ t.device.ring.seq = 0 ∧ ∀ i : Port, t.device.ring.subs[i] = none)
    ∧ (t.device.lamps.override = 0 ∧ t.device.lamps.echoLevel = 96 ∧ t.device.lamps.flashLevel = 255
        ∧ t.device.lamps.beatLevel = 64 ∧ t.device.lamps.flashTime = 80000 ∧ t.device.lamps.beatTime = 60000
        ∧ t.device.lamps.flashFloor = .good
        ∧ ∀ p : Panel, t.device.lamps.patterns[p] = 0 ∧ t.device.lamps.flash[p] = none ∧ t.device.lamps.beat[p] = none))

/-- 12 R177 with each block's own rule: a soft reset from the GAME port, in a state in which no panel has been pressed
for the default STUCK_LIMIT: left out is the stuck expiry that the reset else brings at once (06 R99,
notes/assumptions 25). The clauses on the round and the last polled address are the model's choice, notes/assumptions 15:
a link without an enabled board is silent, and woken by the reset (05 R77, R86), only in the gap, and one with a
transaction still in hand is not yet silent and keeps both. A transaction of a link in hand goes on, with the REPLY_LIMIT of its POLL's end (05 R86); on
the ports an open chart write and an open RING read are cut short, and every other transaction stands as it was (04
R70, 10 R158, 12 R177). -/
def Obligations.SoftResetEffect : Prop :=
  ∀ (s : State) (i : Port), Sendable s.device i .softReset [] →
    (∀ (p : Panel) start, (s.device.panel p).stuckSince = some start →
      (s.device.clock.free - start).toNat < 8000000) →
    ∃ t, exec (.softReset i []) s = .next t
      ∧ t.device.session =
          { state := .idle, style := .versus, named := ⟨false, false⟩, failPolicy := .stop, leadIn := 3000000,
            players := ⟨.off, .off⟩ }
      ∧ (t.device.clock.free = s.device.clock.free ∧ t.device.clock.songTime = 0
          ∧ t.device.clock.mode = .localMode ∧ t.device.clock.slew = 250 ∧ t.device.clock.jump = 50000
          ∧ t.device.clock.syncTimeout = 100000 ∧ t.device.clock.offsets = ⟨0, 0⟩ ∧ t.device.clock.stall = none
          ∧ t.device.clock.captures = [] ∧ t.device.clock.edgeCount = 0 ∧ t.device.clock.sync = .present
          ∧ ∀ p, t.device.tracker p
              = { segment := { row := 0, rowTime := 0, segTime := 0, period := 2666667 }, map := [], beatIndex := 0 })
      ∧ (∀ p, t.device.decoder p = Decoder.reset)
      ∧ (∀ l, (t.device.link l).enable = 0x3F ∧ (t.device.link l).replyLimit = 24
          ∧ (t.device.link l).missLimit = 4 ∧ (t.device.link l).parity = (s.device.link l).parity
          ∧ (∀ a : Fin 6, (t.device.link l).boards[a]
              = if (s.device.link l).boards[a].state = .disabled then
                  { (s.device.link l).boards[a] with state := .absent, misses := 0 }
                else (s.device.link l).boards[a])
          ∧ ((s.device.link l).enable ≠ 0 ∨ (s.device.link l).phase ≠ .gap →
              (t.device.link l).round = (s.device.link l).round ∧ (t.device.link l).last = (s.device.link l).last)
          ∧ ((s.device.link l).enable = 0 → (s.device.link l).phase = .gap →
              (t.device.link l).round = ((s.device.link l).round + 1) % 8)
          ∧ (∀ a level limit void, (s.device.link l).phase = .transaction a level limit void →
              ∃ mark, (t.device.link l).phase = .transaction a level limit mark)
          ∧ (∀ a level void, (s.device.link l).phase = .sending a level void →
              ∃ mark, (t.device.link l).phase = .sending a level mark))
      ∧ (t.device.press.stuckLimit = 8000000
          ∧ ∀ p : Panel, t.device.panel p = { s.device.panel p with press := 40, release := 24, quorum := 1 })
      ∧ (t.device.mapper.frozen = none ∧ t.device.mapper.suppressed = ⟨[], []⟩
          ∧ t.device.mapper.modifiers = ⟨⟨false, false, false⟩, ⟨false, false, false⟩⟩)
      ∧ t.device.judge = Judge.reset ∧ t.device.score = ScoreKeeper.reset ∧ t.device.ring = Ring.reset
      ∧ t.device.lamps = Lamps.reset
      ∧ ∀ j : Port, (t.device.port j).role = (s.device.port j).role ∧ (t.device.port j).notices = 0
          ∧ (t.device.port j).mask = 0
          ∧ (t.device.port j).result = { channel := 0, code := .done, count := 0 }
          ∧ (t.device.port j).transaction = (s.device.port j).transaction.map fun x =>
            match x with
            | .chart p verdict entered full cut _ => .chart p verdict entered full cut true
            | .ringRead snapshot sent _ => .ringRead snapshot sent true
            | .selected status => .selected status
            | .heading status channel => .heading status channel
            | .write channel data => .write channel data
            | .read channel snapshot => .read channel snapshot

/-! ## Session commands -/

/-- 01 R4 with each block's rule for the OPEN event: an accepted OPEN_SONG; and one with a field value it cannot use, which
is answered BAD_VALUE and changes nothing. -/
def Obligations.OpenSongEffect : Prop :=
  (∀ (s : State) (i : Port) (style mask policy : Byte) (lead : BitVec 32),
    Sendable s.device i .openSong ([style, mask, policy] ++ bytesOf 4 lead.toNat) →
    s.device.session.state = .idle → style.toNat ≤ 1 → policy.toNat ≤ 1 → 1 ≤ mask.toNat → mask.toNat ≤ 3 →
    ¬(style.toNat = 1 ∧ 2 ≤ mask.toNat) →
    ∃ t, exec (.openSong i ([style, mask, policy] ++ bytesOf 4 lead.toNat)) s = .next t
      ∧ Answered t.device i .done 8
      ∧ (t.device.session.state = .preload
          ∧ t.device.session.style = (if style.toNat = 1 then .doubles else .versus)
          ∧ t.device.session.named = ⟨mask.getLsbD 0, mask.getLsbD 1⟩
          ∧ t.device.session.failPolicy = (if policy.toNat = 1 then .carryOn else .stop)
          ∧ t.device.session.leadIn = (if lead.toNat = 0xFFFFFFFF then 3000000 else min lead.toNat 10000000)
          ∧ ∀ p, t.device.playerState p = if t.device.session.named.get p then .joined else .off)
      ∧ (t.device.clock = { s.device.clock with
            songTime := -(t.device.session.leadIn : Int), trackers := t.device.clock.trackers }
          ∧ ∀ p, (t.device.tracker p).segment = { row := 0, rowTime := 0, segTime := 0, period := 2666667 }
              ∧ (t.device.tracker p).map = [])
      ∧ (∀ p, t.device.decoder p = { Decoder.reset with
          state := if t.device.session.named.get p then .waitHeader else .idle })
      ∧ (t.device.links = s.device.links ∧ t.device.press = s.device.press ∧ t.device.mapper = s.device.mapper)
      ∧ (t.device.judge = { s.device.judge with lanes := t.device.judge.lanes }
          ∧ ∀ q : LaneQueue, t.device.lane q = { queue := [], hold := .idle })
      ∧ (t.device.score = { s.device.score with records := t.device.score.records }
          ∧ ∀ p, t.device.record p = { ScoreRecord.reset with
              life := if t.device.session.named.get p then s.device.score.lifeStart else 0 })
      ∧ (t.device.ring.records = [{ markRecord .opened .p1 with seq := s.device.ring.seq, lap := s.device.ring.lap }]
          ∧ t.device.ring.seq = s.device.ring.seq + 1
          ∧ ∀ j : Port, t.device.ring.subs[j] = s.device.ring.subs[j].map fun x =>
              { x with cursor := some s.device.ring.seq, unread := 1 })
      ∧ (t.device.lamps = { s.device.lamps with flash := t.device.lamps.flash, beat := t.device.lamps.beat }
          ∧ ∀ p : Panel, t.device.lamps.flash[p] = none ∧ t.device.lamps.beat[p] = none)
      ∧ ∀ j : Port, Holds t.device j .session ∧ (j ≠ i → (t.device.port j).result = (s.device.port j).result))
  ∧ (∀ (s : State) (i : Port) (style mask policy : Byte) (lead : BitVec 32),
    Sendable s.device i .openSong ([style, mask, policy] ++ bytesOf 4 lead.toNat) →
    s.device.session.state = .idle →
    (1 < style.toNat ∨ 1 < policy.toNat ∨ 4 ≤ mask.toNat ∨ mask.toNat = 0 ∨ (style.toNat = 1 ∧ 2 ≤ mask.toNat)) →
    ∃ t, exec (.openSong i ([style, mask, policy] ++ bytesOf 4 lead.toNat)) s = .next t
      ∧ OnlyResult s.device t.device i ∧ Answered t.device i .badValue 8)

/-- 01 R5 with the clock's and the mapper's rules: an accepted START. The last clause of the first part is a START that
finds nothing to judge at once and no chart ended. The second part is the map of 07 R103 in DOUBLES with every panel
present, the full mirror and swap: each panel feeds the lane of the panel that X, Y and S exchange it with. The third
part is the map of 07 R103 in both styles under any presence: a panel of a player in play feeds the lane that its
player's exchanges, X, then Y, then S, bring to it, a panel of no such player feeds none, the pairs of which exactly one
panel is present are listed, and any of them raises MAP_DEGRADED. -/
def Obligations.StartEffect : Prop :=
  (∀ (s : State) (i : Port), Sendable s.device i .start [] → s.device.session.state = .preload →
    ∃ t, exec (.start i []) s = .next t
      ∧ Answered t.device i .done 1
      ∧ t.device.session = { s.device.session with
          state := t.device.session.state, players := t.device.session.players }
      ∧ (t.device.session.state = .run ∨ t.device.session.state = .ended)
      ∧ (∀ p, s.device.playerState p = .joined →
          t.device.playerState p = .playing ∨ t.device.playerState p = .cleared ∨ t.device.playerState p = .failed)
      ∧ (∀ p, s.device.playerState p = .off → t.device.playerState p = .off)
      ∧ t.device.clock = { s.device.clock with
          songTime := -(s.device.session.leadIn : Int), captures := [], edgeCount := 0,
          silenceStart := s.device.clock.free, trackers := t.device.clock.trackers }
      ∧ (∀ p, (t.device.tracker p).map
            = (s.device.tracker p).map.dropWhile fun e => (e.rowTime : Int) ≤ -(s.device.session.leadIn : Int))
      ∧ (∀ p, (t.device.tracker p).segment
            = (((s.device.tracker p).map.takeWhile
                fun e => (e.rowTime : Int) ≤ -(s.device.session.leadIn : Int)).getLast?).getD
                  (s.device.tracker p).segment)
      ∧ (∀ p, (t.device.tracker p).beatIndex
            = (t.device.tracker p).segment.beatRow (-(s.device.session.leadIn : Int)) / 48)
      ∧ t.device.mapper = { s.device.mapper with
          frozen := t.device.mapper.frozen, suppressed := t.device.mapper.suppressed }
      ∧ t.device.mapper.frozen.isSome = true
      ∧ (t.device.links = s.device.links ∧ t.device.press = s.device.press ∧ t.device.lamps = s.device.lamps)
      ∧ (∀ j : Port, Holds t.device j .session)
      ∧ ((∀ q : LaneQueue, (s.device.lane q).queue = [] ∧ (s.device.lane q).hold = .idle) →
          (∀ p, (s.device.decoder p).state ≠ .ended) →
          t.device.session.state = .run ∧ (∀ p, s.device.playerState p = .joined → t.device.playerState p = .playing)
            ∧ t.device.ring = s.device.ring.append (markRecord .started .p1)
            ∧ t.device.decoders = s.device.decoders ∧ t.device.judge = s.device.judge
            ∧ t.device.score = s.device.score))
  ∧ (∀ (s : State) (i : Port), Sendable s.device i .start [] → s.device.session.state = .preload →
    s.device.session.style = .doubles → s.device.playerState .p1 = .joined →
    (∀ p : Panel, s.device.present p = true) →
    ∃ t, exec (.start i []) s = .next t
      ∧ ∀ p : Panel, t.device.feeds p = some
          (let m := s.device.mapper.modifiers.p1
            let stage := if m.s then 1 - p.val / 6 else p.val / 6
            let row := if m.y then 1 - p.val % 6 / 3 else p.val % 6 / 3
            let column := if m.x then 2 - p.val % 3 else p.val % 3
            (⟨(stage * 6 + row * 3 + column) % 12, Nat.mod_lt _ (by decide)⟩ : LaneQueue)))
  ∧ (∀ (s : State) (i : Port) (inPlay : Player → Bool), Sendable s.device i .start [] →
    s.device.session.state = .preload →
    (∀ p, inPlay p = true ↔ s.device.playerState p = .joined ∨ s.device.playerState p = .playing) →
    ∃ t, exec (.start i []) s = .next t
      ∧ (∀ (x : Panel) p, p = s.device.owner x → t.device.feeds x =
          if inPlay p then
            some (exchangedWith s.device p .x (exchangedWith s.device p .y (exchangedWith s.device p .s x)))
          else none)
      ∧ (∀ p, t.device.mapper.suppressed.get p = if inPlay p then suppressedAt s.device p else [])
      ∧ ((∃ p, t.device.mapper.suppressed.get p ≠ []) → ∀ j : Port, Holds t.device j .mapDegraded)
      ∧ ((∀ p, t.device.mapper.suppressed.get p = []) →
          (∀ q : LaneQueue, (s.device.lane q).queue = [] ∧ (s.device.lane q).hold = .idle) →
          (∀ p, (s.device.decoder p).state ≠ .ended) →
          ∀ j : Port, Holds t.device j .mapDegraded ↔ Holds s.device j .mapDegraded))

/-- 01 R7 and R8 with each block's rule: an accepted ABORT and an accepted CLOSE. An open chart write of another port is
cut off (04 R47), and its other transactions stand as they were. That the beat index of a tracker stays is the model's
choice (notes/assumptions 19). -/
def Obligations.AbortAndCloseReturnToIdle : Prop :=
  ∀ (s : State) (i : Port) (c : Command), (c = .abort ∨ c = .close) → Sendable s.device i c [] →
    s.device.session.state ∈ statesOf c →
    ∃ t, exec (instrOf c i []) s = .next t
      ∧ Answered t.device i .done 1
      ∧ t.device.session = { s.device.session with state := .idle, players := ⟨.off, .off⟩ }
      ∧ t.device.clock = { s.device.clock with
          songTime := 0, stall := none, captures := [], trackers := t.device.clock.trackers }
      ∧ (∀ p, t.device.tracker p = { s.device.tracker p with
          segment := { row := 0, rowTime := 0, segTime := 0, period := 2666667 }, map := [] })
      ∧ (∀ p, t.device.decoder p = { Decoder.reset with
          faults := (s.device.decoder p).faults, noteTotal := (s.device.decoder p).noteTotal
          holdTotal := (s.device.decoder p).holdTotal, taps := (s.device.decoder p).taps
          holds := (s.device.decoder p).holds, avoids := (s.device.decoder p).avoids })
      ∧ t.device.mapper = { s.device.mapper with frozen := none }
      ∧ (t.device.judge = { s.device.judge with lanes := t.device.judge.lanes }
          ∧ ∀ q : LaneQueue, t.device.lane q = { queue := [], hold := .idle })
      ∧ (t.device.links = s.device.links ∧ t.device.press = s.device.press ∧ t.device.score = s.device.score
          ∧ t.device.lamps = s.device.lamps)
      ∧ t.device.ring = (if c = .abort then s.device.ring.append (markRecord .aborted .p1) else s.device.ring)
      ∧ ∀ j : Port, Holds t.device j .session ∧ (j ≠ i → (t.device.port j).result = (s.device.port j).result)
          ∧ (t.device.port j).transaction = (s.device.port j).transaction.map fun x =>
            match x with
            | .chart p verdict entered full _ reset => .chart p verdict entered full true reset
            | .ringRead snapshot sent dead => .ringRead snapshot sent dead
            | .selected status => .selected status
            | .heading status channel => .heading status channel
            | .write channel data => .write channel data
            | .read channel snapshot => .read channel snapshot

/-- 12 R171, R172, 01 R3 and the settings' own rules: a command outside the role's rights is answered NO_RIGHT, one within
them of a wrong length BAD_LENGTH, and one that passes both in a session state that does not accept it WRONG_STATE;
none changes anything else. The count is that of the data bytes, where the 16-bit field can hold it. -/
def Obligations.RefusedCommandsChangeNothing : Prop :=
  (∀ (s : State) (i : Port) (c : Command) (fields : List Byte), Sendable s.device i c fields →
    s.device.session.state ∉ statesOf c →
    ∃ t, exec (instrOf c i fields) s = .next t
      ∧ OnlyResult s.device t.device i ∧ Answered t.device i .wrongState (fields.length + 1))
  ∧ (∀ (s : State) (i : Port) (c : Command) (fields : List Byte), (s.device.port i).transaction = none →
    ∃ t, exec (instrOf c i fields) s = .next t
      ∧ (c ∉ rightsOf (s.device.port i).role →
          OnlyResult s.device t.device i ∧ (t.device.port i).result.channel = 0x01
            ∧ (t.device.port i).result.code = .noRight)
      ∧ (c ∈ rightsOf (s.device.port i).role → fields.length + 1 ≠ c.length →
          OnlyResult s.device t.device i ∧ (t.device.port i).result.channel = 0x01
            ∧ (t.device.port i).result.code = .badLength)
      ∧ (c ∉ rightsOf (s.device.port i).role ∨ fields.length + 1 ≠ c.length → fields.length < 65535 →
          (t.device.port i).result.count = BitVec.ofNat 16 (fields.length + 1)))

/-! ## Settings -/

/-- 02 R19: an accepted SET_SYNC, and one with an unknown mode. -/
def Obligations.SetSyncEffect : Prop :=
  ∀ (s : State) (i : Port) (mode : Byte) (slew jump timeout : BitVec 32),
    Sendable s.device i .setSync
      ([mode] ++ bytesOf 4 slew.toNat ++ bytesOf 4 jump.toNat ++ bytesOf 4 timeout.toNat) →
    s.device.session.state = .idle →
    ∃ t, exec (.setSync i ([mode] ++ bytesOf 4 slew.toNat ++ bytesOf 4 jump.toNat ++ bytesOf 4 timeout.toNat)) s
        = .next t
      ∧ (mode.toNat ≤ 1 →
          t.device = { s.device with
              clock := { s.device.clock with
                mode := if mode.toNat = 1 then .followMode else .localMode
                slew := min slew.toNat 4000
                jump := max (min slew.toNat 4000) (min jump.toNat 1000000)
                syncTimeout := max 1000 (min timeout.toNat 1000000)
                sync := .present }
              ports := t.device.ports }
            ∧ PortsAnswered s.device t.device i .done 14)
      ∧ (1 < mode.toNat → OnlyResult s.device t.device i ∧ Answered t.device i .badValue 14)

/-- 05 R77, R82, R83, 06 R95, 02 R18: an accepted SET_STAGE in IDLE, where no map is frozen: the settings of both
stages, the boards whose enable changes, the panels of boards that are lost, and the round that a silent link given a
board begins; and one with a set bit beyond the six of an enable mask. Two clauses on a link's phase are the model's choices:
that a transaction's mark of a board disabled stays when this SET_STAGE enables the board again (notes/assumptions 14),
and that an empty round on a link left without a board becomes silence while a link with a transaction in hand is not
silent (notes/assumptions 15). -/
def Obligations.SetStageEffect : Prop :=
  ∀ (s : State) (i : Port) (enable reply miss : PerStage Byte) (offset : PerStage (BitVec 32)) (fields : List Byte),
    fields = [enable.a] ++ bytesOf 4 offset.a.toNat ++ [reply.a, miss.a]
        ++ [enable.b] ++ bytesOf 4 offset.b.toNat ++ [reply.b, miss.b] →
    Sendable s.device i .setStage fields → s.device.session.state = .idle → s.device.mapper.frozen = none →
    ∃ t, exec (.setStage i fields) s = .next t
      ∧ ((∀ l, (enable.get l).toNat < 64) →
          t.device = { s.device with
              clock := { s.device.clock with offsets := t.device.clock.offsets }
              links := t.device.links
              press := { s.device.press with panels := t.device.press.panels }
              ports := t.device.ports }
            ∧ PortsAnswered s.device t.device i .done 15
            ∧ (∀ l, t.device.clock.offsets.get l = max (-200000) (min 200000 (offset.get l).toInt)
                ∧ (t.device.link l).enable = (enable.get l).setWidth 6
                ∧ (t.device.link l).replyLimit = max 17 (min (reply.get l).toNat 60)
                ∧ (t.device.link l).missLimit = max 1 (min (miss.get l).toNat 15)
                ∧ (t.device.link l).parity = (s.device.link l).parity
                ∧ ∀ a : Fin 6, (t.device.link l).boards[a] =
                    (if (s.device.link l).enable.getLsbD a.val = (enable.get l).getLsbD a.val then
                      (s.device.link l).boards[a]
                    else
                      { (s.device.link l).boards[a] with
                        state := if (enable.get l).getLsbD a.val then .absent else .disabled, misses := 0 }))
            ∧ (∀ l, (s.device.link l).enable = 0 → (s.device.link l).phase = .gap → (enable.get l).toNat ≠ 0 →
                (t.device.link l).round = ((s.device.link l).round + 1) % 8
                  ∧ ∃ a : Fin 6, (enable.get l).getLsbD a.val = true
                    ∧ (∀ b : Fin 6, (enable.get l).getLsbD b.val = true → a ≤ b)
                    ∧ (t.device.link l).last = some a
                    ∧ (t.device.link l).phase = .sending a (s.device.lampLevel (panelOf l a)) false)
            ∧ (∀ l, (s.device.link l).enable ≠ 0 ∨ (s.device.link l).phase ≠ .gap ∨ (enable.get l).toNat = 0 →
                (t.device.link l).round = (s.device.link l).round ∧ (t.device.link l).last = (s.device.link l).last
                  ∧ (t.device.link l).phase =
                    match (s.device.link l).phase with
                    | .gap => .gap
                    | .emptyRound => if (enable.get l).toNat = 0 then .gap else .emptyRound
                    | .sending a level void => .sending a level (void || !(enable.get l).getLsbD a.val)
                    | .transaction a level limit void =>
                      .transaction a level limit (void || !(enable.get l).getLsbD a.val))
            ∧ (∀ l (a : Fin 6),
                (s.device.link l).enable.getLsbD a.val = true → (enable.get l).getLsbD a.val = false →
                ((s.device.link l).boards[a].state = .online ∨ (s.device.link l).boards[a].state = .degraded) →
                t.device.panel (panelOf l a) =
                    { s.device.panel (panelOf l a) with
                      sensors := (t.device.panel (panelOf l a)).sensors
                      pressed := false
                      stuckSince :=
                        if (s.device.panel (panelOf l a)).pressed then none
                        else (s.device.panel (panelOf l a)).stuckSince }
                  ∧ ∀ k : Fin 4, (t.device.panel (panelOf l a)).sensors[k]
                      = { (s.device.panel (panelOf l a)).sensors[k] with active := false })
            ∧ (∀ l (a : Fin 6),
                ((s.device.link l).enable.getLsbD a.val = false ∨ (enable.get l).getLsbD a.val = true
                  ∨ ((s.device.link l).boards[a].state ≠ .online
                      ∧ (s.device.link l).boards[a].state ≠ .degraded)) →
                t.device.panel (panelOf l a) = s.device.panel (panelOf l a)))
      ∧ ((∃ l, 64 ≤ (enable.get l).toNat) → OnlyResult s.device t.device i ∧ Answered t.device i .badValue 15)

/-- 06 R87, R96: an accepted SET_PANEL in IDLE, where no map is frozen: the calibration of one panel or of all, and
STUCK_LIMIT, with the stuck expiries that a lower limit brings; and one whose selector names no panel. -/
def Obligations.SetPanelEffect : Prop :=
  ∀ (s : State) (i : Port) (selector press release quorum : Byte) (limit : BitVec 32),
    Sendable s.device i .setPanel ([selector, press, release, quorum] ++ bytesOf 4 limit.toNat) →
    s.device.session.state = .idle → s.device.mapper.frozen = none →
    ∃ t, exec (.setPanel i ([selector, press, release, quorum] ++ bytesOf 4 limit.toNat)) s = .next t
      ∧ (selector.toNat < 12 ∨ selector = 0xFF →
          t.device = { s.device with press := t.device.press, ports := t.device.ports }
            ∧ t.device.press.stuckLimit = max 1000000 (min limit.toNat 60000000)
            ∧ Answered t.device i .done 9
            ∧ (∀ p : Panel,
                (selector = 0xFF ∨ selector.toNat = p.val →
                  (t.device.panel p).press = max 1 press.toNat
                    ∧ (t.device.panel p).release = min release.toNat (max 1 press.toNat - 1)
                    ∧ (t.device.panel p).quorum = max 1 (min quorum.toNat 4))
                ∧ (selector ≠ 0xFF → selector.toNat ≠ p.val →
                  (t.device.panel p).press = (s.device.panel p).press
                    ∧ (t.device.panel p).release = (s.device.panel p).release
                    ∧ (t.device.panel p).quorum = (s.device.panel p).quorum)
                ∧ (StuckAt s.device p t.device.press.stuckLimit →
                  (t.device.panel p).pressed = false ∧ (t.device.panel p).stuckSince = none
                    ∧ (t.device.panel p).counter = (s.device.panel p).counter
                    ∧ (∀ k : Fin 4, (t.device.panel p).sensors[k]
                        = { (s.device.panel p).sensors[k] with
                            baseline := some (16 * (boardOf s.device p).levels[k].toNat), active := false })
                    ∧ ∀ j : Port, Holds t.device j .stuck)
                ∧ (¬StuckAt s.device p t.device.press.stuckLimit →
                  t.device.panel p = { s.device.panel p with
                    press := (t.device.panel p).press
                    release := (t.device.panel p).release
                    quorum := (t.device.panel p).quorum }))
            ∧ ((∀ p, ¬StuckAt s.device p t.device.press.stuckLimit) → PortsAnswered s.device t.device i .done 9)
            ∧ ∀ j : Port, t.device.port j = { s.device.port j with
                notices := (t.device.port j).notices
                result := if j = i then (t.device.port j).result else (s.device.port j).result })
      ∧ (12 ≤ selector.toNat → selector ≠ 0xFF →
          OnlyResult s.device t.device i ∧ Answered t.device i .badValue 9)

/-- 07 R101: an accepted SET_MAP, in IDLE and in PRELOAD, and one whose player or modifier byte names nothing. -/
def Obligations.SetMapEffect : Prop :=
  ∀ (s : State) (i : Port) (player bits : Byte), Sendable s.device i .setMap [player, bits] →
    s.device.session.state = .idle ∨ s.device.session.state = .preload →
    ∃ t, exec (.setMap i [player, bits]) s = .next t
      ∧ (∀ p : Player, player = (if p = .p1 then 1 else 2) → bits.toNat < 8 →
          t.device = { s.device with
              mapper := { s.device.mapper with
                modifiers := s.device.mapper.modifiers.set p ⟨bits.getLsbD 0, bits.getLsbD 1, bits.getLsbD 2⟩ }
              ports := t.device.ports }
            ∧ PortsAnswered s.device t.device i .done 3)
      ∧ ((player ≠ 1 ∧ player ≠ 2) ∨ 8 ≤ bits.toNat →
          OnlyResult s.device t.device i ∧ Answered t.device i .badValue 3)

/-- 08 R112: SET_WINDOWS in IDLE: its thirteen values clamped; a grade table in which a later window is nowhere the
smaller is taken, any other answered BAD_TABLE. -/
def Obligations.SetWindowsEffect : Prop :=
  ∀ (s : State) (i : Port) (v : Vector (BitVec 32) 13) (fields : List Byte),
    fields = (List.finRange 13).flatMap (fun k => bytesOf 4 (v[k]).toNat) → Sendable s.device i .setWindows fields →
    s.device.session.state = .idle →
    ∃ t, exec (.setWindows i fields) s = .next t
      ∧ ((∀ k, (h : k < 8) → min v[k].toNat 500000 ≤ min v[k + 2].toNat 500000) →
          t.device = { s.device with
              judge := { s.device.judge with
                windows :=
                  { exact := ⟨min v[0].toNat 500000, min v[1].toNat 500000⟩
                    great := ⟨min v[2].toNat 500000, min v[3].toNat 500000⟩
                    good := ⟨min v[4].toNat 500000, min v[5].toNat 500000⟩
                    fair := ⟨min v[6].toNat 500000, min v[7].toNat 500000⟩
                    poor := ⟨min v[8].toNat 500000, min v[9].toNat 500000⟩ }
                avoid := ⟨min v[10].toNat 200000, min v[11].toNat 200000⟩
                holdGrace := min v[12].toNat 1000000 }
              ports := t.device.ports }
            ∧ PortsAnswered s.device t.device i .done 53)
      ∧ ((∃ k, ∃ h : k < 8, min v[k + 2].toNat 500000 < min v[k].toNat 500000) →
          OnlyResult s.device t.device i ∧ Answered t.device i .badTable 53)

/-- 09 R134, R135: SET_SCORING and SET_LIFE in IDLE. -/
def Obligations.SetScoringAndLifeEffect : Prop :=
  (∀ (s : State) (i : Port) (w : Vector (BitVec 16) 6) (floor : Byte) (fields : List Byte),
    fields = (List.finRange 6).flatMap (fun k => bytesOf 2 (w[k]).toNat) ++ [floor] →
    Sendable s.device i .setScoring fields → s.device.session.state = .idle →
    ∃ t, exec (.setScoring i fields) s = .next t
      ∧ t.device = { s.device with
          score := { s.device.score with
            weights :=
              { exact := min w[0].toNat 1000, great := min w[1].toNat 1000, good := min w[2].toNat 1000,
                fair := min w[3].toNat 1000, poor := min w[4].toNat 1000, held := min w[5].toNat 1000 }
            comboFloor :=
              if floor = 0 then .exact else if floor = 1 then .great else if floor = 2 then .good else .fair }
          ports := t.device.ports }
      ∧ PortsAnswered s.device t.device i .done 14)
  ∧ (∀ (s : State) (i : Port) (start : BitVec 16) (x : Vector (BitVec 16) 9) (fields : List Byte),
    fields = bytesOf 2 start.toNat ++ (List.finRange 9).flatMap (fun k => bytesOf 2 (x[k]).toNat) →
    Sendable s.device i .setLife fields → s.device.session.state = .idle →
    ∃ t, exec (.setLife i fields) s = .next t
      ∧ t.device = { s.device with
          score := { s.device.score with
            lifeStart := max 1 (min start.toNat 1000)
            deltas :=
              let clamped := fun v : BitVec 16 => max (-1000) (min 1000 v.toInt)
              { exact := clamped x[0], great := clamped x[1], good := clamped x[2], fair := clamped x[3],
                poor := clamped x[4], miss := clamped x[5], held := clamped x[6], letGo := clamped x[7],
                avoidHit := clamped x[8] } }
          ports := t.device.ports }
      ∧ PortsAnswered s.device t.device i .done 21)

/-- 11 R160, R161, 12 R172: SET_LAMPS, in every session state; and a LAMP write: the LAMP port's bytes replace patterns and,
with fourteen of them, the override, and any other port's is answered NO_RIGHT; that a lone thirteenth byte, which
replaces nothing, is counted as taken is the model's choice (notes/assumptions 37). 11 R163, R164: a flash and a beat pulse
end when the free counter reaches their end, and not before. 11 R162: a panel's level is its pattern under override, and
otherwise the greatest of its pattern and of the echo, flash and beat levels that apply. -/
def Obligations.LampMixerEffect : Prop :=
  ((∀ (s : State) (i : Port) (echo flash beat floor : Byte) (flashTime beatTime : BitVec 32) (fields : List Byte),
    fields = [echo, flash, beat] ++ bytesOf 4 flashTime.toNat ++ bytesOf 4 beatTime.toNat ++ [floor] →
    Sendable s.device i .setLamps fields →
    ∃ t, exec (.setLamps i fields) s = .next t
      ∧ t.device = { s.device with
          lamps := { s.device.lamps with
            echoLevel := echo, flashLevel := flash, beatLevel := beat, flashTime := min flashTime.toNat 1000000,
            beatTime := min beatTime.toNat 1000000,
            flashFloor :=
              if floor = 0 then .exact else if floor = 1 then .great else if floor = 2 then .good
              else if floor = 3 then .fair else .poor }
          ports := t.device.ports }
      ∧ PortsAnswered s.device t.device i .done 13)
  ∧ (∀ (s : State) (i : Port) (data : List Byte), (s.device.port i).transaction = none →
    ∃ t, exec (.lampWrite i data) s = .next t
      ∧ ((s.device.port i).role = .lamp →
          t.device = { s.device with
              lamps := { s.device.lamps with patterns := t.device.lamps.patterns, override := t.device.lamps.override }
              ports := t.device.ports }
            ∧ (∀ (p : Panel) (h : p.val < data.length), t.device.lamps.patterns[p] = data[p.val])
            ∧ (∀ p : Panel, data.length ≤ p.val → t.device.lamps.patterns[p] = s.device.lamps.patterns[p])
            ∧ (data.length < 14 → t.device.lamps.override = s.device.lamps.override)
            ∧ (∀ h : 14 ≤ data.length, t.device.lamps.override = (data[12] ++ data[13] : BitVec 16).setWidth 12)
            ∧ (t.device.port i).result = ⟨0x0B, .done, BitVec.ofNat 16 (min data.length 14)⟩)
      ∧ ((s.device.port i).role ≠ .lamp →
          OnlyResult s.device t.device i ∧ (t.device.port i).result = ⟨0x0B, .noRight, 0⟩)
      ∧ (∀ j : Port, j ≠ i → t.device.port j = s.device.port j)
      ∧ t.device.port i = { s.device.port i with result := (t.device.port i).result }))
  ∧ ((∀ (s : State) (p : Panel),
    (∃ t, exec (.flashEnd p) s = .next t
      ∧ t.device = { s.device with lamps := { s.device.lamps with flash := t.device.lamps.flash } }
      ∧ t.device.lamps.flash[p]
          = (if s.device.lamps.flash[p] = some s.device.clock.free then none else s.device.lamps.flash[p])
      ∧ ∀ x : Panel, x ≠ p → t.device.lamps.flash[x] = s.device.lamps.flash[x])
    ∧ ∃ t, exec (.beatPulseEnd p) s = .next t
      ∧ t.device = { s.device with lamps := { s.device.lamps with beat := t.device.lamps.beat } }
      ∧ t.device.lamps.beat[p]
          = (if s.device.lamps.beat[p] = some s.device.clock.free then none else s.device.lamps.beat[p])
      ∧ ∀ x : Panel, x ≠ p → t.device.lamps.beat[x] = s.device.lamps.beat[x])
  ∧ (∀ (d : Device) (p : Panel),
    (d.lamps.override.getLsbD p.val = true → d.lampLevel p = d.lamps.patterns[p])
      ∧ (d.lamps.override.getLsbD p.val = false →
          (d.lampLevel p).toNat = max (max (d.lamps.patterns[p]).toNat
              (if (d.panel p).pressed then d.lamps.echoLevel.toNat else 0))
            (max (if (d.lamps.flash[p]).isSome then d.lamps.flashLevel.toNat else 0)
              (if (d.lamps.beat[p]).isSome then d.lamps.beatLevel.toNat else 0)))))

/-! ## The song clock -/

/-- 02 R16, R17, R24: a microsecond in which nothing else is due, and in every state the free counter. -/
def Obligations.MicrosecondEffect : Prop :=
  ∀ s : State, ∃ t, exec .microsecondTick s = .next t
    ∧ t.device.clock.free = s.device.clock.free + 1
    ∧ (s.device.dueEvents = [] →
        t.device = { s.device with
          clock := { s.device.clock with
            free := s.device.clock.free + 1
            stall := if s.device.songRuns then s.device.clock.stall.map (· - 1) else s.device.clock.stall
            songTime :=
              if s.device.songRuns = true ∧ s.device.clock.stall = none then min (s.device.clock.songTime + 1) 2147483647
              else s.device.clock.songTime } })

/-- 02 R20, R24, R26, R174: an edge of FSYNC restarts the silence timer and makes the status PRESENT, and in RUN and ENDED
makes a capture, the oldest of four giving way; the end of a stall whose count has run out; and the loss of sync in
FOLLOW in RUN and ENDED. The last two are nothing where they are not due. -/
def Obligations.EdgesStallsAndSyncLoss : Prop :=
  (∀ s : State, ∃ t, exec .fsyncEdge s = .next t
    ∧ t.device = { s.device with
        clock := { s.device.clock with
          silenceStart := s.device.clock.free
          sync := .present
          captures := t.device.clock.captures
          edgeCount := t.device.clock.edgeCount }
        ports := t.device.ports }
    ∧ (s.device.session.state = .run ∨ s.device.session.state = .ended →
        t.device.clock.edgeCount = s.device.clock.edgeCount + 1
          ∧ t.device.clock.captures
            = s.device.clock.captures.drop (if s.device.clock.captures.length < 4 then 0 else 1)
              ++ [{ edge := s.device.clock.edgeCount, free := s.device.clock.free,
                    time := s.device.clock.songTime }]
          ∧ PortsRaised s.device t.device .capture)
    ∧ (s.device.session.state = .idle ∨ s.device.session.state = .preload →
        t.device.clock.edgeCount = s.device.clock.edgeCount ∧ t.device.clock.captures = s.device.clock.captures
          ∧ t.device.ports = s.device.ports))
  ∧ (∀ s : State,
    (∃ t, exec .stallEnd s = .next t
      ∧ t.device = { s.device with
          clock := { s.device.clock with
            stall := if s.device.clock.stall = some 0 then none else s.device.clock.stall } })
    ∧ ∃ t, exec .syncTimeout s = .next t
      ∧ ((s.device.session.state = .run ∨ s.device.session.state = .ended) ∧ s.device.clock.mode = .followMode
            ∧ s.device.clock.sync = .present
            ∧ s.device.clock.syncTimeout ≤ (s.device.clock.free - s.device.clock.silenceStart).toNat →
          t.device = { s.device with clock := { s.device.clock with sync := .lost }, ports := t.device.ports }
            ∧ PortsRaised s.device t.device .syncLost)
      ∧ (s.device.session.state = .idle ∨ s.device.session.state = .preload ∨ s.device.clock.mode = .localMode
            ∨ s.device.clock.sync = .lost
            ∨ (s.device.clock.free - s.device.clock.silenceStart).toNat < s.device.clock.syncTimeout → t = s))

/-- 02 R21 to R23, R28, R29: an accepted position report, by the sign and the size of its error against SLEW and JUMP; and
the three refusals of a report, in their order, which change nothing else. 04 R54, R62: a decoder stalled on the map may
have offered its entry again within the step, where lane events follow the removal (notes/assumptions 39); the map then
has that entry at its back. That a report of the edge whose first report began the pending stall is DEFERRED, not STALE,
is the model's choice, notes/assumptions 44. -/
def Obligations.PositionEffect : Prop :=
  (∀ (s : State) (i : Port) (edge : Byte) (reported : BitVec 32) (x : Capture) (e : Int),
    Sendable s.device i .position (edge :: bytesOf 4 reported.toNat) →
    s.device.clock.mode = .followMode → (s.device.session.state = .run ∨ s.device.session.state = .ended) →
    s.device.clock.stall = none → s.device.clock.captures.find? (fun c => c.edge = edge) = some x →
    e = reported.toInt - x.time → s.device.clock.slew ≤ s.device.clock.jump →
    s.device.clock.songTime ≤ 2147483647 →
    ∃ t, exec (.position i (edge :: bytesOf 4 reported.toNat)) s = .next t
      ∧ Answered t.device i .done 6
      ∧ t.device.clock = { s.device.clock with
          songTime := t.device.clock.songTime, stall := t.device.clock.stall, captures := [],
          trackers := t.device.clock.trackers }
      ∧ (0 ≤ e → t.device.clock.stall = none
          ∧ t.device.clock.songTime = min (s.device.clock.songTime
              + if (s.device.clock.slew : Int) < e ∧ e ≤ s.device.clock.jump then (s.device.clock.slew : Int) else e)
              2147483647)
      ∧ (e < 0 → t.device.clock.songTime = s.device.clock.songTime
          ∧ ∀ length, length = (if -(s.device.clock.slew : Int) ≤ e then e.natAbs
                else if -(s.device.clock.jump : Int) ≤ e then s.device.clock.slew else min e.natAbs 1000000) →
              t.device.clock.stall = if length = 0 then none else some length)
      ∧ (e ≠ 0 → e.natAbs ≤ s.device.clock.jump → ∀ j : Port, Holds t.device j .corrected)
      ∧ (s.device.clock.jump < e.natAbs → ∀ j : Port, Holds t.device j .jumped)
      ∧ (∀ p, ∃ entries,
          (entries = (s.device.tracker p).map
              ∧ ((s.device.decoder p).state = .stalledTempo → (t.device.decoder p).state ≠ .decoding)
            ∨ (s.device.decoder p).state = .stalledTempo ∧ (t.device.decoder p).state ≠ .stalledTempo
              ∧ ∃ size g, (s.device.decoder p).inHand = some ⟨size, .offer g⟩
                ∧ entries = (s.device.tracker p).map ++ [g])
            ∧ (t.device.tracker p).map
              = entries.dropWhile (fun g => (g.rowTime : Int) ≤ t.device.clock.songTime)
            ∧ (t.device.tracker p).segment
              = ((entries.takeWhile
                  (fun g => (g.rowTime : Int) ≤ t.device.clock.songTime)).getLast?).getD (s.device.tracker p).segment
            ∧ (s.device.playerState p ≠ .off →
                (t.device.tracker p).beatIndex
                  = (t.device.tracker p).segment.beatRow t.device.clock.songTime / 48))
      ∧ t.device.links = s.device.links ∧ t.device.press = s.device.press ∧ t.device.mapper = s.device.mapper
      ∧ ∀ j : Port, j ≠ i → (t.device.port j).result = (s.device.port j).result)
  ∧ (∀ (s : State) (i : Port) (edge : Byte) (reported : BitVec 32),
    Sendable s.device i .position (edge :: bytesOf 4 reported.toNat) →
    ∃ t, exec (.position i (edge :: bytesOf 4 reported.toNat)) s = .next t
      ∧ (s.device.clock.mode = .localMode ∨ s.device.session.state = .idle ∨ s.device.session.state = .preload →
          OnlyResult s.device t.device i ∧ Answered t.device i .wrongState 6)
      ∧ (s.device.clock.mode = .followMode → s.device.session.state = .run ∨ s.device.session.state = .ended →
          s.device.clock.stall ≠ none → OnlyResult s.device t.device i ∧ Answered t.device i .deferred 6)
      ∧ (s.device.clock.mode = .followMode → s.device.session.state = .run ∨ s.device.session.state = .ended →
          s.device.clock.stall = none → (∀ x ∈ s.device.clock.captures, x.edge ≠ edge) →
          OnlyResult s.device t.device i ∧ Answered t.device i .stale 6))

/-- 02 R28, R29, 11 R164: in RUN and ENDED, a tempo map's front entries that song time has reached leave it, the last
of them the new segment, and the beat index of a player in play follows song time; a rise lights the player's stages.
A BEAT_CROSSING waits for entries due (notes/assumptions 22). -/
def Obligations.BeatTrackersMove : Prop :=
  ∀ (s : State) (p : Player) (c : Instr),
    (s.device.session.state = .run ∨ s.device.session.state = .ended) →
    (c = .tempoEntryReached p ∧ (∃ g rest, (s.device.tracker p).map = g :: rest ∧ g.rowTime ≤ s.device.clock.songTime)
      ∨ c = .beatCrossing p ∧ s.device.playerState p ≠ .off
        ∧ ∀ g rest, (s.device.tracker p).map = g :: rest → s.device.clock.songTime < g.rowTime) →
    ∃ t, exec c s = .next t
      ∧ t.device = { s.device with
          clock := { s.device.clock with trackers := s.device.clock.trackers.set p (t.device.tracker p) }
          lamps := { s.device.lamps with beat := t.device.lamps.beat } }
      ∧ TrackerFollows s.device t.device p (s.device.tracker p).map

/-! ## The panel links -/

/-- 05 R72, R74, R76, R77, 11 R162: the end of a line gap chooses a board in the current round, or in the next one, and
begins its POLL, or begins an empty round, and a link with no enabled board is silent; the end of an empty round begins
the next. The end of a POLL latches the REPLY_LIMIT that stands there. A whole POLL is its two ends, one after the other.
That POLL is its beginning, its end, or both, with what the link does at each, is the model's choice, notes/assumptions 12.
05 R71: the driver enable is high exactly while a POLL is sent, whose characters are the address and the level, each
with an odd number of ones, its parity bit included, and a high stop bit. -/
def Obligations.PollsAndRounds : Prop :=
  (∀ (s : State) (l : Stage), ∃ t, exec (.poll (.begins l)) s = .next t
    ∧ t.device = { s.device with links := s.device.links.set l (t.device.link l) }
    ∧ ((s.device.link l).phase ≠ .gap ∨ (s.device.link l).enable = 0 → t = s)
    ∧ ((s.device.link l).phase = .gap → ∀ a, Chosen (s.device.link l) a →
        t.device.link l = { s.device.link l with
          last := some a
          phase := .sending a (s.device.lampLevel (panelOf l a)) false })
    ∧ ((s.device.link l).phase = .gap → (s.device.link l).enable ≠ 0 → NoneAbove (s.device.link l) →
        (s.device.link l).last = none → t.device.link l = { s.device.link l with phase := .emptyRound })
    ∧ ((s.device.link l).phase = .gap → (s.device.link l).enable ≠ 0 → NoneAbove (s.device.link l) →
        (s.device.link l).last ≠ none →
        NextRound (s.device.link l) (t.device.link l) fun a => s.device.lampLevel (panelOf l a)))
  ∧ (∀ (s : State) (l : Stage), ∃ t, exec (.emptyRound l) s = .next t
    ∧ t.device = { s.device with links := s.device.links.set l (t.device.link l) }
    ∧ ((s.device.link l).phase ≠ .emptyRound → t = s)
    ∧ ((s.device.link l).phase = .emptyRound → (s.device.link l).enable ≠ 0 →
        NextRound (s.device.link l) (t.device.link l) fun a => s.device.lampLevel (panelOf l a)))
  ∧ (∀ (s : State) (l : Stage), ∃ t u, exec (.poll (.ends l)) s = .next t ∧ exec (.poll (.whole l)) s = .next u
    ∧ (∀ a level void, (s.device.link l).phase = .sending a level void →
        t.device = s.device.onLink l fun x => { x with phase := .transaction a level x.replyLimit void })
    ∧ ((s.device.link l).driverEnable = false → t = s)
    ∧ ((s.device.link l).phase = .gap → runAll [.poll (.begins l), .poll (.ends l)] s = some u)
    ∧ ((s.device.link l).phase ≠ .gap → u = s))
  ∧ ∀ l : Link,
    (l.driverEnable = true ↔ ∃ a level void, l.phase = .sending a level void)
      ∧ (l.driverEnable = false → l.pollCharacters = [])
      ∧ (∀ a level void, l.phase = .sending a level void →
          l.pollCharacters.map (fun c => c.data.toNat) = [a.val, level.toNat]
            ∧ ∀ c ∈ l.pollCharacters, c.stop = true
              ∧ ((List.range 8).countP (fun k => c.data.getLsbD k) + c.parity.toNat) % 2 = 1)

/-- 05 R74, R75, R79: a good REPORT of the board in hand ends the transaction and enters the board table; the link's other
boards, the other link and the settings of both stay as they are. 06 R88 to R94, R96: what it makes of its panel, and
that it leaves every other panel alone. 05 R71: its characters are good when the ones among the data bits and the parity
bit of each are odd in number and each stop bit is high. -/
def Obligations.GoodReportEffect : Prop :=
  (∀ (s : State) (l : Stage) (f : ReportFrame) (quarters limit : Nat) (a : Fin 6) (level : Byte),
    (s.device.link l).phase = .transaction a level limit false → quarters ≤ 4 * limit →
    (s.device.link l).boards[a].state ≠ .disabled → goodFrame f = true → f.echo.data.toNat = a.val →
    ∃ t, exec (.report l f quarters) s = .next t
      ∧ t.device.links = s.device.links.set l (t.device.link l)
      ∧ t.device.link l = { s.device.link l with boards := (t.device.link l).boards, phase := .gap }
      ∧ (t.device.link l).boards[a] =
          { state := .online, misses := 0, seen := true,
            levels := #v[f.s0.data, f.s1.data, f.s2.data, f.s3.data], faults := f.status.data.setWidth 4 }
      ∧ ∀ b : Fin 6, b ≠ a → (t.device.link l).boards[b] = (s.device.link l).boards[b])
  ∧ (∀ (s : State) (l : Stage) (f : ReportFrame) (quarters limit : Nat) (a : Fin 6) (level : Byte),
    (s.device.link l).phase = .transaction a level limit false → quarters ≤ 4 * limit →
    (s.device.link l).boards[a].state ≠ .disabled → goodFrame f = true → f.echo.data.toNat = a.val →
    ∃ t, exec (.report l f quarters) s = .next t
      ∧ PanelMoved (s.device.panel (panelOf l a)) (t.device.panel (panelOf l a))
          (s.device.link l).boards[a].state (f.status.data.getLsbD 7)
          #v[f.s0.data, f.s1.data, f.s2.data, f.s3.data] (fun k => f.status.data.getLsbD k.val) s.device.clock.free
      ∧ ((∃ k : Fin 4, f.status.data.getLsbD k.val = true
            ∧ (s.device.panel (panelOf l a)).sensors[k].prevFault = false) →
          ∀ j : Port, Holds t.device j .sensorFault)
      ∧ ∀ p : Panel, p ≠ panelOf l a → t.device.panel p = s.device.panel p)
  ∧ ∀ f : ReportFrame, goodFrame f = true ↔ ∀ c ∈ [f.echo, f.s0, f.s1, f.s2, f.s3, f.status],
      c.stop = true ∧ ((List.range 8).countP (fun k => c.data.getLsbD k) + c.parity.toNat) % 2 = 1

/-- 05 R74, R75, R80, R81, 06 R95: a miss, whether the deadline passes, a character is bad or the echo names another
board: the board table, the parity count, and the panel of a board that goes OFFLINE. 05 R73, R74, R83: a REPORT that
completes after its deadline, and any characters outside a transaction or while its POLL is sent, change nothing; the
REPORT of a board disabled meanwhile, and its deadline, only end the transaction. -/
def Obligations.MissesAndLateReports : Prop :=
  (∀ (s : State) (l : Stage) (f : ReportFrame) (quarters limit : Nat) (a : Fin 6) (level : Byte) (c : Instr)
    (bad : Bool) (before after : Board),
    (s.device.link l).phase = .transaction a level limit false →
    before = (s.device.link l).boards[a] → before.state ≠ .disabled →
    (c = .replyDeadline l ∧ bad = false
      ∨ c = .report l f quarters ∧ quarters ≤ 4 * limit ∧ goodFrame f = false ∧ bad = true
      ∨ c = .report l f quarters ∧ quarters ≤ 4 * limit ∧ goodFrame f = true ∧ f.echo.data.toNat ≠ a.val
          ∧ bad = false) →
    after.misses = min (before.misses + 1) 255 →
    after.state = (if before.state = .online ∨ before.state = .degraded then
        if after.misses < (s.device.link l).missLimit then .degraded else .offline
      else before.state) →
    ∃ t, exec c s = .next t
      ∧ t.device.links = s.device.links.set l (t.device.link l)
      ∧ t.device.link l = { s.device.link l with
          boards := (t.device.link l).boards
          parity := if bad then min ((s.device.link l).parity + 1) 255 else (s.device.link l).parity
          phase := .gap }
      ∧ (t.device.link l).boards[a] = { before with misses := after.misses, state := after.state }
      ∧ (∀ b : Fin 6, b ≠ a → (t.device.link l).boards[b] = (s.device.link l).boards[b])
      ∧ (bad = true → ∀ j : Port, Holds t.device j .linkParity)
      ∧ (after.state = .offline → before.state ≠ .offline →
          (∀ j : Port, Holds t.device j .boardOffline) ∧ (t.device.panel (panelOf l a)).pressed = false
            ∧ ∀ k : Fin 4, (t.device.panel (panelOf l a)).sensors[k].active = false)
      ∧ (after.state ≠ .offline ∨ before.state = .offline →
          t.device = { s.device with links := t.device.links, ports := t.device.ports }
            ∧ OnlyRaised s.device t.device)
      ∧ ∀ p : Panel, p ≠ panelOf l a → t.device.panel p = s.device.panel p)
  ∧ (∀ (s : State) (l : Stage) (f : ReportFrame) (quarters : Nat),
    ∃ t u, exec (.report l f quarters) s = .next t ∧ exec (.replyDeadline l) s = .next u
      ∧ ((s.device.link l).phase = .gap ∨ (s.device.link l).phase = .emptyRound
          ∨ (s.device.link l).driverEnable = true → t = s ∧ u = s)
      ∧ ∀ a level limit void, (s.device.link l).phase = .transaction a level limit void →
          (4 * limit < quarters → t = s)
            ∧ (void = true ∨ (s.device.link l).boards[a].state = .disabled →
                u.device = s.device.onLink l (fun x => { x with phase := .gap })
                  ∧ (quarters ≤ 4 * limit → t = u)))

/-! ## Stuck panels and lamps -/

/-- 06 R96, R97: a stuck expiry: under a hold the timer is restarted, otherwise the panel is reseeded from the board
table and released with STUCK; before STUCK_LIMIT nothing happens. -/
def Obligations.StuckExpiryEffect : Prop :=
  ∀ (s : State) (p : Panel), ∃ t, exec (.stuckExpiry p) s = .next t
    ∧ (¬StuckAt s.device p s.device.press.stuckLimit → t = s)
    ∧ (StuckAt s.device p s.device.press.stuckLimit →
        (∃ q, s.device.feeds p = some q ∧ (s.device.lane q).hold ≠ .idle) →
        t.device = s.device.onPanel p fun x => { x with stuckSince := some s.device.clock.free })
    ∧ (StuckAt s.device p s.device.press.stuckLimit →
        (∀ q, s.device.feeds p = some q → (s.device.lane q).hold = .idle) →
        t.device = { s.device with press := t.device.press, ports := t.device.ports }
          ∧ PortsRaised s.device t.device .stuck
          ∧ t.device.press.stuckLimit = s.device.press.stuckLimit
          ∧ t.device.panel p = { s.device.panel p with
              sensors := (t.device.panel p).sensors, pressed := false, stuckSince := none }
          ∧ (∀ k : Fin 4, (t.device.panel p).sensors[k]
              = { (s.device.panel p).sensors[k] with
                  baseline := some (16 * (boardOf s.device p).levels[k].toNat), active := false })
          ∧ ∀ x : Panel, x ≠ p → t.device.panel x = s.device.panel x)

/-! ## The judge, the score keeper and the end of a song -/

/-- 06 R93, R94, 07 R105, R106, 08 R113: a REPORT that presses or releases a panel in RUN hands the event to the lane
that the panel feeds, with the lane time of the panel's own stage, after the panel and the board table have moved; a
press so where lane time has reached no AVOID of the lane that waits for it. 08 R120: where it has just reached the due
time of one, and the AVOID is in reach of the press, the AVOID is hit exactly once, by the press with its offset or
before it and untimed; then the press, which finds the lane's queue empty, is a STRAY. Here the player's decoder does not
wait on that queue (a decoder waits on full queues, 04 R56): one that does would retry between the two (04 R62). That STRAY is the model's choice,
notes/assumptions 41: 08 R116 gives it, while 08 R120 has the two orders differ only in the record's offset. -/
def Obligations.PressReachesItsLane : Prop :=
  (∀ (s : State) (l : Stage) (f : ReportFrame) (quarters limit : Nat) (a : Fin 6) (level : Byte) (q : LaneQueue),
    (s.device.link l).phase = .transaction a level limit false → quarters ≤ 4 * limit →
    (s.device.link l).boards[a].state ≠ .disabled → goodFrame f = true → f.echo.data.toNat = a.val →
    s.device.session.state = .run → s.device.feeds (panelOf l a) = some q →
    ∃ t d, exec (.report l f quarters) s = .next t
      ∧ d = { s.device with links := t.device.links, press := t.device.press, ports := d.ports }
      ∧ OnlyRaised s.device d
      ∧ ((s.device.panel (panelOf l a)).pressed = false → (t.device.panel (panelOf l a)).pressed = true →
          (∀ m ∈ (s.device.lane q).queue, m.kind = .avoid → m.reached = true ∨ s.device.laneTime q < m.due) →
          t.device = d.pressLane q (s.device.clock.songTime + s.device.clock.offsets.get l))
      ∧ ((s.device.panel (panelOf l a)).pressed = true → (t.device.panel (panelOf l a)).pressed = false →
          t.device = d.releaseLane q (s.device.clock.songTime + s.device.clock.offsets.get l))
      ∧ ((s.device.panel (panelOf l a)).pressed = (t.device.panel (panelOf l a)).pressed → t.device = d))
  ∧ ∀ (s : State) (l : Stage) (f : ReportFrame) (quarters limit : Nat) (a : Fin 6) (level : Byte) (q : LaneQueue)
      (n : Note) (p : Player) (stamp : Int),
    (s.device.link l).phase = .transaction a level limit false → quarters ≤ 4 * limit →
    (s.device.link l).boards[a].state ≠ .disabled → goodFrame f = true → f.echo.data.toNat = a.val →
    s.device.session.state = .run → s.device.feeds (panelOf l a) = some q →
    (∀ x, s.device.feeds x = some q → x = panelOf l a) → p = s.device.owner q → s.device.playerState p = .playing →
    (s.device.decoder p).state ≠ .ended → s.device.waitsOn p q = false → s.device.lane q = { queue := [n], hold := .idle } → n.kind = .avoid →
    n.reached = false → stamp = s.device.clock.songTime + s.device.clock.offsets.get l → (n.due : Int) ≤ stamp →
    stamp ≤ n.due + (s.device.judge.avoid.late : Int) → (s.device.record p).reachesZero s.device.score .avoidHit = false →
    ∃ t, exec (.report l f quarters) s = .next t
      ∧ ((s.device.panel (panelOf l a)).pressed = false → (t.device.panel (panelOf l a)).pressed = true →
          t.device.lane q = { queue := [], hold := .idle }
            ∧ ∃ timed : Bool,
              t.device.ring = s.device.ring.append
                { seq := 0, type := .avoidHit, player := p, lane := logicalLane s.device.session.style q,
                  early := false, lateDecode := n.lateDecode, forcedEnd := false, timed := timed,
                  offset := if timed then min 8388607 (stamp - n.due) else 0, row := n.row }
              ∧ ∀ r, r = (s.device.record p).apply s.device.score s.device.session.failPolicy .avoidHit →
                t.device.record p =
                  if timed then r else r.apply s.device.score s.device.session.failPolicy .stray)

/-- 08 R116, R117, R126, R127, 03 R41, R43, 11 R163: a press whose stamp lies in its target's window, on an IDLE lane,
with no AVOID in reach, no hold tail already reached, the life not brought to 0 and the chart not ended. -/
def Obligations.PressGradesTarget : Prop :=
  ∀ (d : Device) (q : LaneQueue) (stamp : Int) (pre post : List Note) (n : Note) (g : Grade) (p : Player) (e : Device),
    p = d.owner q → d.session.state = .run → d.playerState p = .playing → (d.decoder p).state ≠ .ended →
    (d.lane q).queue = pre ++ n :: post → (∀ m ∈ pre, m.kind = .avoid) → n.kind ≠ .avoid → (d.lane q).hold = .idle →
    (∀ m ∈ (d.lane q).queue, m.kind = .avoid → d.judge.avoid.holds (stamp - m.due) = false) →
    d.judge.windows.poor.holds (stamp - n.due) = true → d.judge.windows.gradeOf (stamp - n.due) = some g →
    (n.kind = .holdStart → ∀ u, n.tail = some u → stamp < u) → (d.record p).reachesZero d.score (.graded g) = false →
    e = d.pressLane q stamp →
    e = { d with judge := e.judge, score := e.score, ring := e.ring, lamps := e.lamps, ports := e.ports }
      ∧ e.lane q = { queue := pre ++ post
                     hold :=
                      if n.kind = .holdStart then .holding { row := n.row, tail := n.tail, forcedEnd := n.forcedEnd }
                      else .idle }
      ∧ (∀ x : LaneQueue, x ≠ q → e.lane x = d.lane x) ∧ e.judge = { d.judge with lanes := e.judge.lanes }
      ∧ e.score = { d.score with
          records := d.score.records.set p ((d.record p).apply d.score d.session.failPolicy (.graded g)) }
      ∧ e.ring = d.ring.append
          { seq := 0, type := if n.kind = .tap then .tap (.graded g) else .holdStart (.graded g), player := p,
            lane := logicalLane d.session.style q, early := decide (stamp < n.due), lateDecode := n.lateDecode,
            forcedEnd := n.kind = .holdStart && n.forcedEnd, timed := true,
            offset := max (-8388607) (min 8388607 (stamp - n.due)), row := n.row }
      ∧ (e.lamps = { d.lamps with flash := e.lamps.flash }
          ∧ ∀ x : Panel, e.lamps.flash[x] =
              if g.toNat ≤ d.lamps.flashFloor.toNat ∧ 0 < d.lamps.flashTime ∧ d.feeder q = some x then
                some (d.clock.free + BitVec.ofNat 32 d.lamps.flashTime)
              else d.lamps.flash[x])
      ∧ OnlyRaised d e

/-- 08 R114, R116, 09 R137, R142: a press on an IDLE lane that finds no AVOID in reach and no target, or one that it is
too early for, is a STRAY, which only counts; one that hits an AVOID on a lane without a target hits it instead. -/
def Obligations.PressWithoutTarget : Prop :=
  ∀ (d : Device) (q : LaneQueue) (stamp : Int) (p : Player),
    p = d.owner q → d.session.state = .run → d.playerState p = .playing → (d.lane q).hold = .idle →
    ((∀ m ∈ (d.lane q).queue, m.kind = .avoid → d.judge.avoid.holds (stamp - m.due) = false) →
      ((∀ m ∈ (d.lane q).queue, m.kind = .avoid)
        ∨ ∃ pre n post, (d.lane q).queue = pre ++ n :: post ∧ (∀ m ∈ pre, m.kind = .avoid) ∧ n.kind ≠ .avoid
            ∧ stamp < (n.due : Int) - d.judge.windows.poor.early) →
      d.pressLane q stamp = { d with
        score := { d.score with
          records := d.score.records.set p { d.record p with
            counts := { (d.record p).counts with stray := min ((d.record p).counts.stray + 1) 65535 } } } })
    ∧ ∀ pre n post, (d.lane q).queue = pre ++ n :: post → (∀ m ∈ (d.lane q).queue, m.kind = .avoid) →
      d.judge.avoid.holds (stamp - n.due) = true →
      (∀ m ∈ pre ++ post, d.judge.avoid.holds (stamp - m.due) = false) →
      (d.record p).reachesZero d.score .avoidHit = false → (d.decoder p).state ≠ .ended →
      ∀ e, e = d.pressLane q stamp →
        e = { d with judge := e.judge, score := e.score, ring := e.ring, ports := e.ports }
          ∧ e.lane q = { d.lane q with queue := pre ++ post } ∧ (∀ x : LaneQueue, x ≠ q → e.lane x = d.lane x)
          ∧ e.judge = { d.judge with lanes := e.judge.lanes }
          ∧ e.score = { d.score with
              records := d.score.records.set p ((d.record p).apply d.score d.session.failPolicy .avoidHit) }
          ∧ e.ring = d.ring.append
              { seq := 0, type := .avoidHit, player := p, lane := logicalLane d.session.style q,
                early := decide (stamp < n.due), lateDecode := n.lateDecode, forcedEnd := false, timed := true,
                offset := max (-8388607) (min 8388607 (stamp - n.due)), row := n.row }
          ∧ OnlyRaised d e

/-- 08 R115, R121 to R123: a release before the tail turns HOLDING into GRACE, a press before the expiry and the tail turns
it back, and neither does anything else; a release at or after the tail ends the hold HELD. Lane time reaches a known
tail, and a hold ends HELD; a grace expires, and the hold ends HELD if its tail is known and not after the expiry,
otherwise LET_GO. In the endings life is not brought to 0 and the chart has not ended. -/
def Obligations.HoldsMoveAndEnd : Prop :=
  (∀ (d : Device) (q : LaneQueue) (stamp : Int) (h : ActiveHold) (p : Player),
    p = d.owner q → d.session.state = .run → d.playerState p = .playing →
    ((d.lane q).hold = .holding h → (∀ u, h.tail = some u → stamp < u) →
      d.releaseLane q stamp
        = d.onLane q fun l => { l with hold := .grace h (stamp + (d.judge.holdGrace : Int)) })
    ∧ (∀ expiry, (d.lane q).hold = .grace h expiry → (∀ u, h.tail = some u → stamp < u) → stamp < expiry →
        (∀ m ∈ (d.lane q).queue, m.kind = .avoid → d.judge.avoid.holds (stamp - m.due) = false) →
        d.pressLane q stamp = d.onLane q fun l => { l with hold := .holding h })
    ∧ (∀ u, (d.lane q).hold = .holding h → h.tail = some u → (u : Int) ≤ stamp →
        (d.record p).reachesZero d.score .held = false → (d.decoder p).state ≠ .ended →
        HoldEnded d (d.releaseLane q stamp) q h true))
  ∧ (∀ (s : State) (q : LaneQueue) (h : ActiveHold) (p : Player),
    p = s.device.owner q → s.device.session.state = .run → s.device.playerState p = .playing →
    (s.device.decoder p).state ≠ .ended →
    (∀ u, (s.device.lane q).hold.active = some h → h.tail = some u → (u : Int) ≤ s.device.laneTime q →
      (s.device.record p).reachesZero s.device.score .held = false →
      ∃ t, exec (.tailReached q) s = .next t ∧ HoldEnded s.device t.device q h true)
    ∧ ∀ expiry held, (s.device.lane q).hold = .grace h expiry → expiry ≤ s.device.laneTime q →
      (held = true ↔ ∃ u : Nat, h.tail = some u ∧ (u : Int) ≤ expiry) →
      (s.device.record p).reachesZero s.device.score (if held then .held else .letGo) = false →
      ∃ t, exec (.graceExpiry q) s = .next t ∧ HoldEnded s.device t.device q h held)

/-- 08 R118, R126, R127: the sweep of a lane's first TAP or HOLD_START, with the LET_GO of a swept hold, where life is
not brought to 0 and the chart has not ended. That both records of a swept hold are appended in the one step is the
model's choice (notes/assumptions 36). 08 R131: a read whose header is under way may be given its snapshot between the two
outcomes of a swept hold, and then shows the MISS alone: of that moment's device `m` only the LET_GO is missing. Which of
the headers under way are taken there is free (notes/assumptions 47). -/
def Obligations.SweepMisses : Prop :=
  ∀ (s : State) (q : LaneQueue) (pre post : List Note) (n : Note) (p : Player) (k : ScoreKeeper) (r : ScoreRecord),
    p = s.device.owner q → s.device.session.state = .run → s.device.playerState p = .playing →
    (s.device.decoder p).state ≠ .ended →
    (s.device.lane q).queue = pre ++ n :: post → (∀ m ∈ pre, m.kind = .avoid) → n.kind ≠ .avoid →
    (n.due : Int) + s.device.judge.windows.poor.late < s.device.laneTime q →
    k = s.device.score → r = (s.device.record p).apply k s.device.session.failPolicy .miss →
    (s.device.record p).reachesZero k .miss = false → (n.kind = .holdStart → r.reachesZero k .letGo = false) →
    ∃ t, exec (.sweep q) s = .next t
      ∧ t.device = { s.device with
          judge := t.device.judge, score := t.device.score, ring := t.device.ring, ports := t.device.ports,
          choices := t.device.choices }
      ∧ t.device.lane q = { s.device.lane q with queue := pre ++ post }
      ∧ (∀ x : LaneQueue, x ≠ q → t.device.lane x = s.device.lane x)
      ∧ t.device.judge = { s.device.judge with lanes := t.device.judge.lanes }
      ∧ t.device.score = { k with
          records := k.records.set p
            (if n.kind = .holdStart then r.apply k s.device.session.failPolicy .letGo else r) }
      ∧ (∀ miss : Record, miss =
          { seq := 0, type := if n.kind = .tap then .tap .miss else .holdStart .miss, player := p,
            lane := logicalLane s.device.session.style q, early := false, lateDecode := n.lateDecode,
            forcedEnd := n.kind = .holdStart && n.forcedEnd, timed := false, offset := 0, row := n.row } →
          t.device.ring =
              (if n.kind = .holdStart then
                (s.device.ring.append miss).append { miss with type := .holdBody false, forcedEnd := n.forcedEnd }
              else s.device.ring.append miss)
            ∧ ∃ m : Device, m = { s.device with
                  judge := t.device.judge, score := { k with records := k.records.set p r }
                  ring := s.device.ring.append miss, ports := m.ports }
                ∧ OnlyRaised s.device m
                ∧ ∀ i : Port, t.device.port i = { s.device.port i with
                    notices := (t.device.port i).notices, transaction := (t.device.port i).transaction }
                  ∧ (s.device.port i).notices &&& ~~~(t.device.port i).notices = 0
                  ∧ ((t.device.port i).transaction = (s.device.port i).transaction
                    ∨ n.kind = .holdStart ∧ ∃ status channel,
                        (s.device.port i).transaction = some (.heading status channel)
                          ∧ (t.device.port i).transaction = some (m.readStarted i channel)))
      ∧ (n.kind = .tap ∨ NoHeading s.device →
          OnlyRaised s.device t.device ∧ t.device.choices = s.device.choices)

/-- 01 R11, R13, 04 R68, 08 R128, 09 R143: a MISS that takes the life of a player to 0 under STOP fails the player: its
lanes are emptied, its decoder enters DISCARD, and with nobody left PLAYING the song has ended; that the emptying and
DISCARD come in one step is the model's choice (notes/assumptions 33). 01 R10, R13: the sweep
of the last note of a player whose decoder has ended and whose lanes are otherwise empty and IDLE clears the player,
and with nobody left PLAYING the song has ended. -/
def Obligations.SweepEndsPlayer : Prop :=
  (∀ (s : State) (q : LaneQueue) (pre post : List Note) (n : Note) (p other : Player) (miss : Record),
    p = s.device.owner q → other = (if p = .p1 then .p2 else .p1) →
    s.device.session.state = .run → s.device.playerState p = .playing → s.device.session.failPolicy = .stop →
    (s.device.decoder p).state ≠ .ended → (s.device.decoder p).state ≠ .idle →
    (s.device.lane q).queue = pre ++ n :: post → (∀ m ∈ pre, m.kind = .avoid) → n.kind = .tap →
    (n.due : Int) + s.device.judge.windows.poor.late < s.device.laneTime q →
    (s.device.record p).reachesZero s.device.score .miss = true →
    miss = { seq := 0, type := .tap .miss, player := p, lane := logicalLane s.device.session.style q, early := false,
             lateDecode := n.lateDecode, forcedEnd := false, timed := false, offset := 0, row := n.row } →
    ∃ t, exec (.sweep q) s = .next t
      ∧ t.device.session = { s.device.session with
          players := s.device.session.players.set p .failed
          state := if s.device.playerState other = .playing then .run else .ended }
      ∧ t.device = { s.device with
          session := t.device.session, decoders := t.device.decoders, judge := t.device.judge,
          score := t.device.score, ring := t.device.ring, ports := t.device.ports }
      ∧ t.device.judge = { s.device.judge with lanes := t.device.judge.lanes }
      ∧ (∀ x : LaneQueue, t.device.lane x
          = if s.device.owner x = p then { queue := [], hold := .idle } else s.device.lane x)
      ∧ t.device.decoder p = { s.device.decoder p with
          state := .discard
          buffer := (s.device.decoder p).buffer.drop ((s.device.decoder p).inHand.elim 0 fun h => h.size)
          inHand := none, pendingRepeat := none, openHold := Vector.replicate 12 none }
      ∧ t.device.decoder other = s.device.decoder other
      ∧ t.device.score = { s.device.score with
          records := s.device.score.records.set p
            ((s.device.record p).apply s.device.score .stop .miss) }
      ∧ t.device.ring =
          (let failed := (s.device.ring.append miss).append (markRecord .failed p)
          if s.device.playerState other = .playing then failed else failed.append (markRecord .ended .p1))
      ∧ OnlyRaised s.device t.device ∧ (∀ j : Port, Holds t.device j .player)
      ∧ (s.device.playerState other ≠ .playing → ∀ j : Port, Holds t.device j .session))
  ∧ (∀ (s : State) (q : LaneQueue) (n : Note) (p other : Player) (miss : Record),
    p = s.device.owner q → other = (if p = .p1 then .p2 else .p1) →
    s.device.session.state = .run → s.device.playerState p = .playing → (s.device.decoder p).state = .ended →
    (s.device.lane q) = { queue := [n], hold := .idle } → n.kind = .tap →
    (∀ x : LaneQueue, x ≠ q → s.device.owner x = p → s.device.lane x = { queue := [], hold := .idle }) →
    (n.due : Int) + s.device.judge.windows.poor.late < s.device.laneTime q →
    (s.device.record p).reachesZero s.device.score .miss = false →
    miss = { seq := 0, type := .tap .miss, player := p, lane := logicalLane s.device.session.style q, early := false,
             lateDecode := n.lateDecode, forcedEnd := false, timed := false, offset := 0, row := n.row } →
    ∃ t, exec (.sweep q) s = .next t
      ∧ t.device.session = { s.device.session with
          players := s.device.session.players.set p .cleared
          state := if s.device.playerState other = .playing then .run else .ended }
      ∧ t.device = { s.device with
          session := t.device.session, judge := t.device.judge, score := t.device.score, ring := t.device.ring,
          ports := t.device.ports }
      ∧ t.device.judge = { s.device.judge with lanes := t.device.judge.lanes }
      ∧ (∀ x : LaneQueue, s.device.owner x = p → t.device.lane x = { queue := [], hold := .idle })
      ∧ (∀ x : LaneQueue, s.device.owner x ≠ p → t.device.lane x = s.device.lane x)
      ∧ t.device.score = { s.device.score with
          records := s.device.score.records.set p
            ((s.device.record p).apply s.device.score s.device.session.failPolicy .miss) }
      ∧ t.device.ring =
          (let cleared := (s.device.ring.append miss).append (markRecord .cleared p)
          if s.device.playerState other = .playing then cleared else cleared.append (markRecord .ended .p1))
      ∧ OnlyRaised s.device t.device ∧ (∀ j : Port, Holds t.device j .player)
      ∧ (s.device.playerState other ≠ .playing → ∀ j : Port, Holds t.device j .session))

/-- 08 R119: the due time of an AVOID, which hits it on a pressed panel and otherwise only passes; and the closing of
its window, which removes it without a record. Life is not brought to 0 and the chart has not ended. -/
def Obligations.AvoidComesDueAndPasses : Prop :=
  ∀ (s : State) (q : LaneQueue) (pre post : List Note) (n : Note) (p : Player),
    p = s.device.owner q → s.device.session.state = .run → s.device.playerState p = .playing →
    (s.device.decoder p).state ≠ .ended → (s.device.lane q).queue = pre ++ n :: post → n.kind = .avoid →
    (n.reached = false → (n.due : Int) ≤ s.device.laneTime q →
      (∀ m ∈ pre, m.kind = .avoid → m.reached = true ∨ s.device.laneTime q < m.due) →
      (s.device.record p).reachesZero s.device.score .avoidHit = false →
      ∃ t, exec (.avoidDue q) s = .next t
        ∧ (s.device.feederPressed q = false →
            t.device = s.device.onLane q fun l => { l with queue := pre ++ { n with reached := true } :: post })
        ∧ (s.device.feederPressed q = true → AvoidHit s.device t.device q (pre ++ post) n))
    ∧ ((n.due : Int) + s.device.judge.avoid.late < s.device.laneTime q →
      (∀ m ∈ pre, m.kind = .avoid → s.device.laneTime q ≤ (m.due : Int) + s.device.judge.avoid.late) →
      ∃ t, exec (.avoidPastWindow q) s = .next t
        ∧ (n.reached = true ∨ s.device.feederPressed q = false →
            t.device = s.device.onLane q fun l => { l with queue := pre ++ post }))

/-- 03 R41, 08 R112: a press nearer to a note's due time, on the same side of it, never earns a worse grade; and under
a nested table a press that no window holds is too early for POOR or too late for it. -/
def Obligations.NearerPressGradesNoWorse : Prop :=
  ∀ (w : Windows) (near far : Int),
    (∀ g, (0 ≤ near ∧ near ≤ far ∨ far ≤ near ∧ near ≤ 0) → w.gradeOf far = some g →
      ∃ g', w.gradeOf near = some g' ∧ g'.toNat ≤ g.toNat)
    ∧ (w.nested = true →
        (w.gradeOf far = none ↔ far < -(w.poor.early : Int) ∨ (w.poor.late : Int) < far))

/-- 09 R137, R138, R140 to R143: what an outcome does to a score record: the count of its own name rises by one and stops
at 65,535, and no other count moves; points, score, combo, life and ZERO follow their rules. -/
def Obligations.OutcomeMovesRecord : Prop :=
  ∀ (r x : ScoreRecord) (k : ScoreKeeper) (policy : FailPolicy) (o : Outcome), x = r.apply k policy o →
    x = { r with
        earned := x.earned, score := x.score, combo := x.combo, maxCombo := x.maxCombo, counts := x.counts,
        life := x.life, zero := x.zero }
      ∧ x.counts = (match o with
          | .graded .exact => { r.counts with exact := min (r.counts.exact + 1) 65535 }
          | .graded .great => { r.counts with great := min (r.counts.great + 1) 65535 }
          | .graded .good => { r.counts with good := min (r.counts.good + 1) 65535 }
          | .graded .fair => { r.counts with fair := min (r.counts.fair + 1) 65535 }
          | .graded .poor => { r.counts with poor := min (r.counts.poor + 1) 65535 }
          | .miss => { r.counts with miss := min (r.counts.miss + 1) 65535 }
          | .held => { r.counts with held := min (r.counts.held + 1) 65535 }
          | .letGo => { r.counts with letGo := min (r.counts.letGo + 1) 65535 }
          | .avoidHit => { r.counts with avoidHit := min (r.counts.avoidHit + 1) 65535 }
          | .stray => { r.counts with stray := min (r.counts.stray + 1) 65535 })
      ∧ (∀ w, k.weights.of o = some w → x.earned = min (r.earned + w) 4294967295
          ∧ x.score = if r.units = 0 then 0 else x.earned * 1000 / r.units)
      ∧ (k.weights.of o = none → x.earned = r.earned ∧ x.score = r.score)
      ∧ x.combo = (match o with
          | .graded g =>
            if g ≠ .poor ∧ g.toNat ≤ k.comboFloor.toNat then min (r.combo + 1) 65535 else 0
          | .held => min (r.combo + 1) 65535
          | .miss | .letGo => 0
          | .avoidHit | .stray => r.combo)
      ∧ x.maxCombo = (if o = .avoidHit ∨ o = .stray then r.maxCombo else max r.maxCombo x.combo)
      ∧ (∀ y, k.deltas.of o = some y → (x.life : Int) = max 0 (min 1000 ((r.life : Int) + y)))
      ∧ (o = .stray → x.life = r.life)
      ∧ (x.zero = true ↔ r.zero = true ∨ 0 < r.life ∧ x.life = 0 ∧ policy = .carryOn)

/-! ## The chart decoders -/

/-- 04 R52, 09 R139: the first HEADER of a chart stores its totals and hands them to the score keeper; a later one is
ignored with LATE_HEADER. 04 R60, R61: a REPEAT entry is held for the next NOTES entry; one that finds a repeat still
pending replaces it with BAD_REPEAT. -/
def Obligations.HeaderAndRepeatEffect : Prop :=
  (∀ (s : State) (p : Player) (tag a b c d : Byte) (rest : List Byte),
    (s.device.decoder p).buffer = tag :: a :: b :: c :: d :: rest → tag.toNat / 16 = 1 →
    ∃ t, exec (.headerEntry p) s = .next t
      ∧ ((s.device.decoder p).state = .waitHeader →
          t.device = { s.device with
              decoders := s.device.decoders.set p { s.device.decoder p with
                state := .decoding, buffer := rest, noteTotal := a.toNat * 256 + b.toNat,
                holdTotal := c.toNat * 256 + d.toNat }
              score := { s.device.score with records := t.device.score.records } }
            ∧ ∀ r, r = t.device.record p →
              t.device.score.records = s.device.score.records.set p { s.device.record p with
                  headerUnits := r.headerUnits, units := r.units, score := r.score }
                ∧ r.headerUnits = (a.toNat * 256 + b.toNat) + 2 * (c.toNat * 256 + d.toNat)
                ∧ r.units = max r.headerUnits r.decodedUnits
                ∧ r.score = if r.units = 0 then 0 else r.earned * 1000 / r.units)
      ∧ ((s.device.decoder p).state = .decoding → (s.device.decoder p).pendingRepeat = none →
          DecoderOnly s.device t.device p
              { s.device.decoder p with buffer := rest } [.lateHeader]))
  ∧ (∀ (s : State) (p : Player) (tag times spacing : Byte) (rest : List Byte),
    (s.device.decoder p).buffer = tag :: times :: spacing :: rest → tag.toNat / 16 = 4 → times ≠ 0 → spacing ≠ 0 →
    (s.device.decoder p).state = .decoding →
    ∃ t, exec (.repeatEntry p) s = .next t
      ∧ DecoderOnly s.device t.device p
          { s.device.decoder p with buffer := rest, pendingRepeat := some (times.toNat, spacing.toNat) }
          (if (s.device.decoder p).pendingRepeat = none then [] else [.badRepeat]))

/-- 04 R52, R53, R61, 03 R33, R36, R38: a ROWS entry moves the cursor, clamped, and forms the row time afresh; as a first
entry it adds NO_HEADER, and it drops a pending repeat with BAD_REPEAT. That the formula of R35 gives the row time at the
row clamp too, after a DWELL there, is the model's choice (notes/assumptions 32). 04 R49, R65: a ROWS entry with count 0,
a REPEAT entry with a zero field, a tag of unknown kind and a NOTES tag of unknown sub-kind are bad tags: one byte is
skipped with BAD_TAG, and nothing else of the decoder moves. -/
def Obligations.RowsAndBadTagsEffect : Prop :=
  (∀ (s : State) (p : Player) (tag a b : Byte) (rest : List Byte) (count row raw : Nat) (c : Decoder),
    c = s.device.decoder p → c.buffer = tag :: a :: b :: rest → tag.toNat / 16 = 2 →
    count = a.toNat * 256 + b.toNat → (c.state = .waitHeader ∨ c.state = .decoding) →
    row = min (c.cursor + count) 16777215 →
    raw = c.segment.segTime + ((row - c.segment.row) * c.segment.period + 128) / 256 →
    ∃ t u, exec (.rowsEntry p) s = .next t ∧ exec (.badTag p) s = .next u
      ∧ (count ≠ 0 → u = s ∧ DecoderOnly s.device t.device p
          { c with
            state := .decoding, buffer := rest, pendingRepeat := none, cursor := row, rowTime := min raw 2147483647 }
          ((if c.state = .waitHeader then [.noHeader] else [])
            ++ (if c.pendingRepeat = none then [] else [.badRepeat])
            ++ (if 16777215 < c.cursor + count then [.rowClamped] else [])
            ++ if 2147483647 < raw then [.dueClamped] else []))
      ∧ (count = 0 → t = s ∧ DecoderOnly s.device u.device p { c with buffer := a :: b :: rest } [.badTag]))
  ∧ (∀ (s : State) (p : Player) (tag : Byte) (rest : List Byte),
    (s.device.decoder p).buffer = tag :: rest →
    ((s.device.decoder p).state = .waitHeader ∨ (s.device.decoder p).state = .decoding
      ∨ (s.device.decoder p).state = .discard) →
    (tag.toNat / 16 = 0 ∨ 7 ≤ tag.toNat / 16 ∧ tag.toNat / 16 ≤ 14 ∨ tag.toNat / 16 = 3 ∧ 4 ≤ tag.toNat % 16) →
    ∃ t, exec (.badTag p) s = .next t
      ∧ DecoderOnly s.device t.device p { s.device.decoder p with buffer := rest } [.badTag])
  ∧ (∀ (s : State) (p : Player) (tag a b : Byte) (rest : List Byte) (i : Instr),
    (s.device.decoder p).buffer = tag :: a :: b :: rest →
    ((s.device.decoder p).state = .waitHeader ∨ (s.device.decoder p).state = .decoding
      ∨ (s.device.decoder p).state = .discard) →
    (tag.toNat / 16 = 2 ∧ a = 0 ∧ b = 0 ∧ i = .rowsEntry p ∨ tag.toNat / 16 = 4 ∧ (a = 0 ∨ b = 0) ∧ i = .repeatEntry p) →
    ∃ t, exec (.badTag p) s = .next t ∧ exec i s = .next s
      ∧ DecoderOnly s.device t.device p { s.device.decoder p with buffer := a :: b :: rest } [.badTag])

/-- 04 R55, R56, R58, R67, 08 R109, R110: a NOTES entry of TAP, HOLD_START or AVOID in PRELOAD, with no open hold on
its lanes and room in their queues, puts a note of the cursor row on every lane of the player that its mask names, but
for a lane that already has one of that row, a DUPLICATE, and counts them; a mask that names a lane the player does not
have is BAD_LANE. 04 R57, 08 R110, R118: in RUN a TAP is appended without LATE_DECODE while its late limit is not past,
and past it carries the flag, counts all the same, and is swept at once as a MISS. -/
def Obligations.NotesPlaceNotes : Prop :=
  (∀ (s : State) (p : Player) (tag hi lo : Byte) (rest : List Byte) (mask lanes : Nat) (kind : NoteKind) (c : Decoder)
    (onMask named : Fin 12 → Bool) (kinds : List FaultKind),
    c = s.device.decoder p → c.buffer = tag :: hi :: lo :: rest →
    tag.toNat = 0x30 + (match kind with | .tap => 0 | .holdStart => 1 | .avoid => 3) →
    mask = hi.toNat * 256 + lo.toNat → lanes = laneCount s.device.session.style p →
    c.state = .decoding → c.pendingRepeat = none → s.device.session.state = .preload →
    s.device.playerState p = .joined →
    (∀ k, onMask k = (mask.testBit k.val && k.val < lanes)) →
    (∀ k, named k = (onMask k && c.lastRow[k] ≠ some c.cursor)) →
    (∀ k : Fin 12, onMask k = true → c.openHold[k] = none) →
    (∀ k q, queueOf s.device.session.style p k = some q → (s.device.lane q).queue.length < 24) →
    kinds = (if 2 ^ lanes ≤ mask then [.badLane] else [])
      ++ (if ∃ k : Fin 12, onMask k = true ∧ c.lastRow[k] = some c.cursor then [.duplicate] else []) →
    ∃ t, exec (.notesEntry p) s = .next t
      ∧ t.device = { s.device with
          decoders := s.device.decoders.set p (t.device.decoder p),
          judge := { s.device.judge with lanes := t.device.judge.lanes },
          score := { s.device.score with records := s.device.score.records.set p (t.device.record p) },
          ports := t.device.ports }
      ∧ ChartFaultsRaised s.device t.device p kinds
      ∧ (∀ k q, queueOf s.device.session.style p k = some q →
          t.device.lane q = { s.device.lane q with
            queue := (s.device.lane q).queue ++ if named k then
              [{ row := c.cursor, due := c.rowTime, kind := kind, tail := none, lateDecode := false,
                 forcedEnd := false, reached := false }] else [] })
      ∧ (∀ q : LaneQueue, s.device.owner q ≠ p → t.device.lane q = s.device.lane q)
      ∧ (∀ k : Fin 12, (t.device.decoder p).lastRow[k] = (if named k then some c.cursor else c.lastRow[k])
          ∧ (t.device.decoder p).openHold[k]
            = if kind = .holdStart ∧ named k = true then some c.cursor else c.openHold[k])
      ∧ ∀ count, count = (List.finRange 12).countP named →
          t.device.decoder p = { c with
              buffer := rest
              inHand := none
              lastRow := (t.device.decoder p).lastRow
              openHold := (t.device.decoder p).openHold
              faults := withFaults c.faults kinds
              taps := c.taps + if kind = .tap then count else 0
              holds := c.holds + if kind = .holdStart then count else 0
              avoids := c.avoids + if kind = .avoid then count else 0 }
            ∧ (kind ≠ .avoid → count ≠ 0 →
                (t.device.record p).decodedUnits = (t.device.decoder p).taps + 2 * (t.device.decoder p).holds))
  ∧ (∀ (s : State) (p : Player) (hi lo : Byte) (rest : List Byte) (k : Fin 12) (q : LaneQueue) (c : Decoder) (n : Note)
    (units : Nat),
    c = s.device.decoder p → c.buffer = 0x30 :: hi :: lo :: rest → hi.toNat * 256 + lo.toNat = 2 ^ k.val →
    c.state = .decoding → c.pendingRepeat = none → s.device.session.state = .run →
    s.device.playerState p = .playing → queueOf s.device.session.style p k = some q → c.openHold[k] = none →
    c.lastRow[k] ≠ some c.cursor → (s.device.lane q).queue.length < 24 → units = c.taps + 1 + 2 * c.holds →
    n = { row := c.cursor, due := c.rowTime, kind := .tap, tail := none, lateDecode := false, forcedEnd := false,
          reached := false } →
    ∃ t, exec (.notesEntry p) s = .next t
      ∧ ((∀ m ∈ (s.device.lane q).queue, s.device.laneTime q ≤ (m.due : Int) + s.device.judge.windows.poor.late) →
          s.device.laneTime q ≤ (n.due : Int) + s.device.judge.windows.poor.late →
          t.device.lane q = { s.device.lane q with queue := (s.device.lane q).queue ++ [n] }
            ∧ (∀ x : LaneQueue, x ≠ q → t.device.lane x = s.device.lane x)
            ∧ t.device.decoder p = { c with
                buffer := rest, inHand := none, lastRow := c.lastRow.set k.val (some c.cursor) k.isLt
                taps := c.taps + 1 }
            ∧ (t.device.record p).decodedUnits = units
            ∧ t.device.ring = s.device.ring ∧ t.device.ports = s.device.ports)
      ∧ ((s.device.lane q).queue = [] →
          (n.due : Int) + s.device.judge.windows.poor.late < s.device.laneTime q →
          (s.device.record p).reachesZero s.device.score .miss = false →
          t.device.lane q = s.device.lane q
            ∧ (∀ x : LaneQueue, x ≠ q → t.device.lane x = s.device.lane x)
            ∧ t.device.decoder p = { c with
                buffer := rest, inHand := none, lastRow := c.lastRow.set k.val (some c.cursor) k.isLt
                taps := c.taps + 1 }
            ∧ t.device.ring = s.device.ring.append
                { seq := 0, type := .tap .miss, player := p, lane := logicalLane s.device.session.style q,
                  early := false, lateDecode := true, forcedEnd := false, timed := false, offset := 0, row := n.row }
            ∧ ∀ r, r = { s.device.record p with
                  decodedUnits := units
                  units := max (s.device.record p).headerUnits units
                  score := if max (s.device.record p).headerUnits units = 0 then 0
                    else (s.device.record p).earned * 1000 / max (s.device.record p).headerUnits units } →
                t.device.record p = r.apply s.device.score s.device.session.failPolicy .miss))

/-- 04 R58, R59, 08 R124: a HOLD_END on one lane with an open hold whose head is still queued gives the head its tail;
one whose hold is active gives the hold its tail, which ends it HELD at once where lane time has reached it (life not
brought to 0, the chart not ended); one whose hold has finished is consumed; on a lane with no open hold it is a
STRAY_END. A TAP that meets an open hold is a HOLD_OVERLAP: the hold's head gets a forced tail at the TAP's due time, the
mark is cleared, and the TAP is appended. -/
def Obligations.HoldEndGivesTail : Prop :=
  (∀ (s : State) (p : Player) (hi lo : Byte) (rest : List Byte) (k : Fin 12) (q : LaneQueue) (c : Decoder),
    c = s.device.decoder p → c.buffer = 0x32 :: hi :: lo :: rest → hi.toNat * 256 + lo.toNat = 2 ^ k.val →
    c.state = .decoding → c.pendingRepeat = none → queueOf s.device.session.style p k = some q →
    ∃ t, exec (.notesEntry p) s = .next t
      ∧ (c.openHold[k] = none → DecoderOnly s.device t.device p { c with buffer := rest, inHand := none } [.strayEnd])
      ∧ ∀ row d, c.openHold[k] = some row →
          d = { s.device with
            decoders := s.device.decoders.set p { c with
              buffer := rest, inHand := none, openHold := c.openHold.set k.val none k.isLt } } →
          ((∃ n ∈ (s.device.lane q).queue, n.kind = .holdStart ∧ n.row = row) →
            t.device = { d with judge := t.device.judge }
              ∧ t.device.judge = { s.device.judge with lanes := t.device.judge.lanes }
              ∧ (∀ x : LaneQueue, x ≠ q → t.device.lane x = s.device.lane x)
              ∧ t.device.lane q = { s.device.lane q with
                  queue := (s.device.lane q).queue.map fun n =>
                    if n.kind = .holdStart ∧ n.row = row then { n with tail := some c.rowTime } else n })
          ∧ ((∀ n ∈ (s.device.lane q).queue, n.kind = .holdStart → n.row ≠ row) →
              (∀ h, (s.device.lane q).hold.active = some h → h.row ≠ row) → t.device = d)
          ∧ ∀ h, (s.device.lane q).hold = .holding h → h.row = row →
              (∀ n ∈ (s.device.lane q).queue, n.kind = .holdStart → n.row ≠ row) →
              s.device.session.state = .run → s.device.playerState p = .playing →
              (s.device.laneTime q < c.rowTime →
                t.device = d.onLane q fun x => { x with hold := .holding { h with tail := some c.rowTime } })
              ∧ ((c.rowTime : Int) ≤ s.device.laneTime q →
                  (s.device.record p).reachesZero s.device.score .held = false → HoldEnded d t.device q h true))
  ∧ ∀ (s : State) (p : Player) (hi lo : Byte) (rest : List Byte) (k : Fin 12) (q : LaneQueue) (c : Decoder)
      (row : Nat),
    c = s.device.decoder p → c.buffer = 0x30 :: hi :: lo :: rest → hi.toNat * 256 + lo.toNat = 2 ^ k.val →
    c.state = .decoding → c.pendingRepeat = none → s.device.session.state = .preload →
    s.device.playerState p = .joined → queueOf s.device.session.style p k = some q → c.openHold[k] = some row →
    c.lastRow[k] ≠ some c.cursor → (s.device.lane q).queue.length < 24 →
    (∃ n ∈ (s.device.lane q).queue, n.kind = .holdStart ∧ n.row = row) →
    ∃ t, exec (.notesEntry p) s = .next t
      ∧ DecoderOnly { s.device with judge := t.device.judge, score := t.device.score } t.device p
          { c with
            buffer := rest, inHand := none, openHold := c.openHold.set k.val none k.isLt
            lastRow := c.lastRow.set k.val (some c.cursor) k.isLt, taps := c.taps + 1 } [.holdOverlap]
      ∧ t.device.judge = { s.device.judge with lanes := t.device.judge.lanes }
      ∧ (∀ x : LaneQueue, x ≠ q → t.device.lane x = s.device.lane x)
      ∧ t.device.lane q = { s.device.lane q with
          queue := ((s.device.lane q).queue.map fun n =>
              if n.kind = .holdStart ∧ n.row = row then { n with tail := some c.rowTime, forcedEnd := true } else n)
            ++ [{ row := c.cursor, due := c.rowTime, kind := .tap, tail := none, lateDecode := false,
                  forcedEnd := false, reached := false }] }
      ∧ (t.device.record p).decodedUnits = c.taps + 1 + 2 * c.holds

/-- 04 R60: under a pending repeat a TAP entry of one lane, in PRELOAD with room in its queue, puts its notes at the
repetitions' rows, each at the due time of its row, and leaves the cursor on the last. -/
def Obligations.RepeatExpandsNotes : Prop :=
  ∀ (s : State) (p : Player) (hi lo : Byte) (rest : List Byte) (k : Fin 12) (q : LaneQueue) (c : Decoder)
    (times spacing : Nat),
    c = s.device.decoder p → c.buffer = 0x30 :: hi :: lo :: rest → hi.toNat * 256 + lo.toNat = 2 ^ k.val →
    c.state = .decoding → c.pendingRepeat = some (times, spacing) → 0 < times → 0 < spacing →
    s.device.session.state = .preload → s.device.playerState p = .joined →
    queueOf s.device.session.style p k = some q → (s.device.lane q).queue.length + times ≤ 24 →
    c.openHold[k] = none → (∀ r, c.lastRow[k] = some r → r < c.cursor) →
    c.cursor + (times - 1) * spacing ≤ 16777215 →
    rawDue c.segment (c.cursor + (times - 1) * spacing) ≤ 2147483647 →
    ∃ t, exec (.notesEntry p) s = .next t
      ∧ t.device.ports = s.device.ports ∧ t.device.ring = s.device.ring
      ∧ (∀ x : LaneQueue, x ≠ q → t.device.lane x = s.device.lane x)
      ∧ t.device.lane q = { s.device.lane q with
          queue := (s.device.lane q).queue ++ (List.range times).map fun j =>
            { row := c.cursor + j * spacing,
              due := if j = 0 then c.rowTime else rawDue c.segment (c.cursor + j * spacing),
              kind := .tap, tail := none, lateDecode := false, forcedEnd := false, reached := false } }
      ∧ t.device.decoder p = { c with
          buffer := rest
          inHand := none
          pendingRepeat := none
          cursor := c.cursor + (times - 1) * spacing
          rowTime := if times = 1 then c.rowTime else rawDue c.segment (c.cursor + (times - 1) * spacing)
          lastRow := c.lastRow.set k.val (some (c.cursor + (times - 1) * spacing)) k.isLt
          taps := c.taps + times }
      ∧ (t.device.record p).decodedUnits = c.taps + times + 2 * c.holds

/-- 04 R51, R56, R62: a TAP for a full lane queue puts the decoder in STALLED_LANE with the entry in hand and its bytes
in the buffer; when the queue has room again, in RUN, the note is appended and the decoder goes on. -/
def Obligations.FullQueueStallsAndReleases : Prop :=
  ∀ (s : State) (p : Player) (k : Fin 12) (q : LaneQueue) (c : Decoder) (n : Note),
    c = s.device.decoder p → queueOf s.device.session.style p k = some q →
    n = { row := c.cursor, due := c.rowTime, kind := .tap, tail := none, lateDecode := false, forcedEnd := false,
          reached := false } →
    (∀ hi lo rest, c.buffer = 0x30 :: hi :: lo :: rest → hi.toNat * 256 + lo.toNat = 2 ^ k.val →
      c.state = .decoding → c.pendingRepeat = none →
      (s.device.playerState p = .joined ∨ s.device.playerState p = .playing) →
      24 ≤ (s.device.lane q).queue.length → c.openHold[k] = none → c.lastRow[k] ≠ some c.cursor →
      ∃ t, exec (.notesEntry p) s = .next t
        ∧ t.device = { s.device with
            decoders := s.device.decoders.set p { c with
              state := .stalledLane
              inHand := some { size := 3, task := .notes [.append k n] } } })
    ∧ (c.state = .stalledLane → ∀ size, c.inHand = some { size := size, task := .notes [.append k n] } →
      s.device.session.state = .run → s.device.playerState p = .playing →
      ∃ t, exec (.stallRelease p) s = .next t
        ∧ (24 ≤ (s.device.lane q).queue.length → t = s)
        ∧ ((s.device.lane q).queue.length < 24 →
          (∀ m ∈ (s.device.lane q).queue, s.device.laneTime q ≤ (m.due : Int) + s.device.judge.windows.poor.late) →
          s.device.laneTime q ≤ (n.due : Int) + s.device.judge.windows.poor.late →
          t.device.lane q = { s.device.lane q with queue := (s.device.lane q).queue ++ [n] }
            ∧ (∀ x : LaneQueue, x ≠ q → t.device.lane x = s.device.lane x)
            ∧ t.device.decoder p = { c with
                state := .decoding
                inHand := none
                pendingRepeat := none
                buffer := c.buffer.drop size
                lastRow := c.lastRow.set k.val (some c.cursor) k.isLt
                taps := c.taps + 1 }
            ∧ (t.device.record p).decodedUnits = c.taps + 1 + 2 * c.holds
            ∧ t.device.ring = s.device.ring ∧ t.device.ports = s.device.ports))

/-- 03 R34, R36, R39, R40, 04 R54, 02 R27: a TEMPO and a DWELL entry in PRELOAD offer their clamped tempo map entry: with
room in the map the decoder starts the segment, and with sixteen entries it stalls with the entry in hand. 04 R62, 02
R28: a decoder so stalled waits while the map is full; in RUN and ENDED, when an entry has left the map, it goes on, and
the map takes the entry it had in hand: at the back, or, once song time has reached it, as the segment at once. -/
def Obligations.TempoAndDwellOffer : Prop :=
  (∀ (s : State) (p : Player) (tag : Byte) (v : BitVec 32) (rest : List Byte) (c : Decoder) (g : Segment),
    c = s.device.decoder p → c.buffer = tag :: bytesOf 4 v.toNat ++ rest → c.state = .decoding →
    c.pendingRepeat = none → s.device.session.state = .preload → tag.toNat / 16 = 5 →
    g = { row := c.cursor, rowTime := c.rowTime, segTime := c.rowTime, period := max 65536 (min v.toNat 268435455) } →
    ∃ t, exec (.tempoEntry p) s = .next t
      ∧ Offered s.device t.device p c rest g
          (if v.toNat < 65536 ∨ 268435455 < v.toNat then [.tempoClamped] else []))
  ∧ (∀ (s : State) (p : Player) (tag : Byte) (v : BitVec 32) (rest : List Byte) (c : Decoder) (g : Segment),
    c = s.device.decoder p → c.buffer = tag :: bytesOf 4 v.toNat ++ rest → c.state = .decoding →
    c.pendingRepeat = none → s.device.session.state = .preload → tag.toNat / 16 = 6 →
    g = { row := c.cursor, rowTime := c.rowTime,
          segTime := min (c.rowTime + max 1 (min v.toNat 60000000)) 2147483647, period := c.segment.period } →
    ∃ t, exec (.dwellEntry p) s = .next t
      ∧ Offered s.device t.device p c rest g
          ((if v.toNat < 1 ∨ 60000000 < v.toNat then [.dwellClamped] else [])
            ++ (if 2147483647 < c.rowTime + max 1 (min v.toNat 60000000) then [.dueClamped] else [])))
  ∧ (∀ (s : State) (p : Player) (c : Decoder) (size : Nat) (g : Segment),
    c = s.device.decoder p → c.state = .stalledTempo → c.inHand = some { size := size, task := .offer g } →
    ∃ t, exec (.stallRelease p) s = .next t
      ∧ (16 ≤ (s.device.tracker p).map.length → t = s)
      ∧ ((s.device.tracker p).map.length < 16 →
          s.device.session.state = .run ∨ s.device.session.state = .ended →
          t.device = { s.device with
              clock := { s.device.clock with trackers := s.device.clock.trackers.set p (t.device.tracker p) }
              lamps := { s.device.lamps with beat := t.device.lamps.beat }
              decoders := s.device.decoders.set p { c with
                state := .decoding, inHand := none, buffer := c.buffer.drop size,
                segment := { row := g.row, segTime := g.segTime, period := g.period } } }
            ∧ TrackerFollows s.device t.device p ((s.device.tracker p).map ++ [g])
            ∧ ((∀ e ∈ (s.device.tracker p).map, s.device.clock.songTime < e.rowTime) →
                s.device.clock.songTime < g.rowTime →
                (t.device.tracker p).map = (s.device.tracker p).map ++ [g]
                  ∧ (t.device.tracker p).segment = (s.device.tracker p).segment)
            ∧ ((s.device.tracker p).map = [] → (g.rowTime : Int) ≤ s.device.clock.songTime →
                (t.device.tracker p).map = [] ∧ (t.device.tracker p).segment = g)))

/-- 04 R63, R64, 08 R124: an END entry in PRELOAD ends the chart: every open hold's head gets a forced tail at the row
time, and what stands behind the END is discarded with AFTER_END. -/
def Obligations.EndForcesOpenHolds : Prop :=
  ∀ (s : State) (p : Player) (tag : Byte) (rest : List Byte) (c : Decoder),
    c = s.device.decoder p → c.buffer = tag :: rest → tag.toNat / 16 = 15 → c.state = .decoding →
    c.pendingRepeat = none → s.device.session.state = .preload → s.device.playerState p = .joined →
    (∀ k, c.openHold[k].isSome → queueOf s.device.session.style p k ≠ none) →
    ∃ t, exec (.endEntry p) s = .next t
      ∧ DecoderOnly { s.device with judge := t.device.judge } t.device p
          { c with state := .ended, buffer := [], inHand := none, openHold := Vector.replicate 12 none }
          (if rest = [] then [] else [.afterEnd])
      ∧ t.device.judge = { s.device.judge with lanes := t.device.judge.lanes }
      ∧ (∀ q : LaneQueue, s.device.owner q ≠ p → t.device.lane q = s.device.lane q)
      ∧ ∀ k q, queueOf s.device.session.style p k = some q →
          (t.device.lane q).queue = (s.device.lane q).queue.map fun n =>
            if n.kind = .holdStart ∧ c.openHold[k] = some n.row then
              { n with tail := some c.rowTime, forcedEnd := true }
            else n

/-- 04 R68: in DISCARD a HEADER, NOTES, REPEAT or END entry only leaves the buffer; a ROWS still moves the cursor, and a
TEMPO and a DWELL still start their segments, with their clamps, without an offer. That the formula of 03 R35 gives the
row time at the row clamp too, after a DWELL there, is the model's choice (notes/assumptions 32). -/
def Obligations.DiscardDropsEntries : Prop :=
  ∀ (s : State) (p : Player) (c : Decoder) (tag a b d e : Byte) (rest : List Byte),
    c = s.device.decoder p → c.state = .discard → c.buffer = tag :: a :: b :: d :: e :: rest →
    (∃ t, exec (.headerEntry p) s = .next t ∧ (tag.toNat / 16 = 1 →
      DecoderOnly s.device t.device p { c with buffer := rest } []))
    ∧ (∃ t, exec (.notesEntry p) s = .next t ∧ (tag.toNat / 16 = 3 → tag.toNat % 16 < 4 →
      DecoderOnly s.device t.device p { c with buffer := d :: e :: rest } []))
    ∧ (∃ t, exec (.repeatEntry p) s = .next t ∧ (tag.toNat / 16 = 4 → a ≠ 0 → b ≠ 0 →
      DecoderOnly s.device t.device p { c with buffer := d :: e :: rest } []))
    ∧ (∃ t, exec (.endEntry p) s = .next t ∧ (tag.toNat / 16 = 15 →
      DecoderOnly s.device t.device p { c with buffer := a :: b :: d :: e :: rest } []))
    ∧ (∃ t, exec (.tempoEntry p) s = .next t ∧ ∀ v : BitVec 32, v = a ++ b ++ d ++ e → tag.toNat / 16 = 5 →
      DecoderOnly s.device t.device p
        { c with
          buffer := rest
          segment := { row := c.cursor, segTime := c.rowTime, period := max 65536 (min v.toNat 268435455) } }
        (if v.toNat < 65536 ∨ 268435455 < v.toNat then [.tempoClamped] else []))
    ∧ (∃ t, exec (.rowsEntry p) s = .next t ∧ ∀ count row raw, count = a.toNat * 256 + b.toNat → count ≠ 0 →
      row = min (c.cursor + count) 16777215 →
      raw = c.segment.segTime + ((row - c.segment.row) * c.segment.period + 128) / 256 → tag.toNat / 16 = 2 →
      DecoderOnly s.device t.device p
        { c with buffer := d :: e :: rest, cursor := row, rowTime := min raw 2147483647 }
        ((if 16777215 < c.cursor + count then [.rowClamped] else [])
          ++ if 2147483647 < raw then [.dueClamped] else []))
    ∧ (∃ t, exec (.dwellEntry p) s = .next t ∧ ∀ (v : BitVec 32) (length : Nat), v = a ++ b ++ d ++ e →
      length = max 1 (min v.toNat 60000000) → tag.toNat / 16 = 6 →
      DecoderOnly s.device t.device p
        { c with
          buffer := rest
          segment := { row := c.cursor, segTime := min (c.rowTime + length) 2147483647, period := c.segment.period } }
        ((if v.toNat < 1 ∨ 60000000 < v.toNat then [.dwellClamped] else [])
          ++ if 2147483647 < c.rowTime + length then [.dueClamped] else []))

/-! ## Chart writes -/

/-- 04 R46, R47, R64, 12 R170: a whole chart write. Of the GAME port's to a chart that is open, the bytes that find room
enter, and in ENDED every byte is discarded with AFTER_END; any other write is refused at its header. -/
def Obligations.ChartWriteFillsBuffer : Prop :=
  ∀ (s : State) (i : Port) (p : Player) (data taken : List Byte) (c : Decoder),
    (s.device.port i).transaction = none → c = s.device.decoder p → taken = data.take (512 - c.buffer.length) →
    ∃ t, exec (.chartWrite i (.whole p data)) s = .next t
      ∧ (t.device.port i).result.channel = (if p = .p1 then 0x04 else 0x05)
      ∧ ((s.device.port i).role ≠ .game → OnlyResult s.device t.device i
          ∧ (t.device.port i).result.code = .noRight ∧ (t.device.port i).result.count = 0)
      ∧ ((s.device.port i).role = .game → ¬ChartOpen s.device p → OnlyResult s.device t.device i
          ∧ (t.device.port i).result.code = .wrongState ∧ (t.device.port i).result.count = 0)
      ∧ ((s.device.port i).role = .game → ChartOpen s.device p → c.state ≠ .ended →
          t.device = { s.device with
              decoders := s.device.decoders.set p { c with buffer := c.buffer ++ taken }, ports := t.device.ports }
            ∧ (∀ j : Port, j ≠ i → t.device.port j = s.device.port j)
            ∧ (t.device.port i).result.code = .done
            ∧ (t.device.port i).result.count = BitVec.ofNat 16 taken.length)
      ∧ ((s.device.port i).role = .game → ChartOpen s.device p → c.state = .ended → c.buffer = [] →
          t.device = { s.device with
              decoders := s.device.decoders.set p { c with
                faults := if data = [] then c.faults else c.faults ||| FaultKind.afterEnd.mask }
              ports := t.device.ports }
            ∧ (data ≠ [] → c.faults.getLsbD FaultKind.afterEnd.bit = false →
                ∀ j : Port, Holds t.device j .chartFault)
            ∧ (t.device.port i).result.code = .done
            ∧ (data.length ≤ 65535 → (t.device.port i).result.count = BitVec.ofNat 16 data.length))

/-- 04 R47: a whole chart write does what its moments do one after another: the header, each byte, the rise. 04 R47, R70,
12 R177: once a byte has found the buffer full, or an ABORT, a CLOSE or a soft reset has met the write, its further
bytes change nothing; the rise leaves the verdict and the bytes that had entered, and after a soft reset no result. 12
R167, R171: any write and any read, spelled by its header, does what its moments do one after another, and the rows of
COMMAND, NOTICE, NOTICE_MASK, LAMP and RING are those transactions; before the rise a write has no effect but on its own
transaction, and the fall of SEL_N, with or without the first bits of a header, changes nothing of what a transaction then
does. That a header, or a whole
transaction, ends one still open on its port is the model's choice (notes/assumptions 8), and so is the second spelling
(notes/assumptions 9). -/
def Obligations.ChartWriteMoments : Prop :=
  (∀ (s : State) (i : Port) (p : Player) (data : List Byte),
    ∃ t, exec (.chartWrite i (.whole p data)) s = .next t
      ∧ runAll ((Instr.chartWrite i (.header p) :: data.map fun b => Instr.chartWrite i (.byte b))
          ++ [Instr.chartWrite i .rise]) s = some t)
  ∧ (∀ (s : State) (i : Port) (p : Player) (verdict : ResultCode) (entered : Nat) (full cut reset : Bool) (b : Byte),
    (s.device.port i).transaction = some (.chart p verdict entered full cut reset) → entered ≤ 65535 →
    ∃ t u, exec (.chartWrite i (.byte b)) s = .next t ∧ exec (.chartWrite i .rise) s = .next u
      ∧ (verdict ≠ .done ∨ full = true ∨ cut = true ∨ reset = true → t = s)
      ∧ u.device = s.device.onPort i fun x => { x with
          transaction := none
          result :=
            if reset then x.result
            else { channel := if p = .p1 then 0x04 else 0x05, code := verdict,
                   count := if verdict = .done then BitVec.ofNat 16 entered else 0 } })
  ∧ (∀ (s : State) (i : Port) (channel : ChannelField) (data : List Byte),
    ∃ t u, exec (.registerWrite i channel (.whole data)) s = .next t
      ∧ runAll ((Instr.registerWrite i channel .header :: data.map fun b => Instr.registerWrite i channel (.byte b))
          ++ [Instr.registerWrite i channel .rise]) s = some t
      ∧ exec (.refusedRead i (.whole channel)) s = .next u
      ∧ runAll [.refusedRead i (.header channel), .refusedRead i .rise] s = some u)
  ∧ (∀ (s : State) (i : Port) (data : List Byte),
    (∀ c code fields, commandOf code = some c →
        exec (.registerWrite i 0x01#7 (.whole (code :: fields))) s = exec (instrOf c i fields) s)
      ∧ exec (.registerWrite i 0x02#7 (.whole data)) s = exec (.noticeWrite i data) s
      ∧ exec (.registerWrite i 0x03#7 (.whole data)) s = exec (.noticeMaskWrite i data) s
      ∧ exec (.registerWrite i 0x0B#7 (.whole data)) s = exec (.lampWrite i data) s
      ∧ exec (.registerWrite i 0x04#7 (.whole data)) s = exec (.chartWrite i (.whole .p1 data)) s
      ∧ exec (.registerWrite i 0x05#7 (.whole data)) s = exec (.chartWrite i (.whole .p2 data)) s
      ∧ exec (.ringRead (.whole i)) s = exec (.refusedRead i (.whole 0x06#7)) s
      ∧ exec (.ringRead (.heading i)) s = exec (.refusedRead i (.heading 0x06#7)) s
      ∧ exec (.ringRead (.header i)) s = exec (.refusedRead i (.header 0x06#7)) s
      ∧ exec (.ringRead (.rise i)) s = exec (.refusedRead i .rise) s
      ∧ ∀ channel, exec (.registerWrite i channel .rise) s = exec (.refusedRead i .rise) s
          ∧ exec (.registerWrite i channel .fall) s = exec (.refusedRead i .fall) s)
  ∧ (∀ (s : State) (i : Port) (channel : ChannelField) (data : List Byte) (b : Byte),
    (s.device.port i).transaction = some (.write channel data) →
    ∃ t, exec (.registerWrite i channel (.byte b)) s = .next t
      ∧ t.device = s.device.onPort i fun x => { x with transaction := some (.write channel (data ++ [b])) })
  ∧ ∀ (s : State) (i : Port) (status : Byte) (c : Instr),
    ((s.device.port i).transaction = some (.selected status)
      ∨ ∃ channel, (s.device.port i).transaction = some (.heading status channel)) → portOf c = some i →
    (match c with
      | .chartWrite _ (.byte _) | .chartWrite _ .rise | .registerWrite _ _ (.byte _) | .ringRecordConsumed _
      | .refusedRead _ (.heading _) | .ringRead (.heading _) => False
      | _ => True) →
    exec c s = exec c { s with device := s.device.onPort i fun x => { x with transaction := none } }

/-! ## Notices, refused headers and reads -/

/-- 12 R170, R174: a two-byte write to NOTICE removes kinds from the writing port's set, one to NOTICE_MASK replaces its
mask; a write of another length is answered BAD_LENGTH and changes nothing. -/
def Obligations.NoticeWritesEffect : Prop :=
  ∀ (s : State) (i : Port) (data : List Byte), (s.device.port i).transaction = none →
    ∃ t u, exec (.noticeWrite i data) s = .next t ∧ exec (.noticeMaskWrite i data) s = .next u
      ∧ (∀ hi lo : Byte, data = [hi, lo] →
          t.device = s.device.onPort i (fun x => { x with
              notices := x.notices &&& ~~~(hi ++ lo : BitVec 16), result := ⟨0x02, .done, 2⟩ })
            ∧ u.device = s.device.onPort i fun x => { x with
                mask := (hi ++ lo : BitVec 16), result := ⟨0x03, .done, 2⟩ })
      ∧ (data.length ≠ 2 → OnlyResult s.device t.device i ∧ OnlyResult s.device u.device i
          ∧ (t.device.port i).result.code = .badLength ∧ (u.device.port i).result.code = .badLength
          ∧ (t.device.port i).result.channel = 0x02 ∧ (u.device.port i).result.channel = 0x03
          ∧ (data.length ≤ 65535 → (t.device.port i).result.count = BitVec.ofNat 16 data.length
              ∧ (u.device.port i).result.count = BitVec.ofNat 16 data.length))

/-- 12 R167, R169 to R171: a write to a channel that takes none, to an unknown channel, or to COMMAND without a known
code, and a read of COMMAND or of an unknown channel: each leaves its code in the port's result record and changes
nothing else; a read so refused sends 0xFF and leaves its code only at the rise of SEL_N. The channel field of a header
with bit 6 set is its low six bits (notes/assumptions 11). -/
def Obligations.RefusedHeadersEffect : Prop :=
  ∀ (s : State) (i : Port) (channel : ChannelField) (data : List Byte), (s.device.port i).transaction = none →
    (registerWriteFits channel data = true →
      ∃ t, exec (.registerWrite i channel (.whole data)) s = .next t ∧ OnlyResult s.device t.device i
        ∧ (t.device.port i).result.channel = channel.setWidth 6
        ∧ (channel ≠ 0x01#7 → (t.device.port i).result.count = 0
            ∧ (t.device.port i).result.code = if channel.toNat < 12 then .noRight else .unknown)
        ∧ (channel = 0x01#7 → data = [] →
            (t.device.port i).result.code = .badLength ∧ (t.device.port i).result.count = 0)
        ∧ (channel = 0x01#7 → data ≠ [] → (t.device.port i).result.code = .unknown
            ∧ (data.length ≤ 65535 → (t.device.port i).result.count = BitVec.ofNat 16 data.length)))
    ∧ (refusedReadFits channel = true →
      ∃ t u, exec (.refusedRead i (.header channel)) s = .next t ∧ exec (.refusedRead i .rise) t = .next u
        ∧ exec (.refusedRead i (.whole channel)) s = .next u
        ∧ (t.device.port i).result = (s.device.port i).result ∧ (∀ k, t.device.sends i k = some 0xFF)
        ∧ OnlyResult s.device u.device i
        ∧ (u.device.port i).result
          = ⟨channel.setWidth 6, if channel = 0x01#7 then .noRight else .unknown, 0⟩)

/-- 04 R48: a read of CHART_P1 or CHART_P2, from its header on, and that it changes nothing. That such a read is spelled
by REFUSED_READ with its channel, and that it changes nothing of the state, is the model's (notes/assumptions 9, 24). -/
def Obligations.ChartReadGivesFreeCount : Prop :=
  ∀ (s : State) (i : Port) (p : Player) (channel : ChannelField) (free : Nat),
    channel = (if p = .p1 then 0x04#7 else 0x05#7) → free = 512 - (s.device.decoder p).buffer.length →
    s.device.readByte i channel 0 = BitVec.ofNat 8 (free / 256)
      ∧ s.device.readByte i channel 1 = BitVec.ofNat 8 free
      ∧ free ≤ 512
      ∧ (∀ k, 2 ≤ k → s.device.readByte i channel k = 0xFF)
      ∧ ((s.device.port i).transaction = none →
          ∃ t u, exec (.refusedRead i (.header channel)) s = .next t ∧ exec (.refusedRead i .rise) t = .next u
            ∧ t.device = s.device.onPort i (fun x => { x with
                transaction := some (.read channel (s.device.snapshot i channel)) })
            ∧ (∀ k, t.device.sends i k = some (s.device.readByte i channel k)) ∧ u = s)

/-- 12 R168, R175: every bit of the port status byte, with ATTN_N low exactly while the notice set holds a kind that the
mask does not name; the byte is fixed at the fall of SEL_N and sent during the header (the fall is 12 R168's moment; that
it holds for the ring bit and the session bits too, where 10 R151 and 01 R1 name the header, is the model's choice,
notes/assumptions 42). A header under way is a moment of its own, the model's choice, notes/assumptions 47: it changes
nothing but its transaction, and the header then comes as it would without it. 12 R167, R169: the header of a read fixes
the snapshot, which is sent from its first byte and then 0xFF, whatever happens meanwhile; a write sends 0xFF, and
outside a transaction SDO is at high impedance. 12 R178, R179, 10 R148: the lengths and the fields of the snapshots and
of a record. -/
def Obligations.StatusByteAndSnapshots : Prop :=
  (∀ (d : Device) (i : Port),
    ((d.statusByte i).getLsbD 7 = true
        ↔ ∃ k : Notice, (d.port i).notices.getLsbD k.bit = true ∧ (d.port i).mask.getLsbD k.bit = false)
      ∧ ((d.statusByte i).getLsbD 6 = true ↔ (d.port i).result.code ≠ .done)
      ∧ ((d.statusByte i).getLsbD 5 = true ↔ ∃ x, d.ring.subs[i] = some x ∧ 0 < x.unread)
      ∧ (d.statusByte i).getLsbD 4 = false
      ∧ ((d.statusByte i).toNat / 4) % 4
        = (match d.session.state with | .idle => 0 | .preload => 1 | .run => 2 | .ended => 3)
      ∧ (d.statusByte i).toNat % 4
        = match (d.port i).role with | .game => 0 | .audio => 1 | .lamp => 2 | .watch => 3)
  ∧ (∀ (s : State) (i : Port), ∃ t, exec (.refusedRead i .fall) s = .next t
      ∧ ((s.device.port i).transaction = none →
          t.device = s.device.onPort i (fun x => { x with transaction := some (.selected (s.device.statusByte i)) })))
  ∧ (∀ (s : State) (i : Port) (channel : ChannelField) (status : Byte),
      (s.device.port i).transaction = none ∧ status = s.device.statusByte i
        ∨ (s.device.port i).transaction = some (.selected status) →
      ∃ t u v, exec (.refusedRead i (.heading channel)) s = .next t ∧ exec (.refusedRead i (.header channel)) t = .next u
        ∧ exec (.refusedRead i (.header channel)) s = .next v ∧ u = v
        ∧ t.device = s.device.onPort i fun x => { x with transaction := some (.heading status channel) })
  ∧ (∀ (s : State) (i : Port) (channel : ChannelField), (s.device.port i).transaction = none → channel ≠ 0x06#7 →
      ∃ t, exec (.refusedRead i (.header channel)) s = .next t
        ∧ t.device = s.device.onPort i fun x => { x with
            transaction := some (.read channel (s.device.snapshot i channel)) })
  ∧ (∀ (d : Device) (i : Port) (k : Nat),
      ((d.port i).transaction = none → d.sends i k = none)
        ∧ (∀ status, (d.port i).transaction = some (.selected status) → d.sends i k = some status)
        ∧ (∀ status channel, (d.port i).transaction = some (.heading status channel) → d.sends i k = some status)
        ∧ (∀ channel data, (d.port i).transaction = some (.write channel data) → d.sends i k = some 0xFF)
        ∧ (∀ p verdict entered full cut reset,
            (d.port i).transaction = some (.chart p verdict entered full cut reset) → d.sends i k = some 0xFF)
        ∧ ∀ channel snapshot, (d.port i).transaction = some (.read channel snapshot) →
            (∀ h : k < snapshot.length, d.sends i k = some snapshot[k])
              ∧ (snapshot.length ≤ k → d.sends i k = some 0xFF))
  ∧ (∀ (d : Device) (i : Port), CapacityLaw d →
    (d.snapshot i 0x07#7).length = 130 ∧ (d.snapshot i 0x08#7).length = 130 ∧ (d.snapshot i 0x09#7).length = 113
      ∧ (d.snapshot i 0x0A#7).length = 374 ∧ (d.snapshot i 0x0B#7).length = 38)
  ∧ (∀ (d : Device) (i : Port) (bytes : List Byte), CapacityLaw d →
    (∀ p, bytes = d.snapshot i (if p = .p1 then 0x07#7 else 0x08#7) → ScoreLayout d p bytes)
      ∧ (bytes = d.snapshot i 0x09#7 → ClockLayout d bytes)
      ∧ (bytes = d.snapshot i 0x0A#7 → PanelsLayout d bytes)
      ∧ (bytes = d.snapshot i 0x0B#7 → LampLayout d bytes)
      ∧ (bytes = d.snapshot i 0x00#7 →
          FieldAt bytes 0 1 (d.port i).result.channel.toNat ∧ FieldAt bytes 1 1 (d.port i).result.code.toNat
            ∧ FieldAt bytes 2 2 (d.port i).result.count.toNat ∧ bytes.length = 4)
      ∧ (bytes = d.snapshot i 0x02#7 → FieldAt bytes 0 2 (d.port i).notices.toNat ∧ bytes.length = 2)
      ∧ (bytes = d.snapshot i 0x03#7 → FieldAt bytes 0 2 (d.port i).mask.toNat ∧ bytes.length = 2))
  ∧ ∀ x : Record, x.bytes.length = 12 ∧ RecordLayout x x.bytes

/-! ## The ring -/

/-- 10 R151, R152, R156: SUBSCRIBE sets the port's cursor on the oldest record or at the head, its unread count and its
threshold, and raises to that port alone what its unread count has reached; a start byte above 1 is BAD_VALUE. -/
def Obligations.SubscribeEffect : Prop :=
  ∀ (s : State) (i : Port) (start threshold : Byte) (sub : Subscription),
    Sendable s.device i .subscribe [start, threshold] →
    sub =
      { cursor := if start = 0 then s.device.ring.records.head?.map fun x => x.seq else none
        unread := if start = 0 then s.device.ring.records.length else 0
        threshold := if threshold = 0 then 16 else min threshold.toNat 63 } →
    ∃ t, exec (.subscribe i [start, threshold]) s = .next t
      ∧ (start.toNat ≤ 1 →
          t.device = { s.device with
              ring := { s.device.ring with subs := s.device.ring.subs.set i.val (some sub) i.isLt }
              ports := t.device.ports }
            ∧ (∀ j : Port, j ≠ i → t.device.port j = s.device.port j)
            ∧ t.device.port i = { s.device.port i with
                notices := (s.device.port i).notices
                  ||| (if sub.threshold ≤ sub.unread then Notice.water.mask else 0)
                  ||| (if 62 ≤ sub.unread then Notice.near.mask else 0)
                result := ⟨0x01, .done, 3⟩ })
      ∧ (2 ≤ start.toNat → OnlyResult s.device t.device i ∧ Answered t.device i .badValue 3)

/-- 10 R153: UNSUBSCRIBE, from any role in any session state. -/
def Obligations.UnsubscribeEffect : Prop :=
  ∀ (s : State) (i : Port), (s.device.port i).transaction = none →
    ∃ t, exec (.unsubscribe i []) s = .next t
      ∧ t.device = { s.device with
          ring := { s.device.ring with subs := s.device.ring.subs.set i.val none i.isLt }
          ports := t.device.ports }
      ∧ PortsAnswered s.device t.device i .done 1
      ∧ (s.device.ring.subs[i] = none → t.device.ring = s.device.ring)
      ∧ ∀ (x : Record) (e : Device), e = t.device.appendRecord x →
          e.port i = t.device.port i ∧ e.ring.subs[i] = none

/-- 10 R154, R155: a RING read takes the unread records at its header, and its bytes are theirs, then 0xFF; the twelfth
byte of a record moves the port's cursor on, if it stands on that record. A port without a cursor reads 0xFF and is
answered NO_RIGHT at the rise of SEL_N. The rise of a RING read with a cursor leaves no result. 10 R155: once the port
holds no cursor a record consumes nothing. 10 R158, 12 R177: a read that a soft reset has met sends 0xFF and consumes
nothing; that it too leaves no result at its rise is the model's choice, notes/assumptions 43. A record is told from a
later one of the same sequence number by its lap, the model's own field (notes/assumptions 20). -/
def Obligations.RingReadAndConsumption : Prop :=
  (∀ (s : State) (i : Port), (s.device.port i).transaction = none → RingLaw s.device.ring →
    ∃ t u, exec (.ringRead (.header i)) s = .next t ∧ exec (.ringRead (.rise i)) t = .next u
      ∧ (s.device.ring.subs[i] = none → (∀ k, t.device.sends i k = some 0xFF)
          ∧ (t.device.port i).result = (s.device.port i).result
          ∧ OnlyResult s.device u.device i ∧ (u.device.port i).result = ⟨0x06, .noRight, 0⟩)
      ∧ ∀ sub unread, s.device.ring.subs[i] = some sub →
          unread = s.device.ring.records.drop (s.device.ring.records.length - sub.unread) →
          t.device = s.device.onPort i (fun x => { x with transaction := some (.ringRead unread 0 false) })
            ∧ (∀ k, t.device.sends i k = some ((unread.flatMap Record.bytes).getD k 0xFF)) ∧ u = s)
  ∧ (∀ (s : State) (i : Port) (snapshot : List Record) (sent : Nat) (x : Record),
    RingLaw s.device.ring → (s.device.port i).transaction = some (.ringRead snapshot sent false) →
    snapshot[sent]? = some x →
    ∃ t, exec (.ringRecordConsumed i) s = .next t
      ∧ (∀ sub, s.device.ring.subs[i] = some sub →
          t.device = { s.device with
            ring := { s.device.ring with
              subs := s.device.ring.subs.set i.val
                (some (if (s.device.ring.records.drop (s.device.ring.records.length - sub.unread)).head? = some x then
                  { sub with
                    cursor := if sub.unread = 1 then none else some (x.seq + 1)
                    unread := sub.unread - 1 }
                else sub)) i.isLt }
            ports := t.device.ports })
      ∧ (s.device.ring.subs[i] = none → t.device = { s.device with ports := t.device.ports })
      ∧ (∀ j : Port, j ≠ i → t.device.port j = s.device.port j)
      ∧ t.device.port i = { s.device.port i with transaction := some (.ringRead snapshot (sent + 1) false) })
  ∧ ∀ (s : State) (i : Port) (snapshot : List Record) (sent : Nat) (dead : Bool),
    (s.device.port i).transaction = some (.ringRead snapshot sent dead) →
    (∃ u, exec (.ringRead (.rise i)) s = .next u
      ∧ u.device = s.device.onPort i fun x => { x with transaction := none })
    ∧ (dead = true → exec (.ringRecordConsumed i) s = .next s ∧ ∀ k, s.device.sends i k = some 0xFF)
    ∧ (snapshot.length ≤ sent → exec (.ringRecordConsumed i) s = .next s)

/-! ## What every step keeps -/

/-- Every law that the next statements keep holds in the state after reset. -/
def Obligations.ResetMeetsEveryLaw : Prop :=
  SessionLaw State.reset.device ∧ RingLaw State.reset.device.ring ∧ CapacityLaw State.reset.device
    ∧ SettingsLaw State.reset.device ∧ ScoreLaw State.reset.device ∧ UnitLaw State.reset.device
    ∧ PanelLaw State.reset.device ∧ LaneLaw State.reset.device ∧ MapLaw State.reset.device
    ∧ OrderLaw State.reset.device ∧ PortLaw State.reset.device

/-- 01 R1, R4, R5, R7 to R11, R13, 07 R104: every step keeps the agreement of the session state, the player states and
the frozen map. -/
def Obligations.SessionStaysLegal : Prop :=
  ∀ s t : State, step s = .next t → SessionLaw s.device → SessionLaw t.device

/-- 10 R147, R150, R151, R155: every step keeps the ring's numbering and its cursors; and every list of the part keeps
to its capacity. -/
def Obligations.RingAndCapacitiesHold : Prop :=
  (∀ s t : State, step s = .next t → RingLaw s.device.ring → RingLaw t.device.ring)
    ∧ ∀ s t : State, step s = .next t → CapacityLaw s.device → CapacityLaw t.device

/-- 01 R2, R4, 02 R19, 05 R82, 06 R87, 08 R112, 09 R134, R135, 11 R160: every step keeps every setting in its range, and
outside IDLE the settings that only IDLE may change; not counted is a step in which a COMMAND write still open on its
port is taken together with an OPEN_SONG that follows it (notes/assumptions 8). -/
def Obligations.SettingsStayLegal : Prop :=
  (∀ s t : State, step s = .next t → SettingsLaw s.device → SettingsLaw t.device)
    ∧ ∀ s t : State, step s = .next t → s.device.session.state ≠ .idle → t.device.session.state ≠ .idle →
        (∀ c rest, s.pending = c :: rest → takesTwo s.device c = false) → SameSettings s.device t.device

/-- 09 R133, R137 to R142: every step keeps the score records in their ranges; and no scoring unit pays more than once,
so that no normalized score exceeds 1,000,000. -/
def Obligations.NoScoreAboveAMillion : Prop :=
  (∀ s t : State, step s = .next t → ScoreLaw s.device → ScoreLaw t.device)
    ∧ (∀ s t : State, step s = .next t → UnitLaw s.device → UnitLaw t.device)
    ∧ ∀ d : Device, UnitLaw d → ∀ p, (d.record p).score ≤ 1000000

/-- 05 R78, R80, R81, R83, 06 R89, R95, R96: every step keeps the boards and the panels in agreement. -/
def Obligations.PanelsFollowBoards : Prop :=
  ∀ s t : State, step s = .next t → PanelLaw s.device → PanelLaw t.device

/-- 07 R100, R104, 08 R110, R121, R128: every step leaves notes and holds to live players alone, and the frozen map one
to one. -/
def Obligations.LanesBelongToLivePlayers : Prop :=
  (∀ s t : State, step s = .next t → LaneLaw s.device → LaneLaw t.device)
    ∧ ∀ s t : State, step s = .next t → MapLaw s.device → MapLaw t.device

/-- 08 R109, 03 R35, R36, R38: every step keeps every lane queue in the order of its due times. -/
def Obligations.QueuesStayInOrder : Prop :=
  ∀ s t : State, step s = .next t → OrderLaw s.device → OrderLaw t.device

/-- 12 R172, R173, 04 R47: every step keeps the roles exclusive; and a command of one port, or an event, that brings no
reset leaves every other port its role, mask and result record, and takes no notice from it; of its transaction it can
cut a chart write off (04 R47), or let a header under way be taken (08 R131). -/
def Obligations.PortsStayApart : Prop :=
  (∀ s t : State, step s = .next t → PortLaw s.device → PortLaw t.device)
    ∧ ∀ (c : Instr) (s t : State) (j : Port), exec c s = .next t → portOf c ≠ some j →
        mayReset s.device c = false →
        t.device.port j = { s.device.port j with
            notices := (t.device.port j).notices, transaction := (t.device.port j).transaction }
          ∧ (s.device.port j).notices &&& ~~~(t.device.port j).notices = 0
          ∧ (HeaderStep (s.device.port j).transaction (t.device.port j).transaction
              ∨ (t.device.port j).transaction = (s.device.port j).transaction.map Transaction.cutOff)

/-- 02 R17, R23 to R25: in RUN and ENDED song time never falls. 09 R138: no command but an OPEN_SONG or a reset lowers
EARNED. 10 R150: none takes a record out of the ring but by appending to a full one. -/
def Obligations.SongsOnlyGoForward : Prop :=
  ∀ (c : Instr) (s t : State), exec c s = .next t →
    (s.device.songRuns = true → t.device.songRuns = true → s.device.clock.songTime ≤ 2147483647 →
      s.device.clock.songTime ≤ t.device.clock.songTime)
    ∧ (mayOpen s.device c = false → mayReset s.device c = false →
        (∀ p, (s.device.record p).earned ≤ 4294967295 →
          (s.device.record p).earned ≤ (t.device.record p).earned)
        ∧ (s.device.ring.records.length ≤ 64 → ∃ new : List Record,
            t.device.ring.records
              = (s.device.ring.records ++ new).drop ((s.device.ring.records ++ new).length - 64)
            ∧ t.device.ring.seq = s.device.ring.seq + BitVec.ofNat 16 new.length))

end Statements
end

