-- ==== Sys2Proof/Laws/State.lean ====
section
/-!
SUPPORT. One lemma for each field of the part under each update of `Machine/Ops.lean` and `Machine/Ring.lean`, so that
no proof unfolds a record update: an update reaches its own block and leaves the eleven others as they are.
-/
namespace Sys2Proof.Machine

/-! ## Pairs -/

section
variable {α : Type}

@[simp] theorem PerPlayer.get_set (v : PerPlayer α) (p q : Player) (x : α) :
    (v.set p x).get q = if q = p then x else v.get q := by cases p <;> cases q <;> rfl

@[simp] theorem PerPlayer.get_p1 (v : PerPlayer α) : v.get .p1 = v.p1 := rfl

@[simp] theorem PerPlayer.get_p2 (v : PerPlayer α) : v.get .p2 = v.p2 := rfl

@[simp] theorem PerStage.get_set (v : PerStage α) (s t : Stage) (x : α) :
    (v.set s x).get t = if t = s then x else v.get t := by cases s <;> cases t <;> rfl

@[simp] theorem PerStage.get_a (v : PerStage α) : v.get .a = v.a := rfl

@[simp] theorem PerStage.get_b (v : PerStage α) : v.get .b = v.b := rfl

end

/-! ## Vectors -/

section
variable {α β : Type} {n : Nat}

@[simp] theorem vecMap_get (f : α → β) (v : Vector α n) (i : Fin n) : (vecMap f v)[i] = f v[i] := by simp [vecMap]

@[simp] theorem vecModify_get (v : Vector α n) (i j : Fin n) (f : α → α) :
    (vecModify v i f)[j] = if j = i then f v[j] else v[j] := by
  by_cases h : j = i
  · subst h; simp [vecModify]
  · have : i.val ≠ j.val := fun e => h (Fin.ext e.symm)
    simp [vecModify, h, Vector.getElem_set_ne, this]

end

/-! ## `onDecoder` -/

section
variable (d : Device) (p : Player) (f : Decoder → Decoder)

@[simp] theorem Device.onDecoder_session : (d.onDecoder p f).session = d.session := rfl

@[simp] theorem Device.onDecoder_clock : (d.onDecoder p f).clock = d.clock := rfl

@[simp] theorem Device.onDecoder_links : (d.onDecoder p f).links = d.links := rfl

@[simp] theorem Device.onDecoder_press : (d.onDecoder p f).press = d.press := rfl

@[simp] theorem Device.onDecoder_mapper : (d.onDecoder p f).mapper = d.mapper := rfl

@[simp] theorem Device.onDecoder_judge : (d.onDecoder p f).judge = d.judge := rfl

@[simp] theorem Device.onDecoder_score : (d.onDecoder p f).score = d.score := rfl

@[simp] theorem Device.onDecoder_ring : (d.onDecoder p f).ring = d.ring := rfl

@[simp] theorem Device.onDecoder_lamps : (d.onDecoder p f).lamps = d.lamps := rfl

@[simp] theorem Device.onDecoder_ports : (d.onDecoder p f).ports = d.ports := rfl

@[simp] theorem Device.onDecoder_choices : (d.onDecoder p f).choices = d.choices := rfl

@[simp] theorem Device.onDecoder_link (z : Stage) : (d.onDecoder p f).link z = d.link z := rfl

@[simp] theorem Device.onDecoder_panel (z : Panel) : (d.onDecoder p f).panel z = d.panel z := rfl

@[simp] theorem Device.onDecoder_lane (z : LaneQueue) : (d.onDecoder p f).lane z = d.lane z := rfl

@[simp] theorem Device.onDecoder_record (z : Player) : (d.onDecoder p f).record z = d.record z := rfl

@[simp] theorem Device.onDecoder_port (z : Port) : (d.onDecoder p f).port z = d.port z := rfl

@[simp] theorem Device.onDecoder_tracker (z : Player) : (d.onDecoder p f).tracker z = d.tracker z := rfl

@[simp] theorem Device.onDecoder_playerState (z : Player) : (d.onDecoder p f).playerState z = d.playerState z := rfl

@[simp] theorem Device.onDecoder_owner (z : LaneQueue) : (d.onDecoder p f).owner z = d.owner z := rfl

@[simp] theorem Device.onDecoder_songRuns : (d.onDecoder p f).songRuns = d.songRuns := rfl

@[simp] theorem Device.onDecoder_feeds (z : Panel) : (d.onDecoder p f).feeds z = d.feeds z := rfl

@[simp] theorem Device.onDecoder_feeder (z : LaneQueue) : (d.onDecoder p f).feeder z = d.feeder z := rfl

end

/-! ## `onLink` -/

section
variable (d : Device) (l : Stage) (f : Link → Link)

@[simp] theorem Device.onLink_session : (d.onLink l f).session = d.session := rfl

@[simp] theorem Device.onLink_clock : (d.onLink l f).clock = d.clock := rfl

@[simp] theorem Device.onLink_decoders : (d.onLink l f).decoders = d.decoders := rfl

@[simp] theorem Device.onLink_press : (d.onLink l f).press = d.press := rfl

@[simp] theorem Device.onLink_mapper : (d.onLink l f).mapper = d.mapper := rfl

@[simp] theorem Device.onLink_judge : (d.onLink l f).judge = d.judge := rfl

@[simp] theorem Device.onLink_score : (d.onLink l f).score = d.score := rfl

@[simp] theorem Device.onLink_ring : (d.onLink l f).ring = d.ring := rfl

@[simp] theorem Device.onLink_lamps : (d.onLink l f).lamps = d.lamps := rfl

@[simp] theorem Device.onLink_ports : (d.onLink l f).ports = d.ports := rfl

@[simp] theorem Device.onLink_choices : (d.onLink l f).choices = d.choices := rfl

@[simp] theorem Device.onLink_decoder (z : Player) : (d.onLink l f).decoder z = d.decoder z := rfl

@[simp] theorem Device.onLink_panel (z : Panel) : (d.onLink l f).panel z = d.panel z := rfl

@[simp] theorem Device.onLink_lane (z : LaneQueue) : (d.onLink l f).lane z = d.lane z := rfl

@[simp] theorem Device.onLink_record (z : Player) : (d.onLink l f).record z = d.record z := rfl

@[simp] theorem Device.onLink_port (z : Port) : (d.onLink l f).port z = d.port z := rfl

@[simp] theorem Device.onLink_tracker (z : Player) : (d.onLink l f).tracker z = d.tracker z := rfl

@[simp] theorem Device.onLink_playerState (z : Player) : (d.onLink l f).playerState z = d.playerState z := rfl

@[simp] theorem Device.onLink_owner (z : LaneQueue) : (d.onLink l f).owner z = d.owner z := rfl

@[simp] theorem Device.onLink_songRuns : (d.onLink l f).songRuns = d.songRuns := rfl

@[simp] theorem Device.onLink_feeds (z : Panel) : (d.onLink l f).feeds z = d.feeds z := rfl

@[simp] theorem Device.onLink_feeder (z : LaneQueue) : (d.onLink l f).feeder z = d.feeder z := rfl

end

/-! ## `onPanel` -/

section
variable (d : Device) (p : Panel) (f : PanelPress → PanelPress)

@[simp] theorem Device.onPanel_session : (d.onPanel p f).session = d.session := rfl

@[simp] theorem Device.onPanel_clock : (d.onPanel p f).clock = d.clock := rfl

@[simp] theorem Device.onPanel_decoders : (d.onPanel p f).decoders = d.decoders := rfl

@[simp] theorem Device.onPanel_links : (d.onPanel p f).links = d.links := rfl

@[simp] theorem Device.onPanel_mapper : (d.onPanel p f).mapper = d.mapper := rfl

@[simp] theorem Device.onPanel_judge : (d.onPanel p f).judge = d.judge := rfl

@[simp] theorem Device.onPanel_score : (d.onPanel p f).score = d.score := rfl

@[simp] theorem Device.onPanel_ring : (d.onPanel p f).ring = d.ring := rfl

@[simp] theorem Device.onPanel_lamps : (d.onPanel p f).lamps = d.lamps := rfl

@[simp] theorem Device.onPanel_ports : (d.onPanel p f).ports = d.ports := rfl

@[simp] theorem Device.onPanel_choices : (d.onPanel p f).choices = d.choices := rfl

@[simp] theorem Device.onPanel_decoder (z : Player) : (d.onPanel p f).decoder z = d.decoder z := rfl

@[simp] theorem Device.onPanel_link (z : Stage) : (d.onPanel p f).link z = d.link z := rfl

@[simp] theorem Device.onPanel_lane (z : LaneQueue) : (d.onPanel p f).lane z = d.lane z := rfl

@[simp] theorem Device.onPanel_record (z : Player) : (d.onPanel p f).record z = d.record z := rfl

@[simp] theorem Device.onPanel_port (z : Port) : (d.onPanel p f).port z = d.port z := rfl

@[simp] theorem Device.onPanel_tracker (z : Player) : (d.onPanel p f).tracker z = d.tracker z := rfl

@[simp] theorem Device.onPanel_playerState (z : Player) : (d.onPanel p f).playerState z = d.playerState z := rfl

@[simp] theorem Device.onPanel_owner (z : LaneQueue) : (d.onPanel p f).owner z = d.owner z := rfl

@[simp] theorem Device.onPanel_songRuns : (d.onPanel p f).songRuns = d.songRuns := rfl

@[simp] theorem Device.onPanel_feeds (z : Panel) : (d.onPanel p f).feeds z = d.feeds z := rfl

@[simp] theorem Device.onPanel_feeder (z : LaneQueue) : (d.onPanel p f).feeder z = d.feeder z := rfl

end

/-! ## `onLane` -/

section
variable (d : Device) (q : LaneQueue) (f : Lane → Lane)

@[simp] theorem Device.onLane_session : (d.onLane q f).session = d.session := rfl

@[simp] theorem Device.onLane_clock : (d.onLane q f).clock = d.clock := rfl

@[simp] theorem Device.onLane_decoders : (d.onLane q f).decoders = d.decoders := rfl

@[simp] theorem Device.onLane_links : (d.onLane q f).links = d.links := rfl

@[simp] theorem Device.onLane_press : (d.onLane q f).press = d.press := rfl

@[simp] theorem Device.onLane_mapper : (d.onLane q f).mapper = d.mapper := rfl

@[simp] theorem Device.onLane_score : (d.onLane q f).score = d.score := rfl

@[simp] theorem Device.onLane_ring : (d.onLane q f).ring = d.ring := rfl

@[simp] theorem Device.onLane_lamps : (d.onLane q f).lamps = d.lamps := rfl

@[simp] theorem Device.onLane_ports : (d.onLane q f).ports = d.ports := rfl

@[simp] theorem Device.onLane_choices : (d.onLane q f).choices = d.choices := rfl

@[simp] theorem Device.onLane_decoder (z : Player) : (d.onLane q f).decoder z = d.decoder z := rfl

@[simp] theorem Device.onLane_link (z : Stage) : (d.onLane q f).link z = d.link z := rfl

@[simp] theorem Device.onLane_panel (z : Panel) : (d.onLane q f).panel z = d.panel z := rfl

@[simp] theorem Device.onLane_record (z : Player) : (d.onLane q f).record z = d.record z := rfl

@[simp] theorem Device.onLane_port (z : Port) : (d.onLane q f).port z = d.port z := rfl

@[simp] theorem Device.onLane_tracker (z : Player) : (d.onLane q f).tracker z = d.tracker z := rfl

@[simp] theorem Device.onLane_playerState (z : Player) : (d.onLane q f).playerState z = d.playerState z := rfl

@[simp] theorem Device.onLane_owner (z : LaneQueue) : (d.onLane q f).owner z = d.owner z := rfl

@[simp] theorem Device.onLane_songRuns : (d.onLane q f).songRuns = d.songRuns := rfl

@[simp] theorem Device.onLane_feeds (z : Panel) : (d.onLane q f).feeds z = d.feeds z := rfl

@[simp] theorem Device.onLane_feeder (z : LaneQueue) : (d.onLane q f).feeder z = d.feeder z := rfl

end

/-! ## `onRecord` -/

section
variable (d : Device) (p : Player) (f : ScoreRecord → ScoreRecord)

@[simp] theorem Device.onRecord_session : (d.onRecord p f).session = d.session := rfl

@[simp] theorem Device.onRecord_clock : (d.onRecord p f).clock = d.clock := rfl

@[simp] theorem Device.onRecord_decoders : (d.onRecord p f).decoders = d.decoders := rfl

@[simp] theorem Device.onRecord_links : (d.onRecord p f).links = d.links := rfl

@[simp] theorem Device.onRecord_press : (d.onRecord p f).press = d.press := rfl

@[simp] theorem Device.onRecord_mapper : (d.onRecord p f).mapper = d.mapper := rfl

@[simp] theorem Device.onRecord_judge : (d.onRecord p f).judge = d.judge := rfl

@[simp] theorem Device.onRecord_ring : (d.onRecord p f).ring = d.ring := rfl

@[simp] theorem Device.onRecord_lamps : (d.onRecord p f).lamps = d.lamps := rfl

@[simp] theorem Device.onRecord_ports : (d.onRecord p f).ports = d.ports := rfl

@[simp] theorem Device.onRecord_choices : (d.onRecord p f).choices = d.choices := rfl

@[simp] theorem Device.onRecord_decoder (z : Player) : (d.onRecord p f).decoder z = d.decoder z := rfl

@[simp] theorem Device.onRecord_link (z : Stage) : (d.onRecord p f).link z = d.link z := rfl

@[simp] theorem Device.onRecord_panel (z : Panel) : (d.onRecord p f).panel z = d.panel z := rfl

@[simp] theorem Device.onRecord_lane (z : LaneQueue) : (d.onRecord p f).lane z = d.lane z := rfl

@[simp] theorem Device.onRecord_port (z : Port) : (d.onRecord p f).port z = d.port z := rfl

@[simp] theorem Device.onRecord_tracker (z : Player) : (d.onRecord p f).tracker z = d.tracker z := rfl

@[simp] theorem Device.onRecord_playerState (z : Player) : (d.onRecord p f).playerState z = d.playerState z := rfl

@[simp] theorem Device.onRecord_owner (z : LaneQueue) : (d.onRecord p f).owner z = d.owner z := rfl

@[simp] theorem Device.onRecord_songRuns : (d.onRecord p f).songRuns = d.songRuns := rfl

@[simp] theorem Device.onRecord_feeds (z : Panel) : (d.onRecord p f).feeds z = d.feeds z := rfl

@[simp] theorem Device.onRecord_feeder (z : LaneQueue) : (d.onRecord p f).feeder z = d.feeder z := rfl

end

/-! ## `onPort` -/

section
variable (d : Device) (i : Port) (f : PortState → PortState)

@[simp] theorem Device.onPort_session : (d.onPort i f).session = d.session := rfl

@[simp] theorem Device.onPort_clock : (d.onPort i f).clock = d.clock := rfl

@[simp] theorem Device.onPort_decoders : (d.onPort i f).decoders = d.decoders := rfl

@[simp] theorem Device.onPort_links : (d.onPort i f).links = d.links := rfl

@[simp] theorem Device.onPort_press : (d.onPort i f).press = d.press := rfl

@[simp] theorem Device.onPort_mapper : (d.onPort i f).mapper = d.mapper := rfl

@[simp] theorem Device.onPort_judge : (d.onPort i f).judge = d.judge := rfl

@[simp] theorem Device.onPort_score : (d.onPort i f).score = d.score := rfl

@[simp] theorem Device.onPort_ring : (d.onPort i f).ring = d.ring := rfl

@[simp] theorem Device.onPort_lamps : (d.onPort i f).lamps = d.lamps := rfl

@[simp] theorem Device.onPort_choices : (d.onPort i f).choices = d.choices := rfl

@[simp] theorem Device.onPort_decoder (z : Player) : (d.onPort i f).decoder z = d.decoder z := rfl

@[simp] theorem Device.onPort_link (z : Stage) : (d.onPort i f).link z = d.link z := rfl

@[simp] theorem Device.onPort_panel (z : Panel) : (d.onPort i f).panel z = d.panel z := rfl

@[simp] theorem Device.onPort_lane (z : LaneQueue) : (d.onPort i f).lane z = d.lane z := rfl

@[simp] theorem Device.onPort_record (z : Player) : (d.onPort i f).record z = d.record z := rfl

@[simp] theorem Device.onPort_tracker (z : Player) : (d.onPort i f).tracker z = d.tracker z := rfl

@[simp] theorem Device.onPort_playerState (z : Player) : (d.onPort i f).playerState z = d.playerState z := rfl

@[simp] theorem Device.onPort_owner (z : LaneQueue) : (d.onPort i f).owner z = d.owner z := rfl

@[simp] theorem Device.onPort_songRuns : (d.onPort i f).songRuns = d.songRuns := rfl

@[simp] theorem Device.onPort_feeds (z : Panel) : (d.onPort i f).feeds z = d.feeds z := rfl

@[simp] theorem Device.onPort_feeder (z : LaneQueue) : (d.onPort i f).feeder z = d.feeder z := rfl

end

/-! ## `onTracker` -/

section
variable (d : Device) (p : Player) (f : Tracker → Tracker)

@[simp] theorem Device.onTracker_session : (d.onTracker p f).session = d.session := rfl

@[simp] theorem Device.onTracker_decoders : (d.onTracker p f).decoders = d.decoders := rfl

@[simp] theorem Device.onTracker_links : (d.onTracker p f).links = d.links := rfl

@[simp] theorem Device.onTracker_press : (d.onTracker p f).press = d.press := rfl

@[simp] theorem Device.onTracker_mapper : (d.onTracker p f).mapper = d.mapper := rfl

@[simp] theorem Device.onTracker_judge : (d.onTracker p f).judge = d.judge := rfl

@[simp] theorem Device.onTracker_score : (d.onTracker p f).score = d.score := rfl

@[simp] theorem Device.onTracker_ring : (d.onTracker p f).ring = d.ring := rfl

@[simp] theorem Device.onTracker_lamps : (d.onTracker p f).lamps = d.lamps := rfl

@[simp] theorem Device.onTracker_ports : (d.onTracker p f).ports = d.ports := rfl

@[simp] theorem Device.onTracker_choices : (d.onTracker p f).choices = d.choices := rfl

@[simp] theorem Device.onTracker_decoder (z : Player) : (d.onTracker p f).decoder z = d.decoder z := rfl

@[simp] theorem Device.onTracker_link (z : Stage) : (d.onTracker p f).link z = d.link z := rfl

@[simp] theorem Device.onTracker_panel (z : Panel) : (d.onTracker p f).panel z = d.panel z := rfl

@[simp] theorem Device.onTracker_lane (z : LaneQueue) : (d.onTracker p f).lane z = d.lane z := rfl

@[simp] theorem Device.onTracker_record (z : Player) : (d.onTracker p f).record z = d.record z := rfl

@[simp] theorem Device.onTracker_port (z : Port) : (d.onTracker p f).port z = d.port z := rfl

@[simp] theorem Device.onTracker_playerState (z : Player) : (d.onTracker p f).playerState z = d.playerState z := rfl

@[simp] theorem Device.onTracker_owner (z : LaneQueue) : (d.onTracker p f).owner z = d.owner z := rfl

@[simp] theorem Device.onTracker_songRuns : (d.onTracker p f).songRuns = d.songRuns := rfl

@[simp] theorem Device.onTracker_feeds (z : Panel) : (d.onTracker p f).feeds z = d.feeds z := rfl

@[simp] theorem Device.onTracker_feeder (z : LaneQueue) : (d.onTracker p f).feeder z = d.feeder z := rfl

end

/-! ## `setPlayer` -/

section
variable (d : Device) (p : Player) (x : PlayerState)

@[simp] theorem Device.setPlayer_clock : (d.setPlayer p x).clock = d.clock := rfl

@[simp] theorem Device.setPlayer_decoders : (d.setPlayer p x).decoders = d.decoders := rfl

@[simp] theorem Device.setPlayer_links : (d.setPlayer p x).links = d.links := rfl

@[simp] theorem Device.setPlayer_press : (d.setPlayer p x).press = d.press := rfl

@[simp] theorem Device.setPlayer_mapper : (d.setPlayer p x).mapper = d.mapper := rfl

@[simp] theorem Device.setPlayer_judge : (d.setPlayer p x).judge = d.judge := rfl

@[simp] theorem Device.setPlayer_score : (d.setPlayer p x).score = d.score := rfl

@[simp] theorem Device.setPlayer_ring : (d.setPlayer p x).ring = d.ring := rfl

@[simp] theorem Device.setPlayer_lamps : (d.setPlayer p x).lamps = d.lamps := rfl

@[simp] theorem Device.setPlayer_ports : (d.setPlayer p x).ports = d.ports := rfl

@[simp] theorem Device.setPlayer_choices : (d.setPlayer p x).choices = d.choices := rfl

@[simp] theorem Device.setPlayer_decoder (z : Player) : (d.setPlayer p x).decoder z = d.decoder z := rfl

@[simp] theorem Device.setPlayer_link (z : Stage) : (d.setPlayer p x).link z = d.link z := rfl

@[simp] theorem Device.setPlayer_panel (z : Panel) : (d.setPlayer p x).panel z = d.panel z := rfl

@[simp] theorem Device.setPlayer_lane (z : LaneQueue) : (d.setPlayer p x).lane z = d.lane z := rfl

@[simp] theorem Device.setPlayer_record (z : Player) : (d.setPlayer p x).record z = d.record z := rfl

@[simp] theorem Device.setPlayer_port (z : Port) : (d.setPlayer p x).port z = d.port z := rfl

@[simp] theorem Device.setPlayer_tracker (z : Player) : (d.setPlayer p x).tracker z = d.tracker z := rfl

@[simp] theorem Device.setPlayer_feeds (z : Panel) : (d.setPlayer p x).feeds z = d.feeds z := rfl

@[simp] theorem Device.setPlayer_feeder (z : LaneQueue) : (d.setPlayer p x).feeder z = d.feeder z := rfl

end

/-! ## `countChoice` -/

section
variable (d : Device)

@[simp] theorem Device.countChoice_session : (d.countChoice).session = d.session := rfl

@[simp] theorem Device.countChoice_clock : (d.countChoice).clock = d.clock := rfl

@[simp] theorem Device.countChoice_decoders : (d.countChoice).decoders = d.decoders := rfl

@[simp] theorem Device.countChoice_links : (d.countChoice).links = d.links := rfl

@[simp] theorem Device.countChoice_press : (d.countChoice).press = d.press := rfl

@[simp] theorem Device.countChoice_mapper : (d.countChoice).mapper = d.mapper := rfl

@[simp] theorem Device.countChoice_judge : (d.countChoice).judge = d.judge := rfl

@[simp] theorem Device.countChoice_score : (d.countChoice).score = d.score := rfl

@[simp] theorem Device.countChoice_ring : (d.countChoice).ring = d.ring := rfl

@[simp] theorem Device.countChoice_lamps : (d.countChoice).lamps = d.lamps := rfl

@[simp] theorem Device.countChoice_ports : (d.countChoice).ports = d.ports := rfl

@[simp] theorem Device.countChoice_decoder (z : Player) : (d.countChoice).decoder z = d.decoder z := rfl

@[simp] theorem Device.countChoice_link (z : Stage) : (d.countChoice).link z = d.link z := rfl

@[simp] theorem Device.countChoice_panel (z : Panel) : (d.countChoice).panel z = d.panel z := rfl

@[simp] theorem Device.countChoice_lane (z : LaneQueue) : (d.countChoice).lane z = d.lane z := rfl

@[simp] theorem Device.countChoice_record (z : Player) : (d.countChoice).record z = d.record z := rfl

@[simp] theorem Device.countChoice_port (z : Port) : (d.countChoice).port z = d.port z := rfl

@[simp] theorem Device.countChoice_tracker (z : Player) : (d.countChoice).tracker z = d.tracker z := rfl

@[simp] theorem Device.countChoice_playerState (z : Player) : (d.countChoice).playerState z = d.playerState z := rfl

@[simp] theorem Device.countChoice_owner (z : LaneQueue) : (d.countChoice).owner z = d.owner z := rfl

@[simp] theorem Device.countChoice_songRuns : (d.countChoice).songRuns = d.songRuns := rfl

@[simp] theorem Device.countChoice_feeds (z : Panel) : (d.countChoice).feeds z = d.feeds z := rfl

@[simp] theorem Device.countChoice_feeder (z : LaneQueue) : (d.countChoice).feeder z = d.feeder z := rfl

end

/-! ## `raiseAt` -/

section
variable (d : Device) (i : Port) (k : BitVec 16)

@[simp] theorem Device.raiseAt_session : (d.raiseAt i k).session = d.session := rfl

@[simp] theorem Device.raiseAt_clock : (d.raiseAt i k).clock = d.clock := rfl

@[simp] theorem Device.raiseAt_decoders : (d.raiseAt i k).decoders = d.decoders := rfl

@[simp] theorem Device.raiseAt_links : (d.raiseAt i k).links = d.links := rfl

@[simp] theorem Device.raiseAt_press : (d.raiseAt i k).press = d.press := rfl

@[simp] theorem Device.raiseAt_mapper : (d.raiseAt i k).mapper = d.mapper := rfl

@[simp] theorem Device.raiseAt_judge : (d.raiseAt i k).judge = d.judge := rfl

@[simp] theorem Device.raiseAt_score : (d.raiseAt i k).score = d.score := rfl

@[simp] theorem Device.raiseAt_ring : (d.raiseAt i k).ring = d.ring := rfl

@[simp] theorem Device.raiseAt_lamps : (d.raiseAt i k).lamps = d.lamps := rfl

@[simp] theorem Device.raiseAt_choices : (d.raiseAt i k).choices = d.choices := rfl

@[simp] theorem Device.raiseAt_decoder (z : Player) : (d.raiseAt i k).decoder z = d.decoder z := rfl

@[simp] theorem Device.raiseAt_link (z : Stage) : (d.raiseAt i k).link z = d.link z := rfl

@[simp] theorem Device.raiseAt_panel (z : Panel) : (d.raiseAt i k).panel z = d.panel z := rfl

@[simp] theorem Device.raiseAt_lane (z : LaneQueue) : (d.raiseAt i k).lane z = d.lane z := rfl

@[simp] theorem Device.raiseAt_record (z : Player) : (d.raiseAt i k).record z = d.record z := rfl

@[simp] theorem Device.raiseAt_tracker (z : Player) : (d.raiseAt i k).tracker z = d.tracker z := rfl

@[simp] theorem Device.raiseAt_playerState (z : Player) : (d.raiseAt i k).playerState z = d.playerState z := rfl

@[simp] theorem Device.raiseAt_owner (z : LaneQueue) : (d.raiseAt i k).owner z = d.owner z := rfl

@[simp] theorem Device.raiseAt_songRuns : (d.raiseAt i k).songRuns = d.songRuns := rfl

@[simp] theorem Device.raiseAt_feeds (z : Panel) : (d.raiseAt i k).feeds z = d.feeds z := rfl

@[simp] theorem Device.raiseAt_feeder (z : LaneQueue) : (d.raiseAt i k).feeder z = d.feeder z := rfl

end

/-! ## `raise` -/

section
variable (d : Device) (k : Notice)

@[simp] theorem Device.raise_session : (d.raise k).session = d.session := rfl

@[simp] theorem Device.raise_clock : (d.raise k).clock = d.clock := rfl

@[simp] theorem Device.raise_decoders : (d.raise k).decoders = d.decoders := rfl

@[simp] theorem Device.raise_links : (d.raise k).links = d.links := rfl

@[simp] theorem Device.raise_press : (d.raise k).press = d.press := rfl

@[simp] theorem Device.raise_mapper : (d.raise k).mapper = d.mapper := rfl

@[simp] theorem Device.raise_judge : (d.raise k).judge = d.judge := rfl

@[simp] theorem Device.raise_score : (d.raise k).score = d.score := rfl

@[simp] theorem Device.raise_ring : (d.raise k).ring = d.ring := rfl

@[simp] theorem Device.raise_lamps : (d.raise k).lamps = d.lamps := rfl

@[simp] theorem Device.raise_choices : (d.raise k).choices = d.choices := rfl

@[simp] theorem Device.raise_decoder (z : Player) : (d.raise k).decoder z = d.decoder z := rfl

@[simp] theorem Device.raise_link (z : Stage) : (d.raise k).link z = d.link z := rfl

@[simp] theorem Device.raise_panel (z : Panel) : (d.raise k).panel z = d.panel z := rfl

@[simp] theorem Device.raise_lane (z : LaneQueue) : (d.raise k).lane z = d.lane z := rfl

@[simp] theorem Device.raise_record (z : Player) : (d.raise k).record z = d.record z := rfl

@[simp] theorem Device.raise_tracker (z : Player) : (d.raise k).tracker z = d.tracker z := rfl

@[simp] theorem Device.raise_playerState (z : Player) : (d.raise k).playerState z = d.playerState z := rfl

@[simp] theorem Device.raise_owner (z : LaneQueue) : (d.raise k).owner z = d.owner z := rfl

@[simp] theorem Device.raise_songRuns : (d.raise k).songRuns = d.songRuns := rfl

@[simp] theorem Device.raise_feeds (z : Panel) : (d.raise k).feeds z = d.feeds z := rfl

@[simp] theorem Device.raise_feeder (z : LaneQueue) : (d.raise k).feeder z = d.feeder z := rfl

end

/-! ## `setResult` -/

section
variable (d : Device) (i : Port) (channel : BitVec 6) (code : ResultCode) (n : Nat)

@[simp] theorem Device.setResult_session : (d.setResult i channel code n).session = d.session := rfl

@[simp] theorem Device.setResult_clock : (d.setResult i channel code n).clock = d.clock := rfl

@[simp] theorem Device.setResult_decoders : (d.setResult i channel code n).decoders = d.decoders := rfl

@[simp] theorem Device.setResult_links : (d.setResult i channel code n).links = d.links := rfl

@[simp] theorem Device.setResult_press : (d.setResult i channel code n).press = d.press := rfl

@[simp] theorem Device.setResult_mapper : (d.setResult i channel code n).mapper = d.mapper := rfl

@[simp] theorem Device.setResult_judge : (d.setResult i channel code n).judge = d.judge := rfl

@[simp] theorem Device.setResult_score : (d.setResult i channel code n).score = d.score := rfl

@[simp] theorem Device.setResult_ring : (d.setResult i channel code n).ring = d.ring := rfl

@[simp] theorem Device.setResult_lamps : (d.setResult i channel code n).lamps = d.lamps := rfl

@[simp] theorem Device.setResult_choices : (d.setResult i channel code n).choices = d.choices := rfl

@[simp] theorem Device.setResult_decoder (z : Player) : (d.setResult i channel code n).decoder z = d.decoder z := rfl

@[simp] theorem Device.setResult_link (z : Stage) : (d.setResult i channel code n).link z = d.link z := rfl

@[simp] theorem Device.setResult_panel (z : Panel) : (d.setResult i channel code n).panel z = d.panel z := rfl

@[simp] theorem Device.setResult_lane (z : LaneQueue) : (d.setResult i channel code n).lane z = d.lane z := rfl

@[simp] theorem Device.setResult_record (z : Player) : (d.setResult i channel code n).record z = d.record z := rfl

@[simp] theorem Device.setResult_tracker (z : Player) : (d.setResult i channel code n).tracker z = d.tracker z := rfl

@[simp] theorem Device.setResult_playerState (z : Player) : (d.setResult i channel code n).playerState z = d.playerState z := rfl

@[simp] theorem Device.setResult_owner (z : LaneQueue) : (d.setResult i channel code n).owner z = d.owner z := rfl

@[simp] theorem Device.setResult_songRuns : (d.setResult i channel code n).songRuns = d.songRuns := rfl

@[simp] theorem Device.setResult_feeds (z : Panel) : (d.setResult i channel code n).feeds z = d.feeds z := rfl

@[simp] theorem Device.setResult_feeder (z : LaneQueue) : (d.setResult i channel code n).feeder z = d.feeder z := rfl

end

/-! ## `appendRecord` -/

section
variable (d : Device) (x : Record)

@[simp] theorem Device.appendRecord_session : (d.appendRecord x).session = d.session := rfl

@[simp] theorem Device.appendRecord_clock : (d.appendRecord x).clock = d.clock := rfl

@[simp] theorem Device.appendRecord_decoders : (d.appendRecord x).decoders = d.decoders := rfl

@[simp] theorem Device.appendRecord_links : (d.appendRecord x).links = d.links := rfl

@[simp] theorem Device.appendRecord_press : (d.appendRecord x).press = d.press := rfl

@[simp] theorem Device.appendRecord_mapper : (d.appendRecord x).mapper = d.mapper := rfl

@[simp] theorem Device.appendRecord_judge : (d.appendRecord x).judge = d.judge := rfl

@[simp] theorem Device.appendRecord_score : (d.appendRecord x).score = d.score := rfl

@[simp] theorem Device.appendRecord_lamps : (d.appendRecord x).lamps = d.lamps := rfl

@[simp] theorem Device.appendRecord_choices : (d.appendRecord x).choices = d.choices := rfl

@[simp] theorem Device.appendRecord_decoder (z : Player) : (d.appendRecord x).decoder z = d.decoder z := rfl

@[simp] theorem Device.appendRecord_link (z : Stage) : (d.appendRecord x).link z = d.link z := rfl

@[simp] theorem Device.appendRecord_panel (z : Panel) : (d.appendRecord x).panel z = d.panel z := rfl

@[simp] theorem Device.appendRecord_lane (z : LaneQueue) : (d.appendRecord x).lane z = d.lane z := rfl

@[simp] theorem Device.appendRecord_record (z : Player) : (d.appendRecord x).record z = d.record z := rfl

@[simp] theorem Device.appendRecord_tracker (z : Player) : (d.appendRecord x).tracker z = d.tracker z := rfl

@[simp] theorem Device.appendRecord_playerState (z : Player) : (d.appendRecord x).playerState z = d.playerState z := rfl

@[simp] theorem Device.appendRecord_owner (z : LaneQueue) : (d.appendRecord x).owner z = d.owner z := rfl

@[simp] theorem Device.appendRecord_songRuns : (d.appendRecord x).songRuns = d.songRuns := rfl

@[simp] theorem Device.appendRecord_feeds (z : Panel) : (d.appendRecord x).feeds z = d.feeds z := rfl

@[simp] theorem Device.appendRecord_feeder (z : LaneQueue) : (d.appendRecord x).feeder z = d.feeder z := rfl

end

/-! ## `mark` -/

section
variable (d : Device) (k : MarkKind) (p : Player)

@[simp] theorem Device.mark_session : (d.mark k p).session = d.session := rfl

@[simp] theorem Device.mark_clock : (d.mark k p).clock = d.clock := rfl

@[simp] theorem Device.mark_decoders : (d.mark k p).decoders = d.decoders := rfl

@[simp] theorem Device.mark_links : (d.mark k p).links = d.links := rfl

@[simp] theorem Device.mark_press : (d.mark k p).press = d.press := rfl

@[simp] theorem Device.mark_mapper : (d.mark k p).mapper = d.mapper := rfl

@[simp] theorem Device.mark_judge : (d.mark k p).judge = d.judge := rfl

@[simp] theorem Device.mark_score : (d.mark k p).score = d.score := rfl

@[simp] theorem Device.mark_lamps : (d.mark k p).lamps = d.lamps := rfl

@[simp] theorem Device.mark_choices : (d.mark k p).choices = d.choices := rfl

end

/-! ## `removeNote` -/

section
variable (d : Device) (q : LaneQueue) (n : Note)

@[simp] theorem Device.removeNote_session : (d.removeNote q n).session = d.session := rfl

@[simp] theorem Device.removeNote_clock : (d.removeNote q n).clock = d.clock := rfl

@[simp] theorem Device.removeNote_decoders : (d.removeNote q n).decoders = d.decoders := rfl

@[simp] theorem Device.removeNote_links : (d.removeNote q n).links = d.links := rfl

@[simp] theorem Device.removeNote_press : (d.removeNote q n).press = d.press := rfl

@[simp] theorem Device.removeNote_mapper : (d.removeNote q n).mapper = d.mapper := rfl

@[simp] theorem Device.removeNote_score : (d.removeNote q n).score = d.score := rfl

@[simp] theorem Device.removeNote_ring : (d.removeNote q n).ring = d.ring := rfl

@[simp] theorem Device.removeNote_lamps : (d.removeNote q n).lamps = d.lamps := rfl

@[simp] theorem Device.removeNote_ports : (d.removeNote q n).ports = d.ports := rfl

@[simp] theorem Device.removeNote_choices : (d.removeNote q n).choices = d.choices := rfl

@[simp] theorem Device.removeNote_decoder (z : Player) : (d.removeNote q n).decoder z = d.decoder z := rfl

@[simp] theorem Device.removeNote_link (z : Stage) : (d.removeNote q n).link z = d.link z := rfl

@[simp] theorem Device.removeNote_panel (z : Panel) : (d.removeNote q n).panel z = d.panel z := rfl

@[simp] theorem Device.removeNote_record (z : Player) : (d.removeNote q n).record z = d.record z := rfl

@[simp] theorem Device.removeNote_port (z : Port) : (d.removeNote q n).port z = d.port z := rfl

@[simp] theorem Device.removeNote_tracker (z : Player) : (d.removeNote q n).tracker z = d.tracker z := rfl

@[simp] theorem Device.removeNote_playerState (z : Player) : (d.removeNote q n).playerState z = d.playerState z := rfl

@[simp] theorem Device.removeNote_owner (z : LaneQueue) : (d.removeNote q n).owner z = d.owner z := rfl

@[simp] theorem Device.removeNote_songRuns : (d.removeNote q n).songRuns = d.songRuns := rfl

@[simp] theorem Device.removeNote_feeds (z : Panel) : (d.removeNote q n).feeds z = d.feeds z := rfl

@[simp] theorem Device.removeNote_feeder (z : LaneQueue) : (d.removeNote q n).feeder z = d.feeder z := rfl

end

/-! ## `setHold` -/

section
variable (d : Device) (q : LaneQueue) (h : HoldState)

@[simp] theorem Device.setHold_session : (d.setHold q h).session = d.session := rfl

@[simp] theorem Device.setHold_clock : (d.setHold q h).clock = d.clock := rfl

@[simp] theorem Device.setHold_decoders : (d.setHold q h).decoders = d.decoders := rfl

@[simp] theorem Device.setHold_links : (d.setHold q h).links = d.links := rfl

@[simp] theorem Device.setHold_press : (d.setHold q h).press = d.press := rfl

@[simp] theorem Device.setHold_mapper : (d.setHold q h).mapper = d.mapper := rfl

@[simp] theorem Device.setHold_score : (d.setHold q h).score = d.score := rfl

@[simp] theorem Device.setHold_ring : (d.setHold q h).ring = d.ring := rfl

@[simp] theorem Device.setHold_lamps : (d.setHold q h).lamps = d.lamps := rfl

@[simp] theorem Device.setHold_ports : (d.setHold q h).ports = d.ports := rfl

@[simp] theorem Device.setHold_choices : (d.setHold q h).choices = d.choices := rfl

@[simp] theorem Device.setHold_decoder (z : Player) : (d.setHold q h).decoder z = d.decoder z := rfl

@[simp] theorem Device.setHold_link (z : Stage) : (d.setHold q h).link z = d.link z := rfl

@[simp] theorem Device.setHold_panel (z : Panel) : (d.setHold q h).panel z = d.panel z := rfl

@[simp] theorem Device.setHold_record (z : Player) : (d.setHold q h).record z = d.record z := rfl

@[simp] theorem Device.setHold_port (z : Port) : (d.setHold q h).port z = d.port z := rfl

@[simp] theorem Device.setHold_tracker (z : Player) : (d.setHold q h).tracker z = d.tracker z := rfl

@[simp] theorem Device.setHold_playerState (z : Player) : (d.setHold q h).playerState z = d.playerState z := rfl

@[simp] theorem Device.setHold_owner (z : LaneQueue) : (d.setHold q h).owner z = d.owner z := rfl

@[simp] theorem Device.setHold_songRuns : (d.setHold q h).songRuns = d.songRuns := rfl

@[simp] theorem Device.setHold_feeds (z : Panel) : (d.setHold q h).feeds z = d.feeds z := rfl

@[simp] theorem Device.setHold_feeder (z : LaneQueue) : (d.setHold q h).feeder z = d.feeder z := rfl

end

/-! ## Reading back what an update has written -/

section
variable (d : Device)

@[simp] theorem Device.decoder_onDecoder (p q : Player) (f : Decoder → Decoder) :
    (d.onDecoder p f).decoder q = if q = p then f (d.decoder p) else d.decoder q := by
  simp [Device.decoder, Device.onDecoder]

@[simp] theorem Device.link_onLink (l m : Stage) (f : Link → Link) :
    (d.onLink l f).link m = if m = l then f (d.link l) else d.link m := by
  simp [Device.link, Device.onLink]

@[simp] theorem Device.panel_onPanel (p q : Panel) (f : PanelPress → PanelPress) :
    (d.onPanel p f).panel q = if q = p then f (d.panel q) else d.panel q := vecModify_get ..

@[simp] theorem Device.stuckLimit_onPanel (p : Panel) (f : PanelPress → PanelPress) :
    (d.onPanel p f).press.stuckLimit = d.press.stuckLimit := rfl

@[simp] theorem Device.lane_onLane (q r : LaneQueue) (f : Lane → Lane) :
    (d.onLane q f).lane r = if r = q then f (d.lane r) else d.lane r := vecModify_get ..

@[simp] theorem Device.windows_onLane (q : LaneQueue) (f : Lane → Lane) :
    (d.onLane q f).judge.windows = d.judge.windows := rfl

@[simp] theorem Device.avoid_onLane (q : LaneQueue) (f : Lane → Lane) :
    (d.onLane q f).judge.avoid = d.judge.avoid := rfl

@[simp] theorem Device.holdGrace_onLane (q : LaneQueue) (f : Lane → Lane) :
    (d.onLane q f).judge.holdGrace = d.judge.holdGrace := rfl

@[simp] theorem Device.record_onRecord (p q : Player) (f : ScoreRecord → ScoreRecord) :
    (d.onRecord p f).record q = if q = p then f (d.record p) else d.record q := by
  simp [Device.record, Device.onRecord]

@[simp] theorem Device.port_onPort (i j : Port) (f : PortState → PortState) :
    (d.onPort i f).port j = if j = i then f (d.port j) else d.port j := vecModify_get ..

@[simp] theorem Device.tracker_onTracker (p q : Player) (f : Tracker → Tracker) :
    (d.onTracker p f).tracker q = if q = p then f (d.tracker p) else d.tracker q := by
  simp [Device.tracker, Device.onTracker]

@[simp] theorem Device.playerState_setPlayer (p q : Player) (x : PlayerState) :
    (d.setPlayer p x).playerState q = if q = p then x else d.playerState q := by
  simp [Device.playerState, Device.setPlayer]

@[simp] theorem Device.sessionState_setPlayer (p : Player) (x : PlayerState) :
    (d.setPlayer p x).session.state = d.session.state := rfl

@[simp] theorem Device.style_setPlayer (p : Player) (x : PlayerState) :
    (d.setPlayer p x).session.style = d.session.style := rfl

@[simp] theorem Device.failPolicy_setPlayer (p : Player) (x : PlayerState) :
    (d.setPlayer p x).session.failPolicy = d.session.failPolicy := rfl

@[simp] theorem Device.choices_countChoice : d.countChoice.choices = d.choices + 1 := rfl

@[simp] theorem Device.port_raise (k : Notice) (i : Port) :
    (d.raise k).port i = { d.port i with notices := (d.port i).notices ||| k.mask } := vecMap_get ..

@[simp] theorem Device.port_raiseAt (i j : Port) (k : BitVec 16) :
    (d.raiseAt i k).port j
      = if j = i then { d.port j with notices := (d.port j).notices ||| k } else d.port j := vecModify_get ..

@[simp] theorem Device.port_setResult (i j : Port) (channel : BitVec 6) (code : ResultCode) (n : Nat) :
    (d.setResult i channel code n).port j
      = if j = i then { d.port j with result := ⟨channel, code, countField n⟩ } else d.port j := vecModify_get ..

@[simp] theorem Device.ring_appendRecord (x : Record) : (d.appendRecord x).ring = d.ring.append x := rfl

@[simp] theorem Device.port_appendRecord (x : Record) (i : Port) :
    (d.appendRecord x).port i
      = { d.port i with notices := (d.port i).notices ||| d.ring.appendNotices i } := by
  simp [Device.appendRecord, Device.port]

@[simp] theorem Device.lane_removeNote (q r : LaneQueue) (n : Note) :
    (d.removeNote q n).lane r
      = if r = q then { d.lane r with queue := (d.lane r).queue.erase n } else d.lane r := vecModify_get ..

@[simp] theorem Device.lane_setHold (q r : LaneQueue) (h : HoldState) :
    (d.setHold q h).lane r = if r = q then { d.lane r with hold := h } else d.lane r := vecModify_get ..

end

end Sys2Proof.Machine
end

