-- ==== Sys2Proof/Laws/Ops.lean ====
section
/-!
SUPPORT. One lemma for each shared operation of the ports, the fault sets, the ring and the session controller, saying
all it can do.
-/
namespace Sys2Proof.Machine
open Sys2Proof.Safety

/-! ## Pairs and vectors set to what they hold -/

@[simp] theorem PerPlayer.set_get {α : Type} (v : PerPlayer α) (p : Player) : v.set p (v.get p) = v := by
  cases p <;> rfl

theorem Device.onPort_id (d : Device) (i : Port) (f : PortState → PortState) (h : f (d.port i) = d.port i) :
    d.onPort i f = d := by
  have e : vecModify d.ports i f = d.ports := by
    ext j hj
    have hv := vecModify_get d.ports i ⟨j, hj⟩ f
    simp only [Fin.getElem_fin] at hv
    rw [hv]
    split
    · rename_i hji
      subst hji
      exact h
    · rfl
  simp only [Device.onPort, e]

/-! ## Transactions and commands -/

/-- The rise of SEL_N on a port with no transaction in progress does nothing. -/
theorem Device.rise_none (d : Device) (i : Port) (h : (d.port i).transaction = none) : d.rise i = d := by
  simp only [Device.rise, h]
  exact d.onPort_id i _ (by rw [← h])

/-- The rise of SEL_N before the header has no effect but the end of the transaction (12 R167). -/
theorem Device.rise_selected (d : Device) (i : Port) (status : Byte)
    (h : (d.port i).transaction = some (.selected status)) :
    d.rise i = d.onPort i fun p => { p with transaction := none } := by
  simp only [Device.rise, h]

/-- The rise of SEL_N of a write takes it, on a port with no transaction in progress (12 R170). -/
theorem Device.rise_write (d : Device) (i : Port) (channel : ChannelField) (data : List Byte)
    (h : (d.port i).transaction = some (.write channel data)) :
    d.rise i = (d.onPort i fun p => { p with transaction := none }).writeTaken i channel data := by
  simp only [Device.rise, h]

/-- What a read leaves at the rise of SEL_N is at most its result (12 R169). -/
theorem Device.readTaken_only (d : Device) (i : Port) (channel : ChannelField) :
    OnlyResult d (d.readTaken i channel) i := by
  have self : OnlyResult d d i := ⟨rfl, fun _ _ => rfl, rfl⟩
  have result : ∀ channel code n, OnlyResult d (d.setResult i channel code n) i := fun channel code n => by
    refine ⟨rfl, ?_, ?_⟩ <;> simp +contextual
  unfold Device.readTaken
  split
  · split
    · exact result ..
    · exact self
  · exact result ..

/-- The rights table read in both ways (12 R172). -/
theorem mem_rightsOf (r : Role) (c : Command) : c ∈ rightsOf r ↔ roleMay r c = true := by
  cases r <;> cases c <;> decide

/-- A command that passes the port checks is handed to its block, and the answer goes into the result record (12
R171). -/
theorem Device.command_sendable (d : Device) (i : Port) (c : Command) (fields : List Byte) (h : Sendable d i c fields) :
    d.command i c fields = leaveResult i c (fields.length + 1) (handCommand i c fields d) := by
  obtain ⟨h₁, h₂, h₃⟩ := h
  simp [Device.command, Device.commandTaken, rise_none d i h₁, portRefusal, (mem_rightsOf _ _).1 h₂, h₃]

/-- A command that its role has no right to, or of a wrong length, leaves the refusal in its port's record and does
nothing else (12 R171). -/
theorem Device.command_refused (d : Device) (i : Port) (c : Command) (fields : List Byte) (code : ResultCode)
    (h₁ : (d.port i).transaction = none) (h₂ : portRefusal (d.port i).role c fields = some code) :
    d.command i c fields = d.setResult i 0x01 code (fields.length + 1) := by
  simp [Device.command, Device.commandTaken, rise_none d i h₁, h₂]

theorem countField_small (n : Nat) (h : n ≤ 65535) : countField n = BitVec.ofNat 16 n := by simp [countField, h]

theorem Device.setResult_only (d : Device) (i : Port) (channel : BitVec 6) (code : ResultCode) (n : Nat) :
    OnlyResult d (d.setResult i channel code n) i := by
  refine ⟨rfl, ?_, ?_⟩ <;> simp +contextual

theorem Device.setResult_answered (d : Device) (i : Port) (code : ResultCode) (n : Nat) (h : n ≤ 65535) :
    Answered (d.setResult i 0x01 code n) i code n := by
  simp [Answered, countField_small n h]

theorem Device.setResult_ports (d e : Device) (i : Port) (code : ResultCode) (n : Nat) (he : e.ports = d.ports)
    (h : n ≤ 65535) : PortsAnswered d (e.setResult i 0x01 code n) i code n := by
  have hp : ∀ j : Port, e.port j = d.port j := fun j => by simp [Device.port, he]
  refine ⟨?_, ?_⟩ <;> simp +contextual [hp, countField_small n h]

/-! ## Chart faults -/

/-- A fault kind joins the set, with CHART_FAULT where it was not in it (04 R66). -/
theorem Device.addFault_cases (d : Device) (p : Player) (k : FaultKind) :
    ((d.decoder p).faults.getLsbD k.bit = true ∧ d.addFault p k = d)
      ∨ ((d.decoder p).faults.getLsbD k.bit = false
        ∧ d.addFault p k = (d.onDecoder p fun c => { c with faults := c.faults ||| k.mask }).raise .chartFault) := by
  unfold Device.addFault
  cases h : (d.decoder p).faults.getLsbD k.bit
  · exact .inr ⟨rfl, if_neg (by simp)⟩
  · exact .inl ⟨rfl, if_pos rfl⟩

/-- A kind that is in a set already adds nothing to it. -/
theorem FaultKind.or_mask (faults : BitVec 13) (k : FaultKind) (h : faults.getLsbD k.bit = true) :
    faults ||| k.mask = faults := by
  ext j hj
  simp only [FaultKind.mask, BitVec.getElem_or, BitVec.getElem_twoPow, Bool.or_eq_left_iff_imp, decide_eq_true_eq]
  rintro rfl
  simpa [BitVec.getLsbD_eq_getElem hj] using h

/-- A fault changes its player's fault set and nothing else of any decoder (04 R66). -/
@[simp] theorem Device.decoder_addFault (d : Device) (p q : Player) (k : FaultKind) :
    (d.addFault p k).decoder q
      = if q = p then { d.decoder p with faults := (d.decoder p).faults ||| k.mask } else d.decoder q := by
  rcases d.addFault_cases p k with ⟨h, e⟩ | ⟨-, e⟩ <;> rw [e]
  · split
    · rename_i hq
      rw [hq, k.or_mask _ h]
    · rfl
  · simp

/-! ## The ring -/

/-- A full ring loses its oldest record to an append (10 R150). -/
theorem Ring.append_cases (r : Ring) (x : Record) :
    (r.records.length < ringCapacity ∧ (r.append x).records = r.records ++ [r.numbered x])
      ∨ (ringCapacity ≤ r.records.length
        ∧ (r.append x).records = r.records.tail ++ [r.numbered x]) := by
  unfold Ring.append Ring.kept
  by_cases h : r.records.length < ringCapacity
  · exact .inl ⟨h, by simp [h]⟩
  · exact .inr ⟨Nat.le_of_not_lt h, by simp [h]⟩

@[simp] theorem Ring.append_seq (r : Ring) (x : Record) : (r.append x).seq = r.seq + 1 := rfl

@[simp] theorem Ring.append_lap (r : Ring) (x : Record) : (r.append x).lap = r.nextLap := rfl

@[simp] theorem Ring.numbered_seq (r : Ring) (x : Record) : (r.numbered x).seq = r.seq := rfl

@[simp] theorem Ring.numbered_lap (r : Ring) (x : Record) : (r.numbered x).lap = r.lap := rfl

/-- The lap and the counter together count the appends one by one (10 R150). -/
theorem Ring.append_count (r : Ring) (x : Record) :
    (r.append x).lap * 65536 + (r.append x).seq.toNat = r.lap * 65536 + r.seq.toNat + 1 := by
  simp only [Ring.append_lap, Ring.append_seq, Ring.nextLap, BitVec.toNat_add]
  split
  · rename_i h
    rw [h]
    simp
    omega
  · rename_i h
    have hn : r.seq.toNat ≠ 65535 := fun e => h (BitVec.eq_of_toNat_eq e)
    have := r.seq.isLt
    simp
    omega

/-- A completed record moves the cursor that stands on it and no other (10 R155). -/
theorem Subscription.consume_cases (r : Ring) (x : Record) (s : Subscription) :
    (r.under s.cursor = some x ∧ s.consume r x
        = { s with cursor := ((r.snapshotFrom s.cursor).tail.head?).map (·.seq), unread := s.unread - 1 })
      ∨ (r.under s.cursor ≠ some x ∧ s.consume r x = s) := by
  unfold Subscription.consume
  by_cases h : r.under s.cursor = some x
  · exact .inl ⟨h, if_pos h⟩
  · exact .inr ⟨h, if_neg h⟩

/-- A ring within its capacity stays so (10 R147). -/
theorem Ring.append_length (r : Ring) (x : Record) (h : r.records.length ≤ ringCapacity) :
    (r.append x).records.length ≤ ringCapacity := by
  rcases r.append_cases x with ⟨hl, e⟩ | ⟨hl, e⟩ <;> rw [e] <;> simp [ringCapacity] at * <;> omega

/-- The newest record is the one appended (10 R150). -/
theorem Ring.append_newest (r : Ring) (x : Record) :
    (r.append x).records.getLast? = some (r.numbered x) := by
  rcases r.append_cases x with ⟨-, e⟩ | ⟨-, e⟩ <;> rw [e] <;> simp

theorem Ring.append_sub (r : Ring) (x : Record) (i : Port) :
    (r.append x).subs[i]
      = (r.subs[i]).map (Subscription.onAppend r.loses ((r.kept.head?.map (·.seq)).getD r.seq) r.seq) := by
  simp [Ring.append, vecMap]

/-! ## The session controller -/

/-- The end of the song (01 R13). -/
theorem Device.examineEnd_cases (d : Device) :
    (d.session.state = .run ∧ d.playerState .p1 ≠ .playing ∧ d.playerState .p2 ≠ .playing
        ∧ d.examineEnd = (({ d with session := { d.session with state := .ended } }).mark .ended .p1).raise .session)
      ∨ (¬(d.session.state = .run ∧ d.playerState .p1 ≠ .playing ∧ d.playerState .p2 ≠ .playing)
        ∧ d.examineEnd = d) := by
  by_cases h : d.session.state = .run ∧ d.playerState .p1 ≠ .playing ∧ d.playerState .p2 ≠ .playing
  · exact .inl ⟨h.1, h.2.1, h.2.2, if_pos h⟩
  · exact .inr ⟨h, if_neg h⟩

/-- The done condition examined (01 R10). -/
theorem Device.examineDone_cases (d : Device) (p : Player) :
    (d.doneHolds p = true ∧ d.examineDone p = (((d.setPlayer p .cleared).mark .cleared p).raise .player).examineEnd)
      ∨ (d.doneHolds p = false ∧ d.examineDone p = d) := by
  unfold Device.examineDone
  cases h : d.doneHolds p
  · exact .inr ⟨rfl, if_neg (by simp)⟩
  · exact .inl ⟨rfl, if_pos rfl⟩

/-- A report of life at 0 taken (01 R11). -/
theorem Device.takeReport_cases (d : Device) (p : Player) :
    (d.wouldFail p = true
        ∧ d.takeReport p
          = ((((((d.setPlayer p .failed).emptyLanes p).onDecoder p Decoder.discarded).mark .failed p).raise
              .player)).examineEnd)
      ∨ (d.wouldFail p = false ∧ d.takeReport p = d) := by
  unfold Device.takeReport
  cases h : d.wouldFail p
  · exact .inr ⟨rfl, if_neg (by simp)⟩
  · exact .inl ⟨rfl, if_pos rfl⟩

end Sys2Proof.Machine
end

