-- ==== Sys2Proof/Laws/Judge.lean ====
section
/-!
SUPPORT. What an event at the judge, and the session controller's answer to it, leaves as it is (08 R127, R128; 01 R10
to R13): one frame, met by every operation of `Machine/Judge.lean`, so that no proof unfolds one to know it.
-/
namespace Sys2Proof.Machine
open Sys2Proof.Safety

@[simp] theorem headerStep_refl (x : Option Transaction) : HeaderStep x x := .inl rfl

theorem HeaderStep.trans {x y z : Option Transaction} (h : HeaderStep x y) (k : HeaderStep y z) : HeaderStep x z := by
  rcases k with rfl | ⟨⟨status, channel, rfl⟩, hz⟩
  · exact h
  · rcases h with h | ⟨-, ⟨_, _, h⟩ | ⟨_, h⟩⟩
    · exact .inr ⟨⟨status, channel, h.symm⟩, hz⟩
    · cases h
    · cases h

/-- What a step of the part itself leaves of a port: all but its notices, and a header under way (08 R131). -/
structure PortFrame (x y : PortState) : Prop where
  role        : y.role = x.role
  mask        : y.mask = x.mask
  result      : y.result = x.result
  transaction : HeaderStep x.transaction y.transaction

theorem PortFrame.refl (x : PortState) : PortFrame x x := ⟨rfl, rfl, rfl, .inl rfl⟩

@[simp] theorem portFrame_refl (x : PortState) : PortFrame x x := .refl x

@[simp] theorem portFrame_notices (x : PortState) (n : BitVec 16) : PortFrame x { x with notices := n } :=
  ⟨rfl, rfl, rfl, .inl rfl⟩

theorem PortFrame.trans {x y z : PortState} (h : PortFrame x y) (k : PortFrame y z) : PortFrame x z :=
  ⟨k.role.trans h.role, k.mask.trans h.mask, k.result.trans h.result, HeaderStep.trans h.transaction k.transaction⟩

/-- What lane events leave alone: the clock, the links, the press detector, the mapper, every setting, the beat pulses,
and of each port all but its notices and a header under way. They may move the session and player states, the decoders,
the lanes, the score records, the ring, the flash timers, the notices and the counter of choices. -/
structure LaneFrame (d e : Device) : Prop where
  clock      : e.clock = d.clock
  links      : e.links = d.links
  press      : e.press = d.press
  mapper     : e.mapper = d.mapper
  style      : e.session.style = d.session.style
  named      : e.session.named = d.session.named
  failPolicy : e.session.failPolicy = d.session.failPolicy
  leadIn     : e.session.leadIn = d.session.leadIn
  windows    : e.judge.windows = d.judge.windows
  avoid      : e.judge.avoid = d.judge.avoid
  holdGrace  : e.judge.holdGrace = d.judge.holdGrace
  weights    : e.score.weights = d.score.weights
  comboFloor : e.score.comboFloor = d.score.comboFloor
  lifeStart  : e.score.lifeStart = d.score.lifeStart
  deltas     : e.score.deltas = d.score.deltas
  patterns   : e.lamps.patterns = d.lamps.patterns
  override   : e.lamps.override = d.lamps.override
  echoLevel  : e.lamps.echoLevel = d.lamps.echoLevel
  flashLevel : e.lamps.flashLevel = d.lamps.flashLevel
  beatLevel  : e.lamps.beatLevel = d.lamps.beatLevel
  flashTime  : e.lamps.flashTime = d.lamps.flashTime
  beatTime   : e.lamps.beatTime = d.lamps.beatTime
  flashFloor : e.lamps.flashFloor = d.lamps.flashFloor
  beat       : e.lamps.beat = d.lamps.beat
  ports      : ∀ i : Port, PortFrame (d.port i) (e.port i)

theorem LaneFrame.refl (d : Device) : LaneFrame d d := by constructor <;> simp

theorem LaneFrame.trans {d e g : Device} (h : LaneFrame d e) (k : LaneFrame e g) : LaneFrame d g where
  clock := k.clock.trans h.clock
  links := k.links.trans h.links
  press := k.press.trans h.press
  mapper := k.mapper.trans h.mapper
  style := k.style.trans h.style
  named := k.named.trans h.named
  failPolicy := k.failPolicy.trans h.failPolicy
  leadIn := k.leadIn.trans h.leadIn
  windows := k.windows.trans h.windows
  avoid := k.avoid.trans h.avoid
  holdGrace := k.holdGrace.trans h.holdGrace
  weights := k.weights.trans h.weights
  comboFloor := k.comboFloor.trans h.comboFloor
  lifeStart := k.lifeStart.trans h.lifeStart
  deltas := k.deltas.trans h.deltas
  patterns := k.patterns.trans h.patterns
  override := k.override.trans h.override
  echoLevel := k.echoLevel.trans h.echoLevel
  flashLevel := k.flashLevel.trans h.flashLevel
  beatLevel := k.beatLevel.trans h.beatLevel
  flashTime := k.flashTime.trans h.flashTime
  beatTime := k.beatTime.trans h.beatTime
  flashFloor := k.flashFloor.trans h.flashFloor
  beat := k.beat.trans h.beat
  ports i := (h.ports i).trans (k.ports i)

/-! ## Updates -/

section
variable (d : Device)

theorem LaneFrame.onDecoder (p : Player) (f : Decoder → Decoder) : LaneFrame d (d.onDecoder p f) := by
  constructor <;> simp

theorem LaneFrame.onLane (q : LaneQueue) (f : Lane → Lane) : LaneFrame d (d.onLane q f) := by
  constructor <;> simp

theorem LaneFrame.removeNote (q : LaneQueue) (n : Note) : LaneFrame d (d.removeNote q n) := .onLane d q _

theorem LaneFrame.setHold (q : LaneQueue) (h : HoldState) : LaneFrame d (d.setHold q h) := .onLane d q _

theorem LaneFrame.onRecord (p : Player) (f : ScoreRecord → ScoreRecord) : LaneFrame d (d.onRecord p f) := by
  constructor <;> first | rfl | simp

theorem LaneFrame.countChoice : LaneFrame d d.countChoice := by constructor <;> simp

theorem LaneFrame.headerMayFall (i : Port) : LaneFrame d (d.headerMayFall i) := by
  unfold Device.headerMayFall
  split
  · rename_i status channel h
    split
    · refine (LaneFrame.countChoice d).trans ?_
      constructor <;> first | rfl | skip
      intro j
      by_cases hj : j = i
      · subst hj
        rw [Device.takeReadHeader, Device.port_onPort, if_pos rfl]
        refine ⟨rfl, rfl, rfl, .inr ⟨⟨status, channel, h⟩, ?_⟩⟩
        unfold Device.readStarted
        split
        · exact .inr ⟨_, rfl⟩
        · exact .inl ⟨_, _, rfl⟩
      · rw [Device.takeReadHeader, Device.port_onPort, if_neg hj]
        exact .refl _
    · exact .countChoice d
  all_goals exact .refl d

/-- A header that falls within a step moves its own transaction and the counter of choices alone (08 R131). -/
theorem LaneFrame.headersMayFall : LaneFrame d d.headersMayFall :=
  ((LaneFrame.headerMayFall d 0).trans (.headerMayFall _ 1)).trans (.headerMayFall _ 2)

theorem LaneFrame.setPlayer (p : Player) (x : PlayerState) : LaneFrame d (d.setPlayer p x) := by
  constructor <;> first | rfl | simp

theorem LaneFrame.sessionState (x : SessionState) :
    LaneFrame d { d with session := { d.session with state := x } } := by
  constructor <;> first | rfl | intro i; exact .refl _

theorem LaneFrame.raise (k : Notice) : LaneFrame d (d.raise k) := by constructor <;> simp

theorem LaneFrame.appendRecord (x : Record) : LaneFrame d (d.appendRecord x) := by constructor <;> simp

theorem LaneFrame.mark (k : MarkKind) (p : Player) : LaneFrame d (d.mark k p) := .appendRecord d _

theorem LaneFrame.emptyLanes (p : Player) : LaneFrame d (d.emptyLanes p) := by
  constructor <;> first | rfl | intro i; exact .refl _

/-! ## The session controller -/

theorem LaneFrame.examineEnd : LaneFrame d d.examineEnd := by
  unfold Device.examineEnd
  split
  · exact ((LaneFrame.sessionState d .ended).trans (.mark _ _ _)).trans (.raise _ _)
  · exact .refl d

theorem LaneFrame.examineDone (p : Player) : LaneFrame d (d.examineDone p) := by
  unfold Device.examineDone
  split
  · exact (((LaneFrame.setPlayer d p _).trans (.mark _ _ _)).trans (.raise _ _)).trans (.examineEnd _)
  · exact .refl d

theorem LaneFrame.takeReport (p : Player) : LaneFrame d (d.takeReport p) := by
  unfold Device.takeReport
  split
  · exact (((((LaneFrame.setPlayer d p _).trans (.emptyLanes _ p)).trans (.onDecoder _ p _)).trans
      (.mark _ _ _)).trans (.raise _ _)).trans (.examineEnd _)
  · exact .refl d

theorem LaneFrame.takeOutcome (p : Player) (o : Outcome) : LaneFrame d (d.takeOutcome p o) := by
  unfold Device.takeOutcome
  split
  · exact .onRecord d p _
  · exact .refl d

theorem LaneFrame.flashFor (g : Grade) (q : LaneQueue) : LaneFrame d (d.flashFor g q) := by
  unfold Device.flashFor
  split
  · split
    · exact .refl d
    · constructor <;> first | rfl | intro i; exact .refl _
  · exact .refl d

end

/-! ## Outcomes -/

section
variable (f : Flow)

theorem LaneFrame.mayReport (p : Player) : LaneFrame f.device (f.mayReport p).device := by
  unfold Flow.mayReport
  split
  · split
    · exact (LaneFrame.countChoice _).trans (.takeReport _ p)
    · exact .countChoice _
  · exact .refl _

theorem LaneFrame.goOn (q : LaneQueue) : LaneFrame f.device (f.goOn q).device := .mayReport f _

theorem LaneFrame.between : LaneFrame f.device f.between.device := by
  unfold Flow.between
  split
  · exact .headersMayFall _
  · exact .refl _

theorem LaneFrame.record (x : Option Record) : LaneFrame f.device (f.record x).device := by
  unfold Flow.record
  split
  · exact .refl _
  · exact .appendRecord _ _

theorem LaneFrame.flash (q : LaneQueue) (o : Outcome) : LaneFrame f.device (f.flash q o).device := by
  cases o <;> first | exact .flashFor _ _ _ | exact .refl _

theorem LaneFrame.score (p : Player) (o : Outcome) : LaneFrame f.device (f.score p o).device :=
  .takeOutcome f.device p o

theorem LaneFrame.outcome (q : LaneQueue) (x : Option Record) (o : Outcome) :
    LaneFrame f.device (f.outcome q x o).device :=
  ((((LaneFrame.mayReport f _).trans (.record _ x)).trans (.mayReport _ _)).trans (.score _ _ o)).trans
    (.flash _ q o)

theorem LaneFrame.handOff (p : Player) : LaneFrame f.device (f.handOff p).device := by
  unfold Flow.handOff
  split
  · split
    · exact (LaneFrame.countChoice _).trans (.examineDone _ p)
    · exact (LaneFrame.countChoice _).trans (.takeReport _ p)
  · exact .examineDone _ p

theorem LaneFrame.finish (p : Player) : LaneFrame f.device (f.finish p) := by
  unfold Flow.finish
  split
  · exact .takeReport _ p
  · exact .refl _

theorem LaneFrame.endHold (q : LaneQueue) (h : ActiveHold) (held : Bool) :
    LaneFrame f.device (f.endHold q h held).device :=
  (((LaneFrame.between f).trans (.setHold _ q .idle)).trans
    (.outcome { f.between with device := f.between.device.setHold q .idle } q _ _)).trans (.handOff _ _)

theorem LaneFrame.sweepNote (q : LaneQueue) (n : Note) : LaneFrame f.device (f.sweepNote q n).device := by
  unfold Flow.sweepNote
  extract_lets g d miss f₁ f₂
  have h₁ : LaneFrame f.device f₁.device :=
    ((LaneFrame.between f).trans (.removeNote g.device q n)).trans (.outcome { g with device := d } q (some miss) .miss)
  have h₂ : LaneFrame f₁.device f₂.device := by
    simp only [f₂]
    split
    · exact (LaneFrame.between f₁).trans (.outcome _ q _ _)
    · exact .refl _
  exact (h₁.trans h₂).trans (.handOff _ _)

theorem LaneFrame.hitAvoid (q : LaneQueue) (n : Note) (timed : Option Int) :
    LaneFrame f.device (f.hitAvoid q n timed).device :=
  (((LaneFrame.between f).trans (.removeNote _ q n)).trans
    (.outcome { f.between with device := f.between.device.removeNote q n } q _ _)).trans (.handOff _ _)

theorem LaneFrame.gradeNote (q : LaneQueue) (n : Note) (stamp : Int) :
    LaneFrame f.device (f.gradeNote q n stamp).device := by
  unfold Flow.gradeNote
  extract_lets f₀ o g hold d₁ d₂ x f₁
  have h₂ : LaneFrame f.device d₂ := by
    refine ((LaneFrame.between f).trans (.removeNote f₀.device q n)).trans ?_
    simp only [d₂]
    split
    · exact .setHold _ q _
    · exact .refl _
  have h₃ : LaneFrame f.device f₁.device :=
    ((h₂.trans (.outcome { f₀ with device := d₂ } q _ _)).trans (.handOff _ _)).trans (.goOn _ q)
  split
  · exact h₃.trans (.endHold f₁ q hold true)
  · exact h₃

theorem LaneFrame.stray (q : LaneQueue) (hit : Bool) : LaneFrame f.device (f.stray q hit).device := by
  unfold Flow.stray
  split
  · exact .refl _
  · exact (LaneFrame.between f).trans (.outcome _ q none _)

theorem LaneFrame.strike (q : LaneQueue) (stamp : Int) (hit : Bool) (fuel : Nat) :
    LaneFrame f.device (Flow.strike q stamp hit fuel f).device := by
  induction fuel generalizing f with
  | zero => exact .refl _
  | succ fuel ih =>
    unfold Flow.strike
    refine (LaneFrame.goOn f q).trans ?_
    dsimp only
    split
    · split
      · exact .stray _ q hit
      · split
        · exact (LaneFrame.sweepNote _ q _).trans (ih _)
        · split
          · exact .stray _ q hit
          · exact .gradeNote _ q _ stamp
    · exact .refl _

theorem LaneFrame.strikeTarget (q : LaneQueue) (stamp : Int) (hit : Bool) :
    LaneFrame f.device (f.strikeTarget q stamp hit).device := .strike f q stamp hit _

theorem LaneFrame.hitAvoids (q : LaneQueue) (stamp : Int) (notes : List Note) :
    LaneFrame f.device (Flow.hitAvoids q stamp f notes).device := by
  unfold Flow.hitAvoids
  induction notes generalizing f with
  | nil => exact .refl _
  | cons n notes ih =>
    rw [List.foldl_cons]
    refine (LaneFrame.goOn f q).trans (LaneFrame.trans ?_ (ih _))
    dsimp only
    split
    · exact .hitAvoid _ q n _
    · exact .refl _

theorem LaneFrame.meetHold (q : LaneQueue) (stamp : Int) (hit : Bool) :
    LaneFrame f.device (f.meetHold q stamp hit).device := by
  unfold Flow.meetHold
  split
  · exact .strikeTarget f q stamp hit
  · split
    · exact (LaneFrame.endHold f q _ true).trans (.strikeTarget _ q stamp hit)
    · exact .setHold _ q _
  · split
    · exact (LaneFrame.endHold f q _ _).trans (.strikeTarget _ q stamp hit)
    · split
      · exact (LaneFrame.endHold f q _ true).trans (.strikeTarget _ q stamp hit)
      · exact .setHold _ q _

end

/-! ## Events -/

section
variable (d : Device)

theorem LaneFrame.pressLane (q : LaneQueue) (stamp : Int) : LaneFrame d (d.pressLane q stamp) := by
  unfold Device.pressLane
  split
  · refine LaneFrame.trans ?_ (.finish _ _)
    refine ((LaneFrame.hitAvoids (Flow.start d) q stamp (d.avoidsHit q stamp)).trans (.goOn _ q)).trans ?_
    split
    · exact .meetHold _ q stamp _
    · exact .refl _
  · exact .refl d

theorem LaneFrame.releaseLane (q : LaneQueue) (stamp : Int) : LaneFrame d (d.releaseLane q stamp) := by
  unfold Device.releaseLane
  split
  · split
    · split
      · exact (LaneFrame.endHold (Flow.start d) q _ true).trans (.finish _ _)
      · exact .setHold d q _
    · exact .refl d
    · exact .refl d
  · exact .refl d

theorem LaneFrame.sweepLane (q : LaneQueue) : LaneFrame d (d.sweepLane q) := by
  unfold Device.sweepLane
  split
  · exact .refl d
  · exact (LaneFrame.sweepNote (Flow.start d) q _).trans (.finish _ _)

theorem LaneFrame.reachAvoid (q : LaneQueue) (n : Note) : LaneFrame d (d.reachAvoid q n) := by
  unfold Device.reachAvoid
  split
  · exact (LaneFrame.hitAvoid (Flow.start d) q n none).trans (.finish _ _)
  · exact .onLane d q _

theorem LaneFrame.avoidDueLane (q : LaneQueue) : LaneFrame d (d.avoidDueLane q) := by
  unfold Device.avoidDueLane
  split
  · exact .refl d
  · exact .reachAvoid d q _

theorem LaneFrame.expireAvoid (q : LaneQueue) (n : Note) : LaneFrame d (d.expireAvoid q n) := by
  unfold Device.expireAvoid
  split
  · exact .reachAvoid d q n
  · exact (LaneFrame.removeNote d q n).trans (.examineDone _ _)

theorem LaneFrame.avoidPastLane (q : LaneQueue) : LaneFrame d (d.avoidPastLane q) := by
  unfold Device.avoidPastLane
  split
  · exact .refl d
  · exact .expireAvoid d q _

theorem LaneFrame.tailLane (q : LaneQueue) : LaneFrame d (d.tailLane q) := by
  unfold Device.tailLane
  split
  · exact .refl d
  · exact (LaneFrame.endHold (Flow.start d) q _ true).trans (.finish _ _)

theorem LaneFrame.graceLane (q : LaneQueue) : LaneFrame d (d.graceLane q) := by
  unfold Device.graceLane
  split
  · exact .refl d
  · exact (LaneFrame.endHold (Flow.start d) q _ _).trans (.finish _ _)

theorem LaneFrame.sweepAll (q : LaneQueue) (fuel : Nat) : LaneFrame d (Device.sweepAll q fuel d) := by
  induction fuel generalizing d with
  | zero => exact .refl d
  | succ fuel ih =>
    unfold Device.sweepAll
    split
    · refine (LaneFrame.sweepLane d q).trans (LaneFrame.trans ?_ (ih _))
      split
      · exact .headersMayFall _
      · exact .refl _
    · exact .refl d

theorem LaneFrame.examineAppended (q : LaneQueue) (n : Note) : LaneFrame d (d.examineAppended q n) := by
  unfold Device.examineAppended
  split
  · split
    · exact .sweepAll d q _
    · exact .sweepAll d q _
    · split
      · exact .expireAvoid d q n
      · split
        · exact .reachAvoid d q n
        · exact .refl d
  · exact .refl d

theorem LaneFrame.settleTail (q : LaneQueue) : LaneFrame d (d.settleTail q) := by
  unfold Device.settleTail
  split
  · exact .graceLane d q
  · exact .tailLane d q

theorem LaneFrame.takeTail (q : LaneQueue) (row due : Nat) (forced : Bool) :
    LaneFrame d (d.takeTail q row due forced) := by
  unfold Device.takeTail
  split
  · exact .onLane d q _
  · split
    · exact .refl d
    · split
      · exact (LaneFrame.setHold d q _).trans (.settleTail _ q)
      · exact .refl d
    · split
      · exact (LaneFrame.setHold d q _).trans (.settleTail _ q)
      · exact .refl d

theorem LaneFrame.takeLaneEvent (q : LaneQueue) (k : LaneEvent) : LaneFrame d (d.takeLaneEvent q k) := by
  cases k
  · exact .sweepLane d q
  · exact .avoidDueLane d q
  · exact .avoidPastLane d q
  · exact .tailLane d q
  · exact .graceLane d q

end

/-! ## The events of one instant -/

/-- The event taken next is one of those due, and choosing it moves nothing but the counter of choices. -/
theorem Device.pick_some {d e : Device} {es : List Event} {x : Event} (h : d.pick es = some (x, e)) :
    x ∈ es ∧ (e = d ∨ e = d.countChoice) := by
  unfold Device.pick at h
  split at h
  · cases h
  · cases h
    exact ⟨List.mem_singleton.2 rfl, .inl rfl⟩
  · rename_i a b es
    cases h
    refine ⟨?_, .inr rfl⟩
    have hl : Config.pickEvent d.choices % (a :: b :: es).length < (a :: b :: es).length :=
      Nat.mod_lt _ (by simp)
    rw [List.getD_eq_getElem?_getD, List.getElem?_eq_getElem hl]
    exact List.getElem_mem hl

/-- What holds of every event due, of counting a choice and of a header that falls between two events, and is reflexive
and transitive, holds of settling them. -/
theorem settle_induct (due : Device → List Event) (R : Device → Device → Prop) (refl : ∀ d, R d d)
    (trans : ∀ {a b c}, R a b → R b c → R a c) (count : ∀ d, R d d.countChoice)
    (header : ∀ d, R d d.headersMayFall)
    (take : ∀ (d e : Device) (x : Event), x ∈ due d → e = d ∨ e = d.countChoice → R e (e.takeEvent x))
    (fuel : Nat) (d : Device) : R d (settle due fuel d) := by
  induction fuel generalizing d with
  | zero => exact refl d
  | succ fuel ih =>
    unfold settle
    split
    · exact refl d
    · rename_i x e h
      obtain ⟨hx, he⟩ := Device.pick_some h
      refine trans ?_ (trans (trans (take d e x hx he) (header _)) (ih _))
      rcases he with rfl | rfl
      · exact refl _
      · exact count d

theorem Device.mem_dueLaneEvents {d : Device} {x : Event} (h : x ∈ d.dueLaneEvents) : ∃ k q, x = .lane k q := by
  simp only [Device.dueLaneEvents, Device.laneEvents, List.mem_flatMap, List.mem_map] at h
  obtain ⟨q, -, k, -, rfl⟩ := h
  exact ⟨k, q, rfl⟩

end Sys2Proof.Machine
end

