-- ==== Sys2Proof/Laws/Chart.lean ====
section
/-!
SUPPORT. What an entry taken by a chart decoder leaves as it is (04 R51 to R68; 02 R27 to R29): one frame, met by every
operation of `Machine/Chart.lean`.
-/
namespace Sys2Proof.Machine

/-- What chart entries leave alone: the clock but for the beat trackers, the links, the press detector, the mapper,
every setting, and of each port all but its notices and a header under way. -/
structure EntryFrame (d e : Device) : Prop where
  clock      : e.clock = { d.clock with trackers := e.clock.trackers }
  links      : e.links = d.links
  press      : e.press = d.press
  mapper     : e.mapper = d.mapper
  style      : e.session.style = d.session.style
  named      : e.session.named = d.session.named
  failPolicy : e.session.failPolicy = d.session.failPolicy
  leadIn     : e.session.leadIn = d.session.leadIn
  windows    : e.judge.windows = d.judge.windows
  avoid      : e.judge.avoid = d.judge.avoid
  holdGrace  : e.judge.holdGrace = d.judge.holdGrace
  weights    : e.score.weights = d.score.weights
  comboFloor : e.score.comboFloor = d.score.comboFloor
  lifeStart  : e.score.lifeStart = d.score.lifeStart
  deltas     : e.score.deltas = d.score.deltas
  patterns   : e.lamps.patterns = d.lamps.patterns
  override   : e.lamps.override = d.lamps.override
  echoLevel  : e.lamps.echoLevel = d.lamps.echoLevel
  flashLevel : e.lamps.flashLevel = d.lamps.flashLevel
  beatLevel  : e.lamps.beatLevel = d.lamps.beatLevel
  flashTime  : e.lamps.flashTime = d.lamps.flashTime
  beatTime   : e.lamps.beatTime = d.lamps.beatTime
  flashFloor : e.lamps.flashFloor = d.lamps.flashFloor
  ports      : ∀ i : Port, PortFrame (d.port i) (e.port i)

theorem EntryFrame.refl (d : Device) : EntryFrame d d := by constructor <;> simp

theorem EntryFrame.trans {d e g : Device} (h : EntryFrame d e) (k : EntryFrame e g) : EntryFrame d g where
  clock := by rw [k.clock, h.clock]
  links := k.links.trans h.links
  press := k.press.trans h.press
  mapper := k.mapper.trans h.mapper
  style := k.style.trans h.style
  named := k.named.trans h.named
  failPolicy := k.failPolicy.trans h.failPolicy
  leadIn := k.leadIn.trans h.leadIn
  windows := k.windows.trans h.windows
  avoid := k.avoid.trans h.avoid
  holdGrace := k.holdGrace.trans h.holdGrace
  weights := k.weights.trans h.weights
  comboFloor := k.comboFloor.trans h.comboFloor
  lifeStart := k.lifeStart.trans h.lifeStart
  deltas := k.deltas.trans h.deltas
  patterns := k.patterns.trans h.patterns
  override := k.override.trans h.override
  echoLevel := k.echoLevel.trans h.echoLevel
  flashLevel := k.flashLevel.trans h.flashLevel
  beatLevel := k.beatLevel.trans h.beatLevel
  flashTime := k.flashTime.trans h.flashTime
  beatTime := k.beatTime.trans h.beatTime
  flashFloor := k.flashFloor.trans h.flashFloor
  ports i := (h.ports i).trans (k.ports i)

/-- What a lane event leaves alone, an entry may too. -/
theorem LaneFrame.entry {d e : Device} (h : LaneFrame d e) : EntryFrame d e where
  clock := by rw [h.clock]
  links := h.links
  press := h.press
  mapper := h.mapper
  style := h.style
  named := h.named
  failPolicy := h.failPolicy
  leadIn := h.leadIn
  windows := h.windows
  avoid := h.avoid
  holdGrace := h.holdGrace
  weights := h.weights
  comboFloor := h.comboFloor
  lifeStart := h.lifeStart
  deltas := h.deltas
  patterns := h.patterns
  override := h.override
  echoLevel := h.echoLevel
  flashLevel := h.flashLevel
  beatLevel := h.beatLevel
  flashTime := h.flashTime
  beatTime := h.beatTime
  flashFloor := h.flashFloor
  ports := h.ports

section
variable (d : Device)

/-! ## Updates -/

theorem EntryFrame.onDecoder (p : Player) (f : Decoder → Decoder) : EntryFrame d (d.onDecoder p f) :=
  (LaneFrame.onDecoder d p f).entry

theorem EntryFrame.onTracker (p : Player) (f : Tracker → Tracker) : EntryFrame d (d.onTracker p f) := by
  constructor <;> first | rfl | intro i; exact .refl _

theorem EntryFrame.addFault (p : Player) (k : FaultKind) : EntryFrame d (d.addFault p k) := by
  rcases d.addFault_cases p k with ⟨-, e⟩ | ⟨-, e⟩ <;> rw [e]
  · exact .refl d
  · exact (EntryFrame.onDecoder d p _).trans (LaneFrame.raise _ _).entry

theorem EntryFrame.addFaultIf (p : Player) (k : FaultKind) (cond : Bool) : EntryFrame d (d.addFaultIf p k cond) := by
  unfold Device.addFaultIf
  split
  · exact .addFault d p k
  · exact .refl d

/-! ## Beat trackers -/

theorem EntryFrame.beatPulse (p : Player) : EntryFrame d (d.beatPulse p) := by
  unfold Device.beatPulse
  split
  · constructor <;> first | rfl | intro i; exact .refl _
  · exact .refl d

theorem EntryFrame.recomputeBeat (p : Player) : EntryFrame d (d.recomputeBeat p) := by
  unfold Device.recomputeBeat
  split
  · dsimp only
    split
    · exact (EntryFrame.onTracker d p _).trans (.beatPulse _ p)
    · exact .onTracker d p _
  · exact .refl d

theorem EntryFrame.advanceTracker (p : Player) : EntryFrame d (d.advanceTracker p) := by
  unfold Device.advanceTracker
  split
  · exact (EntryFrame.onTracker d p _).trans (.recomputeBeat _ p)
  · exact .refl d

/-! ## Steps of an entry -/

theorem EntryFrame.moveCursor (p : Player) (row : Nat) : EntryFrame d (d.moveCursor p row) := by
  unfold Device.moveCursor
  exact ((EntryFrame.addFaultIf d p .rowClamped _).trans (.addFaultIf _ p .dueClamped _)).trans (.onDecoder _ p _)

theorem EntryFrame.dropFront (p : Player) (n : Nat) : EntryFrame d (d.dropFront p n) := .onDecoder d p _

theorem EntryFrame.discardAfterEnd (p : Player) : EntryFrame d (d.discardAfterEnd p) := by
  unfold Device.discardAfterEnd
  split
  · exact (EntryFrame.addFault d p _).trans (.onDecoder _ p _)
  · exact .refl d

theorem EntryFrame.firstEntry (p : Player) (isHeader : Bool) : EntryFrame d (d.firstEntry p isHeader) := by
  unfold Device.firstEntry
  split
  · exact (EntryFrame.addFaultIf d p _ _).trans (.onDecoder _ p _)
  · exact .refl d

theorem EntryFrame.dropRepeat (p : Player) : EntryFrame d (d.dropRepeat p) := by
  unfold Device.dropRepeat
  split
  · exact (EntryFrame.addFault d p _).trans (.onDecoder _ p _)
  · exact .refl d

theorem EntryFrame.handTail (p : Player) (lane : Fin 12) (row due : Nat) (forced : Bool) :
    EntryFrame d (d.handTail p lane row due forced) := by
  unfold Device.handTail
  split
  · exact .refl d
  · exact (LaneFrame.takeTail d _ row due forced).entry

theorem EntryFrame.clearMark (p : Player) (lane : Fin 12) : EntryFrame d (d.clearMark p lane) := .onDecoder d p _

theorem EntryFrame.handUnits (p : Player) (kind : NoteKind) : EntryFrame d (d.handUnits p kind) := by
  have h (n : Nat) : EntryFrame d (d.takeDecodedUnits p n) := (LaneFrame.onRecord d p _).entry
  cases kind
  · exact h _
  · exact h _
  · exact .refl d

theorem EntryFrame.acceptNote (p : Player) (lane : Fin 12) (q : LaneQueue) (n : Note) :
    EntryFrame d (d.acceptNote p lane q n) :=
  (((LaneFrame.onLane d q _).entry.trans (.onDecoder _ p _)).trans (.handUnits _ p _)).trans
    (LaneFrame.examineAppended _ q _).entry

theorem EntryFrame.tryAppend {p : Player} {lane : Fin 12} {n : Note} {e : Device}
    (h : d.tryAppend p lane n = some e) : EntryFrame d e := by
  unfold Device.tryAppend at h
  split at h
  · cases h
    exact .refl d
  · split at h
    · cases h
      exact .refl d
    · cases h
    · cases h
      exact .acceptNote d p lane _ n

theorem EntryFrame.endOverlap (p : Player) (lane : Fin 12) (due : Nat) : EntryFrame d (d.endOverlap p lane due) := by
  unfold Device.endOverlap
  split
  · exact .refl d
  · exact ((EntryFrame.addFault d p _).trans (.clearMark _ p lane)).trans (.handTail _ p lane _ _ _)

theorem EntryFrame.placeHoldEnd (p : Player) (lane : Fin 12) : EntryFrame d (d.placeHoldEnd p lane) := by
  unfold Device.placeHoldEnd
  split
  · exact .addFault d p _
  · exact (EntryFrame.clearMark d p lane).trans (.handTail _ p lane _ _ _)

/-- The device that a step of work leaves, whether it goes on or stalls. -/
def WorkResult.device : WorkResult → Device
  | .done d => d
  | .stall d _ => d

theorem EntryFrame.appendStep (p : Player) (lane : Fin 12) (n : Note) :
    EntryFrame d (d.appendStep p lane n).device := by
  unfold Device.appendStep
  split
  · rename_i h
    exact .tryAppend d h
  · exact .refl d

theorem EntryFrame.placeNote (p : Player) (kind : NoteKind) (lane : Fin 12) :
    EntryFrame d (d.placeNote p kind lane).device := by
  unfold Device.placeNote
  dsimp only
  split
  · exact .addFault d p _
  · split
    · exact .appendStep d p lane _
    · exact (EntryFrame.endOverlap d p lane _).trans (.appendStep _ p lane _)

theorem EntryFrame.workStep (p : Player) (w : Work) : EntryFrame d (d.workStep p w).device := by
  match w with
  | .moveTo row => exact .moveCursor d p row
  | .place .tap lane => exact .placeNote d p .tap lane
  | .place .holdStart lane => exact .placeNote d p .holdStart lane
  | .place .avoid lane => exact .placeNote d p .avoid lane
  | .place .holdEnd lane => exact .placeHoldEnd d p lane
  | .append lane n => exact .appendStep d p lane n

theorem EntryFrame.runWork (p : Player) (ws : List Work) : EntryFrame d (runWork p ws d) := by
  induction ws generalizing d with
  | nil =>
    unfold Machine.runWork
    split
    · exact .refl d
    · exact .onDecoder d p _
  | cons w ws ih =>
    unfold Machine.runWork
    have hw := EntryFrame.workStep d p w
    split
    · exact .refl d
    · split <;> rename_i h <;> rw [h] at hw
      · exact hw.trans (ih _)
      · exact hw.trans (.onDecoder _ p _)

theorem EntryFrame.acceptOffer (p : Player) (s : Segment) : EntryFrame d (d.acceptOffer p s) :=
  (((EntryFrame.onTracker d p _).trans (.onDecoder _ p _)).trans (.onDecoder _ p _)).trans (.advanceTracker _ p)

theorem EntryFrame.offer (p : Player) (s : Segment) : EntryFrame d (d.offer p s) := by
  unfold Device.offer
  split
  · exact .acceptOffer d p s
  · exact .onDecoder d p _

theorem EntryFrame.tempoFaults (p : Player) (period : Nat) : EntryFrame d (d.tempoFaults p period) :=
  .addFaultIf d p _ _

theorem EntryFrame.dwellFaults (p : Player) (length : Nat) : EntryFrame d (d.dwellFaults p length) :=
  (EntryFrame.addFaultIf d p _ _).trans (.addFaultIf _ p _ _)

theorem EntryFrame.forceEnd (p : Player) (lane : Fin 12) : EntryFrame d (Device.forceEnd p d lane) := by
  unfold Device.forceEnd
  split
  · exact .refl d
  · split
    · exact .refl d
    · exact (EntryFrame.clearMark d p lane).trans (.handTail _ p lane _ _ _)

theorem EntryFrame.forceEnds (p : Player) (lanes : List (Fin 12)) :
    EntryFrame d (lanes.foldl (Device.forceEnd p) d) := by
  induction lanes generalizing d with
  | nil => exact .refl d
  | cons lane lanes ih => exact (EntryFrame.forceEnd d p lane).trans (ih _)

theorem EntryFrame.enterEnded (p : Player) : EntryFrame d (d.enterEnded p) := by
  unfold Device.enterEnded
  split
  · exact .refl d
  · exact ((EntryFrame.onDecoder d p _).trans (.discardAfterEnd _ p)).trans (LaneFrame.examineDone _ p).entry

/-! ## Entries -/

theorem EntryFrame.actBadTag (p : Player) : EntryFrame d (d.actBadTag p) :=
  (EntryFrame.addFault d p _).trans (.dropFront _ p _)

theorem EntryFrame.actEntry (p : Player) (e : Entry) : EntryFrame d (d.actEntry p e) := by
  have pre := (EntryFrame.firstEntry d p false).trans (.dropRepeat _ p)
  cases e with
  | header noteTotal holdTotal =>
    simp only [Device.actEntry, Device.actHeader]
    split
    · exact (((EntryFrame.firstEntry d p true).trans (.onDecoder _ p _)).trans
        (LaneFrame.onRecord _ p _).entry).trans (.dropFront _ p _)
    · exact ((EntryFrame.dropRepeat d p).trans (.addFault _ p _)).trans (.dropFront _ p _)
  | rows count => exact (pre.trans (.moveCursor _ p _)).trans (.dropFront _ p _)
  | notes kind mask =>
    simp only [Device.actEntry, Device.actNotes]
    split
    · exact (((EntryFrame.firstEntry d p false).trans (.addFaultIf _ p _ _)).trans (.onDecoder _ p _)).trans
        (.runWork _ p _)
    · exact ((pre.trans (.addFaultIf _ p _ _)).trans (.onDecoder _ p _)).trans (.runWork _ p _)
  | repeated times spacing => exact (pre.trans (.onDecoder _ p _)).trans (.dropFront _ p _)
  | tempo period => exact ((pre.trans (.tempoFaults _ p _)).trans (.onDecoder _ p _)).trans (.offer _ p _)
  | dwell length => exact ((pre.trans (.dwellFaults _ p _)).trans (.onDecoder _ p _)).trans (.offer _ p _)
  | ending => exact ((pre.trans (.onDecoder _ p _)).trans (.forceEnds _ p _)).trans (.enterEnded _ p)
  | badTag => exact .actBadTag d p

theorem EntryFrame.discardEntry (p : Player) (e : Entry) : EntryFrame d (d.discardEntry p e) := by
  cases e with
  | rows count => exact (EntryFrame.moveCursor d p _).trans (.dropFront _ p _)
  | tempo period => exact ((EntryFrame.tempoFaults d p _).trans (.onDecoder _ p _)).trans (.dropFront _ p _)
  | dwell length => exact ((EntryFrame.dwellFaults d p _).trans (.onDecoder _ p _)).trans (.dropFront _ p _)
  | badTag => exact .actBadTag d p
  | header _ _ => exact .dropFront d p _
  | notes _ _ => exact .dropFront d p _
  | repeated _ _ => exact .dropFront d p _
  | ending => exact .dropFront d p _

theorem EntryFrame.takeEntry (p : Player) (e : Entry) : EntryFrame d (d.takeEntry p e) := by
  unfold Device.takeEntry
  split
  · exact .discardEntry d p e
  · exact .actEntry d p e

theorem EntryFrame.takeKind (p : Player) (k : EntryKind) : EntryFrame d (d.takeKind p k) := by
  unfold Device.takeKind
  split
  · exact .refl d
  · split
    · exact .takeEntry d p _
    · exact .refl d

theorem EntryFrame.releaseStall (p : Player) : EntryFrame d (d.releaseStall p) := by
  unfold Device.releaseStall
  split
  · split
    · exact .refl d
    · dsimp only
      split
      · exact (EntryFrame.onDecoder d p _).trans (.runWork _ p _)
      · exact (EntryFrame.onDecoder d p _).trans (.offer _ p _)
  · exact .refl d

theorem EntryFrame.retryAt (q : LaneQueue) : EntryFrame d (d.retryAt q) := by
  unfold Device.retryAt
  split
  · exact .releaseStall d _
  · exact .refl d

/-- While a lane event is due, what is taken next is the retry of a stalled decoder, or a lane event (04 R62). -/
theorem Device.mem_dueLaneWork {x : Event} (h : x ∈ d.dueLaneWork) :
    (∃ p, x = .stallRelease p ∧ d.stallFree p = true) ∨ (∃ k q, x = .lane k q) ∧ ∀ p, d.stallFree p = false := by
  simp only [Device.dueLaneWork, Device.retriesFirst] at h
  split at h
  · cases h
  · split at h
    · rename_i hr
      refine .inr ⟨Device.mem_dueLaneEvents h, fun p => ?_⟩
      cases p <;> simp_all [Device.dueRetries, dueWhen]
    · left
      simp only [Device.dueRetries, List.mem_append, dueWhen] at h
      rcases h with h | h <;> split at h <;> simp_all

/-- The lane events of a POSITION or a START, with the retries between them, keep to the frame of a chart entry. -/
theorem EntryFrame.settleLanes : EntryFrame d d.settleLanes :=
  settle_induct _ EntryFrame .refl .trans (fun e => (LaneFrame.countChoice e).entry)
    (fun e => (LaneFrame.headersMayFall e).entry)
    (fun _ e x hx _ => by
      rcases Device.mem_dueLaneWork _ hx with ⟨p, rfl, -⟩ | ⟨⟨k, q, rfl⟩, -⟩
      · exact .releaseStall e p
      · exact (LaneFrame.takeLaneEvent e q k).entry) _ d

end

end Sys2Proof.Machine
end

