-- ==== Sys2Proof/Laws/Fields.lean ====
section
/-!
SUPPORT. Multi-byte fields: what `bytesOf` writes, `u16` and `u32` read back, wherever the field stands in a list.
-/
namespace Sys2Proof.Machine

@[simp] theorem bytesOf_length (width v : Nat) : (bytesOf width v).length = width := by
  induction width generalizing v with
  | zero => rfl
  | succ n ih => simp [bytesOf, ih]

@[simp] theorem u8_append_head (pre post : List Byte) (x : Byte) : u8 (pre ++ x :: post) pre.length = x.toNat := by
  simp [u8, List.getD_eq_getElem?_getD]

theorem u8_append_right (pre post : List Byte) (k : Nat) : u8 (pre ++ post) (pre.length + k) = u8 post k := by
  simp [u8, List.getD_eq_getElem?_getD, List.getElem?_append_right]

theorem u8_append_left (pre post : List Byte) (k : Nat) (h : k < pre.length) : u8 (pre ++ post) k = u8 pre k := by
  simp [u8, List.getD_eq_getElem?_getD, List.getElem?_append_left h]

theorem u16_append_right (pre post : List Byte) (k : Nat) : u16 (pre ++ post) (pre.length + k) = u16 post k := by
  simp only [u16, Nat.add_assoc, u8_append_right]

theorem u32_append_right (pre post : List Byte) (k : Nat) : u32 (pre ++ post) (pre.length + k) = u32 post k := by
  simp only [u32, Nat.add_assoc, u16_append_right]

theorem u16_bytesOf (v : BitVec 16) (post : List Byte) : u16 (bytesOf 2 v.toNat ++ post) 0 = v.toNat := by
  have := v.isLt
  simp [u16, u8, bytesOf]
  omega

theorem u32_bytesOf (v : BitVec 32) (post : List Byte) : u32 (bytesOf 4 v.toNat ++ post) 0 = v.toNat := by
  have := v.isLt
  simp [u32, u16, u8, bytesOf]
  omega

/-- A 16-bit field is read back at the place where it was written. -/
theorem u16_field (v : BitVec 16) (pre post : List Byte) (n : Nat) (h : pre.length = n) :
    u16 (pre ++ (bytesOf 2 v.toNat ++ post)) n = v.toNat := by
  subst h
  simpa using (u16_append_right pre _ 0).trans (u16_bytesOf v post)

/-- A 32-bit field is read back at the place where it was written. -/
theorem u32_field (v : BitVec 32) (pre post : List Byte) (n : Nat) (h : pre.length = n) :
    u32 (pre ++ (bytesOf 4 v.toNat ++ post)) n = v.toNat := by
  subst h
  simpa using (u32_append_right pre _ 0).trans (u32_bytesOf v post)

theorem signedOf_toNat (w : Nat) (v : BitVec w) : signedOf w v.toNat = v.toInt := by
  rcases w with _ | w
  · simp [signedOf, BitVec.eq_nil v]
  · rw [signedOf, BitVec.toInt_eq_toNat_cond]
    have : 2 ^ (w + 1) = 2 * 2 ^ w := by ring
    simp only [Nat.add_sub_cancel]
    by_cases h : v.toNat < 2 ^ w
    · simp [h, this]
    · simp [h, this]
      ring

/-- A signed 16-bit field is read back at the place where it was written. -/
theorem s16_field (v : BitVec 16) (pre post : List Byte) (n : Nat) (h : pre.length = n) :
    s16 (pre ++ (bytesOf 2 v.toNat ++ post)) n = v.toInt := by
  rw [s16, u16_field v pre post n h, signedOf_toNat]

/-- A signed 32-bit field is read back at the place where it was written. -/
theorem s32_field (v : BitVec 32) (pre post : List Byte) (n : Nat) (h : pre.length = n) :
    s32 (pre ++ (bytesOf 4 v.toNat ++ post)) n = v.toInt := by
  rw [s32, u32_field v pre post n h, signedOf_toNat]

theorem clampNat_range (lo hi v : Nat) (h : lo ≤ hi) : lo ≤ clampNat lo hi v ∧ clampNat lo hi v ≤ hi := by
  simp only [clampNat]
  omega

theorem clampNat_same (lo hi v : Nat) (hl : lo ≤ v) (hh : v ≤ hi) : clampNat lo hi v = v := by
  simp only [clampNat]
  omega

theorem clampInt_range (lo hi v : Int) (h : lo ≤ hi) : lo ≤ clampInt lo hi v ∧ clampInt lo hi v ≤ hi := by
  simp only [clampInt]
  omega

end Sys2Proof.Machine
end

