-- ==== Sys2Proof/Laws/Press.lean ====
section
/-!
SUPPORT. What a press or a release leaves of its panel (06 R93, R94; 07 R105): handing it to a lane is a lane event, with
a retry of a stalled decoder on the way at most, so the panel itself changes by the report alone.
-/
namespace Sys2Proof.Machine

variable (d : Device)

theorem EntryFrame.raceAvoids (q : LaneQueue) (fuel : Nat) : EntryFrame d (Device.raceAvoids q fuel d) := by
  induction fuel generalizing d with
  | zero => exact .refl d
  | succ fuel ih =>
    unfold Device.raceAvoids
    split
    · split
      · exact ((((LaneFrame.countChoice d).trans (.avoidDueLane _ q)).entry).trans (.retryAt _ q)).trans
          ((LaneFrame.headersMayFall _).entry.trans (ih _))
      · exact (LaneFrame.countChoice d).entry
    · exact .refl d

theorem EntryFrame.routePress (p : Panel) : EntryFrame d (d.routePress p) := by
  unfold Device.routePress
  split
  · exact .refl d
  · exact (EntryFrame.raceAvoids d _ _).trans (LaneFrame.pressLane _ _ _).entry

theorem LaneFrame.routeRelease (p : Panel) : LaneFrame d (d.routeRelease p) := by
  unfold Device.routeRelease
  split
  · exact .refl d
  · exact .releaseLane d _ _

/-- A panel's event moves no press state. -/
theorem Device.pressChange_pressed (p x : Panel) (before : Bool) :
    ((d.pressChange p before).panel x).pressed = (d.panel x).pressed := by
  unfold Device.pressChange
  split
  · rw [Device.panel, (EntryFrame.routePress _ p).press]
    exact (congrArg PanelPress.pressed (Device.panel_onPanel d p x _)).trans (by split <;> rfl)
  · rw [Device.panel, (LaneFrame.routeRelease _ p).press]
    exact (congrArg PanelPress.pressed (Device.panel_onPanel d p x _)).trans (by split <;> rfl)
  · rfl
  · rfl

/-- A good report's press state is the one that its sensors give (06 R92). -/
theorem Device.takeGoodReport_pressed (p : Panel) (r : GoodReport) :
    ((d.takeGoodReport p r).panel p).pressed = ((d.panel p).afterReport r).pressed := by
  unfold Device.takeGoodReport
  simp only [Device.pressChange_pressed]
  split <;> simp

end Sys2Proof.Machine
end

