-- ==== Sys2Proof/Tests/Slice0.lean ====
section
/-!
SUPPORT. Tests: the checks of `Instr.wellFormed`, a few steps whose results the handbook's own examples give, and for
each statement with hypotheses a concrete state and operands that meet them.
-/
namespace Sys2Proof.Tests
open Sys2Proof.Machine Sys2Proof.Safety

/-! ## Small states -/

/-- A state with no command waiting. -/
def st (d : Device) : State := { device := d, pending := [] }

/-- The device after a command. -/
def after (c : Instr) (d : Device) : Device :=
  match exec c (st d) with
  | .next t => t.device
  | .fault _ => d
  | .refused _ => d

/-- The part after reset: MP0 is GAME, MP1 AUDIO, MP2 LAMP. -/
def idle : Device := State.reset.device

/-- A song opened for P1 in VERSUS. -/
def preload : Device :=
  { idle with
    session := { state := .preload, style := .versus, named := ⟨true, false⟩, failPolicy := .stop, leadIn := 2000,
                 players := ⟨.joined, .off⟩ }
    clock := { Clock.reset with songTime := -2000 }
    decoders := ⟨{ Decoder.reset with state := .waitHeader }, .reset⟩
    score := { ScoreKeeper.reset with records := ⟨{ ScoreRecord.reset with life := 500 }, .reset⟩ } }

/-- P1 playing in RUN, in FOLLOW, at song time 1,000,000, with the identity map and the decoder between entries. -/
def run : Device :=
  { preload with
    session := { preload.session with state := .run, players := ⟨.playing, .off⟩ }
    clock :=
      { Clock.reset with
        songTime := 1000000, mode := .followMode, trackers := ⟨{ Tracker.reset with beatIndex := 1 }, .reset⟩ }
    mapper := { Mapper.reset with frozen := some identityMap }
    decoders := ⟨{ Decoder.reset with state := .decoding }, .reset⟩ }

/-- The song of `run` ended. -/
def ended : Device :=
  { run with session := { run.session with state := .ended, players := ⟨.cleared, .off⟩ } }

/-- A note at a due time. -/
def note (kind : NoteKind) (row due : Nat) : Note :=
  { row := row, due := due, kind := kind, tail := none, lateDecode := false, forcedEnd := false, reached := false }

/-- A device with a lane of LQ0 as given. -/
def withLane (d : Device) (queue : List Note) (hold : HoldState) : Device :=
  d.onLane 0 fun _ => { queue := queue, hold := hold }

/-- A device with P1's decoder changed. -/
def withDecoder (d : Device) (f : Decoder → Decoder) : Device := d.onDecoder .p1 f

/-- A device with a board of link A as given and a transaction with it in hand. -/
def polled (d : Device) (board : Board) : Device :=
  d.onLink .a fun l => { l.onBoard 0 (fun _ => board) with phase := .transaction 0 0 24 false, last := some 0 }

/-- An ONLINE board. -/
def online : Board := { Board.reset with state := .online, seen := true }

/-- A good character: odd parity, stop bit high. -/
def char (b : Byte) : LineCharacter := { data := b, parity := onesIn b % 2 = 0, stop := true }

/-- A good REPORT of board 0 with four levels and its status byte. -/
def frame (s0 s1 s2 s3 status : Byte) : ReportFrame :=
  { echo := char 0, s0 := char s0, s1 := char s1, s2 := char s2, s3 := char s3, status := char status }

/-! ## Well-formedness -/

theorem test_wellFormed_registerWrite_result :
    Instr.wellFormed (.registerWrite 0 0x02#7 (.whole [0, 0])) = false
      ∧ Instr.wellFormed (.registerWrite 0 0x0B#7 (.whole [])) = false
      ∧ Instr.wellFormed (.registerWrite 0 0x00#7 (.whole [])) = true := by decide

theorem test_wellFormed_registerWrite_command :
    Instr.wellFormed (.registerWrite 0 0x01#7 (.whole [0x10])) = false
      ∧ Instr.wellFormed (.registerWrite 0 0x01#7 (.whole [0x14])) = true
      ∧ Instr.wellFormed (.registerWrite 0 0x01#7 (.whole [])) = true := by decide

theorem test_wellFormed_refusedRead :
    Instr.wellFormed (.refusedRead 0 (.whole 0x0B#7)) = false ∧ Instr.wellFormed (.refusedRead 0 (.whole 0x0C#7)) = true
      ∧ Instr.wellFormed (.refusedRead 0 (.whole 0x01#7)) = true := by decide

theorem test_wellFormed_moments :
    Instr.wellFormed (.registerWrite 0 0x04#7 (.byte 0)) = false
      ∧ Instr.wellFormed (.registerWrite 0 0x05#7 .header) = false
      ∧ Instr.wellFormed (.registerWrite 0 0x01#7 .header) = true
      ∧ Instr.wellFormed (.refusedRead 0 (.header 0x06#7)) = false
      ∧ Instr.wellFormed (.refusedRead 0 (.header 0x07#7)) = true
      ∧ Instr.wellFormed (.refusedRead 0 .rise) = true := by decide

theorem test_wellFormed_report :
    Instr.wellFormed (.report .a (frame 0 0 0 0 0) 65) = false
      ∧ Instr.wellFormed (.report .a (frame 0 0 0 0 0) 66) = true := by decide

theorem test_no_word_spells_a_command : decodeTableWord 8 0x10 = none ∧ (st idle).withFetchWord 8 0x10 = st idle := by
  decide

/-! ## Steps -/

/-- An empty queue idles (notes/assumptions 2). -/
theorem test_step_idles : step State.reset = .next State.reset := by rfl

/-- 03 R45: a default lead-in begins at row −288, and song time −1 is row −1, fraction 255. -/
theorem test_beat_lead_in :
    Segment.initial.beatRow (-3000000) = -288 ∧ Segment.initial.beatRow (-1) = -1
      ∧ Segment.initial.beatFraction (-1) = 255 ∧ Segment.initial.beatIndex (-100000) = -1 := by decide

/-- 03 R41: the default windows at their ends. -/
theorem test_grades_at_the_ends :
    Windows.default.gradeOf 15000 = some .exact ∧ Windows.default.gradeOf (-15001) = some .great
      ∧ Windows.default.gradeOf 150000 = some .poor ∧ Windows.default.gradeOf 150001 = none := by decide

/-- 12 R173: two AUDIO straps leave the higher-numbered port as WATCH; three LAMP straps leave MP0 alone LAMP. -/
theorem test_power_on_roles :
    ((after (.powerOnReset ⟨.game, .audio, .audio⟩) run).port 2).role = .watch
      ∧ ((after (.powerOnReset ⟨.lamp, .lamp, .lamp⟩) run).port 0).role = .lamp
      ∧ ((after (.powerOnReset ⟨.lamp, .lamp, .lamp⟩) run).port 1).role = .watch
      ∧ ((after (.powerOnReset ⟨.lamp, .lamp, .lamp⟩) run).port 0).notices = Notice.roleConflict.mask := by decide

/-- 01 R4: a lead-in of 0xFFFFFFFF is 3,000,000. -/
theorem test_open_song :
    (after (.openSong 0 [1, 1, 0, 0xFF, 0xFF, 0xFF, 0xFF]) idle).session.leadIn = 3000000
      ∧ (after (.openSong 0 [1, 1, 0, 0xFF, 0xFF, 0xFF, 0xFF]) idle).session.style = .doubles := by decide

/-- 01 R4: DOUBLES with P2 named is BAD_VALUE. -/
theorem test_open_song_bad :
    ((after (.openSong 0 [1, 2, 0, 0, 0, 0, 0]) idle).port 0).result.code = .badValue := by decide

theorem test_start : (after (.start 1 []) preload).session.state = .run
    ∧ (after (.start 1 []) preload).playerState .p1 = .playing := by decide

theorem test_abort_keeps_the_score :
    (after (.abort 0 []) run).session.state = .idle ∧ (after (.abort 0 []) run).record .p1 = run.record .p1 := by
  decide

theorem test_close_only_in_ended :
    (after (.close 0 []) ended).session.state = .idle
      ∧ ((after (.close 0 []) run).port 0).result.code = .wrongState := by decide

/-- 02 R23: an error within SLEW raises song time by the error. -/
theorem test_position :
    (after (.position 1 [0, 0, 0, 0, 200])
      { run with clock := { run.clock with captures := [⟨0, 0, 100⟩] } }).clock.songTime = 1000100 := by decide

/-- `run` with a HOLD_START past its window in LQ0, and a read of SCORE_P1 on port 0 whose header is under way. -/
def headingSweep : Device :=
  after (.refusedRead 0 (.heading 0x07#7)) (withLane run [note .holdStart 0 849999] .idle)

/-- 08 R131: a SCORE_P1 header that falls between the MISS and the LET_GO of a swept hold shows a MISS count of 1 and a
LET_GO count of 0. -/
theorem test_header_between_miss_and_letGo (h : Config.raceBit 0 = true) :
    ∃ bytes, ((after (.sweep 0) headingSweep).port 0).transaction = some (.read 0x07#7 bytes)
      ∧ bytes[60]? = some 1 ∧ bytes[64]? = some 0
      ∧ ((after (.sweep 0) headingSweep).record .p1).counts.letGo = 1 := by
  let n := note .holdStart 0 849999
  let d := headingSweep.removeNote 0 n
  let f := ({ Flow.start d with device := d }).outcome 0
    (some (d.laneRecord 0 (.holdStart .miss) 0 false false none)) .miss
  have hf : f.device.headersMayFall = f.device.countChoice.takeReadHeader 0 0x07#7 := by
    have h0 : f.device.headerMayFall 0 = f.device.countChoice.takeReadHeader 0 0x07#7 := by
      show (if Config.raceBit 0 = true then _ else _) = _
      exact if_pos h
    show ((f.device.headerMayFall 0).headerMayFall 1).headerMayFall 2 = _
    rw [h0]
    rfl
  have he : after (.sweep 0) headingSweep
      = (((({ f with device := f.device.headersMayFall } : Flow).outcome 0
          (some (d.laneRecord 0 (.holdBody false) 0 false false none)) .letGo).handOff .p1).finish .p1) := rfl
  rw [he, hf]
  exact ⟨f.device.scoreBytes .p1, by decide⟩
theorem witness_SweepMisses_heading :
    (headingSweep.lane 0).queue = [] ++ note .holdStart 0 849999 :: [] ∧ headingSweep.session.state = .run
      ∧ headingSweep.playerState .p1 = .playing ∧ (headingSweep.decoder .p1).state ≠ .ended
      ∧ (849999 : Int) + headingSweep.judge.windows.poor.late < headingSweep.laneTime 0
      ∧ (headingSweep.record .p1).reachesZero headingSweep.score .miss = false
      ∧ (headingSweep.port 0).transaction = some (.heading (headingSweep.statusByte 0) 0x07#7)
      ∧ (run.port 0).transaction = none := by decide

/-- 09 R141: a MISS breaks the combo. -/
theorem test_sweep :
    (after (.sweep 0) (withLane run [note .tap 0 849999] .idle)).ring.records.length = 1
      ∧ (after (.sweep 0) (withLane run [note .tap 0 850000] .idle)).ring.records.length = 0 := by decide

/-- 08 R118, 09 R142: the default delta of a MISS is −60. -/
theorem test_sweep_life :
    ((after (.sweep 0) (withLane run [note .tap 0 849999] .idle)).record .p1).life = 440 := by decide

theorem test_avoid_due_on_a_released_panel :
    (after (.avoidDue 0) (withLane run [note .avoid 0 1000000] .idle)).ring.records = [] := by decide

theorem test_tail_reached :
    ((after (.tailReached 0) (withLane run [] (.holding ⟨0, some 1000000, false⟩))).record .p1).counts.held = 1 := by
  decide

theorem test_grace_expiry :
    ((after (.graceExpiry 0) (withLane run [] (.grace ⟨0, none, false⟩ 1000000))).record .p1).counts.letGo = 1 := by
  decide

/-- 06 R88: a first report seeds; with the defaults a rise of 40 then presses. -/
theorem test_report_seeds_and_presses :
    (((after (.report .a (frame 10 10 10 10 0) 66) (polled run Board.reset)).panel 0).sensors[0]).baseline = some 160
      ∧ ((after (.report .a (frame 50 10 10 10 0) 66)
          ((polled run online).onPanel 0 fun x =>
            { x with sensors := Vector.replicate 4 ⟨some 160, false, false⟩ })).panel 0).pressed = true := by decide

theorem test_miss_goes_offline :
    ((after (.replyDeadline .a) (polled run { online with misses := 3, state := .degraded })).link .a).boards[0].state
      = .offline := by decide

/-- 05 R76: the first choice after power-on is board 0. -/
theorem test_poll : ((after (.poll (.whole .a)) idle).link .a).phase = .transaction 0 0 24 false := by decide

/-- 05 R71: the POLL of board 3 with level 7: 0x03 has an even number of ones and its parity bit set, 0x07 neither. -/
theorem test_poll_characters :
    ({ idle.link .a with phase := .sending 3 7 false } : Link).pollCharacters = [⟨3, true, true⟩, ⟨7, false, true⟩] := by
  decide

theorem test_header_then_rows :
    let d := withDecoder preload fun c => { c with buffer := [0x10, 0, 2, 0, 1, 0x20, 0, 48] }
    let e := after (.headerEntry .p1) d
    (e.record .p1).units = 4 ∧ ((after (.rowsEntry .p1) e).decoder .p1).cursor = 48
      ∧ ((after (.rowsEntry .p1) e).decoder .p1).rowTime = 500000 := by decide

theorem test_notes_tap :
    let d := withDecoder preload fun c => { c with state := .decoding, buffer := [0x30, 0, 5] }
    ((after (.notesEntry .p1) d).lane 0).queue.length = 1 ∧ ((after (.notesEntry .p1) d).lane 1).queue.length = 0
      ∧ ((after (.notesEntry .p1) d).lane 2).queue.length = 1 := by decide

theorem test_chart_write_fills :
    ((after (.chartWrite 0 (.whole .p1 [0x21, 0, 1])) preload).port 0).result.count = 3
      ∧ ((after (.chartWrite 1 (.whole .p1 [0x21, 0, 1])) preload).port 1).result.code = .noRight := by decide

theorem test_register_write : ((after (.registerWrite 2 0x4C#7 (.whole [1])) idle).port 2).result = ⟨0x0C, .unknown, 0⟩ := by
  decide

theorem test_notice_write :
    ((after (.noticeWrite 0 [0, 1]) (idle.raise .session)).port 0).notices = 0 := by decide

theorem test_ring_read :
    ((after (.ringRead (.whole 0)) idle).port 0).result = ⟨0x06, .noRight, 0⟩ := by decide

theorem test_microsecond :
    (after .microsecondTick run).clock.songTime = 1000001 ∧ (after .microsecondTick run).clock.free = 1 := by decide

/-! ## Witnesses: states and operands that meet the hypotheses of the statements, clause by clause -/

theorem witness_SoftResetEffect :
    Sendable idle 0 .softReset []
      ∧ (∀ p : Panel, (idle.panel p).stuckSince = none) ∧ (idle.link .a).enable ≠ 0 := by decide

/-- A stuck timer one microsecond short of the default limit; a silent link. -/
theorem witness_SoftResetEffect_boundary :
    let d := (({ idle with clock := { idle.clock with free := 7999999 } }).onPanel 0
      fun x => { x with stuckSince := some 0 }).onLink .a fun l => { l with enable := 0 }
    Sendable d 0 .softReset [] ∧ (d.panel 0).stuckSince = some 0 ∧ (d.clock.free - 0).toNat < 8000000
      ∧ (∀ p : Panel, p ≠ 0 → (d.panel p).stuckSince = none)
      ∧ (d.link .a).enable = 0 ∧ (d.link .a).phase = .gap := by decide

/-- A device with a transaction in progress on each of the two other ports. -/
def busy (d : Device) (one two : Transaction) : Device :=
  (d.onPort 1 fun x => { x with transaction := some one }).onPort 2 fun x => { x with transaction := some two }

/-- Every kind of transaction on another port, and a link in each phase that a reset meets. -/
theorem witness_SoftResetEffect_transactions :
    let d := (busy run (.ringRead [] 0 false) (.chart .p1 .done 3 false false false)).onLink .a
      fun l => { l with phase := .sending 2 7 true }
    Sendable d 0 .softReset [] ∧ Sendable (busy run (.write 0x0B#7 [1]) (.read 0x09#7 [2])) 0 .softReset []
      ∧ Sendable (busy run (.selected 0) (.ringRead [] 0 true)) 0 .softReset []
      ∧ (d.link .a).phase = .sending 2 7 true ∧ ((polled run online).link .a).phase = .transaction 0 0 24 false
      ∧ (∀ p : Panel, (d.panel p).stuckSince = none) := by decide

theorem witness_OpenSongEffect_accepted :
    Sendable idle 0 .openSong ([0, 3, 1] ++ bytesOf 4 (0xFFFFFFFF : BitVec 32).toNat)
      ∧ Sendable idle 0 .openSong ([1, 1, 0] ++ bytesOf 4 (10000001 : BitVec 32).toNat)
      ∧ idle.session.state = .idle := by decide

theorem witness_OpenSongEffect_refused :
    Sendable idle 0 .openSong ([2, 1, 0] ++ bytesOf 4 (0 : BitVec 32).toNat)
      ∧ Sendable idle 0 .openSong ([1, 2, 0] ++ bytesOf 4 (0 : BitVec 32).toNat)
      ∧ Sendable idle 0 .openSong ([0, 4, 0] ++ bytesOf 4 (0 : BitVec 32).toNat)
      ∧ Sendable idle 0 .openSong ([0, 0, 2] ++ bytesOf 4 (0 : BitVec 32).toNat) := by decide

/-- A song opened for P1 in DOUBLES with every board seen. -/
def doubles : Device :=
  { preload with
    session := { preload.session with style := .doubles }
    links := ⟨{ Link.reset with boards := Vector.replicate 6 online },
              { Link.reset with boards := Vector.replicate 6 online }⟩ }

theorem witness_StartEffect :
    Sendable preload 0 .start [] ∧ Sendable preload 1 .start [] ∧ preload.session.state = .preload
      ∧ (∀ q : LaneQueue, (preload.lane q).queue = [] ∧ (preload.lane q).hold = .idle)
      ∧ (preload.decoder .p1).state ≠ .ended ∧ (preload.decoder .p2).state ≠ .ended
      ∧ preload.playerState .p1 = .joined ∧ preload.playerState .p2 = .off := by decide

theorem witness_StartEffect_doubles :
    Sendable doubles 0 .start [] ∧ doubles.session.state = .preload ∧ doubles.session.style = .doubles
      ∧ doubles.playerState .p1 = .joined ∧ (∀ p : Panel, doubles.present p = true) := by decide

/-- P1 with every modifier and one missing board in each row, in VERSUS and in DOUBLES. -/
def partly (style : Style) : Device :=
  { doubles with
    session := { doubles.session with style := style }
    links := ⟨{ doubles.links.a with boards := doubles.links.a.boards.set 0 Board.reset }, doubles.links.b⟩
    mapper := { Mapper.reset with modifiers := ⟨⟨true, true, true⟩, ⟨false, false, false⟩⟩ } }

theorem witness_StartEffect_missing :
    Sendable (partly .versus) 0 .start [] ∧ Sendable (partly .doubles) 0 .start []
      ∧ (partly .versus).playerState .p1 = .joined ∧ (partly .versus).playerState .p2 = .off
      ∧ (partly .versus).present 0 = false ∧ (partly .versus).present 2 = true
      ∧ suppressedAt (partly .versus) .p1 = [⟨.x, 0, 2⟩, ⟨.y, 0, 3⟩]
      ∧ suppressedAt (partly .doubles) .p1 = [⟨.x, 0, 2⟩, ⟨.y, 0, 3⟩, ⟨.s, 0, 6⟩] := by decide

/-- 07 R103: the exchanges that are not suppressed. -/
theorem test_start_map :
    (after (.start 0 []) (partly .versus)).feeds 3 = some 5 ∧ (after (.start 0 []) (partly .versus)).feeds 1 = some 4
      ∧ (after (.start 0 []) (partly .versus)).feeds 6 = none ∧ (after (.start 0 []) (partly .versus)).feeds 0 = some 0
      ∧ ((after (.start 0 []) (partly .versus)).port 1).notices.getLsbD Notice.mapDegraded.bit = true := by decide

/-- The tempo map of P1 has an entry before the lead-in's start and one after it. -/
theorem witness_StartEffect_map :
    let d := preload.onTracker .p1 fun k => { k with map := [Segment.initial] }
    let e := { d with session := { d.session with leadIn := 0 } }
    Sendable d 0 .start [] ∧ Sendable e 0 .start []
      ∧ ((Segment.initial).rowTime : Int) ≤ -((e.session.leadIn : Nat) : Int)
      ∧ -((d.session.leadIn : Nat) : Int) < ((Segment.initial).rowTime : Int) := by decide

theorem witness_AbortAndCloseReturnToIdle :
    Sendable preload 0 .abort [] ∧ preload.session.state ∈ statesOf .abort
      ∧ Sendable run 0 .abort [] ∧ run.session.state ∈ statesOf .abort
      ∧ Sendable ended 0 .close [] ∧ ended.session.state ∈ statesOf .close := by decide

theorem witness_AbortAndCloseReturnToIdle_transactions :
    Sendable (busy run (.ringRead [] 0 false) (.chart .p1 .done 3 false false false)) 0 .abort []
      ∧ Sendable (busy ended (.write 0x0B#7 [1]) (.read 0x09#7 [2])) 0 .close []
      ∧ Sendable (busy run (.selected 0) (.chart .p2 .wrongState 0 false false true)) 0 .abort [] := by decide

theorem witness_RefusedCommandsChangeNothing :
    (Sendable idle 1 .start [] ∧ idle.session.state ∉ statesOf .start)
      ∧ ((idle.port 0).transaction = none ∧ Command.position ∉ rightsOf (idle.port 0).role)
      ∧ (Command.setMap ∈ rightsOf (idle.port 0).role ∧ ([] : List Byte).length + 1 ≠ Command.setMap.length) := by
  decide

theorem witness_SetSyncEffect :
    Sendable idle 0 .setSync ([1] ++ bytesOf 4 (4001 : BitVec 32).toNat ++ bytesOf 4 (0 : BitVec 32).toNat
        ++ bytesOf 4 (999 : BitVec 32).toNat)
      ∧ Sendable idle 0 .setSync ([2] ++ bytesOf 4 (0 : BitVec 32).toNat ++ bytesOf 4 (0 : BitVec 32).toNat
        ++ bytesOf 4 (0 : BitVec 32).toNat)
      ∧ idle.session.state = .idle := by decide

/-- Link A has an ONLINE board 0 whose panel is pressed; link B is silent. -/
def staged : Device :=
  ((polled idle online).onPanel 0 fun x => { x with pressed := true, stuckSince := some 0 }).onLink .b
    fun l => { l with enable := 0, boards := Vector.replicate 6 { Board.reset with state := .disabled } }

theorem witness_SetStageEffect :
    Sendable staged 0 .setStage
        ([0x3E] ++ bytesOf 4 (200001 : BitVec 32).toNat ++ [16, 0] ++ [0x20] ++ bytesOf 4 (0 : BitVec 32).toNat
          ++ [61, 16])
      ∧ Sendable staged 0 .setStage
        ([0x40] ++ bytesOf 4 (0 : BitVec 32).toNat ++ [24, 4] ++ [0] ++ bytesOf 4 (0 : BitVec 32).toNat ++ [24, 4])
      ∧ staged.session.state = .idle ∧ staged.mapper.frozen = none
      ∧ (0x3E : Byte).toNat < 64 ∧ (0x20 : Byte).toNat < 64 ∧ 64 ≤ (0x40 : Byte).toNat
      ∧ (staged.link .a).enable ≠ 0 ∧ (staged.link .a).enable.getLsbD 0 = true ∧ (0x3E : Byte).getLsbD 0 = false
      ∧ (staged.link .a).boards[0].state = .online
      ∧ (staged.link .b).enable = 0 ∧ (staged.link .b).phase = .gap ∧ (0x20 : Byte).toNat ≠ 0 := by decide

theorem witness_SetStageEffect_phases :
    let d := staged.onLink .a fun l => { l with phase := .sending 0 9 false }
    let e := staged.onLink .a fun l => { l with phase := .emptyRound }
    (∀ x ∈ [d, e], Sendable x 0 .setStage
        ([0] ++ bytesOf 4 (200001 : BitVec 32).toNat ++ [16, 0] ++ [0x20] ++ bytesOf 4 (0 : BitVec 32).toNat ++ [61, 16])
          ∧ x.session.state = .idle ∧ x.mapper.frozen = none)
      ∧ (d.link .a).phase = .sending 0 9 false ∧ (e.link .a).phase = .emptyRound := by decide

/-- Panel 0 is pressed and has been for the least limit that SET_PANEL can set. -/
def longPressed : Device :=
  { staged with
    clock := { staged.clock with free := 1000000 }
    press := { (staged.onPanel 1 fun x => { x with stuckSince := some 1 }).press with stuckLimit := 1000000 } }

theorem witness_SetPanelEffect :
    Sendable longPressed 0 .setPanel ([0xFF, 0, 200, 0] ++ bytesOf 4 (0 : BitVec 32).toNat)
      ∧ Sendable longPressed 0 .setPanel ([11, 40, 39, 5] ++ bytesOf 4 (60000001 : BitVec 32).toNat)
      ∧ Sendable longPressed 0 .setPanel ([12, 40, 39, 5] ++ bytesOf 4 (0 : BitVec 32).toNat)
      ∧ longPressed.session.state = .idle ∧ longPressed.mapper.frozen = none := by decide

theorem witness_StuckAt : StuckAt longPressed 0 1000000 ∧ ¬StuckAt longPressed 1 1000000 := by
  refine ⟨⟨0, by decide, by decide⟩, ?_⟩
  rintro ⟨start, h, hle⟩
  have : (longPressed.panel 1).stuckSince = some 1 := by decide
  rw [this] at h
  cases h
  exact absurd hle (by decide)

theorem witness_SetMapEffect :
    Sendable idle 0 .setMap [1, 7] ∧ Sendable preload 0 .setMap [2, 0] ∧ Sendable idle 0 .setMap [3, 0]
      ∧ Sendable idle 0 .setMap [1, 8] ∧ idle.session.state = .idle ∧ preload.session.state = .preload := by decide

/-- The thirteen values of a nested table, its limits at their ends. -/
def nestedValues : Vector (BitVec 32) 13 := #v[0, 0, 0, 1, 2, 2, 500000, 500000, 500001, 500000, 200001, 0, 1000001]

theorem witness_SetWindowsEffect :
    Sendable idle 0 .setWindows ((List.finRange 13).flatMap fun k => bytesOf 4 (nestedValues[k]).toNat)
      ∧ (∀ k : Fin 8, min nestedValues[k.val].toNat 500000 ≤ min nestedValues[k.val + 2].toNat 500000)
      ∧ Sendable idle 0 .setWindows
        ((List.finRange 13).flatMap fun k => bytesOf 4 ((nestedValues.set 0 1)[k]).toNat)
      ∧ min (nestedValues.set 0 1)[2].toNat 500000 < min (nestedValues.set 0 1)[0].toNat 500000 := by decide

theorem witness_SetScoringAndLifeEffect :
    Sendable idle 0 .setScoring
        ((List.finRange 6).flatMap (fun k => bytesOf 2 ((Vector.replicate 6 (1001 : BitVec 16))[k]).toNat) ++ [4])
      ∧ Sendable idle 0 .setLife
        (bytesOf 2 (0 : BitVec 16).toNat
          ++ (List.finRange 9).flatMap fun k => bytesOf 2 ((Vector.replicate 9 (0xFC17 : BitVec 16))[k]).toNat)
      ∧ idle.session.state = .idle := by decide

theorem witness_LampMixerEffect :
    Sendable run 0 .setLamps
        ([1, 2, 3] ++ bytesOf 4 (1000001 : BitVec 32).toNat ++ bytesOf 4 (0 : BitVec 32).toNat ++ [5])
      ∧ Sendable run 2 .setLamps
        ([1, 2, 3] ++ bytesOf 4 (1000000 : BitVec 32).toNat ++ bytesOf 4 (0 : BitVec 32).toNat ++ [0])
      ∧ (run.port 2).transaction = none ∧ (run.port 2).role = .lamp ∧ (run.port 0).role ≠ .lamp
      ∧ (List.replicate 13 (0 : Byte)).length < 14 ∧ 14 ≤ (List.replicate 14 (0 : Byte)).length := by decide

theorem witness_MicrosecondEffect :
    run.dueEvents = [] ∧ idle.dueEvents = []
      ∧ ({ run with clock := { run.clock with stall := some 1 } } : Device).dueEvents = [] := by decide

theorem witness_EdgesStallsAndSyncLoss :
    run.session.state = .run ∧ run.clock.mode = .followMode ∧ run.clock.sync = .present
      ∧ run.clock.syncTimeout ≤ ((100000 : BitVec 32) - run.clock.silenceStart).toNat := by decide

/-- A capture at song time 100 in `run`, with SLEW 250 and JUMP 50,000. -/
def captured : Device := { run with clock := { run.clock with captures := [⟨7, 0, 100⟩] } }

theorem witness_PositionEffect_accepted :
    Sendable captured 1 .position (7 :: bytesOf 4 (350 : BitVec 32).toNat)
      ∧ captured.clock.mode = .followMode ∧ captured.session.state = .run ∧ captured.clock.stall = none
      ∧ captured.clock.captures.find? (fun c => c.edge = 7) = some ⟨7, 0, 100⟩
      ∧ (250 : Int) = (350 : BitVec 32).toInt - 100 ∧ captured.clock.slew ≤ captured.clock.jump
      ∧ captured.clock.songTime ≤ 2147483647 ∧ (250 : Int) = captured.clock.slew
      ∧ (-50001 : Int) = (0xFFFF3D13 : BitVec 32).toInt - 100 := by decide

theorem witness_PositionEffect_refused :
    Sendable captured 1 .position (8 :: bytesOf 4 (0 : BitVec 32).toNat)
      ∧ (∀ x ∈ captured.clock.captures, x.edge ≠ 8)
      ∧ idle.clock.mode = .localMode ∧ preload.session.state = .preload
      ∧ ({ captured.clock with stall := some 1 } : Clock).stall ≠ none := by decide

/-- P1's tempo map has an entry at the song time and one after it. -/
def mapped : Device :=
  run.onTracker .p1 fun k => { k with map := [⟨48, 1000000, 1000000, 65536⟩, ⟨96, 1000001, 1000001, 65536⟩] }

theorem witness_BeatTrackersMove :
    (∃ g rest, (mapped.tracker .p1).map = g :: rest ∧ (g.rowTime : Int) ≤ mapped.clock.songTime)
      ∧ mapped.session.state = .run ∧ run.playerState .p1 ≠ .off
      ∧ (∀ g rest, (run.tracker .p1).map = g :: rest → run.clock.songTime < g.rowTime) := by
  refine ⟨⟨_, _, rfl, by decide⟩, by decide, by decide, ?_⟩
  intro g rest h
  cases h

/-- Link A with every board OFFLINE in round 1, and with the last board polled. -/
def allOffline : Device :=
  idle.onLink .a fun l => { l with boards := Vector.replicate 6 { Board.reset with state := .offline }, round := 1 }

/-- Link A after its last board, and in the round that follows. -/
def afterLast (l : Link) (round : Nat) (last : Option (Fin 6)) : Link := { l with round := round, last := last }

theorem witness_PollsAndRounds_chosen :
    (idle.link .a).phase = .gap ∧ Chosen (idle.link .a) 0 ∧ Chosen (afterLast (idle.link .a) 1 none) 0 := by decide

theorem witness_PollsAndRounds_noneAbove :
    (allOffline.link .a).enable ≠ 0 ∧ (allOffline.link .a).last = none ∧ NoneAbove (allOffline.link .a)
      ∧ NoneAbove (afterLast (idle.link .a) 0 (some 5)) ∧ NoneAbove (afterLast (allOffline.link .a) 2 none) := by
  decide

theorem witness_PollsAndRounds_sending :
    let d := idle.onLink .a fun l => { l with phase := .sending 3 200 true }
    (d.link .a).phase = .sending 3 200 true ∧ (d.link .a).driverEnable = true ∧ (idle.link .a).driverEnable = false
      ∧ (idle.link .a).phase = .gap := by decide

theorem witness_GoodReportEffect :
    ((polled run online).link .a).phase = .transaction 0 0 24 false ∧ 96 ≤ 4 * 24
      ∧ ((polled run online).link .a).boards[0].state ≠ .disabled ∧ goodFrame (frame 255 0 0 0 0x81) = true
      ∧ (frame 255 0 0 0 0x81).echo.data.toNat = 0
      ∧ Seeding ((polled run online).panel 0) .online true
      ∧ ¬Seeding { (polled run online).panel 0 with sensors := Vector.replicate 4 ⟨some 4080, true, true⟩ } .online
          false := by decide

/-- 05 R71: an even number of ones, its parity bit included, or a low stop bit, makes a character bad. -/
theorem test_goodFrame :
    goodFrame { frame 0 0 0 0 0 with s3 := ⟨3, false, true⟩ } = false
      ∧ goodFrame { frame 0 0 0 0 0 with status := ⟨3, true, false⟩ } = false
      ∧ goodFrame { frame 0 0 0 0 0 with status := ⟨3, true, true⟩ } = true := by decide

theorem witness_MissesAndLateReports :
    let d := polled run { online with misses := 3 }
    (d.link .a).phase = .transaction 0 0 24 false ∧ (d.link .a).boards[0].state ≠ .disabled
      ∧ goodFrame { frame 0 0 0 0 0 with s0 := { char 0 with stop := false } } = false
      ∧ goodFrame { frame 0 0 0 0 0 with echo := char 1 } = true ∧ (char 1).data.toNat ≠ 0
      ∧ ({ d.link .a with missLimit := 4 } : Link).missLimit = 3 + 1 ∧ 4 * 24 < 97
      ∧ ((polled run { online with state := .disabled }).link .a).boards[0].state = .disabled := by decide

theorem witness_StuckExpiryEffect :
    longPressed.press.stuckLimit = 1000000 ∧ longPressed.feeds 0 = none
      ∧ ({ longPressed with mapper := run.mapper } : Device).feeds 0 = some 0
      ∧ ((withLane run [] (.holding ⟨0, none, false⟩)).lane 0).hold ≠ .idle := by decide

theorem witness_PressReachesItsLane :
    (polled run online).session.state = .run ∧ (polled run online).feeds (panelOf .a 0) = some 0
      ∧ ((polled run online).panel (panelOf .a 0)).pressed = false
      ∧ ((polled run online).link .a).phase = .transaction 0 0 24 false := by decide

/-- An AVOID just due, and one that lane time has not reached or has been reached before, on a lane whose panel the next
report presses. -/
theorem witness_PressReachesItsLane_avoid :
    let d := withLane (polled run online) [note .avoid 0 1000000] .idle
    let e := withLane (polled run online) [note .avoid 0 1000001, { note .avoid 0 990000 with reached := true }] .idle
    d.lane 0 = { queue := [note .avoid 0 1000000], hold := .idle } ∧ d.owner 0 = .p1 ∧ d.playerState .p1 = .playing
      ∧ (d.decoder .p1).state ≠ .ended ∧ d.waitsOn .p1 0 = false ∧ d.feeds (panelOf .a 0) = some 0
      ∧ (∀ x, d.feeds x = some 0 → x = panelOf .a 0)
      ∧ ((1000000 : Nat) : Int) ≤ d.clock.songTime + d.clock.offsets.get .a
      ∧ d.clock.songTime + d.clock.offsets.get .a ≤ ((1000000 : Nat) : Int) + (d.judge.avoid.late : Int)
      ∧ (d.record .p1).reachesZero d.score .avoidHit = false
      ∧ (∀ m ∈ (e.lane 0).queue, m.kind = .avoid → m.reached = true ∨ e.laneTime 0 < m.due) := by decide

/-- The report that presses the panel of `witness_PressReachesItsLane_avoid`: its first sensor rises by 40. -/
theorem witness_PressReachesItsLane_pressed :
    let d := (withLane (polled run online) [note .avoid 0 1000000] .idle).onPanel 0 fun x =>
      { x with sensors := Vector.replicate 4 ⟨some 160, false, false⟩ }
    (d.panel 0).pressed = false
      ∧ ((after (.report .a (frame 50 10 10 10 0) 66) d).panel 0).pressed = true := by
  intro d
  have h : after (.report .a (frame 50 10 10 10 0) 66) d
      = (d.endTransaction .a).goodReport .a 0 (frame 50 10 10 10 0) := rfl
  rw [h]
  exact ⟨by decide, (Device.takeGoodReport_pressed _ 0 ⟨#v[50, 10, 10, 10], 0, false, false⟩).trans (by decide)⟩

theorem witness_PressGradesTarget :
    let n := { note .holdStart 3 1000000 with tail := some 1150001 }
    let d := withLane run [note .avoid 1 949999, n] .idle
    d.owner 0 = .p1 ∧ d.session.state = .run ∧ d.playerState .p1 = .playing ∧ (d.decoder .p1).state ≠ .ended
      ∧ (d.lane 0).queue = [note .avoid 1 949999] ++ n :: [] ∧ n.kind ≠ .avoid ∧ (d.lane 0).hold = .idle
      ∧ d.judge.avoid.holds (1000000 - 949999) = false ∧ d.judge.windows.poor.holds (1150000 - 1000000) = true
      ∧ d.judge.windows.gradeOf (1150000 - 1000000) = some .poor
      ∧ (d.record .p1).reachesZero d.score (.graded .poor) = false := by decide

theorem witness_PressWithoutTarget :
    let d := withLane run [note .tap 0 1150001] .idle
    let e := withLane run [note .avoid 0 1050000] .idle
    (d.lane 0).hold = .idle ∧ (1000000 : Int) < (1150001 : Nat) - d.judge.windows.poor.early
      ∧ (e.lane 0).queue = [] ++ note .avoid 0 1050000 :: [] ∧ e.judge.avoid.holds (1000000 - 1050000) = true
      ∧ (e.record .p1).reachesZero e.score .avoidHit = false ∧ (e.decoder .p1).state ≠ .ended := by decide

theorem witness_HoldsMoveAndEnd :
    let h : ActiveHold := ⟨0, some 1000000, false⟩
    let d := withLane run [] (.holding h)
    let e := withLane run [] (.grace h 1000000)
    d.session.state = .run ∧ d.playerState .p1 = .playing ∧ (d.lane 0).hold = .holding h
      ∧ (999999 : Int) < (1000000 : Nat) ∧ (e.lane 0).hold = .grace h 1000000
      ∧ (d.record .p1).reachesZero d.score .held = false ∧ (d.record .p1).reachesZero d.score .letGo = false
      ∧ ((1000000 : Nat) : Int) ≤ d.laneTime 0 ∧ (1000000 : Int) ≤ e.laneTime 0
      ∧ (d.decoder .p1).state ≠ .ended := by decide

theorem witness_SweepMisses :
    let d := withLane run [note .avoid 0 0, note .holdStart 1 849999] .idle
    (d.lane 0).queue = [note .avoid 0 0] ++ note .holdStart 1 849999 :: []
      ∧ ((849999 : Nat) : Int) + d.judge.windows.poor.late < d.laneTime 0
      ∧ (d.record .p1).reachesZero d.score .miss = false
      ∧ ((d.record .p1).apply d.score .stop .miss).reachesZero d.score .letGo = false := by decide

theorem witness_SweepEndsPlayer_fails :
    let d := (withLane run [note .tap 0 849999] .idle).onRecord .p1 fun r => { r with life := 60 }
    (d.record .p1).reachesZero d.score .miss = true ∧ d.session.failPolicy = .stop
      ∧ (d.decoder .p1).state = .decoding ∧ ((849999 : Nat) : Int) + d.judge.windows.poor.late < d.laneTime 0 := by
  decide

theorem witness_SweepEndsPlayer_clears :
    let d := withDecoder (withLane run [note .tap 0 849999] .idle) fun c => { c with state := .ended }
    d.lane 0 = { queue := [note .tap 0 849999], hold := .idle } ∧ (d.decoder .p1).state = .ended
      ∧ (∀ x : LaneQueue, x ≠ 0 → d.owner x = .p1 → d.lane x = { queue := [], hold := .idle })
      ∧ (d.record .p1).reachesZero d.score .miss = false := by decide

theorem witness_AvoidComesDueAndPasses :
    let d := withLane run [note .avoid 0 1000000] .idle
    let e := withLane run [note .avoid 0 949999] .idle
    ((1000000 : Nat) : Int) ≤ d.laneTime 0 ∧ d.feederPressed 0 = false
      ∧ (d.onPanel 0 fun x => { x with pressed := true }).feederPressed 0 = true
      ∧ (d.record .p1).reachesZero d.score .avoidHit = false
      ∧ ((949999 : Nat) : Int) + e.judge.avoid.late < e.laneTime 0 := by decide

theorem witness_HeaderAndRepeatEffect :
    let d := withDecoder preload fun c => { c with buffer := [0x10, 0xFF, 0xFF, 0, 1] }
    (d.decoder .p1).buffer = 0x10 :: 0xFF :: 0xFF :: 0 :: 1 :: [] ∧ (d.decoder .p1).state = .waitHeader
      ∧ (run.decoder .p1).state = .decoding ∧ (run.decoder .p1).pendingRepeat = none := by decide

theorem witness_RowsAndBadTagsEffect_zeroFields :
    let d := withDecoder run fun c => { c with buffer := [0x20, 0, 0, 7] }
    let e := withDecoder run fun c => { c with buffer := [0x4F, 0, 1] }
    (d.decoder .p1).buffer = 0x20 :: 0 :: 0 :: [7] ∧ (e.decoder .p1).buffer = 0x4F :: 0 :: 1 :: []
      ∧ (d.decoder .p1).state = .decoding ∧ (0x20 : Byte).toNat / 16 = 2 ∧ (0x4F : Byte).toNat / 16 = 4
      ∧ d.nextEntry .p1 ≠ none := by decide

theorem witness_RowsAndBadTagsEffect :
    let d := withDecoder preload fun c => { c with buffer := [0x2F, 0xFF, 0xFF], cursor := 16777215 }
    let e := withDecoder run fun c => { c with buffer := [0x34] }
    (d.decoder .p1).buffer = 0x2F :: 0xFF :: 0xFF :: [] ∧ (d.decoder .p1).state = .waitHeader
      ∧ (0x2F : Byte).toNat / 16 = 2 ∧ (e.decoder .p1).buffer = 0x34 :: [] ∧ (e.decoder .p1).state = .decoding
      ∧ (0x34 : Byte).toNat / 16 = 3 ∧ 4 ≤ (0x34 : Byte).toNat % 16 ∧ (0x7F : Byte).toNat / 16 = 7
      ∧ (0xE0 : Byte).toNat / 16 = 14 := by decide

theorem witness_NotesPlaceNotes :
    let d := withDecoder preload fun c =>
      { c with buffer := [0x31, 0, 0x3F], state := .decoding, lastRow := c.lastRow.set 0 (some 0) }
    (d.decoder .p1).state = .decoding ∧ (0x31 : Byte).toNat = 0x30 + 1
      ∧ 0x3F < 2 ^ laneCount d.session.style .p1 ∧ d.playerState .p1 = .joined ∧ d.session.state = .preload
      ∧ (d.decoder .p1).pendingRepeat = none ∧ (∀ k : Fin 12, (d.decoder .p1).openHold[k] = none)
      ∧ (∀ q : LaneQueue, (d.lane q).queue.length < 24)
      ∧ (d.decoder .p1).lastRow[(0 : Fin 12)] = some (d.decoder .p1).cursor := by decide

theorem witness_NotesPlaceNotes_badLane :
    let d := withDecoder preload fun c => { c with buffer := [0x30, 0, 0x7F], state := .decoding }
    (d.decoder .p1).buffer = 0x30 :: 0 :: 0x7F :: [] ∧ 2 ^ laneCount d.session.style .p1 ≤ 0x7F
      ∧ 0x7F - 2 ^ laneCount d.session.style .p1 = 0x3F := by decide

/-- A TAP appended in RUN whose late limit is just not past, and one whose limit is past by one. -/
theorem witness_NotesPlaceNotes_late :
    let d := withDecoder run fun c => { c with buffer := [0x30, 0, 1], rowTime := 850000 }
    let e := withDecoder run fun c => { c with buffer := [0x30, 0, 1], rowTime := 849999 }
    (d.decoder .p1).buffer = 0x30 :: 0 :: 1 :: [] ∧ (d.decoder .p1).state = .decoding ∧ d.session.state = .run
      ∧ (d.decoder .p1).pendingRepeat = none ∧ d.playerState .p1 = .playing
      ∧ queueOf d.session.style .p1 0 = some 0 ∧ (d.decoder .p1).openHold[(0 : Fin 12)] = none
      ∧ (d.decoder .p1).lastRow[(0 : Fin 12)] ≠ some (d.decoder .p1).cursor ∧ (d.lane 0).queue = []
      ∧ d.laneTime 0 ≤ ((850000 : Nat) : Int) + d.judge.windows.poor.late
      ∧ ((849999 : Nat) : Int) + e.judge.windows.poor.late < e.laneTime 0
      ∧ (e.record .p1).reachesZero e.score .miss = false := by decide

/-- 04 R57, 08 R110: a note appended past its late limit counts and is a MISS with LATE_DECODE. -/
theorem test_late_decode :
    let e := after (.notesEntry .p1) (withDecoder run fun c => { c with buffer := [0x30, 0, 1], rowTime := 849999 })
    (e.decoder .p1).taps = 1 ∧ (e.record .p1).counts.miss = 1 ∧ (e.lane 0).queue = []
      ∧ e.ring.records.map (fun x => x.lateDecode) = [true] := by decide

theorem witness_HoldEndGivesTail :
    let d := withLane (withDecoder preload fun c =>
      { c with buffer := [0x32, 0, 1], state := .decoding, openHold := c.openHold.set 0 (some 3) })
      [note .holdStart 3 31250] .idle
    (d.decoder .p1).buffer = 0x32 :: 0 :: 1 :: [] ∧ (0 : Byte).toNat * 256 + (1 : Byte).toNat = 2 ^ 0
      ∧ (d.decoder .p1).openHold[(0 : Fin 12)] = some 3 ∧ queueOf d.session.style .p1 0 = some 0
      ∧ (∃ n ∈ (d.lane 0).queue, n.kind = .holdStart ∧ n.row = 3) := by decide

/-- A hold that is active, before and at its tail; one that has finished; and a lane with no open hold. -/
theorem witness_HoldEndGivesTail_active :
    let d := withLane (withDecoder run fun c =>
      { c with buffer := [0x32, 0, 1], openHold := c.openHold.set 0 (some 3), rowTime := 1000000 })
      [] (.holding ⟨3, none, false⟩)
    let e := d.onDecoder .p1 fun c => { c with rowTime := 1000001 }
    (d.decoder .p1).buffer = 0x32 :: 0 :: 1 :: [] ∧ (d.decoder .p1).openHold[(0 : Fin 12)] = some 3
      ∧ (d.lane 0).hold = .holding ⟨3, none, false⟩ ∧ d.session.state = .run ∧ d.playerState .p1 = .playing
      ∧ (((d.decoder .p1).rowTime : Nat) : Int) ≤ d.laneTime 0 ∧ e.laneTime 0 < (((e.decoder .p1).rowTime : Nat) : Int)
      ∧ (d.record .p1).reachesZero d.score .held = false
      ∧ ((withLane d [] .idle).lane 0).hold.active = none
      ∧ ((withDecoder run fun c => { c with buffer := [0x32, 0, 1] }).decoder .p1).openHold[(0 : Fin 12)] = none := by
  decide

/-- A TAP on the lane of a hold still open, its head queued. -/
theorem witness_HoldEndGivesTail_overlap :
    let d := withLane (withDecoder preload fun c =>
      { c with buffer := [0x30, 0, 1], state := .decoding, openHold := c.openHold.set 0 (some 3), cursor := 9,
               lastRow := c.lastRow.set 0 (some 3) })
      [note .holdStart 3 31250] .idle
    (d.decoder .p1).buffer = 0x30 :: 0 :: 1 :: [] ∧ (d.decoder .p1).state = .decoding ∧ d.session.state = .preload
      ∧ (d.decoder .p1).pendingRepeat = none ∧ d.playerState .p1 = .joined
      ∧ queueOf d.session.style .p1 0 = some 0 ∧ (d.decoder .p1).openHold[(0 : Fin 12)] = some 3
      ∧ (d.decoder .p1).lastRow[(0 : Fin 12)] ≠ some (d.decoder .p1).cursor ∧ (d.lane 0).queue.length < 24
      ∧ (∃ n ∈ (d.lane 0).queue, n.kind = .holdStart ∧ n.row = 3) := by decide

/-- 04 R58: the overlapped hold has a forced tail, and the TAP stands behind it. -/
theorem test_hold_overlap :
    let e := after (.notesEntry .p1) (withLane (withDecoder preload fun c =>
      { c with buffer := [0x30, 0, 1], state := .decoding, openHold := c.openHold.set 0 (some 3), cursor := 9,
               rowTime := 93750, lastRow := c.lastRow.set 0 (some 3) }) [note .holdStart 3 31250] .idle)
    (e.lane 0).queue.map (fun n => (n.tail, n.forcedEnd)) = [(some 93750, true), (none, false)]
      ∧ (e.decoder .p1).faults = FaultKind.holdOverlap.mask := by decide

theorem witness_RepeatExpandsNotes :
    let d := withDecoder preload fun c =>
      { c with buffer := [0x30, 0, 1], state := .decoding, pendingRepeat := some (24, 12), cursor := 5,
               lastRow := c.lastRow.set 0 (some 4) }
    (d.decoder .p1).pendingRepeat = some (24, 12) ∧ (d.lane 0).queue.length + 24 ≤ 24
      ∧ (d.decoder .p1).cursor + (24 - 1) * 12 ≤ 16777215
      ∧ rawDue (d.decoder .p1).segment ((d.decoder .p1).cursor + (24 - 1) * 12) ≤ 2147483647
      ∧ (d.decoder .p1).openHold[(0 : Fin 12)] = none ∧ (d.decoder .p1).lastRow[(0 : Fin 12)] = some 4 := by decide

theorem witness_FullQueueStallsAndReleases :
    let d := withLane (withDecoder run fun c => { c with buffer := [0x30, 0, 1] })
      (List.replicate 24 (note .tap 0 2000000)) .idle
    let e := withDecoder (withLane run (List.replicate 23 (note .tap 0 850000)) .idle) fun c =>
      { c with state := .stalledLane, cursor := 9, rowTime := 850000,
               inHand := some { size := 3, task := .notes [.append 0 (note .tap 9 850000)] } }
    24 ≤ (d.lane 0).queue.length ∧ (d.decoder .p1).lastRow[(0 : Fin 12)] ≠ some (d.decoder .p1).cursor
      ∧ (d.decoder .p1).openHold[(0 : Fin 12)] = none ∧ d.playerState .p1 = .playing
      ∧ (e.lane 0).queue.length < 24 ∧ (e.decoder .p1).state = .stalledLane
      ∧ (∀ m ∈ (e.lane 0).queue, e.laneTime 0 ≤ (m.due : Int) + e.judge.windows.poor.late)
      ∧ e.laneTime 0 ≤ ((850000 : Nat) : Int) + e.judge.windows.poor.late := by decide

/-- 04 R62: a POSITION sweeps two notes of the full queue that the decoder waits on. The stalled note enters after the
first sweep, so it is counted although the second MISS then fails the player. -/
theorem test_retry_between_two_sweeps :
    let d := (withDecoder (withLane captured
        (List.replicate 2 (note .tap 0 850000) ++ List.replicate 22 (note .tap 0 2000000)) .idle) fun c =>
      { c with state := .stalledLane, cursor := 9, rowTime := 2000000,
               inHand := some { size := 3, task := .notes [.append 0 (note .tap 9 2000000)] } }).onRecord .p1
      fun r => { r with life := 100 }
    let e := after (.position 1 (7 :: bytesOf 4 (350 : BitVec 32).toNat)) d
    e.playerState .p1 = .failed ∧ (e.decoder .p1).taps = 1 ∧ (e.lane 0).queue = [] := by decide

theorem witness_TempoAndDwellOffer :
    let d := withDecoder preload fun c => { c with buffer := 0x50 :: bytesOf 4 (65535 : BitVec 32).toNat ++ [1],
                                                    state := .decoding }
    let e := withDecoder preload fun c => { c with buffer := 0x60 :: bytesOf 4 (0 : BitVec 32).toNat,
                                                    state := .decoding, rowTime := 2147483647 }
    let full := d.onTracker .p1 fun k => { k with map := List.replicate 16 Segment.initial }
    (d.decoder .p1).state = .decoding ∧ (0x50 : Byte).toNat / 16 = 5 ∧ (0x60 : Byte).toNat / 16 = 6
      ∧ (d.tracker .p1).map.length < 16 ∧ 16 ≤ (full.tracker .p1).map.length
      ∧ 2147483647 < (e.decoder .p1).rowTime + max 1 (min 0 60000000)
      ∧ (Decoder.stalled { Decoder.reset with inHand := some ⟨5, .offer .initial⟩ } .stalledTempo
          (.offer .initial)).inHand = some ⟨5, .offer .initial⟩ := by decide

/-- A decoder of P1 in RUN stalled with a tempo map entry in hand, and the tempo map as given. -/
def stalledOn (map : List Segment) (g : Segment) : Device :=
  (withDecoder run fun c =>
    { c with state := .stalledTempo, buffer := 0x50 :: bytesOf 4 65536,
             inHand := some { size := 5, task := .offer g } }).onTracker .p1 fun k => { k with map := map }

/-- A segment whose row begins at a time. -/
def segmentAt (time : Nat) : Segment := { row := 48, rowTime := time, segTime := time, period := 65536 }

/-- The map is full; has room behind an entry still to come, with the entry in hand later still; is empty, with the entry
in hand just reached. -/
theorem witness_TempoAndDwellOffer_release :
    let d := stalledOn (List.replicate 16 (segmentAt 1000001)) (segmentAt 1000002)
    let e := stalledOn [segmentAt 1000001] (segmentAt 1000002)
    let f := stalledOn [] (segmentAt 1000000)
    (∀ x ∈ [d, e, f], (x.decoder .p1).state = .stalledTempo ∧ x.session.state = .run)
      ∧ (d.decoder .p1).inHand = some { size := 5, task := .offer (segmentAt 1000002) }
      ∧ 16 ≤ (d.tracker .p1).map.length ∧ (e.tracker .p1).map.length < 16
      ∧ (∀ g ∈ (e.tracker .p1).map, e.clock.songTime < (g.rowTime : Int))
      ∧ e.clock.songTime < ((segmentAt 1000002).rowTime : Int)
      ∧ (f.tracker .p1).map = [] ∧ ((segmentAt 1000000).rowTime : Int) ≤ f.clock.songTime := by decide

/-- 02 R28, 04 R62: in RUN song time reaches the front entry of a full map, which leaves it; then the decoder that waited
goes on, and its entry is the map's last. -/
theorem test_stalled_tempo_is_released :
    let d := stalledOn (segmentAt 1000000 :: List.replicate 15 (segmentAt 1000001)) (segmentAt 1000002)
    let e := after (.tempoEntryReached .p1) d
    let f := after (.stallRelease .p1) e
    d.session.state = .run ∧ after (.stallRelease .p1) d = d ∧ (e.decoder .p1).state = .stalledTempo
      ∧ (e.tracker .p1).map.length = 15 ∧ (f.decoder .p1).state = .decoding ∧ (f.decoder .p1).buffer = []
      ∧ (f.tracker .p1).map.length = 16 ∧ (f.tracker .p1).map.getLast? = some (segmentAt 1000002) := by decide

theorem witness_EndForcesOpenHolds :
    let d := withLane (withDecoder preload fun c =>
      { c with buffer := [0xF5, 0], state := .decoding, openHold := c.openHold.set 0 (some 3) })
      [note .holdStart 3 31250] .idle
    (d.decoder .p1).buffer = 0xF5 :: [0] ∧ (0xF5 : Byte).toNat / 16 = 15 ∧ d.playerState .p1 = .joined
      ∧ (∀ k : Fin 12, (d.decoder .p1).openHold[k].isSome = true → queueOf d.session.style .p1 k ≠ none) := by decide

theorem witness_DiscardDropsEntries :
    let d := withDecoder run fun c => { c with state := .discard, buffer := [0x50, 0, 0, 0xFF, 0xFF] }
    (d.decoder .p1).state = .discard ∧ (d.decoder .p1).buffer = 0x50 :: 0 :: 0 :: 0xFF :: 0xFF :: []
      ∧ (65535 : BitVec 32) = (0 : Byte) ++ (0 : Byte) ++ (0xFF : Byte) ++ (0xFF : Byte) := by decide

/-- ROWS and DWELL in DISCARD, at their clamps. -/
theorem witness_DiscardDropsEntries_position :
    let d := withDecoder run fun c => { c with state := .discard, buffer := [0x20, 0, 1, 9, 9], cursor := 16777215 }
    let e := withDecoder run fun c => { c with state := .discard, buffer := [0x60, 0, 0, 0, 0], rowTime := 2147483647 }
    (d.decoder .p1).buffer = 0x20 :: 0 :: 1 :: 9 :: 9 :: [] ∧ (d.decoder .p1).state = .discard
      ∧ min ((d.decoder .p1).cursor + 1) 16777215 = 16777215
      ∧ (e.decoder .p1).buffer = 0x60 :: 0 :: 0 :: 0 :: 0 :: []
      ∧ (0 : BitVec 32) = (0 : Byte) ++ (0 : Byte) ++ (0 : Byte) ++ (0 : Byte)
      ∧ 2147483647 < (e.decoder .p1).rowTime + max 1 (min 0 60000000) := by decide

theorem witness_ChartWriteFillsBuffer :
    ((preload.port 0).role = .game ∧ ChartOpen preload .p1 ∧ (preload.decoder .p1).state ≠ .ended)
      ∧ ((idle.port 0).role = .game ∧ ¬ChartOpen idle .p1) ∧ (preload.port 1).role ≠ .game
      ∧ ((withDecoder run fun c => { c with state := .ended }).decoder .p1).buffer = [] := by decide

theorem witness_ChartWriteMoments :
    let d := idle.onPort 0 fun x => { x with transaction := some (.chart .p1 .done 512 true false false) }
    (d.port 0).transaction = some (.chart .p1 .done 512 true false false) ∧ 512 ≤ 65535 := by decide

theorem witness_ChartWriteMoments_open :
    let d := idle.onPort 0 fun x => { x with transaction := some (.write 0x02#7 [0]) }
    let e := idle.onPort 0 fun x => { x with transaction := some (.selected 0x04) }
    (d.port 0).transaction = some (.write 0x02#7 [0]) ∧ (e.port 0).transaction = some (.selected 0x04)
      ∧ portOf (.noticeWrite 0 [0, 1]) = some 0 ∧ portOf (.refusedRead 0 .rise) = some 0
      ∧ commandOf 0x7F = some .softReset := by decide

/-- 12 R167, R168: a write from its fall on, clocked in byte by byte, with the status byte and then 0xFF on SDO. -/
theorem test_write_from_the_fall :
    let d := after (.registerWrite 0 0x02#7 .fall) (idle.raise .session)
    let e := after (.registerWrite 0 0x02#7 .header) d
    let f := after (.registerWrite 0 0x02#7 .rise)
      (after (.registerWrite 0 0x02#7 (.byte 1)) (after (.registerWrite 0 0x02#7 (.byte 0)) e))
    idle.sends 0 0 = none ∧ d.sends 0 0 = some 0x80 ∧ e.sends 0 0 = some 0xFF
      ∧ (e.port 0).notices = Notice.session.mask ∧ (f.port 0).notices = 0
      ∧ (f.port 0).result = ⟨0x02, .done, 2⟩ ∧ f.sends 0 0 = none := by decide

theorem witness_NoticeWritesEffect :
    (idle.port 0).transaction = none ∧ ([0, 1] : List Byte).length = 2 ∧ ([0] : List Byte).length ≠ 2 := by decide

theorem witness_RefusedHeadersEffect :
    registerWriteFits 0x00#7 [1] = true ∧ registerWriteFits 0x0A#7 [] = true ∧ registerWriteFits 0x0C#7 [] = true
      ∧ registerWriteFits 0x7F#7 [] = true ∧ registerWriteFits 0x01#7 [] = true
      ∧ registerWriteFits 0x01#7 [0] = true ∧ refusedReadFits 0x01#7 = true ∧ refusedReadFits 0x0C#7 = true
      ∧ (idle.port 0).transaction = none := by decide

/-- CHART_P1 with a full buffer, and with an empty one. -/
theorem witness_ChartReadGivesFreeCount :
    (∀ bytes : List Byte, bytes.length = 512 →
        0 = 512 - ((withDecoder preload fun c => { c with buffer := bytes }).decoder .p1).buffer.length)
      ∧ 512 - (preload.decoder .p1).buffer.length = 512 ∧ (preload.port 0).transaction = none
      ∧ (preload.port 2).transaction = none := by
  refine ⟨fun bytes h => ?_, by decide⟩
  show 0 = 512 - bytes.length
  omega

theorem witness_StatusByteAndSnapshots :
    let d := idle.onPort 0 fun x => { x with transaction := some (.read 0x02#7 [0, 5]) }
    let e := idle.onPort 1 fun x => { x with transaction := some (.selected 0x41) }
    (d.port 0).transaction = some (.read 0x02#7 [0, 5]) ∧ (e.port 1).transaction = some (.selected 0x41)
      ∧ (idle.port 0).transaction = none ∧ (0x07#7 : ChannelField) ≠ 0x06#7 := by decide

/-- 12 R177: a read begun before a soft reset goes on sending the bytes it was given; a RING read then sends 0xFF. -/
theorem test_reads_across_a_soft_reset :
    let d := after (.softReset 0 []) (busy run (.read 0x02#7 [3, 5]) (.ringRead [markRecord .opened .p1] 0 false))
    d.sends 1 1 = some 5 ∧ d.sends 1 2 = some 0xFF ∧ d.sends 2 0 = some 0xFF
      ∧ (after (.refusedRead 1 .rise) d).sends 1 0 = none := by decide

theorem witness_SubscribeEffect :
    Sendable idle 2 .subscribe [0, 0] ∧ Sendable run 1 .subscribe [1, 64] ∧ Sendable idle 0 .subscribe [2, 1]
      ∧ (idle.port 0).transaction = none := by decide

/-- A ring of one record with port 0's cursor on it. -/
def ring1 : Ring :=
  { records := [{ markRecord .opened .p1 with seq := 65535 }], seq := 0, lap := 1,
    subs := #v[some { cursor := some 65535, unread := 1, threshold := 63 }, none, none] }

theorem ring1_law : RingLaw ring1 := by
  refine ⟨⟨by decide, ?_⟩, ?_⟩
  · intro k h
    have hk : k = 0 := by
      have : ring1.records.length = 1 := by decide
      omega
    subst hk
    exact ⟨rfl, by simp [ring1, markRecord]⟩
  · intro i s h
    have hi : i = 0 := by
      revert h
      revert s
      revert i
      decide
    subst hi
    have hs : s = { cursor := some 65535, unread := 1, threshold := 63 } := by
      have : ring1.subs[(0 : Port)] = some { cursor := some 65535, unread := 1, threshold := 63 } := by decide
      rw [this] at h
      cases h
      rfl
    subst hs
    exact ⟨by decide, by decide, by decide, by decide⟩

theorem witness_RingReadAndConsumption :
    let d := { idle with ring := ring1 }
    let x := { markRecord .opened .p1 with seq := 65535 }
    let e := d.onPort 0 fun p => { p with transaction := some (.ringRead [x] 0 false) }
    RingLaw d.ring ∧ RingLaw e.ring ∧ (d.port 0).transaction = none
      ∧ d.ring.subs[(0 : Port)] = some { cursor := some 65535, unread := 1, threshold := 63 }
      ∧ (e.port 0).transaction = some (.ringRead [x] 0 false) ∧ [x][0]? = some x := by
  refine ⟨ring1_law, ring1_law, ?_⟩
  decide

/-- 10 R155: the record that bears the same number 65,536 appends earlier consumes nothing; the one under the cursor is
consumed. -/
theorem test_a_record_of_an_earlier_lap_consumes_nothing :
    let x := { markRecord .opened .p1 with seq := 65535 }
    let r := { ring1 with records := [{ x with lap := 1 }], lap := 2 }
    let s : Subscription := { cursor := some 65535, unread := 1, threshold := 63 }
    s.consume r x = s ∧ s.consume r { x with lap := 1 } = { s with cursor := none, unread := 0 }
      ∧ (ring1.append x).lap = 1 ∧ ({ ring1 with seq := 65535 }.append x).lap = 2 := by decide

theorem witness_RingReadAndConsumption_ends :
    let d := idle.onPort 1 fun x => { x with transaction := some (.ringRead [markRecord .opened .p1] 0 true) }
    let e := idle.onPort 1 fun x => { x with transaction := some (.ringRead [markRecord .opened .p1] 1 false) }
    (d.port 1).transaction = some (.ringRead [markRecord .opened .p1] 0 true)
      ∧ (e.port 1).transaction = some (.ringRead [markRecord .opened .p1] 1 false)
      ∧ [markRecord .opened .p1].length ≤ 1 ∧ idle.ring.subs[(1 : Port)] = none := by decide

/-- 12 R169: the refusal of a RING read comes at the rise of SEL_N. -/
theorem test_ring_read_without_a_cursor :
    let d := after (.ringRead (.header 0)) idle
    d.sends 0 0 = some 0xFF ∧ (d.port 0).result = (idle.port 0).result
      ∧ ((after (.ringRead (.rise 0)) d).port 0).result = ⟨0x06, .noRight, 0⟩ := by decide

/-! ### A state that meets every law, other than reset -/

/-- P1 in RUN with one TAP in LQ0, its panel pressed, its unit counted, and one record in the ring. -/
def lawful : Device :=
  { ((withLane (withDecoder run fun c =>
      { c with cursor := 48, rowTime := 1200000, taps := 1, lastRow := c.lastRow.set 0 (some 48),
               segment := { row := 0, segTime := 700000, period := 2666667 } })
      [note .tap 48 1200000] .idle).onPanel 0 fun x =>
        { x with pressed := true, stuckSince := some 0,
                 sensors := Vector.replicate 4 ⟨some 4080, true, false⟩ }).onLink .a
      (fun l => l.onBoard 0 fun _ => online) with
    score := { ScoreKeeper.reset with
      records := ⟨{ ScoreRecord.reset with life := 500, units := 2, headerUnits := 2, decodedUnits := 1 }, .reset⟩ }
    ring := ring1 }

theorem lawful_session : SessionLaw lawful := by
  refine ⟨fun h => absurd h (by decide), fun h => absurd h (by decide), fun _ => ⟨?_, .p1, by decide⟩,
    fun h => absurd h (by decide), by decide⟩
  intro p; cases p <;> decide

theorem lawful_ring : RingLaw lawful.ring := ring1_law

theorem lawful_capacity : CapacityLaw lawful := by
  refine ⟨by decide, ?_, ?_, by decide, ?_, by decide⟩ <;> (intro p; cases p <;> decide)

theorem lawful_settings : SettingsLaw lawful := by
  refine ⟨by decide, by decide, ?_, ?_, by decide, by decide, by decide, ⟨?_, by decide, by decide, by decide, ?_⟩,
    by decide⟩
  · intro l; cases l <;> decide
  · intro l; cases l <;> decide
  · intro o w h
    cases o with
    | graded g => cases g <;> (cases h; decide)
    | held => cases h; decide
    | miss | letGo | avoidHit | stray => cases h
  · intro o x h
    cases o with
    | graded g => cases g <;> (cases h; decide)
    | held | miss | letGo | avoidHit => cases h; decide
    | stray => cases h

theorem lawful_score : ScoreLaw lawful := by
  refine ⟨?_, by decide⟩
  intro p; cases p <;> (unfold RecordLaw; decide)

theorem lawful_unit : UnitLaw lawful := by
  refine ⟨lawful_settings.2.2.2.2.2.2.2.1.1, ?_⟩
  intro p; cases p <;> decide

theorem lawful_panel : PanelLaw lawful := by
  refine ⟨by decide, by decide, by decide, ?_, by decide, ?_⟩
  · intro p k b h
    have hall : ∀ (p : Panel) (k : Fin 4),
        (lawful.panel p).sensors[k].baseline = none ∨ (lawful.panel p).sensors[k].baseline = some 4080 := by decide
    rcases hall p k with hn | hs
    · rw [hn] at h; cases h
    · rw [hs] at h; cases h; decide
  · intro l; cases l <;> decide

theorem lawful_lane : LaneLaw lawful := by unfold LaneLaw; decide

theorem lawful_map : MapLaw lawful := by unfold MapLaw; decide

theorem lawful_port : PortLaw lawful := by
  refine ⟨by decide, ?_⟩
  intro i p entered full cut reset h
  have hall : ∀ i : Port, (lawful.port i).transaction = none := by decide
  rw [hall i] at h
  cases h

theorem lawful_order : OrderLaw lawful := by
  have hpos : ∀ p, PositionLaw (lawful.decoder p) := by
    intro p
    cases p
    · refine ⟨by decide, by decide, by decide, by decide, ?_⟩
      intro k r h
      have hall : ∀ k : Fin 12, (lawful.decoder .p1).lastRow[k] = none
          ∨ (lawful.decoder .p1).lastRow[k] = some 48 := by decide
      rcases hall k with hn | hs
      · rw [hn] at h; cases h
      · rw [hs] at h; cases h; decide
    · refine ⟨by decide, by decide, by decide, by decide, ?_⟩
      intro k r h
      have hall : ∀ k : Fin 12, (lawful.decoder .p2).lastRow[k] = none := by decide
      rw [hall k] at h; cases h
  refine ⟨fun p => ⟨hpos p, ?_⟩, ?_⟩
  · cases p
    · exact ⟨fun h => absurd h (by decide), fun h => absurd h (by decide)⟩
    · exact ⟨fun h => absurd h (by decide), fun h => absurd h (by decide)⟩
  · intro p lane q h
    have hq : ∀ q : LaneQueue, (lawful.lane q).queue = if q = 0 then [note .tap 48 1200000] else [] := by decide
    rw [hq q]
    by_cases h0 : q = 0
    · subst h0
      have hl : p = .p1 ∧ lane = 0 := by
        revert h; revert lane
        cases p <;> decide
      obtain ⟨rfl, rfl⟩ := hl
      refine ⟨by simp, ?_⟩
      intro n hn
      simp only [if_true, List.mem_singleton] at hn
      subst hn
      exact ⟨by decide, 48, by decide, by decide⟩
    · simp [h0]

/-- The state above with a command in its queue: the step that the laws speak of exists. -/
theorem witness_laws_step :
    ∃ t, step { device := lawful, pending := [.microsecondTick] } = .next t := ⟨_, rfl⟩

theorem witness_SettingsStayLegal :
    lawful.session.state ≠ .idle ∧ (after .microsecondTick lawful).session.state ≠ .idle := by decide

theorem witness_SettingsStayLegal_one : takesTwo lawful .microsecondTick = false := by decide

theorem witness_PortsStayApart : portOf (.noticeWrite 1 []) ≠ some 0 ∧ mayReset idle (.noticeWrite 1 []) = false := by
  decide

theorem witness_SongsOnlyGoForward :
    lawful.songRuns = true ∧ (after .fsyncEdge lawful).songRuns = true ∧ lawful.clock.songTime ≤ 2147483647
      ∧ mayOpen lawful .fsyncEdge = false ∧ mayReset lawful .fsyncEdge = false ∧ (lawful.record .p1).earned ≤ 4294967295
      ∧ lawful.ring.records.length ≤ 64 := by decide

end Sys2Proof.Tests
end

