-- ==== Sys2Proof/Proofs/Moves.lean ====
section
/-!
What the part's own events are made of. Every event of a lane, a chart, a panel, a link or the clock is a chain of
elementary moves: an update that leaves the session, the frozen map and every setting alone, a notice, a record, a header
of a read, and the session controller's two examinations (01 R10, R11). An invariant that each of these keeps is kept by
every event, so no invariant walks through the events again.
-/
namespace Sys2Proof.Safety
open Sys2Proof.Machine

theorem SameSettings.refl (d : Device) : SameSettings d d :=
  ⟨⟨rfl, rfl, rfl, rfl⟩, ⟨rfl, rfl, rfl, rfl, rfl⟩, fun _ => ⟨rfl, rfl, rfl⟩, ⟨fun _ => ⟨rfl, rfl, rfl⟩, rfl⟩,
    ⟨rfl, rfl, rfl⟩, ⟨rfl, rfl, rfl, rfl⟩⟩

theorem SameSettings.trans {d e g : Device} (h : SameSettings d e) (k : SameSettings e g) : SameSettings d g := by
  obtain ⟨hs, hc, hl, ⟨hp, hk⟩, hj, hw⟩ := h
  obtain ⟨ks, kc, kl, ⟨kp, kk⟩, kj, kw⟩ := k
  refine ⟨?_, ?_, fun l => ?_, ⟨fun p => ?_, kk.trans hk⟩, ?_, ?_⟩
  · simp only [ks, hs, and_self]
  · simp only [kc, hc, and_self]
  · simp only [kl l, hl l, and_self]
  · simp only [kp p, hp p, and_self]
  · simp only [kj, hj, and_self]
  · simp only [kw, hw, and_self]

end Sys2Proof.Safety

namespace Sys2Proof.Machine
open Sys2Proof.Safety

/-! ## Elementary moves -/

/-- Every setting stands as it was: those that only IDLE may change, and the lamp mixer's two times (11 R160). -/
structure SettingsKept (d e : Device) : Prop where
  settings  : SameSettings d e
  flashTime : e.lamps.flashTime = d.lamps.flashTime
  beatTime  : e.lamps.beatTime = d.lamps.beatTime

theorem SettingsKept.refl (d : Device) : SettingsKept d d := ⟨.refl d, rfl, rfl⟩

theorem SettingsKept.trans {d e g : Device} (h : SettingsKept d e) (k : SettingsKept e g) : SettingsKept d g :=
  ⟨h.settings.trans k.settings, k.flashTime.trans h.flashTime, k.beatTime.trans h.beatTime⟩

/-- The settings, the session and the frozen map stand as they were. -/
structure Quiet (d e : Device) : Prop extends SettingsKept d e where
  session : e.session = d.session
  frozen  : e.mapper.frozen = d.mapper.frozen

theorem Quiet.refl (d : Device) : Quiet d d := ⟨.refl d, rfl, rfl⟩

theorem Quiet.trans {d e g : Device} (h : Quiet d e) (k : Quiet e g) : Quiet d g :=
  ⟨h.toSettingsKept.trans k.toSettingsKept, k.session.trans h.session, k.frozen.trans h.frozen⟩

/-- An elementary move of the part itself. -/
inductive Move : Device → Device → Prop
  | quiet {d e : Device} (h : Quiet d e) (ring : e.ring = d.ring) (ports : e.ports = d.ports) : Move d e
  | raise (d : Device) (k : Notice) : Move d (d.raise k)
  | append (d : Device) (x : Record) : Move d (d.appendRecord x)
  | header {d : Device} {i : Port} {status : Byte} {channel : ChannelField}
      (h : (d.port i).transaction = some (.heading status channel)) : Move d (d.takeReadHeader i channel)
  | done (d : Device) (p : Player) : Move d (d.examineDone p)
  | report (d : Device) (p : Player) : Move d (d.takeReport p)

/-- A chain of elementary moves. -/
def Moves : Device → Device → Prop := Relation.ReflTransGen Move

theorem Moves.refl (d : Device) : Moves d d := Relation.ReflTransGen.refl

theorem Moves.trans {d e g : Device} (h : Moves d e) (k : Moves e g) : Moves d g := Relation.ReflTransGen.trans h k

theorem Move.moves {d e : Device} (h : Move d e) : Moves d e := Relation.ReflTransGen.single h

theorem Moves.quiet {d e : Device} (h : Quiet d e) (ring : e.ring = d.ring) (ports : e.ports = d.ports) : Moves d e :=
  (Move.quiet h ring ports).moves

/-- What every elementary move keeps, a chain of them keeps. -/
theorem Moves.keeps {P : Device → Prop} (step : ∀ d e, Move d e → P d → P e) {d e : Device} (h : Moves d e)
    (hd : P d) : P e := by
  induction h with
  | refl => exact hd
  | tail _ hm ih => exact step _ _ hm ih

section
variable (d : Device)

theorem Moves.onDecoder (p : Player) (f : Decoder → Decoder) : Moves d (d.onDecoder p f) :=
  .quiet ⟨⟨SameSettings.refl d, rfl, rfl⟩, rfl, rfl⟩ rfl rfl

theorem Moves.onTracker (p : Player) (f : Tracker → Tracker) : Moves d (d.onTracker p f) :=
  .quiet ⟨⟨SameSettings.refl d, rfl, rfl⟩, rfl, rfl⟩ rfl rfl

theorem Moves.onLane (q : LaneQueue) (f : Lane → Lane) : Moves d (d.onLane q f) :=
  .quiet ⟨⟨SameSettings.refl d, rfl, rfl⟩, rfl, rfl⟩ rfl rfl

theorem Moves.onRecord (p : Player) (f : ScoreRecord → ScoreRecord) : Moves d (d.onRecord p f) :=
  .quiet ⟨⟨SameSettings.refl d, rfl, rfl⟩, rfl, rfl⟩ rfl rfl

theorem Moves.countChoice : Moves d d.countChoice := .quiet ⟨⟨SameSettings.refl d, rfl, rfl⟩, rfl, rfl⟩ rfl rfl

theorem Moves.removeNote (q : LaneQueue) (n : Note) : Moves d (d.removeNote q n) := .onLane d q _

theorem Moves.setHold (q : LaneQueue) (h : HoldState) : Moves d (d.setHold q h) := .onLane d q _

theorem Moves.raise (k : Notice) : Moves d (d.raise k) := (Move.raise d k).moves

theorem Moves.appendRecord (x : Record) : Moves d (d.appendRecord x) := (Move.append d x).moves

theorem Moves.examineDone (p : Player) : Moves d (d.examineDone p) := (Move.done d p).moves

theorem Moves.takeReport (p : Player) : Moves d (d.takeReport p) := (Move.report d p).moves

theorem Moves.takeOutcome (p : Player) (o : Outcome) : Moves d (d.takeOutcome p o) := by
  unfold Device.takeOutcome
  split
  · exact .onRecord d p _
  · exact .refl d

/-- Flash and beat timers move on their own. -/
theorem Moves.timers (flash beat : Vector (Option (BitVec 32)) 12) :
    Moves d { d with lamps := { d.lamps with flash := flash, beat := beat } } :=
  .quiet ⟨⟨SameSettings.refl d, rfl, rfl⟩, rfl, rfl⟩ rfl rfl

theorem Moves.flashFor (g : Grade) (q : LaneQueue) : Moves d (d.flashFor g q) := by
  unfold Device.flashFor
  split
  · split
    · exact .refl d
    · exact .timers d _ d.lamps.beat
  · exact .refl d

theorem Moves.headerMayFall (i : Port) : Moves d (d.headerMayFall i) := by
  unfold Device.headerMayFall
  split
  · rename_i h
    split
    · exact (Moves.countChoice d).trans (Move.header (d := d.countChoice) h).moves
    · exact .countChoice d
  all_goals exact .refl d

theorem Moves.headersMayFall : Moves d d.headersMayFall :=
  ((Moves.headerMayFall d 0).trans (.headerMayFall _ 1)).trans (.headerMayFall _ 2)

end

/-! ## Outcomes of the judge -/

section
variable (f : Flow)

theorem Moves.mayReport (p : Player) : Moves f.device (f.mayReport p).device := by
  unfold Flow.mayReport
  split
  · split
    · exact (Moves.countChoice _).trans (.takeReport _ p)
    · exact .countChoice _
  · exact .refl _

theorem Moves.goOn (q : LaneQueue) : Moves f.device (f.goOn q).device := .mayReport f _

theorem Moves.between : Moves f.device f.between.device := by
  unfold Flow.between
  split
  · exact .headersMayFall _
  · exact .refl _

theorem Moves.record (x : Option Record) : Moves f.device (f.record x).device := by
  cases x
  · exact .refl _
  · exact .appendRecord _ _

theorem Moves.flash (q : LaneQueue) (o : Outcome) : Moves f.device (f.flash q o).device := by
  cases o
  case graded g => exact .flashFor _ g q
  all_goals exact .refl _

theorem Moves.outcome (q : LaneQueue) (x : Option Record) (o : Outcome) :
    Moves f.device (f.outcome q x o).device :=
  ((((Moves.mayReport f _).trans (.record _ x)).trans (.mayReport _ _)).trans (.takeOutcome _ _ o)).trans
    (.flash (Flow.score _ _ o) q o)

theorem Moves.handOff (p : Player) : Moves f.device (f.handOff p).device := by
  unfold Flow.handOff
  split
  · split
    · exact (Moves.countChoice _).trans (.examineDone _ p)
    · exact (Moves.countChoice _).trans (.takeReport _ p)
  · exact .examineDone _ p

theorem Moves.finish (p : Player) : Moves f.device (f.finish p) := by
  unfold Flow.finish
  split
  · exact .takeReport _ p
  · exact .refl _

theorem Moves.endHold (q : LaneQueue) (h : ActiveHold) (held : Bool) :
    Moves f.device (f.endHold q h held).device :=
  (((Moves.between f).trans (.setHold _ q .idle)).trans
    (.outcome { f.between with device := f.between.device.setHold q .idle } q _ _)).trans (.handOff _ _)

theorem Moves.sweepNote (q : LaneQueue) (n : Note) : Moves f.device (f.sweepNote q n).device := by
  unfold Flow.sweepNote
  extract_lets g d miss f₁ f₂
  have miss_ : Moves f.device f₁.device :=
    ((Moves.between f).trans (.removeNote g.device q n)).trans (.outcome { g with device := d } q (some miss) .miss)
  have letGo : Moves f₁.device f₂.device := by
    simp only [f₂]
    split
    · exact (Moves.between f₁).trans (.outcome _ q _ _)
    · exact .refl _
  exact (miss_.trans letGo).trans (.handOff _ _)

theorem Moves.hitAvoid (q : LaneQueue) (n : Note) (timed : Option Int) :
    Moves f.device (f.hitAvoid q n timed).device :=
  (((Moves.between f).trans (.removeNote _ q n)).trans
    (.outcome { f.between with device := f.between.device.removeNote q n } q _ _)).trans (.handOff _ _)

theorem Moves.gradeNote (q : LaneQueue) (n : Note) (stamp : Int) :
    Moves f.device (f.gradeNote q n stamp).device := by
  unfold Flow.gradeNote
  extract_lets f₀ o g hold d₁ d₂ x f₁
  have removed : Moves f.device d₂ := by
    refine ((Moves.between f).trans (.removeNote f₀.device q n)).trans ?_
    simp only [d₂]
    split
    · exact .setHold _ q _
    · exact .refl _
  have graded : Moves f.device f₁.device :=
    ((removed.trans (.outcome { f₀ with device := d₂ } q _ _)).trans (.handOff _ _)).trans (.goOn _ q)
  split
  · exact graded.trans (.endHold f₁ q hold true)
  · exact graded

theorem Moves.stray (q : LaneQueue) (hit : Bool) : Moves f.device (f.stray q hit).device := by
  unfold Flow.stray
  split
  · exact .refl _
  · exact (Moves.between f).trans (.outcome _ q none _)

theorem Moves.strike (q : LaneQueue) (stamp : Int) (hit : Bool) (fuel : Nat) :
    Moves f.device (Flow.strike q stamp hit fuel f).device := by
  induction fuel generalizing f with
  | zero => exact .refl _
  | succ fuel ih =>
    unfold Flow.strike
    refine (Moves.goOn f q).trans ?_
    dsimp only
    split
    · split
      · exact .stray _ q hit
      · split
        · exact (Moves.sweepNote _ q _).trans (ih _)
        · split
          · exact .stray _ q hit
          · exact .gradeNote _ q _ stamp
    · exact .refl _

theorem Moves.hitAvoids (q : LaneQueue) (stamp : Int) (notes : List Note) :
    Moves f.device (Flow.hitAvoids q stamp f notes).device := by
  unfold Flow.hitAvoids
  induction notes generalizing f with
  | nil => exact .refl _
  | cons n notes ih =>
    rw [List.foldl_cons]
    refine (Moves.goOn f q).trans (Moves.trans ?_ (ih _))
    dsimp only
    split
    · exact .hitAvoid _ q n _
    · exact .refl _

theorem Moves.meetHold (q : LaneQueue) (stamp : Int) (hit : Bool) :
    Moves f.device (f.meetHold q stamp hit).device := by
  have target : ∀ g : Flow, Moves g.device (g.strikeTarget q stamp hit).device := fun g => .strike g q stamp hit _
  unfold Flow.meetHold
  split
  · exact target f
  · split
    · exact (Moves.endHold f q _ true).trans (target _)
    · exact .setHold _ q _
  · split
    · exact (Moves.endHold f q _ _).trans (target _)
    · split
      · exact (Moves.endHold f q _ true).trans (target _)
      · exact .setHold _ q _

end

/-! ## Events of a lane -/

section
variable (d : Device)

theorem Moves.pressLane (q : LaneQueue) (stamp : Int) : Moves d (d.pressLane q stamp) := by
  unfold Device.pressLane
  split
  · refine Moves.trans ?_ (.finish _ _)
    refine ((Moves.hitAvoids (Flow.start d) q stamp (d.avoidsHit q stamp)).trans (.goOn _ q)).trans ?_
    split
    · exact .meetHold _ q stamp _
    · exact .refl _
  · exact .refl d

theorem Moves.releaseLane (q : LaneQueue) (stamp : Int) : Moves d (d.releaseLane q stamp) := by
  unfold Device.releaseLane
  split
  · split
    · split
      · exact (Moves.endHold (Flow.start d) q _ true).trans (.finish _ _)
      · exact .setHold d q _
    · exact .refl d
    · exact .refl d
  · exact .refl d

theorem Moves.sweepLane (q : LaneQueue) : Moves d (d.sweepLane q) := by
  unfold Device.sweepLane
  split
  · exact .refl d
  · exact (Moves.sweepNote (Flow.start d) q _).trans (.finish _ _)

theorem Moves.reachAvoid (q : LaneQueue) (n : Note) : Moves d (d.reachAvoid q n) := by
  unfold Device.reachAvoid
  split
  · exact (Moves.hitAvoid (Flow.start d) q n none).trans (.finish _ _)
  · exact .onLane d q _

theorem Moves.avoidDueLane (q : LaneQueue) : Moves d (d.avoidDueLane q) := by
  unfold Device.avoidDueLane
  split
  · exact .refl d
  · exact .reachAvoid d q _

theorem Moves.expireAvoid (q : LaneQueue) (n : Note) : Moves d (d.expireAvoid q n) := by
  unfold Device.expireAvoid
  split
  · exact .reachAvoid d q n
  · exact (Moves.removeNote d q n).trans (.examineDone _ _)

theorem Moves.avoidPastLane (q : LaneQueue) : Moves d (d.avoidPastLane q) := by
  unfold Device.avoidPastLane
  split
  · exact .refl d
  · exact .expireAvoid d q _

theorem Moves.tailLane (q : LaneQueue) : Moves d (d.tailLane q) := by
  unfold Device.tailLane
  split
  · exact .refl d
  · exact (Moves.endHold (Flow.start d) q _ true).trans (.finish _ _)

theorem Moves.graceLane (q : LaneQueue) : Moves d (d.graceLane q) := by
  unfold Device.graceLane
  split
  · exact .refl d
  · exact (Moves.endHold (Flow.start d) q _ _).trans (.finish _ _)

theorem Moves.sweepAll (q : LaneQueue) (fuel : Nat) : Moves d (Device.sweepAll q fuel d) := by
  induction fuel generalizing d with
  | zero => exact .refl d
  | succ fuel ih =>
    unfold Device.sweepAll
    split
    · refine (Moves.sweepLane d q).trans (Moves.trans ?_ (ih _))
      split
      · exact .headersMayFall _
      · exact .refl _
    · exact .refl d

theorem Moves.examineAppended (q : LaneQueue) (n : Note) : Moves d (d.examineAppended q n) := by
  unfold Device.examineAppended
  split
  · split
    · exact .sweepAll d q _
    · exact .sweepAll d q _
    · split
      · exact .expireAvoid d q n
      · split
        · exact .reachAvoid d q n
        · exact .refl d
  · exact .refl d

theorem Moves.settleTail (q : LaneQueue) : Moves d (d.settleTail q) := by
  unfold Device.settleTail
  split
  · exact .graceLane d q
  · exact .tailLane d q

theorem Moves.takeTail (q : LaneQueue) (row due : Nat) (forced : Bool) : Moves d (d.takeTail q row due forced) := by
  unfold Device.takeTail
  split
  · exact .onLane d q _
  · split
    · exact .refl d
    · split
      · exact (Moves.setHold d q _).trans (.settleTail _ q)
      · exact .refl d
    · split
      · exact (Moves.setHold d q _).trans (.settleTail _ q)
      · exact .refl d

theorem Moves.takeLaneEvent (q : LaneQueue) (k : LaneEvent) : Moves d (d.takeLaneEvent q k) := by
  cases k
  · exact .sweepLane d q
  · exact .avoidDueLane d q
  · exact .avoidPastLane d q
  · exact .tailLane d q
  · exact .graceLane d q

end

/-! ## Entries of a chart -/

section
variable (d : Device)

theorem Moves.addFault (p : Player) (k : FaultKind) : Moves d (d.addFault p k) := by
  rcases d.addFault_cases p k with ⟨-, e⟩ | ⟨-, e⟩ <;> rw [e]
  · exact .refl d
  · exact (Moves.onDecoder d p _).trans (.raise _ _)

theorem Moves.addFaultIf (p : Player) (k : FaultKind) (cond : Bool) : Moves d (d.addFaultIf p k cond) := by
  unfold Device.addFaultIf
  split
  · exact .addFault d p k
  · exact .refl d

theorem Moves.beatPulse (p : Player) : Moves d (d.beatPulse p) := by
  unfold Device.beatPulse
  split
  · exact .timers d d.lamps.flash _
  · exact .refl d

theorem Moves.recomputeBeat (p : Player) : Moves d (d.recomputeBeat p) := by
  unfold Device.recomputeBeat
  split
  · dsimp only
    split
    · exact (Moves.onTracker d p _).trans (.beatPulse _ p)
    · exact .onTracker d p _
  · exact .refl d

theorem Moves.advanceTracker (p : Player) : Moves d (d.advanceTracker p) := by
  unfold Device.advanceTracker
  split
  · exact (Moves.onTracker d p _).trans (.recomputeBeat _ p)
  · exact .refl d

theorem Moves.moveCursor (p : Player) (row : Nat) : Moves d (d.moveCursor p row) := by
  unfold Device.moveCursor
  exact ((Moves.addFaultIf d p .rowClamped _).trans (.addFaultIf _ p .dueClamped _)).trans (.onDecoder _ p _)

theorem Moves.dropFront (p : Player) (n : Nat) : Moves d (d.dropFront p n) := .onDecoder d p _

theorem Moves.discardAfterEnd (p : Player) : Moves d (d.discardAfterEnd p) := by
  unfold Device.discardAfterEnd
  split
  · exact (Moves.addFault d p _).trans (.onDecoder _ p _)
  · exact .refl d

theorem Moves.firstEntry (p : Player) (isHeader : Bool) : Moves d (d.firstEntry p isHeader) := by
  unfold Device.firstEntry
  split
  · exact (Moves.addFaultIf d p _ _).trans (.onDecoder _ p _)
  · exact .refl d

theorem Moves.dropRepeat (p : Player) : Moves d (d.dropRepeat p) := by
  unfold Device.dropRepeat
  split
  · exact (Moves.addFault d p _).trans (.onDecoder _ p _)
  · exact .refl d

theorem Moves.handTail (p : Player) (lane : Fin 12) (row due : Nat) (forced : Bool) :
    Moves d (d.handTail p lane row due forced) := by
  unfold Device.handTail
  split
  · exact .refl d
  · exact .takeTail d _ row due forced

theorem Moves.clearMark (p : Player) (lane : Fin 12) : Moves d (d.clearMark p lane) := .onDecoder d p _

theorem Moves.handUnits (p : Player) (kind : NoteKind) : Moves d (d.handUnits p kind) := by
  have units (n : Nat) : Moves d (d.takeDecodedUnits p n) := .onRecord d p _
  cases kind
  · exact units _
  · exact units _
  · exact .refl d

theorem Moves.acceptNote (p : Player) (lane : Fin 12) (q : LaneQueue) (n : Note) :
    Moves d (d.acceptNote p lane q n) :=
  (((Moves.onLane d q _).trans (.onDecoder _ p _)).trans (.handUnits _ p _)).trans (.examineAppended _ q _)

theorem Moves.tryAppend {p : Player} {lane : Fin 12} {n : Note} {e : Device} (h : d.tryAppend p lane n = some e) :
    Moves d e := by
  unfold Device.tryAppend at h
  split at h
  · cases h
    exact .refl d
  · split at h
    · cases h
      exact .refl d
    · cases h
    · cases h
      exact .acceptNote d p lane _ n

theorem Moves.endOverlap (p : Player) (lane : Fin 12) (due : Nat) : Moves d (d.endOverlap p lane due) := by
  unfold Device.endOverlap
  split
  · exact .refl d
  · exact ((Moves.addFault d p _).trans (.clearMark _ p lane)).trans (.handTail _ p lane _ _ _)

theorem Moves.placeHoldEnd (p : Player) (lane : Fin 12) : Moves d (d.placeHoldEnd p lane) := by
  unfold Device.placeHoldEnd
  split
  · exact .addFault d p _
  · exact (Moves.clearMark d p lane).trans (.handTail _ p lane _ _ _)

theorem Moves.appendStep (p : Player) (lane : Fin 12) (n : Note) : Moves d (d.appendStep p lane n).device := by
  unfold Device.appendStep
  split
  · rename_i h
    exact .tryAppend d h
  · exact .refl d

theorem Moves.placeNote (p : Player) (kind : NoteKind) (lane : Fin 12) :
    Moves d (d.placeNote p kind lane).device := by
  unfold Device.placeNote
  dsimp only
  split
  · exact .addFault d p _
  · split
    · exact .appendStep d p lane _
    · exact (Moves.endOverlap d p lane _).trans (.appendStep _ p lane _)

theorem Moves.workStep (p : Player) (w : Work) : Moves d (d.workStep p w).device := by
  match w with
  | .moveTo row => exact .moveCursor d p row
  | .place .tap lane => exact .placeNote d p .tap lane
  | .place .holdStart lane => exact .placeNote d p .holdStart lane
  | .place .avoid lane => exact .placeNote d p .avoid lane
  | .place .holdEnd lane => exact .placeHoldEnd d p lane
  | .append lane n => exact .appendStep d p lane n

theorem Moves.runWork (p : Player) (ws : List Work) : Moves d (runWork p ws d) := by
  induction ws generalizing d with
  | nil =>
    unfold Machine.runWork
    split
    · exact .refl d
    · exact .onDecoder d p _
  | cons w ws ih =>
    unfold Machine.runWork
    have taken := Moves.workStep d p w
    split
    · exact .refl d
    · split <;> rename_i h <;> rw [h] at taken
      · exact taken.trans (ih _)
      · exact taken.trans (.onDecoder _ p _)

theorem Moves.offer (p : Player) (s : Segment) : Moves d (d.offer p s) := by
  unfold Device.offer
  split
  · exact (((Moves.onTracker d p _).trans (.onDecoder _ p _)).trans (.onDecoder _ p _)).trans (.advanceTracker _ p)
  · exact .onDecoder d p _

theorem Moves.tempoFaults (p : Player) (period : Nat) : Moves d (d.tempoFaults p period) := .addFaultIf d p _ _

theorem Moves.dwellFaults (p : Player) (length : Nat) : Moves d (d.dwellFaults p length) :=
  (Moves.addFaultIf d p _ _).trans (.addFaultIf _ p _ _)

theorem Moves.forceEnd (p : Player) (lane : Fin 12) : Moves d (Device.forceEnd p d lane) := by
  unfold Device.forceEnd
  split
  · exact .refl d
  · split
    · exact .refl d
    · exact (Moves.clearMark d p lane).trans (.handTail _ p lane _ _ _)

theorem Moves.forceEnds (p : Player) (lanes : List (Fin 12)) : Moves d (lanes.foldl (Device.forceEnd p) d) := by
  induction lanes generalizing d with
  | nil => exact .refl d
  | cons lane lanes ih => exact (Moves.forceEnd d p lane).trans (ih _)

theorem Moves.enterEnded (p : Player) : Moves d (d.enterEnded p) := by
  unfold Device.enterEnded
  split
  · exact .refl d
  · exact ((Moves.onDecoder d p _).trans (.discardAfterEnd _ p)).trans (.examineDone _ p)

theorem Moves.actBadTag (p : Player) : Moves d (d.actBadTag p) := (Moves.addFault d p _).trans (.dropFront _ p _)

theorem Moves.actEntry (p : Player) (e : Entry) : Moves d (d.actEntry p e) := by
  have pre := (Moves.firstEntry d p false).trans (.dropRepeat _ p)
  cases e with
  | header noteTotal holdTotal =>
    simp only [Device.actEntry, Device.actHeader]
    split
    · exact (((Moves.firstEntry d p true).trans (.onDecoder _ p _)).trans (.onRecord _ p _)).trans (.dropFront _ p _)
    · exact ((Moves.dropRepeat d p).trans (.addFault _ p _)).trans (.dropFront _ p _)
  | rows count => exact (pre.trans (.moveCursor _ p _)).trans (.dropFront _ p _)
  | notes kind mask =>
    simp only [Device.actEntry, Device.actNotes]
    split
    · exact (((Moves.firstEntry d p false).trans (.addFaultIf _ p _ _)).trans (.onDecoder _ p _)).trans (.runWork _ p _)
    · exact ((pre.trans (.addFaultIf _ p _ _)).trans (.onDecoder _ p _)).trans (.runWork _ p _)
  | repeated times spacing => exact (pre.trans (.onDecoder _ p _)).trans (.dropFront _ p _)
  | tempo period => exact ((pre.trans (.tempoFaults _ p _)).trans (.onDecoder _ p _)).trans (.offer _ p _)
  | dwell length => exact ((pre.trans (.dwellFaults _ p _)).trans (.onDecoder _ p _)).trans (.offer _ p _)
  | ending => exact ((pre.trans (.onDecoder _ p _)).trans (.forceEnds _ p _)).trans (.enterEnded _ p)
  | badTag => exact .actBadTag d p

theorem Moves.discardEntry (p : Player) (e : Entry) : Moves d (d.discardEntry p e) := by
  cases e with
  | rows count => exact (Moves.moveCursor d p _).trans (.dropFront _ p _)
  | tempo period => exact ((Moves.tempoFaults d p _).trans (.onDecoder _ p _)).trans (.dropFront _ p _)
  | dwell length => exact ((Moves.dwellFaults d p _).trans (.onDecoder _ p _)).trans (.dropFront _ p _)
  | badTag => exact .actBadTag d p
  | header _ _ => exact .dropFront d p _
  | notes _ _ => exact .dropFront d p _
  | repeated _ _ => exact .dropFront d p _
  | ending => exact .dropFront d p _

theorem Moves.takeEntry (p : Player) (e : Entry) : Moves d (d.takeEntry p e) := by
  unfold Device.takeEntry
  split
  · exact .discardEntry d p e
  · exact .actEntry d p e

theorem Moves.takeKind (p : Player) (k : EntryKind) : Moves d (d.takeKind p k) := by
  unfold Device.takeKind
  split
  · exact .refl d
  · split
    · exact .takeEntry d p _
    · exact .refl d

theorem Moves.takeNext (p : Player) : Moves d (d.takeNext p) := by
  unfold Device.takeNext
  split
  · exact .refl d
  · exact .takeEntry d p _

theorem Moves.releaseStall (p : Player) : Moves d (d.releaseStall p) := by
  unfold Device.releaseStall
  split
  · split
    · exact .refl d
    · dsimp only
      split
      · exact (Moves.onDecoder d p _).trans (.runWork _ p _)
      · exact (Moves.onDecoder d p _).trans (.offer _ p _)
  · exact .refl d

theorem Moves.retryAt (q : LaneQueue) : Moves d (d.retryAt q) := by
  unfold Device.retryAt
  split
  · exact .releaseStall d _
  · exact .refl d

end

end Sys2Proof.Machine
end

