-- ==== Sys2Proof/Proofs/EventMoves.lean ====
section
/-!
The events of the panels, the links and the clock as chains of elementary moves, the events of one instant among them.
-/
namespace Sys2Proof.Machine
open Sys2Proof.Safety

section
variable (d : Device)

/-! ## Updates of a panel, of a link and of the clock -/

theorem Moves.onPanel (p : Panel) (f : PanelPress → PanelPress)
    (hf : ∀ x, (f x).press = x.press ∧ (f x).release = x.release ∧ (f x).quorum = x.quorum) :
    Moves d (d.onPanel p f) := by
  obtain ⟨song, clock, links, ⟨-, limit⟩, judge, score⟩ := SameSettings.refl d
  refine .quiet ⟨⟨⟨song, clock, links, ⟨fun q => ?_, limit⟩, judge, score⟩, rfl, rfl⟩, rfl, rfl⟩ rfl rfl
  rw [Device.panel_onPanel]
  split
  · exact hf _
  · exact ⟨rfl, rfl, rfl⟩

theorem Moves.onLink (l : Stage) (f : Link → Link)
    (hf : ∀ x, (f x).enable = x.enable ∧ (f x).replyLimit = x.replyLimit ∧ (f x).missLimit = x.missLimit) :
    Moves d (d.onLink l f) := by
  obtain ⟨song, clock, -, press, judge, score⟩ := SameSettings.refl d
  refine .quiet ⟨⟨⟨song, clock, fun m => ?_, press, judge, score⟩, rfl, rfl⟩, rfl, rfl⟩ rfl rfl
  rw [Device.link_onLink]
  split
  · rename_i h
    rw [h]
    exact hf _
  · exact ⟨rfl, rfl, rfl⟩

theorem Moves.clock (c : Clock) (hc : c.mode = d.clock.mode ∧ c.slew = d.clock.slew ∧ c.jump = d.clock.jump
    ∧ c.syncTimeout = d.clock.syncTimeout ∧ c.offsets = d.clock.offsets) : Moves d { d with clock := c } := by
  obtain ⟨song, -, rest⟩ := SameSettings.refl d
  exact .quiet ⟨⟨⟨song, hc, rest⟩, rfl, rfl⟩, rfl, rfl⟩ rfl rfl

/-! ## Panels -/

theorem Moves.raceAvoids (q : LaneQueue) (fuel : Nat) : Moves d (Device.raceAvoids q fuel d) := by
  induction fuel generalizing d with
  | zero => exact .refl d
  | succ fuel ih =>
    unfold Device.raceAvoids
    split
    · split
      · exact (((Moves.countChoice d).trans (.avoidDueLane _ q)).trans (.retryAt _ q)).trans
          ((Moves.headersMayFall _).trans (ih _))
      · exact .countChoice d
    · exact .refl d

theorem Moves.routePress (p : Panel) : Moves d (d.routePress p) := by
  unfold Device.routePress
  split
  · exact .refl d
  · exact (Moves.raceAvoids d _ _).trans (.pressLane _ _ _)

theorem Moves.routeRelease (p : Panel) : Moves d (d.routeRelease p) := by
  unfold Device.routeRelease
  split
  · exact .refl d
  · exact .releaseLane d _ _

theorem Moves.countPress (p : Panel) : Moves d (d.countPress p) := .onPanel d p _ fun _ => ⟨rfl, rfl, rfl⟩

theorem Moves.stopStuck (p : Panel) : Moves d (d.stopStuck p) := .onPanel d p _ fun _ => ⟨rfl, rfl, rfl⟩

theorem Moves.pressChange (p : Panel) (before : Bool) : Moves d (d.pressChange p before) := by
  unfold Device.pressChange
  split
  · exact (Moves.countPress d p).trans (.routePress _ p)
  · exact (Moves.stopStuck d p).trans (.routeRelease _ p)
  · exact .refl d
  · exact .refl d

/-- A report leaves a panel's calibration alone (06 R87). -/
theorem PanelPress.afterReport_calibration (x : PanelPress) (r : GoodReport) :
    (x.afterReport r).press = x.press ∧ (x.afterReport r).release = x.release
      ∧ (x.afterReport r).quorum = x.quorum := by
  unfold PanelPress.afterReport
  split
  · exact ⟨rfl, rfl, rfl⟩
  · dsimp only
    split <;> exact ⟨rfl, rfl, rfl⟩

theorem Moves.takeGoodReport (p : Panel) (r : GoodReport) : Moves d (d.takeGoodReport p r) := by
  unfold Device.takeGoodReport
  refine (Moves.onPanel d p _ fun x => x.afterReport_calibration r).trans (Moves.trans ?_ (.pressChange _ p _))
  split
  · exact .raise _ _
  · exact .refl _

theorem Moves.takeBoardLost (p : Panel) : Moves d (d.takeBoardLost p) :=
  (Moves.onPanel d p PanelPress.forcedUp fun _ => ⟨rfl, rfl, rfl⟩).trans (.pressChange _ p _)

theorem Moves.expireStuck (p : Panel) : Moves d (d.expireStuck p) := by
  unfold Device.expireStuck
  split
  · split
    · exact .onPanel d p _ fun _ => ⟨rfl, rfl, rfl⟩
    · refine (((Moves.onPanel d p _ ?_).trans (.pressChange _ p _)).trans (.raise _ _)).trans (.stopStuck _ p)
      exact fun _ => ⟨rfl, rfl, rfl⟩
  · exact .refl d

theorem Moves.expireAllStuck : Moves d d.expireAllStuck := by
  unfold Device.expireAllStuck
  induction allPanels generalizing d with
  | nil => exact .refl d
  | cons p ps ih => exact (Moves.expireStuck d p).trans (ih _)

/-! ## Links -/

/-- The choice of a board in a round that has just begun keeps the link's settings. -/
theorem Link.chooseFresh_settings (x : Link) (level : Fin 6 → Byte) :
    (x.chooseFresh level).enable = x.enable ∧ (x.chooseFresh level).replyLimit = x.replyLimit
      ∧ (x.chooseFresh level).missLimit = x.missLimit := by
  unfold Link.chooseFresh
  split <;> exact ⟨rfl, rfl, rfl⟩

theorem Link.chooseInNextRound_settings (x : Link) (level : Fin 6 → Byte) :
    (x.chooseInNextRound level).enable = x.enable ∧ (x.chooseInNextRound level).replyLimit = x.replyLimit
      ∧ (x.chooseInNextRound level).missLimit = x.missLimit := by
  unfold Link.chooseInNextRound
  split
  · exact ⟨rfl, rfl, rfl⟩
  · exact x.nextRound.chooseFresh_settings level

theorem Link.choose_settings (x : Link) (level : Fin 6 → Byte) :
    (x.choose level).enable = x.enable ∧ (x.choose level).replyLimit = x.replyLimit
      ∧ (x.choose level).missLimit = x.missLimit := by
  unfold Link.choose
  split
  · exact ⟨rfl, rfl, rfl⟩
  · split
    · exact ⟨rfl, rfl, rfl⟩
    · split
      · exact x.nextRound.chooseFresh_settings level
      · exact ⟨rfl, rfl, rfl⟩

theorem Link.endPoll_settings (x : Link) :
    x.endPoll.enable = x.enable ∧ x.endPoll.replyLimit = x.replyLimit ∧ x.endPoll.missLimit = x.missLimit := by
  unfold Link.endPoll
  split <;> exact ⟨rfl, rfl, rfl⟩

theorem Moves.beginPoll (l : Stage) : Moves d (d.beginPoll l) := by
  unfold Device.beginPoll
  split
  · exact .onLink d l _ fun x => x.choose_settings _
  · exact .refl d

theorem Moves.endPoll (l : Stage) : Moves d (d.endPoll l) := .onLink d l _ Link.endPoll_settings

theorem Moves.pollTransfer (x : PollTransfer) : Moves d (d.pollTransfer x) := by
  cases x with
  | whole l =>
    simp only [Device.pollTransfer]
    split
    · exact (Moves.beginPoll d l).trans (.endPoll _ l)
    · exact .refl d
  | begins l => exact .beginPoll d l
  | ends l => exact .endPoll d l

theorem Moves.endEmptyRound (l : Stage) : Moves d (d.endEmptyRound l) := by
  unfold Device.endEmptyRound
  split
  · exact .onLink d l _ fun x => x.chooseInNextRound_settings _
  · exact .refl d

theorem Moves.wakeLink (l : Stage) (wasSilent : Bool) : Moves d (d.wakeLink l wasSilent) := by
  unfold Device.wakeLink
  split
  · exact .onLink d l _ fun x => x.chooseInNextRound_settings _
  · exact .refl d

theorem Moves.miss (l : Stage) (a : Fin 6) : Moves d (d.miss l a) := by
  have missed : Moves d (d.onLink l fun x => x.onBoard a fun b => b.missed x.missLimit) :=
    .onLink d l _ fun _ => ⟨rfl, rfl, rfl⟩
  unfold Device.miss
  dsimp only
  split
  · exact (missed.trans (.raise _ _)).trans (.takeBoardLost _ _)
  · exact missed

theorem Moves.parityMiss (l : Stage) (a : Fin 6) : Moves d (d.parityMiss l a) := by
  unfold Device.parityMiss
  refine ((Moves.onLink d l _ ?_).trans (.raise _ _)).trans (.miss _ l a)
  exact fun _ => ⟨rfl, rfl, rfl⟩

theorem Moves.goodReport (l : Stage) (a : Fin 6) (f : ReportFrame) : Moves d (d.goodReport l a f) := by
  unfold Device.goodReport
  refine (Moves.onLink d l _ ?_).trans (.takeGoodReport _ _ _)
  exact fun _ => ⟨rfl, rfl, rfl⟩

theorem Moves.judgeReport (l : Stage) (a : Fin 6) (f : ReportFrame) : Moves d (d.judgeReport l a f) := by
  unfold Device.judgeReport
  split
  · exact .parityMiss d l a
  · split
    · exact .miss d l a
    · exact .goodReport d l a f

theorem Moves.endTransaction (l : Stage) : Moves d (d.endTransaction l) := .onLink d l _ fun _ => ⟨rfl, rfl, rfl⟩

theorem Moves.receiveReport (l : Stage) (f : ReportFrame) (quarters : Nat) :
    Moves d (d.receiveReport l f quarters) := by
  unfold Device.receiveReport
  split
  case h_2 =>
    split
    · split
      · exact .endTransaction d l
      · exact (Moves.endTransaction d l).trans (.judgeReport _ l _ f)
    · exact .refl d
  all_goals exact .refl d

theorem Moves.passDeadline (l : Stage) : Moves d (d.passDeadline l) := by
  unfold Device.passDeadline
  split
  case h_2 =>
    split
    · exact .endTransaction d l
    · exact (Moves.endTransaction d l).trans (.miss _ l _)
  all_goals exact .refl d

/-! ## The clock -/

theorem Moves.endStall : Moves d d.endStall := by
  unfold Device.endStall
  split
  · exact .clock d _ ⟨rfl, rfl, rfl, rfl, rfl⟩
  · exact .refl d

theorem Moves.edge : Moves d d.edge := by
  unfold Device.edge
  dsimp only
  split
  · refine (Moves.clock d _ ?_).trans (.raise _ _)
    exact ⟨rfl, rfl, rfl, rfl, rfl⟩
  · exact .clock d _ ⟨rfl, rfl, rfl, rfl, rfl⟩

theorem Moves.loseSync : Moves d d.loseSync := by
  unfold Device.loseSync
  split
  · refine (Moves.clock d _ ?_).trans (.raise _ _)
    exact ⟨rfl, rfl, rfl, rfl, rfl⟩
  · exact .refl d

theorem Moves.reachTempo (p : Player) : Moves d (d.reachTempo p) := by
  unfold Device.reachTempo
  split
  · exact .advanceTracker d p
  · exact .refl d

theorem Moves.crossBeat (p : Player) : Moves d (d.crossBeat p) := by
  unfold Device.crossBeat
  split
  · exact .recomputeBeat d p
  · exact .refl d

/-- A correction moves song time, the stall and the captures alone (02 R21, R23). -/
theorem Clock.corrected_settings (c : Clock) (x : Correction) :
    (c.corrected x).mode = c.mode ∧ (c.corrected x).slew = c.slew ∧ (c.corrected x).jump = c.jump
      ∧ (c.corrected x).syncTimeout = c.syncTimeout ∧ (c.corrected x).offsets = c.offsets := by
  cases x <;> exact ⟨rfl, rfl, rfl, rfl, rfl⟩

theorem Moves.correct (x : Capture) (reported : Int) : Moves d (d.correct x reported) := by
  unfold Device.correct
  extract_lets k d₁ d₂
  have corrected : Moves d d₁ := .clock d _ (d.clock.corrected_settings k)
  have noticed : Moves d₁ d₂ := by
    simp only [d₂]
    split
    · exact .refl _
    · exact .raise _ _
  exact ((corrected.trans noticed).trans (.advanceTracker _ .p1)).trans (.advanceTracker _ .p2)

/-- A microsecond moves the free counter, song time and the stall alone (02 R16, R17, R24). -/
theorem Clock.tick_settings (c : Clock) (runs : Bool) :
    (c.tick runs).mode = c.mode ∧ (c.tick runs).slew = c.slew ∧ (c.tick runs).jump = c.jump
      ∧ (c.tick runs).syncTimeout = c.syncTimeout ∧ (c.tick runs).offsets = c.offsets := by
  unfold Clock.tick
  dsimp only
  split
  · split <;> exact ⟨rfl, rfl, rfl, rfl, rfl⟩
  · exact ⟨rfl, rfl, rfl, rfl, rfl⟩

/-! ## The events of one instant -/

theorem Moves.endFlash (p : Panel) : Moves d (d.endFlash p) := by
  unfold Device.endFlash
  split
  · exact .timers d _ d.lamps.beat
  · exact .refl d

theorem Moves.endBeatPulse (p : Panel) : Moves d (d.endBeatPulse p) := by
  unfold Device.endBeatPulse
  split
  · exact .timers d d.lamps.flash _
  · exact .refl d

theorem Moves.takeEvent (e : Event) : Moves d (d.takeEvent e) := by
  cases e with
  | lane k q => exact .takeLaneEvent d q k
  | stallEnd => exact .endStall d
  | syncTimeout => exact .loseSync d
  | tempo p => exact .reachTempo d p
  | beat p => exact .crossBeat d p
  | stuck p => exact .expireStuck d p
  | flashEnd p => exact .endFlash d p
  | beatPulseEnd p => exact .endBeatPulse d p
  | entry p => exact .takeNext d p
  | stallRelease p => exact .releaseStall d p

theorem Moves.settle (due : Device → List Event) (fuel : Nat) : Moves d (settle due fuel d) :=
  settle_induct due Moves .refl .trans .countChoice .headersMayFall (fun _ e x _ _ => .takeEvent e x) fuel d

theorem Moves.settleLanes : Moves d d.settleLanes := .settle d _ _

theorem Moves.microsecond : Moves d d.microsecond :=
  (Moves.settle d _ _).trans (.clock d.settleAll _ (Clock.tick_settings _ _))

end

end Sys2Proof.Machine
end

