-- ==== Sys2Proof/Proofs/StepChanges.lean ====
section
/-!
What a step can do, said once: every step is a chain of changes, each of them one that leaves the session, the frozen map
and the settings alone, or one of the part's own events, or a command handed to its block, or a power-on reset.
-/
namespace Sys2Proof.Machine
open Sys2Proof.Safety

/-! ## What the ports do besides handing commands on -/

section
variable (d : Device) (i : Port)

theorem Quiet.onPort (f : PortState → PortState) : Quiet d (d.onPort i f) :=
  ⟨⟨SameSettings.refl d, rfl, rfl⟩, rfl, rfl⟩

theorem Quiet.onDecoder (p : Player) (f : Decoder → Decoder) : Quiet d (d.onDecoder p f) :=
  ⟨⟨SameSettings.refl d, rfl, rfl⟩, rfl, rfl⟩

theorem Quiet.raise (k : Notice) : Quiet d (d.raise k) := ⟨⟨SameSettings.refl d, rfl, rfl⟩, rfl, rfl⟩

theorem Quiet.appendRecord (x : Record) : Quiet d (d.appendRecord x) := ⟨⟨SameSettings.refl d, rfl, rfl⟩, rfl, rfl⟩

theorem Quiet.setResult (channel : BitVec 6) (code : ResultCode) (n : Nat) : Quiet d (d.setResult i channel code n) :=
  .onPort d i _

theorem Quiet.addFault (p : Player) (k : FaultKind) : Quiet d (d.addFault p k) := by
  rcases d.addFault_cases p k with ⟨-, e⟩ | ⟨-, e⟩ <;> rw [e]
  · exact .refl d
  · exact (Quiet.onDecoder d p _).trans (.raise _ _)

theorem Quiet.noticeTaken (data : List Byte) : Quiet d (d.noticeTaken i data) := by
  unfold Device.noticeTaken
  split
  · exact (Quiet.onPort d i _).trans (.setResult _ i _ _ _)
  · exact .setResult d i _ _ _

theorem Quiet.maskTaken (data : List Byte) : Quiet d (d.maskTaken i data) := by
  unfold Device.maskTaken
  split
  · exact (Quiet.onPort d i _).trans (.setResult _ i _ _ _)
  · exact .setResult d i _ _ _

theorem Quiet.lampTaken (data : List Byte) : Quiet d (d.lampTaken i data) := by
  have written : Quiet d { d with lamps := d.lamps.written data } := ⟨⟨SameSettings.refl d, rfl, rfl⟩, rfl, rfl⟩
  unfold Device.lampTaken
  split
  · exact written.trans (.setResult _ i _ _ _)
  · exact .setResult d i _ _ _

theorem Quiet.bufferByte (p : Player) (b : Byte) : Quiet d (d.bufferByte p b) := by
  unfold Device.bufferByte Device.discardAfterEnd
  refine (Quiet.onDecoder d p fun c => { c with buffer := c.buffer ++ [b] }).trans ?_
  split
  · exact (Quiet.addFault _ p _).trans (.onDecoder _ p _)
  · exact .refl _

theorem Quiet.chartByte (b : Byte) : Quiet d (d.chartByte i b) := by
  unfold Device.chartByte
  split
  · split
    · exact (Quiet.bufferByte d _ b).trans (.onPort _ i _)
    · exact .onPort d i _
  · exact .refl d

theorem Quiet.chartRise : Quiet d (d.chartRise i) := by
  unfold Device.chartRise
  split
  case h_1 =>
    dsimp only
    split
    · exact .onPort d i _
    · exact (Quiet.onPort d i _).trans (.setResult _ i _ _ _)
  all_goals exact .refl d

theorem Quiet.chartTaken (p : Player) (data : List Byte) : Quiet d (d.chartTaken i p data) := by
  have bytes (e : Device) : Quiet e (data.foldl (fun d b => d.chartByte i b) e) := by
    induction data generalizing e with
    | nil => exact .refl e
    | cons b data ih => exact (Quiet.chartByte e i b).trans (ih _)
  exact ((Quiet.onPort d i _).trans (bytes _)).trans (.chartRise _ i)

theorem Quiet.readTaken (channel : ChannelField) : Quiet d (d.readTaken i channel) := by
  unfold Device.readTaken
  split
  · split
    · exact .setResult d i _ _ _
    · exact .refl d
  · exact .setResult d i _ _ _

/-- A write of another channel than COMMAND hands no command on (12 R170). -/
theorem Device.writeTaken_cases (channel : ChannelField) (data : List Byte) :
    channel = 0x01#7 ∧ d.writeTaken i channel data = d.commandBytesTaken i data
      ∨ Quiet d (d.writeTaken i channel data) := by
  unfold Device.writeTaken
  split
  case h_1 h => exact .inl ⟨BitVec.eq_of_toNat_eq h, rfl⟩
  case h_2 => exact .inr (.noticeTaken d i data)
  case h_3 => exact .inr (.maskTaken d i data)
  case h_4 => exact .inr (.chartTaken d i _ data)
  case h_5 => exact .inr (.chartTaken d i _ data)
  case h_6 => exact .inr (.lampTaken d i data)
  case h_7 => exact .inr (.setResult d i _ _ _)

/-- A rise of SEL_N hands a command on only where a write of COMMAND is in progress (12 R167, R170). -/
theorem Device.rise_cases :
    (∃ data, (d.port i).transaction = some (.write 0x01#7 data)
        ∧ d.rise i = (d.onPort i fun p => { p with transaction := none }).commandBytesTaken i data)
      ∨ Quiet d (d.rise i) := by
  have closed : Quiet d (d.onPort i fun p => { p with transaction := none }) := .onPort d i _
  unfold Device.rise
  dsimp only
  split
  case h_4 channel data h =>
    rcases Device.writeTaken_cases (d.onPort i fun p => { p with transaction := none }) i channel data with
      ⟨rfl, e⟩ | quiet
    · exact .inl ⟨data, h, e⟩
    · exact .inr (closed.trans quiet)
  case h_5 channel _ _ => exact .inr (closed.trans (.readTaken _ i channel))
  case h_6 => exact .inr (.chartRise d i)
  all_goals exact .inr closed

end

/-! ## Chains of changes -/

/-- A change of the part. Unless `opens` holds, no OPEN_SONG is handed to a session controller in IDLE, so no song
opens. -/
inductive Change (opens : Prop) : Device → Device → Prop
  | quiet {d e : Device} (h : Quiet d e) : Change opens d e
  | moves {d e : Device} (h : Moves d e) : Change opens d e
  | hand (d : Device) (i : Port) (c : Command) (fields : List Byte)
      (h : opens ∨ c ≠ .openSong ∨ d.session.state ≠ .idle) : Change opens d (handCommand i c fields d).2
  | powerOn (d : Device) (s : Straps) : Change opens d (d.powerOn s)

/-- A chain of changes. -/
def Changes (opens : Prop) : Device → Device → Prop := Relation.ReflTransGen (Change opens)

section
variable {opens : Prop} {d e : Device}

theorem Changes.refl (d : Device) : Changes opens d d := Relation.ReflTransGen.refl

theorem Changes.trans {g : Device} (h : Changes opens d e) (k : Changes opens e g) : Changes opens d g :=
  Relation.ReflTransGen.trans h k

theorem Change.changes (h : Change opens d e) : Changes opens d e := Relation.ReflTransGen.single h

theorem Changes.quiet (h : Quiet d e) : Changes opens d e := (Change.quiet h).changes

theorem Changes.moves (h : Moves d e) : Changes opens d e := (Change.moves h).changes

/-- What every change keeps, a chain of them keeps. -/
theorem Changes.keeps {P : Device → Prop} (step : ∀ d e, Change opens d e → P d → P e) (h : Changes opens d e)
    (hd : P d) : P e := by
  induction h with
  | refl => exact hd
  | tail _ hm ih => exact step _ _ hm ih

variable (d) (i : Port)

/-- A known command at its rise: refused by the port, or handed to its block (12 R171). -/
theorem Changes.commandTaken (c : Command) (fields : List Byte)
    (h : opens ∨ c ≠ .openSong ∨ d.session.state ≠ .idle) : Changes opens d (d.commandTaken i c fields) := by
  unfold Device.commandTaken
  split
  · exact .quiet (.setResult d i _ _ _)
  · refine (Change.hand d i c fields h).changes.trans ?_
    unfold leaveResult
    split
    · exact .refl _
    · exact .quiet (.setResult _ i _ _ _)

theorem Changes.commandBytesTaken (data : List Byte) (h : opens ∨ d.session.state ≠ .idle) :
    Changes opens d (d.commandBytesTaken i data) := by
  unfold Device.commandBytesTaken
  split
  · exact .quiet (.setResult d i _ _ _)
  · split
    · exact .quiet (.setResult d i _ _ _)
    · exact .commandTaken d i _ _ (h.imp_right .inr)

theorem Changes.rise (h : opens ∨ d.session.state ≠ .idle) : Changes opens d (d.rise i) := by
  rcases d.rise_cases i with ⟨data, -, e⟩ | quiet
  · rw [e]
    exact (Changes.quiet (.onPort d i _)).trans (.commandBytesTaken _ i data h)
  · exact .quiet quiet

/-- A command that finds no open write of COMMAND on its port, or no command that could open a song, is the only one of
its step (notes/assumptions 8). -/
theorem Device.rise_stays (h : opens ∨ d.session.state ≠ .idle)
    (alone : opens ∨ ∀ data, (d.port i).transaction ≠ some (.write 0x01#7 data)) :
    opens ∨ (d.rise i).session.state ≠ .idle := by
  rcases h with h | h
  · exact .inl h
  · refine alone.imp_right fun none_open => ?_
    rcases d.rise_cases i with ⟨data, open_, -⟩ | quiet
    · exact absurd open_ (none_open data)
    · rwa [quiet.session]

end

/-! ## The step -/

/-- A command that takes no second one with it and could bring the OPEN event finds no open write of COMMAND on its
port. -/
theorem not_endsCommand {d : Device} {c : Instr} {i : Port} (hc : portOf c = some i) (h : endsCommand d c = false)
    (data : List Byte) : (d.port i).transaction ≠ some (.write 0x01#7 data) := by
  intro open_
  simp [endsCommand, hc, open_] at h

/-- An answer changes the device alone. -/
theorem answer_next {s t : State} {f : Device → Device} (h : answer s f = .next t) : t.device = f s.device := by
  cases h
  rfl

section
variable {opens : Prop} {d : Device} {i : Port}

theorem Changes.openSong (fields : List Byte) (h : opens ∨ d.session.state ≠ .idle)
    (one : opens ∨ takesTwo d (.openSong i fields) = false) : Changes opens d (d.command i .openSong fields) := by
  have alone := one.imp_right fun one =>
    not_endsCommand (d := d) (c := .openSong i fields) rfl (by simpa [takesTwo] using one)
  exact (Changes.rise d i h).trans (.commandTaken _ i _ fields ((d.rise_stays i h alone).imp_right .inr))

theorem Changes.command {c : Command} (fields : List Byte) (hc : c ≠ .openSong)
    (h : opens ∨ d.session.state ≠ .idle) : Changes opens d (d.command i c fields) :=
  (Changes.rise d i h).trans (.commandTaken _ i c fields (.inr (.inl hc)))

theorem Changes.riseThen {e : Device} (h : opens ∨ d.session.state ≠ .idle) (quiet : Quiet (d.rise i) e) :
    Changes opens d e := (Changes.rise d i h).trans (.quiet quiet)

theorem Changes.fall (h : opens ∨ d.session.state ≠ .idle) : Changes opens d (d.fall i) := .riseThen h (.onPort _ i _)

theorem Changes.readHeader (channel : ChannelField) (h : opens ∨ d.session.state ≠ .idle) :
    Changes opens d (d.readHeader i channel) := .riseThen h (.onPort _ i _)

theorem Changes.headingRead (channel : ChannelField) (h : opens ∨ d.session.state ≠ .idle) :
    Changes opens d (d.headingRead i channel) := by
  unfold Device.headingRead
  split
  · exact .quiet (.onPort d i _)
  all_goals exact .riseThen h (.onPort _ i _)

theorem Quiet.byteIn (d : Device) (i : Port) (b : Byte) : Quiet d (d.byteIn i b) := by
  unfold Device.byteIn
  split
  · exact .onPort d i _
  · exact .chartByte d i b
  all_goals exact .refl d

theorem Changes.chartTransfer (x : ChartTransfer) (h : opens ∨ d.session.state ≠ .idle) :
    Changes opens d (d.chartTransfer i x) := by
  cases x with
  | whole p data => exact .riseThen h (.chartTaken _ i p data)
  | header p => exact .riseThen h (.onPort _ i _)
  | byte b => exact .quiet (.chartByte d i b)
  | rise => exact .quiet (.chartRise d i)

theorem Changes.writeTransfer (channel : ChannelField) (x : WriteTransfer) (h : opens ∨ d.session.state ≠ .idle)
    (one : opens ∨ takesTwo d (.registerWrite i channel x) = false) :
    Changes opens d (d.writeTransfer i channel x) := by
  cases x with
  | whole data =>
    refine (Changes.rise d i h).trans (?_ : Changes opens _ ((d.rise i).writeTaken i channel data))
    rcases Device.writeTaken_cases (d.rise i) i channel data with ⟨rfl, e⟩ | quiet
    · have alone := one.imp_right fun one =>
        not_endsCommand (d := d) (c := .registerWrite i 0x01#7 (.whole data)) rfl
          (by simpa [takesTwo, spellsCommand] using one)
      rw [e]
      exact .commandBytesTaken _ i data (d.rise_stays i h alone)
    · exact .quiet quiet
  | fall => exact .fall h
  | header =>
    refine .riseThen (i := i) h ?_
    simp only [Device.writeTransfer, Device.writeHeader]
    split <;> exact .onPort _ i _
  | byte b => exact .quiet (.byteIn d i b)
  | rise => exact .rise d i h

theorem Changes.readTransfer (x : ReadTransfer) (h : opens ∨ d.session.state ≠ .idle) :
    Changes opens d (d.readTransfer i x) := by
  cases x with
  | whole channel => exact .riseThen h (.readTaken _ i channel)
  | fall => exact .fall h
  | heading channel => exact .headingRead channel h
  | header channel => exact .readHeader channel h
  | rise => exact .rise d i h

theorem Changes.ringTransfer (x : RingTransfer) (h : opens ∨ d.session.state ≠ .idle) :
    Changes opens d (d.ringTransfer x) := by
  cases x with
  | whole i => exact .riseThen h (.readTaken _ i _)
  | heading i => exact .headingRead _ h
  | header i => exact .readHeader _ h
  | rise i => exact .rise d i h

theorem Quiet.recordSent (d : Device) (i : Port) : Quiet d (d.recordSent i) := by
  unfold Device.recordSent
  split
  · split
    · exact .refl d
    · exact ⟨⟨SameSettings.refl d, rfl, rfl⟩, rfl, rfl⟩
  · exact .refl d

end

/-- Every command is a chain of changes; none of them opens a song where the session is not in IDLE before and the command
does not take another with it. -/
theorem exec_changes {opens : Prop} {c : Instr} {s t : State} (h : exec c s = .next t)
    (song : opens ∨ s.device.session.state ≠ .idle) (one : opens ∨ takesTwo s.device c = false) :
    Changes opens s.device t.device := by
  cases c with
  | openSong i fields => rw [answer_next h]; exact .openSong fields song one
  | start i fields | abort i fields | close i fields | position i fields | setSync i fields | setStage i fields
  | setPanel i fields | setMap i fields | setWindows i fields | setScoring i fields | setLife i fields
  | setLamps i fields | subscribe i fields | unsubscribe i fields | softReset i fields =>
    rw [answer_next h]
    exact .command fields (by decide) song
  | chartWrite i x => rw [answer_next h]; exact .chartTransfer x song
  | noticeWrite i data => rw [answer_next h]; exact .riseThen song (.noticeTaken _ i data)
  | noticeMaskWrite i data => rw [answer_next h]; exact .riseThen song (.maskTaken _ i data)
  | lampWrite i data => rw [answer_next h]; exact .riseThen song (.lampTaken _ i data)
  | registerWrite i channel x => rw [answer_next h]; exact .writeTransfer channel x song one
  | ringRead x => rw [answer_next h]; exact .ringTransfer x song
  | ringRecordConsumed i => rw [answer_next h]; exact .quiet (.recordSent _ i)
  | powerOnReset straps => rw [answer_next h]; exact (Change.powerOn _ straps).changes
  | fsyncEdge => rw [answer_next h]; exact .moves (.edge _)
  | microsecondTick => rw [answer_next h]; exact .moves (.microsecond _)
  | stallEnd => rw [answer_next h]; exact .moves (.endStall _)
  | syncTimeout => rw [answer_next h]; exact .moves (.loseSync _)
  | tempoEntryReached p => rw [answer_next h]; exact .moves (.reachTempo _ p)
  | beatCrossing p => rw [answer_next h]; exact .moves (.crossBeat _ p)
  | poll x => rw [answer_next h]; exact .moves (.pollTransfer _ x)
  | emptyRound l => rw [answer_next h]; exact .moves (.endEmptyRound _ l)
  | report l frame quarters => rw [answer_next h]; exact .moves (.receiveReport _ l frame quarters)
  | replyDeadline l => rw [answer_next h]; exact .moves (.passDeadline _ l)
  | stuckExpiry p => rw [answer_next h]; exact .moves (.expireStuck _ p)
  | sweep q => rw [answer_next h]; exact .moves (.sweepLane _ q)
  | avoidDue q => rw [answer_next h]; exact .moves (.avoidDueLane _ q)
  | avoidPastWindow q => rw [answer_next h]; exact .moves (.avoidPastLane _ q)
  | tailReached q => rw [answer_next h]; exact .moves (.tailLane _ q)
  | graceExpiry q => rw [answer_next h]; exact .moves (.graceLane _ q)
  | flashEnd p => rw [answer_next h]; exact .moves (.endFlash _ p)
  | beatPulseEnd p => rw [answer_next h]; exact .moves (.endBeatPulse _ p)
  | headerEntry p | rowsEntry p | notesEntry p | repeatEntry p | tempoEntry p | dwellEntry p | endEntry p | badTag p =>
    rw [answer_next h]
    exact .moves (.takeKind _ p _)
  | stallRelease p => rw [answer_next h]; exact .moves (.releaseStall _ p)
  | refusedRead i x => rw [answer_next h]; exact .readTransfer x song

/-- Every step is a chain of changes. -/
theorem step_changes {opens : Prop} {s t : State} (h : step s = .next t)
    (song : opens ∨ s.device.session.state ≠ .idle)
    (one : opens ∨ ∀ c rest, s.pending = c :: rest → takesTwo s.device c = false) :
    Changes opens s.device t.device := by
  unfold step at h
  split at h
  · cases h
    exact .refl _
  · rename_i c rest pending
    exact exec_changes (s := { s with pending := rest }) h song (one.imp_right fun one => one c rest pending)

end Sys2Proof.Machine
end

