-- ==== Sys2Proof/Proofs/SessionLaw.lean ====
section
/-!
The agreement of the session state, the player states and the frozen map (O52): one lemma for each way to establish it,
and one for each change of a step.
-/
namespace Sys2Proof.Safety
open Sys2Proof.Machine

/-! ## The law in each session state -/

section
variable {d e : Device}

theorem SessionLaw.of_idle (state : d.session.state = .idle) (players : ∀ p, d.playerState p = .off)
    (frozen : d.mapper.frozen = none) : SessionLaw d := by
  simp [SessionLaw, Device.songRuns, state, players, frozen]

theorem SessionLaw.of_preload (state : d.session.state = .preload)
    (players : ∀ p, d.playerState p = if d.session.named.get p then .joined else .off)
    (some_joined : ∃ p, d.playerState p = .joined) (frozen : d.mapper.frozen = none) : SessionLaw d := by
  simp only [SessionLaw, Device.songRuns, state, frozen]
  exact ⟨nofun, fun _ => ⟨players, some_joined⟩, nofun, nofun, rfl⟩

theorem SessionLaw.of_run (state : d.session.state = .run)
    (players : ∀ p, d.playerState p ≠ .joined ∧ (d.playerState p = .off ↔ d.session.named.get p = false))
    (some_playing : ∃ p, d.playerState p = .playing) (frozen : d.mapper.frozen.isSome = true) : SessionLaw d := by
  simp only [SessionLaw, Device.songRuns, state, frozen]
  exact ⟨nofun, nofun, fun _ => ⟨players, some_playing⟩, nofun, rfl⟩

theorem SessionLaw.of_ended (state : d.session.state = .ended)
    (players : ∀ p, d.playerState p ≠ .joined ∧ (d.playerState p = .off ↔ d.session.named.get p = false))
    (none_playing : ∀ p, d.playerState p ≠ .playing) (frozen : d.mapper.frozen.isSome = true) : SessionLaw d := by
  simp only [SessionLaw, Device.songRuns, state, frozen]
  exact ⟨nofun, nofun, nofun, fun _ p => ⟨(players p).1, none_playing p, (players p).2⟩, rfl⟩

/-- The law speaks of the session and of whether a map is frozen alone. -/
theorem SessionLaw.congr (h : SessionLaw d) (session : e.session = d.session)
    (frozen : e.mapper.frozen.isSome = d.mapper.frozen.isSome) : SessionLaw e := by
  simpa only [SessionLaw, Device.playerState, Device.songRuns, session, frozen] using h

/-- Outside RUN and ENDED no map is frozen. -/
theorem SessionLaw.frozen_none (h : SessionLaw d) (state : d.songRuns = false) : d.mapper.frozen = none := by
  obtain ⟨-, -, -, -, frozen⟩ := h
  rw [state] at frozen
  exact Option.isSome_eq_false_iff.1 frozen |> Option.isNone_iff_eq_none.1

/-- A player is PLAYING in RUN alone. -/
theorem SessionLaw.run_of_playing {p : Player} (h : SessionLaw d) (hp : d.playerState p = .playing) :
    d.session.state = .run := by
  obtain ⟨idle, preload, -, ended, -⟩ := h
  cases state : d.session.state with
  | idle => rw [idle state p] at hp; cases hp
  | preload => rw [(preload state).1 p] at hp; split at hp <;> cases hp
  | run => rfl
  | ended => exact absurd hp (ended state p).2.1

/-! ## The session controller -/

theorem SessionLaw.quiet (h : SessionLaw d) (q : Quiet d e) : SessionLaw e := h.congr q.session (by rw [q.frozen])

/-- A player who was PLAYING is out of play, and the end of the song is then examined (01 R10, R11, R13). -/
theorem SessionLaw.examineEnd_of_left {p : Player} {x : PlayerState} (h : SessionLaw d)
    (hp : d.playerState p = .playing) (hx : x = .cleared ∨ x = .failed)
    (session : e.session = (d.setPlayer p x).session) (frozen : e.mapper = d.mapper) : SessionLaw e.examineEnd := by
  have state := h.run_of_playing hp
  obtain ⟨-, -, run, -, map⟩ := h
  obtain ⟨players, -⟩ := run state
  have estate : e.session.state = .run := by rw [session]; exact state
  have player (r : Player) : e.playerState r = if r = p then x else d.playerState r := by
    rw [Device.playerState, session]
    exact Device.playerState_setPlayer d p r x
  have named : e.session.named = d.session.named := by rw [session]; rfl
  have efrozen : e.mapper.frozen.isSome = true := by rw [frozen, map, Device.songRuns, state]; rfl
  have eplayers (r : Player) :
      e.playerState r ≠ .joined ∧ (e.playerState r = .off ↔ e.session.named.get r = false) := by
    have off := (players p).2
    rw [hp] at off
    rw [player, named]
    split
    · rename_i hr
      rw [hr, ← off]
      rcases hx with rfl | rfl <;> simp
    · exact players r
  rcases e.examineEnd_cases with ⟨-, p1, p2, he⟩ | ⟨some_playing, he⟩ <;> rw [he]
  · have all : ∀ r, e.playerState r ≠ .playing := fun r => by cases r <;> assumption
    exact .of_ended rfl eplayers all efrozen
  · refine .of_run estate eplayers ?_ efrozen
    by_contra none_playing
    exact some_playing ⟨estate, fun h => none_playing ⟨_, h⟩, fun h => none_playing ⟨_, h⟩⟩

theorem SessionLaw.examineDone (h : SessionLaw d) (p : Player) : SessionLaw (d.examineDone p) := by
  rcases d.examineDone_cases p with ⟨done, e⟩ | ⟨-, e⟩ <;> rw [e]
  · have playing : d.playerState p = .playing := by
      simp only [Device.doneHolds, Bool.and_eq_true, decide_eq_true_eq] at done
      exact done.1.1
    exact h.examineEnd_of_left (p := p) (x := .cleared) playing (.inl rfl) rfl rfl
  · exact h

theorem SessionLaw.takeReport (h : SessionLaw d) (p : Player) : SessionLaw (d.takeReport p) := by
  rcases d.takeReport_cases p with ⟨fails, e⟩ | ⟨-, e⟩ <;> rw [e]
  · have playing : d.playerState p = .playing := by
      simp only [Device.wouldFail, Bool.and_eq_true, decide_eq_true_eq] at fails
      exact fails.1
    exact h.examineEnd_of_left (p := p) (x := .failed) playing (.inr rfl) rfl rfl
  · exact h

/-- Every event of the part keeps the law. -/
theorem SessionLaw.moves (h : SessionLaw d) (m : Moves d e) : SessionLaw e := by
  refine m.keeps (P := SessionLaw) (fun a b move law => ?_) h
  cases move with
  | quiet q _ _ => exact law.quiet q
  | raise k => exact law.quiet (.raise a k)
  | append x => exact law.quiet (.appendRecord a x)
  | header _ => exact law.quiet (.onPort a _ _)
  | done p => exact law.examineDone p
  | report p => exact law.takeReport p

/-! ## The session commands -/

/-- OPEN_SONG names at least one player (01 R4). -/
theorem SessionLaw.openSong (h : SessionLaw d) (fields : List Byte) : SessionLaw (openSong fields d).2 := by
  unfold Machine.openSong
  split
  · exact h
  · rename_i idle
    split
    · exact h
    · rename_i fits
      generalize u8 fields 0 = style, u8 fields 1 = mask, u8 fields 2 = policy at fits
      have frozen : d.mapper.frozen = none := h.frozen_none (by simp [Device.songRuns, not_not.1 idle])
      have named : ∃ p, ((⟨mask.testBit 0, mask.testBit 1⟩ : PerPlayer Bool)).get p = true := by
        simp only [openSongBad, Bool.or_eq_true, decide_eq_true_eq, not_or] at fits
        obtain ⟨⟨⟨-, small⟩, nonzero⟩, -⟩ := fits
        have : mask = 1 ∨ mask = 2 ∨ mask = 3 := by omega
        rcases this with rfl | rfl | rfl
        · exact ⟨.p1, rfl⟩
        · exact ⟨.p2, rfl⟩
        · exact ⟨.p1, rfl⟩
      have players (p : Player) : (d.openWith (.opened style mask policy (u32 fields 3))).playerState p
          = if (⟨mask.testBit 0, mask.testBit 1⟩ : PerPlayer Bool).get p then .joined else .off := by
        cases p <;> rfl
      obtain ⟨p, hp⟩ := named
      exact .of_preload rfl players ⟨p, (players p).trans (if_pos hp)⟩ frozen

end

end Sys2Proof.Safety

namespace Sys2Proof.Machine

@[simp] theorem Device.freezeMap_session (d : Device) : d.freezeMap.session = d.session := by
  unfold Device.freezeMap
  dsimp only
  split <;> rfl

@[simp] theorem Device.freezeMap_mapper (d : Device) : d.freezeMap.mapper = d.computeMap := by
  unfold Device.freezeMap
  dsimp only
  split <;> rfl

@[simp] theorem Device.startSong_session (d : Device) : d.startSong.session = d.session.started :=
  Device.freezeMap_session _

theorem Device.startSong_frozen (d : Device) : d.startSong.mapper.frozen.isSome = true := by
  rw [show d.startSong.mapper = _ from Device.freezeMap_mapper _]
  rfl

theorem Device.startSong_player (d : Device) (p : Player) :
    d.startSong.playerState p = (d.playerState p).started := by
  rw [Device.playerState, Device.startSong_session]
  cases p <;> rfl

end Sys2Proof.Machine

namespace Sys2Proof.Safety
open Sys2Proof.Machine

section
variable {d : Device}

/-- START makes the named players PLAYING and freezes a map (01 R5, 07 R104). -/
theorem SessionLaw.startSong (h : SessionLaw d) (state : d.session.state = .preload) : SessionLaw d.startSong := by
  obtain ⟨-, preload, -, -, -⟩ := h
  obtain ⟨players, q, joined⟩ := preload state
  refine .of_run (by rw [Device.startSong_session]; rfl) (fun p => ?_) ⟨q, ?_⟩ d.startSong_frozen
  · rw [Device.startSong_player, players, Device.startSong_session]
    change _ ∧ (_ ↔ d.session.named.get p = false)
    cases d.session.named.get p <;> decide
  · rw [Device.startSong_player, joined]
    rfl

theorem SessionLaw.start (h : SessionLaw d) : SessionLaw (start d).2 := by
  unfold Machine.start
  split
  · exact h
  · rename_i preload
    dsimp only
    exact (((h.startSong (not_not.1 preload)).examineDone .p1).examineDone .p2).moves (.settleLanes _)

/-- ABORT and CLOSE leave every player OFF and no map (01 R7, R8). -/
theorem SessionLaw.returnToIdle (d : Device) : SessionLaw d.returnToIdle :=
  .of_idle rfl (fun p => by cases p <;> rfl) rfl

theorem SessionLaw.abort (h : SessionLaw d) : SessionLaw (abort d).2 := by
  unfold Machine.abort
  split
  · exact h
  · exact ((SessionLaw.returnToIdle d).quiet (.appendRecord _ _)).quiet (.raise _ _)

theorem SessionLaw.close (h : SessionLaw d) : SessionLaw (close d).2 := by
  unfold Machine.close
  split
  · exact h
  · exact (SessionLaw.returnToIdle d).quiet (.raise _ _)

end

end Sys2Proof.Safety

namespace Sys2Proof.Machine
open Sys2Proof.Safety

/-! ## The settings commands and POSITION -/

section
variable (d : Device)

theorem Moves.setLink (l : Stage) (enable : BitVec 6) (replyLimit missLimit : Nat) :
    Moves (d.onLink l fun x => x.withSettings enable replyLimit missLimit)
      (d.setLink l enable replyLimit missLimit) := by
  have lost (as : List (Fin 6)) (e : Device) : Moves e (as.foldl (fun d a => d.takeBoardLost (panelOf l a)) e) := by
    induction as generalizing e with
    | nil => exact .refl e
    | cons a as ih => exact (Moves.takeBoardLost e _).trans (ih _)
  exact (lost _ _).trans (.wakeLink _ l _)

theorem Moves.position (fields : List Byte) : Moves d (position fields d).2 := by
  unfold Machine.position
  split
  · exact .refl d
  · dsimp only
    exact (Moves.correct d _ _).trans (.settleLanes _)

/-- The part as SET_PANEL writes it, before the stuck expiries that a lowered limit brings (06 R87). -/
def Device.calibrated (d : Device) (fields : List Byte) : Device :=
  let c := clampedCalibration (u8 fields 1) (u8 fields 2) (u8 fields 3)
  { d with press := {
      panels := Vector.ofFn fun i =>
        if u8 fields 0 = 0xFF ∨ u8 fields 0 = i.val then d.press.panels[i].calibrated c.1 c.2.1 c.2.2
        else d.press.panels[i]
      stuckLimit := clampNat 1000000 60000000 (u32 fields 4) } }

/-- SET_PANEL leaves the part alone, or writes the calibration and takes every stuck expiry it brings (06 R87, R96). -/
theorem setPanel_cases (fields : List Byte) :
    (setPanel fields d).2 = d ∨ (setPanel fields d).2 = (d.calibrated fields).expireAllStuck := by
  simp only [setPanel, Device.calibrated]
  split
  · exact .inl rfl
  · split
    · exact .inl rfl
    · right
      dsimp only

/-- What rests on the session and the frozen map alone, and every event of the part keeps, a settings command, a
SUBSCRIBE, an UNSUBSCRIBE and a POSITION keep. -/
theorem handCommand_keeps {P : Device → Prop}
    (congr : ∀ a b : Device, b.session = a.session → b.mapper.frozen = a.mapper.frozen → P a → P b)
    (moves : ∀ a b, Moves a b → P a → P b) (i : Port) (c : Command) (fields : List Byte)
    (hc : c ∉ [.openSong, .start, .abort, .close, .softReset]) (h : P d) : P (handCommand i c fields d).2 := by
  have same (e : Device) (session : e.session = d.session) (frozen : e.mapper.frozen = d.mapper.frozen) : P e :=
    congr d e session frozen h
  have linked (e : Device) (l : Stage) (enable : BitVec 6) (reply miss : Nat) (he : P e) :
      P (e.setLink l enable reply miss) := moves _ _ (.setLink e l enable reply miss) (congr e _ rfl rfl he)
  cases c with
  | openSong | start | abort | close | softReset => simp at hc
  | position => exact moves _ _ (.position d fields) h
  | setSync =>
    simp only [handCommand, setSync]
    split
    · exact h
    · split
      · exact h
      · exact same _ rfl rfl
  | setStage =>
    simp only [handCommand, setStage]
    split
    · exact h
    · split
      · exact h
      · exact linked _ .b _ _ _ (linked _ .a _ _ _ (same _ rfl rfl))
  | setPanel =>
    simp only [handCommand]
    rcases setPanel_cases d fields with e | e <;> rw [e]
    · exact h
    · exact moves _ _ (.expireAllStuck _) (same _ rfl rfl)
  | setMap =>
    simp only [handCommand, setMap]
    split_ifs
    · exact h
    · exact same _ rfl rfl
    · exact same _ rfl rfl
    · exact h
  | setWindows =>
    have judge (x : Judge) : P { d with judge := x } := same _ rfl rfl
    simp only [handCommand, setWindows]
    split_ifs
    · exact h
    · exact h
    · exact judge _
  | setScoring =>
    simp only [handCommand, setScoring]
    split_ifs
    · exact h
    · exact same _ rfl rfl
  | setLife =>
    simp only [handCommand, setLife]
    split_ifs
    · exact h
    · exact same _ rfl rfl
  | setLamps => exact same _ rfl rfl
  | subscribe =>
    simp only [handCommand, ringSubscribe]
    split_ifs
    · exact h
    · exact same _ rfl rfl
  | unsubscribe => exact same _ rfl rfl

/-- What follows a soft reset at once: silent links woken, and stuck expiries (05 R86, 06 R96). -/
theorem Moves.softReset : Moves d.softResetBlocks d.softReset :=
  ((Moves.wakeLink d.softResetBlocks .a _).trans (.wakeLink _ .b _)).trans (.expireAllStuck _)

/-- A power-on reset leaves every block at its reset value, but for a notice of the ports (12 R173, R176). -/
theorem Quiet.powerOn (s : Straps) :
    Quiet { Device.reset (portsOf (grantedRoles s)) with choices := d.choices } (d.powerOn s) := by
  unfold Device.powerOn
  dsimp only
  split
  · exact .refl _
  · exact .raise _ _

end

end Sys2Proof.Machine

namespace Sys2Proof.Safety
open Sys2Proof.Machine

/-! ## The step -/

theorem SessionLaw.softResetBlocks (d : Device) : SessionLaw d.softResetBlocks :=
  .of_idle rfl (fun p => by cases p <;> rfl) rfl

theorem SessionLaw.handCommand {d : Device} (h : SessionLaw d) (i : Port) (c : Command) (fields : List Byte) :
    SessionLaw (handCommand i c fields d).2 := by
  by_cases hc : c ∈ [.openSong, .start, .abort, .close, .softReset]
  · simp only [List.mem_cons, List.not_mem_nil, or_false] at hc
    rcases hc with rfl | rfl | rfl | rfl | rfl
    · exact h.openSong fields
    · exact h.start
    · exact h.abort
    · exact h.close
    · simp only [Machine.handCommand]
      exact (SessionLaw.softResetBlocks d).moves (.softReset d)
  · exact handCommand_keeps d (fun _ _ session frozen law => law.congr session (by rw [frozen]))
      (fun _ _ m law => law.moves m) i c fields hc h

theorem SessionLaw.change {opens : Prop} {d e : Device} (h : SessionLaw d) (c : Change opens d e) : SessionLaw e := by
  cases c with
  | quiet q => exact h.quiet q
  | moves m => exact h.moves m
  | hand i c fields _ => exact h.handCommand i c fields
  | powerOn s =>
    refine SessionLaw.quiet (.of_idle rfl (fun p => ?_) rfl) (.powerOn d s)
    cases p <;> rfl

end Sys2Proof.Safety

section
open Sys2Proof.Machine Sys2Proof.Safety

/-- Settles O52: every change of a step keeps the law. -/
theorem sessionStaysLegal : Obligations.SessionStaysLegal := fun _ _ h law =>
  (step_changes (opens := True) h (.inl trivial) (.inl trivial)).keeps (fun _ _ c law => law.change c) law

end
end

