-- ==== Sys2Proof/Proofs/SettingsLaw.lean ====
section
/-!
Every setting stays in its range, and outside IDLE as it is (O54): what each change of a step does to the settings.
-/
namespace Sys2Proof.Machine
open Sys2Proof.Safety

/-! ## What leaves the settings alone -/

/-- What an event at the judge leaves alone holds every setting. -/
theorem LaneFrame.settingsKept {d e : Device} (h : LaneFrame d e) : SettingsKept d e := by
  refine ⟨⟨⟨h.style, h.named, h.failPolicy, h.leadIn⟩, ?_, fun l => ?_, ⟨fun p => ?_, ?_⟩,
    ⟨h.windows, h.avoid, h.holdGrace⟩, ⟨h.weights, h.comboFloor, h.lifeStart, h.deltas⟩⟩, h.flashTime, h.beatTime⟩
  · rw [h.clock]
    exact ⟨rfl, rfl, rfl, rfl, rfl⟩
  · rw [Device.link, h.links]
    exact ⟨rfl, rfl, rfl⟩
  · rw [Device.panel, h.press]
    exact ⟨rfl, rfl, rfl⟩
  · rw [h.press]

theorem Move.settingsKept {d e : Device} (h : Move d e) : SettingsKept d e := by
  cases h with
  | quiet q _ _ => exact q.toSettingsKept
  | raise k => exact (Quiet.raise d k).toSettingsKept
  | append x => exact (Quiet.appendRecord d x).toSettingsKept
  | header _ => exact (Quiet.onPort d _ _).toSettingsKept
  | done p => exact (LaneFrame.examineDone d p).settingsKept
  | report p => exact (LaneFrame.takeReport d p).settingsKept

/-- No event of the part moves a setting. -/
theorem Moves.settingsKept {d e : Device} (h : Moves d e) : SettingsKept d e := by
  induction h with
  | refl => exact .refl d
  | tail _ hm ih => exact ih.trans hm.settingsKept

/-- START leaves the settings alone; it moves the session state, the players, the clock and the map (01 R5). -/
theorem SettingsKept.startSong (d : Device) : SettingsKept d d.startSong := by
  have freeze (e : Device) : SettingsKept e e.freezeMap := by
    unfold Device.freezeMap
    dsimp only
    split <;> exact ⟨SameSettings.refl e, rfl, rfl⟩
  have started : SettingsKept d { d with session := d.session.started, clock := d.clock.started d.session.leadIn } :=
    ⟨SameSettings.refl d, rfl, rfl⟩
  exact ((started.trans (freeze _)).trans (Quiet.appendRecord _ _).toSettingsKept).trans (Quiet.raise _ _).toSettingsKept

theorem SettingsKept.start (d : Device) : SettingsKept d (start d).2 := by
  unfold Machine.start
  split
  · exact .refl d
  · dsimp only
    exact (SettingsKept.startSong d).trans
      (((Moves.examineDone _ .p1).trans (.examineDone _ .p2)).trans (.settleLanes _)).settingsKept

theorem SettingsKept.returnToIdle (d : Device) : SettingsKept d d.returnToIdle := ⟨SameSettings.refl d, rfl, rfl⟩

theorem SettingsKept.abort (d : Device) : SettingsKept d (abort d).2 := by
  unfold Machine.abort
  split
  · exact .refl d
  · exact ((SettingsKept.returnToIdle d).trans (Quiet.appendRecord _ _).toSettingsKept).trans
      (Quiet.raise _ _).toSettingsKept

theorem SettingsKept.close (d : Device) : SettingsKept d (close d).2 := by
  unfold Machine.close
  split
  · exact .refl d
  · exact (SettingsKept.returnToIdle d).trans (Quiet.raise _ _).toSettingsKept

theorem Quiet.setMap (d : Device) (fields : List Byte) : Quiet d (setMap fields d).2 := by
  unfold Machine.setMap
  dsimp only
  split_ifs <;> exact ⟨⟨SameSettings.refl d, rfl, rfl⟩, rfl, rfl⟩

theorem Quiet.ringSubscribe (d : Device) (i : Port) (fields : List Byte) : Quiet d (ringSubscribe i fields d).2 := by
  unfold Machine.ringSubscribe
  dsimp only
  split <;> exact ⟨⟨SameSettings.refl d, rfl, rfl⟩, rfl, rfl⟩

theorem Quiet.ringUnsubscribe (d : Device) (i : Port) : Quiet d (ringUnsubscribe i d).2 :=
  ⟨⟨SameSettings.refl d, rfl, rfl⟩, rfl, rfl⟩

end Sys2Proof.Machine

/-! ## The ranges -/

namespace Sys2Proof.Machine

/-- A soft reset gives a panel its default calibration and keeps the rest of it (06 R99). -/
theorem Device.softResetBlocks_panel (d : Device) (p : Panel) :
    d.softResetBlocks.panel p = (d.panel p).calibrated 40 24 1 := by
  simp only [Device.panel, Device.softResetBlocks, PressDetector.softReset, vecMap_get]

theorem u8_le (fields : List Byte) (k : Nat) : u8 fields k ≤ 255 := Nat.le_of_lt_succ (fields.getD k 0).isLt

theorem leadInOf_le (n : Nat) : leadInOf n ≤ 10000000 := by
  simp only [leadInOf, defaultLeadIn, maxLeadIn]
  split <;> omega

/-- No floor byte selects POOR as the combo floor (09 R134). -/
theorem gradeOfByte_fair_ne_poor (byte : Nat) : gradeOfByte byte .fair ≠ .poor := by
  unfold gradeOfByte
  split
  · decide
  · rename_i small
    have : byte = 0 ∨ byte = 1 ∨ byte = 2 ∨ byte = 3 := by simp only [Grade.toNat] at small; omega
    rcases this with rfl | rfl | rfl | rfl <;> decide

/-- The calibration that SET_PANEL writes lies in its ranges (06 R87). -/
theorem clampedCalibration_range (press release quorum : Nat) (hp : press ≤ 255) :
    1 ≤ (clampedCalibration press release quorum).1 ∧ (clampedCalibration press release quorum).1 ≤ 255
      ∧ (clampedCalibration press release quorum).2.1 < (clampedCalibration press release quorum).1
      ∧ 1 ≤ (clampedCalibration press release quorum).2.2 ∧ (clampedCalibration press release quorum).2.2 ≤ 4 := by
  obtain ⟨low, high⟩ := clampNat_range 1 4 quorum (by decide)
  simp only [clampedCalibration]
  refine ⟨?_, ?_, ?_, low, high⟩ <;> split_ifs <;> omega

end Sys2Proof.Machine

namespace Sys2Proof.Safety
open Sys2Proof.Machine

section
variable {d e : Device}

theorem SettingsLaw.kept (h : SettingsLaw d) (k : SettingsKept d e) : SettingsLaw e := by
  obtain ⟨⟨⟨-, -, -, leadIn⟩, ⟨-, slew, jump, timeout, offsets⟩, links, ⟨panels, limit⟩, ⟨windows, avoid, grace⟩,
    weights, floor, life, deltas⟩, flash, beat⟩ := k
  simpa only [SettingsLaw, leadIn, slew, jump, timeout, offsets, links, panels, limit, windows, avoid, grace, weights,
    floor, life, deltas, flash, beat] using h

theorem SettingsLaw.quiet (h : SettingsLaw d) (q : Quiet d e) : SettingsLaw e := h.kept q.toSettingsKept

theorem SettingsLaw.moves (h : SettingsLaw d) (m : Moves d e) : SettingsLaw e := h.kept m.settingsKept

theorem SettingsLaw.withSession (h : SettingsLaw d) (s : Session) (hs : s.leadIn ≤ 10000000) :
    SettingsLaw { d with session := s } := by
  obtain ⟨-, rest⟩ := h
  exact ⟨hs, rest⟩

theorem SettingsLaw.withOffsets (h : SettingsLaw d) (a b : Int) :
    SettingsLaw { d with clock := { d.clock with
      offsets := ⟨clampInt (-200000) 200000 a, clampInt (-200000) 200000 b⟩ } } := by
  obtain ⟨song, clock, -, rest⟩ := h
  have range (v : Int) := clampInt_range (-200000) 200000 v (by decide)
  refine ⟨song, clock, fun l => ?_, rest⟩
  cases l
  · exact range a
  · exact range b

theorem SettingsLaw.withWindows (h : SettingsLaw d) (w : Windows) (a : Window) (grace : Nat)
    (hw : w.nested = true ∧ w.poor.early ≤ 500000 ∧ w.poor.late ≤ 500000 ∧ a.early ≤ 200000 ∧ a.late ≤ 200000
      ∧ grace ≤ 1000000) :
    SettingsLaw { d with judge := { d.judge with windows := w, avoid := a, holdGrace := grace } } := by
  obtain ⟨song, clock, offsets, links, panels, limit, -, rest⟩ := h
  exact ⟨song, clock, offsets, links, panels, limit, hw, rest⟩

/-- The OPEN event moves the session and no setting of another block (01 R4). -/
theorem openWith_settingsKept (d : Device) (s : Session) : SettingsKept { d with session := s } (d.openWith s) :=
  ⟨SameSettings.refl { d with session := s }, rfl, rfl⟩

theorem SettingsLaw.openSong (h : SettingsLaw d) (fields : List Byte) : SettingsLaw (openSong fields d).2 := by
  unfold Machine.openSong
  split
  · exact h
  · split
    · exact h
    · exact (h.withSession (.opened ..) (leadInOf_le _)).kept (openWith_settingsKept d _)

theorem SettingsLaw.setSync (h : SettingsLaw d) (fields : List Byte) : SettingsLaw (setSync fields d).2 := by
  unfold Machine.setSync
  split
  · exact h
  · dsimp only
    split
    · exact h
    · obtain ⟨song, -, rest⟩ := h
      obtain ⟨-, slew⟩ := clampNat_range 0 4000 (u32 fields 1) (by decide)
      obtain ⟨le_jump, jump⟩ := clampNat_range (clampNat 0 4000 (u32 fields 1)) 1000000 (u32 fields 5) (by omega)
      obtain ⟨le_timeout, timeout⟩ := clampNat_range 1000 1000000 (u32 fields 9) (by decide)
      exact ⟨song, ⟨slew, le_jump, jump, le_timeout, timeout⟩, rest⟩

theorem SettingsLaw.setLink (h : SettingsLaw d) (l : Stage) (enable : BitVec 6) (reply miss : Nat)
    (hr : 17 ≤ reply ∧ reply ≤ 60) (hm : 1 ≤ miss ∧ miss ≤ 15) : SettingsLaw (d.setLink l enable reply miss) := by
  refine SettingsLaw.moves ?_ (.setLink d l enable reply miss)
  obtain ⟨song, clock, offsets, links, rest⟩ := h
  refine ⟨song, clock, offsets, fun m => ?_, rest⟩
  rw [Device.link_onLink]
  split
  · exact ⟨hr.1, hr.2, hm.1, hm.2⟩
  · exact links m

theorem SettingsLaw.setStage (h : SettingsLaw d) (fields : List Byte) : SettingsLaw (setStage fields d).2 := by
  unfold Machine.setStage
  split
  · exact h
  · split
    · exact h
    · dsimp only
      refine ((h.withOffsets _ _).setLink .a _ _ _ (clampNat_range _ _ _ ?_) (clampNat_range _ _ _ ?_)).setLink .b _ _ _
        (clampNat_range _ _ _ ?_) (clampNat_range _ _ _ ?_)
      all_goals decide

theorem SettingsLaw.calibrated (h : SettingsLaw d) (fields : List Byte) : SettingsLaw (d.calibrated fields) := by
  obtain ⟨song, clock, offsets, links, panels, -, rest⟩ := h
  refine ⟨song, clock, offsets, links, fun p => ?_, clampNat_range _ _ _ (by decide), rest⟩
  have written := clampedCalibration_range (u8 fields 1) (u8 fields 2) (u8 fields 3) (u8_le _ _)
  have panel : (d.calibrated fields).panel p
      = if u8 fields 0 = 0xFF ∨ u8 fields 0 = p.val then
          (d.panel p).calibrated (clampedCalibration (u8 fields 1) (u8 fields 2) (u8 fields 3)).1
            (clampedCalibration (u8 fields 1) (u8 fields 2) (u8 fields 3)).2.1
            (clampedCalibration (u8 fields 1) (u8 fields 2) (u8 fields 3)).2.2
        else d.panel p := by
    simp [Device.panel, Device.calibrated]
  rw [panel]
  split
  · exact written
  · exact panels p

theorem SettingsLaw.setPanel (h : SettingsLaw d) (fields : List Byte) : SettingsLaw (setPanel fields d).2 := by
  rcases setPanel_cases d fields with e | e <;> rw [e]
  · exact h
  · exact (h.calibrated fields).moves (.expireAllStuck _)

/-- Each window of SET_WINDOWS is clamped (08 R112). -/
theorem gradeTable_poor_le (fields : List Byte) :
    (gradeTable fields).poor.early ≤ 500000 ∧ (gradeTable fields).poor.late ≤ 500000 :=
  ⟨Nat.min_le_right _ _, Nat.min_le_right _ _⟩

theorem SettingsLaw.setWindows (h : SettingsLaw d) (fields : List Byte) : SettingsLaw (setWindows fields d).2 := by
  unfold Machine.setWindows
  split
  · exact h
  · split
    · exact h
    · rename_i nested
      obtain ⟨early, late⟩ := gradeTable_poor_le fields
      exact h.withWindows _ _ _ ⟨by simpa using nested, early, late, Nat.min_le_right _ _, Nat.min_le_right _ _,
        Nat.min_le_right _ _⟩

theorem SettingsLaw.setScoring (h : SettingsLaw d) (fields : List Byte) : SettingsLaw (setScoring fields d).2 := by
  unfold Machine.setScoring
  split
  · exact h
  · obtain ⟨song, clock, offsets, links, panels, limit, judge, ⟨-, -, lifeLow, lifeHigh, deltas⟩, lamps⟩ := h
    refine ⟨song, clock, offsets, links, panels, limit, judge,
      ⟨fun o w weight => ?_, gradeOfByte_fair_ne_poor _, lifeLow, lifeHigh, deltas⟩, lamps⟩
    cases o with
    | graded g => cases g <;> cases weight <;> exact min_le_right _ _
    | held => cases weight; exact min_le_right _ _
    | miss | letGo | avoidHit | stray => cases weight

theorem SettingsLaw.setLife (h : SettingsLaw d) (fields : List Byte) : SettingsLaw (setLife fields d).2 := by
  unfold Machine.setLife
  split
  · exact h
  · obtain ⟨song, clock, offsets, links, panels, limit, judge, ⟨weights, floor, -, -, -⟩, lamps⟩ := h
    obtain ⟨lifeLow, lifeHigh⟩ := clampNat_range 1 1000 (u16 fields 0) (by decide)
    refine ⟨song, clock, offsets, links, panels, limit, judge, ⟨weights, floor, lifeLow, lifeHigh, fun o x delta => ?_⟩,
      lamps⟩
    have range (k : Nat) := clampInt_range (-1000) 1000 (s16 fields k) (by decide)
    cases o with
    | graded g => cases g <;> cases delta <;> exact range _
    | miss | held | letGo | avoidHit => cases delta; exact range _
    | stray => cases delta

theorem SettingsLaw.setLamps (h : SettingsLaw d) (fields : List Byte) : SettingsLaw (setLamps fields d).2 := by
  obtain ⟨song, clock, offsets, links, panels, limit, judge, score, -⟩ := h
  exact ⟨song, clock, offsets, links, panels, limit, judge, score, min_le_right _ _, min_le_right _ _⟩

/-- Every setting's default lies in its range (12 R176 with each block's rule). -/
theorem SettingsLaw.reset : SettingsLaw State.reset.device := by
  refine ⟨by decide, by decide, fun l => ?_, fun l => ?_, by decide, by decide, by decide,
    ⟨fun o w weight => ?_, by decide, by decide, by decide, fun o x delta => ?_⟩, by decide⟩
  · cases l <;> decide
  · cases l <;> decide
  · cases o with
    | graded g => cases g <;> cases weight <;> decide
    | held => cases weight; decide
    | miss | letGo | avoidHit | stray => cases weight
  · cases o with
    | graded g => cases g <;> cases delta <;> decide
    | miss | held | letGo | avoidHit => cases delta; decide
    | stray => cases delta

/-- A soft reset gives every setting its default (12 R177). -/
theorem softResetBlocks_defaults (d : Device) : SettingsKept State.reset.device d.softResetBlocks := by
  have calibration (p : Panel) : (State.reset.device.panel p).press = 40 ∧ (State.reset.device.panel p).release = 24
      ∧ (State.reset.device.panel p).quorum = 1 := by revert p; decide
  refine ⟨⟨⟨rfl, rfl, rfl, rfl⟩, ⟨rfl, rfl, rfl, rfl, rfl⟩, fun l => ?_, ⟨fun p => ?_, rfl⟩, ⟨rfl, rfl, rfl⟩,
    ⟨rfl, rfl, rfl, rfl⟩⟩, rfl, rfl⟩
  · cases l <;> exact ⟨rfl, rfl, rfl⟩
  · obtain ⟨press, release, quorum⟩ := calibration p
    rw [Device.softResetBlocks_panel, press, release, quorum]
    exact ⟨rfl, rfl, rfl⟩

theorem SettingsLaw.handCommand (h : SettingsLaw d) (i : Port) (c : Command) (fields : List Byte) :
    SettingsLaw (handCommand i c fields d).2 := by
  cases c with
  | openSong => exact h.openSong fields
  | start => exact h.kept (.start d)
  | abort => exact h.kept (.abort d)
  | close => exact h.kept (.close d)
  | position => exact h.moves (.position d fields)
  | setSync => exact h.setSync fields
  | setStage => exact h.setStage fields
  | setPanel => exact h.setPanel fields
  | setMap => exact h.quiet (.setMap d fields)
  | setWindows => exact h.setWindows fields
  | setScoring => exact h.setScoring fields
  | setLife => exact h.setLife fields
  | setLamps => exact h.setLamps fields
  | subscribe => exact h.quiet (.ringSubscribe d i fields)
  | unsubscribe => exact h.quiet (.ringUnsubscribe d i)
  | softReset =>
    simp only [Machine.handCommand]
    exact (SettingsLaw.reset.kept (softResetBlocks_defaults d)).moves (.softReset d)

theorem SettingsLaw.change {opens : Prop} (h : SettingsLaw d) (c : Change opens d e) : SettingsLaw e := by
  cases c with
  | quiet q => exact h.quiet q
  | moves m => exact h.moves m
  | hand i c fields _ => exact h.handCommand i c fields
  | powerOn s =>
    have fresh : SettingsKept State.reset.device
        { Device.reset (portsOf (grantedRoles s)) with choices := d.choices } :=
      ⟨SameSettings.refl State.reset.device, rfl, rfl⟩
    exact (SettingsLaw.reset.kept fresh).quiet (.powerOn d s)

end

/-! ## Outside IDLE -/

/-- A song has ended in IDLE, or the session was out of IDLE and no setting has changed (01 R2). -/
def SongKept (d e : Device) : Prop :=
  e.session.state = .idle ∨ d.session.state ≠ .idle ∧ SameSettings d e

section
variable {d e : Device}

theorem SongKept.of_same (settings : SameSettings d e)
    (idle : d.session.state = .idle → e.session.state = .idle) : SongKept d e := by
  by_cases h : d.session.state = .idle
  · exact .inl (idle h)
  · exact .inr ⟨h, settings⟩

theorem SongKept.quiet (q : Quiet d e) : SongKept d e := .of_same q.settings fun idle => by rw [q.session, idle]

theorem SongKept.refl (d : Device) : SongKept d d := .quiet (.refl d)

theorem SongKept.trans {g : Device} (h : SongKept d e) (k : SongKept e g) : SongKept d g := by
  rcases k with idle | ⟨running, later⟩
  · exact .inl idle
  · rcases h with idle | ⟨start, before⟩
    · exact absurd idle running
    · exact .inr ⟨start, before.trans later⟩

/-- In IDLE no event of the part moves the session on: nothing but OPEN_SONG leaves IDLE (01 R3). -/
theorem idle_of_moves (m : Moves d e) (h : d.session.state = .idle) : e.session.state = .idle := by
  have examined (a : Device) (idle : a.session.state = .idle) : a.examineEnd.session.state = .idle := by
    rcases a.examineEnd_cases with ⟨run, -⟩ | ⟨-, e⟩
    · rw [idle] at run; cases run
    · rwa [e]
  refine m.keeps (P := fun a => a.session.state = .idle) (fun a b move idle => ?_) h
  cases move with
  | quiet q _ _ => rwa [q.session]
  | raise k => exact idle
  | append x => exact idle
  | header _ => exact idle
  | done p => rcases a.examineDone_cases p with ⟨-, e⟩ | ⟨-, e⟩ <;> rw [e]; exacts [examined _ idle, idle]
  | report p => rcases a.takeReport_cases p with ⟨-, e⟩ | ⟨-, e⟩ <;> rw [e]; exacts [examined _ idle, idle]

theorem SongKept.moves (m : Moves d e) : SongKept d e := .of_same m.settingsKept.settings (idle_of_moves m)

end

end Sys2Proof.Safety

namespace Sys2Proof.Machine
open Sys2Proof.Safety

/-- A command in a session state that does not accept it is answered WRONG_STATE and does nothing (01 R3). -/
theorem handCommand_wrongState {d : Device} {c : Command} (i : Port) (fields : List Byte)
    (h : d.session.state ∉ statesOf c) : handCommand i c fields d = (.wrongState, d) := by
  cases c with
  | openSong | setSync | setStage | setPanel | setWindows | setScoring | setLife | start | close =>
    exact if_pos (by simpa [statesOf] using h)
  | abort =>
    refine if_pos ?_
    cases state : d.session.state <;> simp_all [statesOf]
  | position =>
    have still : d.songRuns = false := by
      cases state : d.session.state <;> simp_all [statesOf, Device.songRuns]
    have check : d.reportCheck (fields.getD 0 0) = .error .wrongState :=
      if_pos fun ⟨_, runs⟩ => by rw [still] at runs; cases runs
    simp only [handCommand, position, check]
  | setMap => exact if_neg (by simpa [statesOf] using h)
  | setLamps | subscribe | unsubscribe | softReset =>
    cases state : d.session.state <;> simp_all [statesOf]

end Sys2Proof.Machine

namespace Sys2Proof.Safety
open Sys2Proof.Machine

/-- A command that opens no song either ends it or leaves the settings alone: those that write them are accepted in IDLE
alone (01 R2). -/
theorem SongKept.handCommand {d : Device} (i : Port) (c : Command) (fields : List Byte)
    (h : c ≠ .openSong ∨ d.session.state ≠ .idle) : SongKept d (handCommand i c fields d).2 := by
  by_cases accepted : d.session.state ∈ statesOf c
  case neg =>
    rw [handCommand_wrongState i fields accepted]
    exact .refl d
  cases c with
  | openSong => simp_all [statesOf]
  | start =>
    have preload : d.session.state = .preload := by simpa [statesOf] using accepted
    exact .of_same (SettingsKept.start d).settings fun idle => by rw [preload] at idle; cases idle
  | abort =>
    have leaves : d.session.state ≠ .idle := fun idle => by simp [statesOf, idle] at accepted
    exact .inl (by simp [Machine.handCommand, abort, leaves]; rfl)
  | close =>
    have ended : d.session.state = .ended := by simpa [statesOf] using accepted
    exact .inl (by simp [Machine.handCommand, close, ended]; rfl)
  | position => exact .moves (.position d fields)
  | setSync | setStage | setPanel | setWindows | setScoring | setLife =>
    refine .inl (handCommand_keeps d (P := fun e => e.session.state = .idle)
      (fun _ _ session _ idle => by rwa [session]) (fun _ _ m => idle_of_moves m) i _ fields (by decide) ?_)
    simpa [statesOf] using accepted
  | setMap => exact .quiet (.setMap d fields)
  | setLamps => exact .of_same (SameSettings.refl d) id
  | subscribe => exact .quiet (.ringSubscribe d i fields)
  | unsubscribe => exact .quiet (.ringUnsubscribe d i)
  | softReset =>
    simp only [Machine.handCommand]
    exact .inl (idle_of_moves (.softReset d) rfl)

theorem SongKept.change {d e : Device} (c : Change False d e) : SongKept d e := by
  cases c with
  | quiet q => exact .quiet q
  | moves m => exact .moves m
  | hand i c fields h => exact .handCommand i c fields (h.resolve_left not_false)
  | powerOn s =>
    refine .inl ?_
    rw [(Quiet.powerOn d s).session]
    rfl

theorem SongKept.changes {d e : Device} (c : Changes False d e) : SongKept d e := by
  induction c with
  | refl => exact .refl d
  | tail _ hc ih => exact ih.trans (.change hc)

end Sys2Proof.Safety

section
open Sys2Proof.Machine Sys2Proof.Safety

/-- Settles O54: every change of a step keeps the ranges, and none but the opening of a song moves a setting outside
IDLE. -/
theorem settingsStayLegal : Obligations.SettingsStayLegal := by
  refine ⟨fun _ _ h law => ?_, fun s t h before after one => ?_⟩
  · exact (step_changes (opens := True) h (.inl trivial) (.inl trivial)).keeps (fun _ _ c law => law.change c) law
  · obtain idle | ⟨-, same⟩ := SongKept.changes (step_changes (opens := False) h (.inr before) (.inr one))
    · exact absurd idle after
    · exact same

end
end

