-- ==== Sys2Proof/Proofs/Resets.lean ====
section
/-!
The two resets: what a power-on reset leaves (O3), the laws in the reset state (O51), and a soft reset (O4).
-/
namespace Sys2Proof.Safety
open Sys2Proof.Machine

/-! ## The laws in the reset state -/

theorem SessionLaw.of_reset : SessionLaw State.reset.device := .of_idle rfl (fun p => by cases p <;> rfl) rfl

theorem ringLaw_reset : RingLaw Ring.reset := by
  refine ⟨⟨by decide, fun k h => absurd h (Nat.not_lt_zero k)⟩, fun i s h => ?_⟩
  have none_subscribed : ∀ i : Port, Ring.reset.subs[i] = none := by decide
  rw [none_subscribed i] at h
  cases h

theorem capacityLaw_reset : CapacityLaw State.reset.device := by
  refine ⟨by decide, fun p => ?_, fun p => ?_, by decide, fun p => ?_, by decide⟩ <;> cases p <;> decide

theorem recordLaw_reset : RecordLaw ScoreRecord.reset :=
  ⟨by decide, rfl, rfl, by decide, by decide, by decide, by decide⟩

theorem scoreLaw_reset : ScoreLaw State.reset.device := ⟨fun p => by cases p <;> exact recordLaw_reset, by decide⟩

theorem unitLaw_reset : UnitLaw State.reset.device := by
  obtain ⟨-, -, -, -, -, -, -, ⟨weights, -⟩, -⟩ := SettingsLaw.reset
  exact ⟨weights, fun p => by cases p <;> decide⟩

theorem panelLaw_reset : PanelLaw State.reset.device := by
  have unseeded : ∀ (p : Panel) (k : Fin 4), (State.reset.device.panel p).sensors[k].baseline = none := by decide
  refine ⟨by decide, by decide, by decide, fun p k b h => ?_, by decide, fun l => by cases l <;> decide⟩
  rw [unseeded p k] at h
  cases h

theorem laneLaw_reset : LaneLaw State.reset.device := by
  have empty : ∀ q : LaneQueue, State.reset.device.lane q = .reset := by decide
  intro q
  rw [empty q]
  exact ⟨fun h => absurd rfl h, fun h => absurd rfl h⟩

theorem mapLaw_reset : MapLaw State.reset.device := fun _ _ _ h => by cases h

theorem orderLaw_reset : OrderLaw State.reset.device := by
  have decoder : ∀ p, State.reset.device.decoder p = .reset := fun p => by cases p <;> rfl
  have no_last : ∀ k : Fin 12, Decoder.reset.lastRow[k] = none := by decide
  have empty : ∀ q : LaneQueue, (State.reset.device.lane q).queue = [] := by decide
  refine ⟨fun p => ?_, fun p lane q _ => ?_⟩
  · rw [decoder]
    refine ⟨⟨by decide, by decide, by decide, by decide, fun k r h => ?_⟩, nofun, nofun⟩
    rw [no_last k] at h
    cases h
  · rw [empty]
    exact ⟨.nil, nofun⟩

theorem portLaw_reset : PortLaw State.reset.device := by
  have none_open : ∀ i : Port, (State.reset.device.port i).transaction = none := by decide
  refine ⟨by decide, fun i p entered full cut reset h => ?_⟩
  rw [none_open i] at h
  cases h

end Sys2Proof.Safety

section
open Sys2Proof.Machine Sys2Proof.Safety

/-- Settles O51, law by law. -/
theorem resetMeetsEveryLaw : Obligations.ResetMeetsEveryLaw :=
  ⟨.of_reset, ringLaw_reset, capacityLaw_reset, .reset, scoreLaw_reset, unitLaw_reset, panelLaw_reset, laneLaw_reset,
    mapLaw_reset, orderLaw_reset, portLaw_reset⟩

end

/-! ## The power-on reset -/

namespace Sys2Proof.Machine
open Sys2Proof.Safety

@[simp] theorem State.onDevice_device (s : State) (f : Device → Device) : (s.onDevice f).device = f s.device := rfl

/-- A decoder in its reset state marks no hold and has no last row (04 R70). -/
theorem Decoder.reset_marks : ∀ k : Fin 12, Decoder.reset.openHold[k] = none ∧ Decoder.reset.lastRow[k] = none := by
  decide

/-- Every entry of a board table is in its reset state (05 R85). -/
theorem Link.reset_boards : ∀ a : Fin 6, Link.reset.boards[a].state = .absent ∧ Link.reset.boards[a].misses = 0
    ∧ Link.reset.boards[a].seen = false ∧ Link.reset.boards[a].faults = 0
    ∧ ∀ k : Fin 4, Link.reset.boards[a].levels[k] = 0 := by
  decide

/-- Every sensor is unseeded and inactive (06 R99). -/
theorem PanelPress.reset_sensors :
    ∀ k : Fin 4, PanelPress.reset.sensors[k] = { baseline := none, active := false, prevFault := false } := by
  decide

/-- The roles that the straps give: a role that a lower-numbered port holds becomes WATCH (12 R173). -/
theorem grantedRoles_eq (s : Straps) :
    grantedRoles s =
      { mp0 := s.mp0
        mp1 := if s.mp1 ≠ .watch ∧ s.mp1 = s.mp0 then .watch else s.mp1
        mp2 := if s.mp2 ≠ .watch ∧ (s.mp2 = s.mp0 ∨ s.mp2 = s.mp1) then .watch else s.mp2 } := by
  obtain ⟨mp0, mp1, mp2⟩ := s
  cases mp0 <;> cases mp1 <;> cases mp2 <;> rfl

/-- MP0 keeps its strap, so a role has changed exactly where MP1's or MP2's has (12 R173). -/
theorem grantedRoles_eq_self (s : Straps) :
    grantedRoles s = s ↔ (grantedRoles s).mp1 = s.mp1 ∧ (grantedRoles s).mp2 = s.mp2 := by
  have first : (grantedRoles s).mp0 = s.mp0 := by rw [grantedRoles_eq]
  constructor
  · intro h
    rw [h]
    exact ⟨rfl, rfl⟩
  · intro ⟨second, third⟩
    generalize grantedRoles s = g at *
    cases g
    cases s
    simp_all

/-- A power-on reset leaves every block but the ports in its power-on state (12 R176). -/
theorem Device.powerOn_blocks (d : Device) (s : Straps) :
    ∃ ports, d.powerOn s = { Device.reset ports with choices := d.choices } := by
  unfold Device.powerOn
  dsimp only
  split
  · exact ⟨_, rfl⟩
  · exact ⟨_, rfl⟩

/-- A port after a power-on reset (12 R173, R176). -/
theorem Device.port_powerOn (d : Device) (s : Straps) (i : Port) :
    (d.powerOn s).port i =
      { (portsOf (grantedRoles s))[i] with
        notices := if grantedRoles s = s then 0 else Notice.roleConflict.mask } := by
  have fresh : ∀ i : Port, (portsOf (grantedRoles s))[i].notices = 0 := by
    intro i
    fin_cases i <;> rfl
  unfold Device.powerOn
  dsimp only
  split
  · rename_i same
    rw [← fresh i]
    rfl
  · rw [Device.port_raise]
    simp only [Device.port, Device.reset, fresh i, BitVec.ofNat_eq_ofNat, BitVec.zero_or]

end Sys2Proof.Machine

section
open Sys2Proof Sys2Proof.Machine Sys2Proof.Safety

theorem exec_powerOnReset (s : State) (st : Straps) :
    exec (.powerOnReset st) s = .next { device := s.device.powerOn st, pending := s.pending } := rfl

/-- Settles O3: the ports by the strap table, every other block by its power-on state. -/
theorem powerOnResetLeaves : Obligations.PowerOnResetLeaves := by
  refine ⟨fun s st => ?_, fun s st => ?_⟩
  · have roles := grantedRoles_eq st
    have port := s.device.port_powerOn st
    have first : ((s.device.powerOn st).port 0).role = (grantedRoles st).mp0 := by rw [port]; rfl
    have second : ((s.device.powerOn st).port 1).role = (grantedRoles st).mp1 := by rw [port]; rfl
    have third : ((s.device.powerOn st).port 2).role = (grantedRoles st).mp2 := by rw [port]; rfl
    refine ⟨_, exec_powerOnReset s st, by rw [first, roles], by rw [second, roles], by rw [third, roles], fun i => ?_⟩
    rw [port i, second, third]
    refine ⟨if_congr (grantedRoles_eq_self st) rfl rfl, ?_⟩
    fin_cases i <;> exact ⟨rfl, rfl, rfl⟩
  · obtain ⟨ports, blocks⟩ := s.device.powerOn_blocks st
    generalize hd : ({ Device.reset ports with choices := s.device.choices } : Device) = d at blocks
    have panel (p : Panel) : d.panel p = .reset := by rw [← hd]; exact Vector.getElem_replicate ..
    refine ⟨⟨d, s.pending⟩, by rw [exec_powerOnReset, blocks], ?_⟩
    simp only [panel]
    subst hd
    refine ⟨rfl, ⟨rfl, rfl, rfl, rfl, rfl, rfl, rfl, rfl, rfl, rfl, rfl, fun p => by cases p <;> rfl⟩, fun p => ?_,
      fun l => ?_, ⟨rfl, fun _ => ⟨rfl, rfl, rfl, rfl, rfl, rfl, PanelPress.reset_sensors⟩⟩, ⟨rfl, rfl, rfl⟩,
      ⟨fun q => Vector.getElem_replicate .., rfl, rfl, rfl⟩, ⟨rfl, rfl, rfl, rfl, fun p => by cases p <;> rfl⟩,
      ⟨rfl, rfl, fun i => Vector.getElem_replicate ..⟩, ⟨rfl, rfl, rfl, rfl, rfl, rfl, rfl, fun p => ?_⟩⟩
    · cases p <;> exact ⟨rfl, rfl, rfl, rfl, rfl, rfl, rfl, Decoder.reset_marks, rfl, rfl, rfl, rfl, rfl, rfl⟩
    · cases l <;> exact ⟨rfl, rfl, rfl, rfl, rfl, rfl, rfl, Link.reset_boards⟩
    · exact ⟨Vector.getElem_replicate .., Vector.getElem_replicate .., Vector.getElem_replicate ..⟩

end
end

