-- ==== Sys2Proof/Proofs/SoftReset.lean ====
section
/-!
A soft reset (O4): the blocks' own resets, silent links woken, and no stuck expiry where no panel has been pressed for
the default limit.
-/
namespace Sys2Proof.Machine
open Sys2Proof.Safety

/-! ## A command that passes the port checks -/

theorem exec_instrOf (c : Command) (i : Port) (fields : List Byte) (s : State) :
    exec (instrOf c i fields) s = .next { device := s.device.command i c fields, pending := s.pending } := by
  cases c <;> rfl

/-- A command that passes the port checks answers with what its block makes of it (12 R171). -/
theorem exec_sendable {c : Command} {i : Port} {fields : List Byte} {s : State} (h : Sendable s.device i c fields) :
    exec (instrOf c i fields) s = .next
      { device := leaveResult i c (fields.length + 1) (handCommand i c fields s.device), pending := s.pending } := by
  rw [exec_instrOf, Device.command_sendable _ _ _ _ h]

/-! ## Links -/

/-- A choice in a round that has just begun moves the last polled address and the phase alone (05 R76). -/
theorem Link.chooseFresh_eq (x : Link) (level : Fin 6 → Byte) :
    ∃ last phase, x.chooseFresh level = { x with last := last, phase := phase } := by
  unfold Link.chooseFresh
  split
  · exact ⟨_, _, rfl⟩
  · exact ⟨x.last, _, rfl⟩

/-- A link as it was, or, where it is woken, in its next round (05 R77). -/
def Woken (silent : Bool) (x y : Link) : Prop :=
  (silent = false → y = x)
    ∧ (silent = true → ∃ last phase, y = { x with round := (x.round + 1) % 8, last := last, phase := phase })

/-- Waking a link with an enabled board moves that link alone (05 R77). -/
theorem Device.wakeLink_eq (d : Device) (l : Stage) (silent : Bool) (enabled : (d.link l).noneEnabled = false) :
    ∃ links, d.wakeLink l silent = { d with links := links } ∧ (∀ m, m ≠ l → links.get m = d.link m)
      ∧ Woken silent (d.link l) (links.get l) := by
  cases silent with
  | false => exact ⟨d.links, rfl, fun _ _ => rfl, fun _ => rfl, nofun⟩
  | true =>
    refine ⟨d.links.set l ((d.link l).chooseInNextRound (d.boardLevel l)), ?_, fun m hm => ?_, nofun, fun _ => ?_⟩
    · simp [Device.wakeLink, enabled, Device.onLink]
    · simp [hm, Device.link]
    · simp only [PerStage.get_set, if_true, Link.chooseInNextRound, enabled, Bool.false_eq_true, if_false]
      exact (d.link l).nextRound.chooseFresh_eq _

@[simp] theorem Device.link_softResetBlocks (d : Device) (l : Stage) :
    d.softResetBlocks.link l = (d.link l).softReset := by
  cases l <;> rfl

/-- A soft reset enables every board (05 R86). -/
theorem Link.softReset_enabled (x : Link) : x.softReset.noneEnabled = false := by
  simp [Link.noneEnabled, Link.softReset]

/-! ## Stuck expiries -/

/-- A stuck timer that has not run for the limit is not due (06 R96). -/
theorem Device.stuckDue_eq_false (d : Device) (p : Panel)
    (h : ∀ start, (d.panel p).stuckSince = some start → (d.clock.free - start).toNat < d.press.stuckLimit) :
    d.stuckDue p = false := by
  unfold Device.stuckDue
  split
  · rfl
  · rename_i start running
    exact decide_eq_false (Nat.not_le.2 (h start running))

/-- Where no stuck timer has run out, a lowered limit expires none (06 R96). -/
theorem Device.expireAllStuck_none (d : Device) (h : ∀ p, d.stuckDue p = false) : d.expireAllStuck = d := by
  unfold Device.expireAllStuck
  induction allPanels with
  | nil => rfl
  | cons p ps ih =>
    have kept : d.expireStuck p = d := by simp [Device.expireStuck, h p]
    rw [List.foldl_cons, kept, ih]

/-! ## The whole part -/

/-- A soft reset in a state in which no panel has been pressed for the default STUCK_LIMIT: every block's own reset, with
the silent links woken (05 R86, 06 R99, 12 R177). -/
theorem Device.softReset_eq (d : Device)
    (h : ∀ (p : Panel) start, (d.panel p).stuckSince = some start → (d.clock.free - start).toNat < 8000000) :
    ∃ links, d.softReset = { d.softResetBlocks with links := links }
      ∧ ∀ l, Woken (d.link l).silent (d.link l).softReset (links.get l) := by
  have enabled (l : Stage) : (d.softResetBlocks.link l).noneEnabled = false := by
    rw [Device.link_softResetBlocks, Link.softReset_enabled]
  obtain ⟨first, ha, others, woken⟩ := d.softResetBlocks.wakeLink_eq .a (d.link .a).silent (enabled .a)
  have same : Device.link { d.softResetBlocks with links := first } .b = d.softResetBlocks.link .b :=
    others .b (by decide)
  obtain ⟨second, hb, others', woken'⟩ :=
    Device.wakeLink_eq { d.softResetBlocks with links := first } .b (d.link .b).silent (by rw [same]; exact enabled .b)
  rw [Device.link_softResetBlocks] at woken
  rw [same, Device.link_softResetBlocks] at woken'
  refine ⟨second, ?_, fun l => ?_⟩
  · rw [Device.softReset, ha, hb]
    refine Device.expireAllStuck_none _ fun p => ?_
    refine Device.stuckDue_eq_false _ p fun start running => h p start ?_
    rw [← running]
    exact (congrArg PanelPress.stuckSince (d.softResetBlocks_panel p)).symm
  · cases l with
    | a => rw [show second.get .a = first.get .a from others' .a (by decide)]; exact woken
    | b => exact woken'

/-- What a soft reset leaves of a link, woken or not (05 R86). -/
theorem Woken.softReset {x y : Link} (h : Woken x.silent x.softReset y) :
    y.enable = 0x3F ∧ y.replyLimit = 24 ∧ y.missLimit = 4 ∧ y.parity = x.parity
      ∧ (∀ a : Fin 6, y.boards[a]
          = if x.boards[a].state = .disabled then { x.boards[a] with state := .absent, misses := 0 } else x.boards[a])
      ∧ (x.enable ≠ 0 ∨ x.phase ≠ .gap → y.round = x.round ∧ y.last = x.last)
      ∧ (x.enable = 0 → x.phase = .gap → y.round = (x.round + 1) % 8)
      ∧ (∀ a level limit void, x.phase = .transaction a level limit void →
          ∃ mark, y.phase = .transaction a level limit mark)
      ∧ ∀ a level void, x.phase = .sending a level void → ∃ mark, y.phase = .sending a level mark := by
  have boards (a : Fin 6) : x.softReset.boards[a]
      = if x.boards[a].state = .disabled then { x.boards[a] with state := .absent, misses := 0 } else x.boards[a] :=
    vecMap_get ..
  have silent_iff : x.silent = true ↔ x.enable = 0 ∧ x.phase = .gap := by simp [Link.silent, Link.noneEnabled]
  obtain ⟨kept, woken⟩ := h
  by_cases silent : x.silent = true
  · obtain ⟨enable, gap⟩ := silent_iff.1 silent
    obtain ⟨last, phase, rfl⟩ := woken silent
    refine ⟨rfl, rfl, rfl, rfl, boards, fun busy => ?_, fun _ _ => rfl, fun _ _ _ _ h => ?_, fun _ _ _ h => ?_⟩
    · exact absurd busy (by simp [enable, gap])
    · rw [gap] at h; cases h
    · rw [gap] at h; cases h
  · obtain rfl := kept (by simpa using silent)
    refine ⟨rfl, rfl, rfl, rfl, boards, fun _ => ⟨rfl, rfl⟩, fun enable gap => ?_, fun _ _ _ _ h => ⟨false, ?_⟩,
      fun _ _ _ h => ⟨false, ?_⟩⟩
    · exact absurd (silent_iff.2 ⟨enable, gap⟩) silent
    · simp only [Link.softReset, h, LinkPhase.afterSoftReset]
    · simp only [Link.softReset, h, LinkPhase.afterSoftReset]

end Sys2Proof.Machine

section
open Sys2Proof.Machine Sys2Proof.Safety

/-- Settles O4. -/
theorem softResetEffect : Obligations.SoftResetEffect := by
  intro s i sendable calm
  obtain ⟨links, blocks, woken⟩ := s.device.softReset_eq calm
  have answer := exec_sendable sendable
  simp only [leaveResult, if_true, handCommand, blocks] at answer
  refine ⟨_, answer, rfl, ⟨rfl, rfl, rfl, rfl, rfl, rfl, rfl, rfl, rfl, rfl, rfl, fun p => by cases p <;> rfl⟩,
    fun p => by cases p <;> rfl, fun l => (woken l).softReset, ⟨rfl, fun p => s.device.softResetBlocks_panel p⟩,
    ⟨rfl, rfl, rfl⟩, rfl, rfl, rfl, rfl, fun j => ?_⟩
  have port : Device.port { s.device.softResetBlocks with links := links } j = (s.device.port j).softReset :=
    vecMap_get ..
  simp only [port]
  refine ⟨rfl, rfl, rfl, rfl, congrArg (Option.map · _) (funext fun x => ?_)⟩
  cases x <;> rfl

end
end

