-- ==== Sys2Proof/Proofs/SessionCommands.lean ====
section
/-!
The session commands: OPEN_SONG (O5), ABORT and CLOSE (O7), and what the port and the blocks refuse (O8).
-/
namespace Sys2Proof.Machine
open Sys2Proof.Safety

/-! ## Answers and notices -/

/-- Every command but SOFT_RESET leaves its block's code in the sender's record (12 R170, R177). -/
theorem leaveResult_eq {c : Command} (hc : c ≠ .softReset) (i : Port) (n : Nat) (answer : ResultCode × Device) :
    leaveResult i c n answer = answer.2.setResult i 0x01 answer.1 n := if_neg hc

/-- A kind is in a set that has just received it (12 R174). -/
theorem Notice.getLsbD_or_mask (notices : BitVec 16) (k : Notice) : (notices ||| k.mask).getLsbD k.bit = true := by
  have small : k.bit < 16 := by cases k <;> decide
  simp [Notice.mask, small]

/-- After a notice and an answer, every port holds the notice (12 R174). -/
theorem Device.holds_raise_setResult (d : Device) (k : Notice) (i j : Port) (channel : BitVec 6) (code : ResultCode)
    (n : Nat) : Holds ((d.raise k).setResult i channel code n) j k := by
  unfold Holds
  rw [Device.port_setResult, Device.port_raise]
  split <;> exact Notice.getLsbD_or_mask _ k

/-! ## Refusals -/

/-- A length that a command can have fits the result record's count field (12 R170, R171). -/
theorem Command.length_le (c : Command) : c.length ≤ 65535 := by cases c <;> decide

theorem softReset_accepted (state : SessionState) : state ∈ statesOf .softReset := by cases state <;> decide

theorem portRefusal_noRight {r : Role} {c : Command} (fields : List Byte) (h : c ∉ rightsOf r) :
    portRefusal r c fields = some .noRight := by
  rw [mem_rightsOf] at h
  simp [portRefusal, h]

theorem portRefusal_badLength {r : Role} {c : Command} {fields : List Byte} (right : c ∈ rightsOf r)
    (length : fields.length + 1 ≠ c.length) : portRefusal r c fields = some .badLength := by
  rw [mem_rightsOf] at right
  simp [portRefusal, right, length]

/-! ## OPEN_SONG -/

/-- The values that OPEN_SONG cannot use (01 R4). -/
theorem openSongBad_iff (style mask policy : Nat) :
    openSongBad style mask policy = true
      ↔ 1 < style ∨ 1 < policy ∨ 4 ≤ mask ∨ mask = 0 ∨ (style = 1 ∧ 2 ≤ mask) := by
  by_cases large : 4 ≤ mask
  · simp [openSongBad, large]
  · have second : mask.testBit 1 = decide (2 ≤ mask) := by
      have : mask < 4 := Nat.not_le.1 large
      interval_cases mask <;> rfl
    simp [openSongBad, second, or_assoc]

/-- The fields of an OPEN_SONG as its block reads them (01 R4). -/
theorem openSong_fields (style mask policy : Byte) (lead : BitVec 32) (d : Device) (idle : d.session.state = .idle) :
    openSong ([style, mask, policy] ++ bytesOf 4 lead.toNat) d
      = if openSongBad style.toNat mask.toNat policy.toNat then (.badValue, d)
        else (.done, d.openWith (Session.opened style.toNat mask.toNat policy.toNat lead.toNat)) := by
  have field : u32 ([style, mask, policy] ++ bytesOf 4 lead.toNat) 3 = lead.toNat := by
    simpa using u32_field lead [style, mask, policy] [] 3 rfl
  simp only [openSong, idle, ne_eq, not_true_eq_false, if_false, field]
  rfl

/-- The ring at the OPEN event holds the OPEN mark alone, unread on every subscribed port (10 R157). -/
theorem Ring.opened (r : Ring) (x : Record) :
    (r.emptied.append x).records = [{ x with seq := r.seq, lap := r.lap }]
      ∧ (r.emptied.append x).seq = r.seq + 1
      ∧ ∀ j : Port, (r.emptied.append x).subs[j]
          = r.subs[j].map fun s => { s with cursor := some r.seq, unread := 1 } := by
  refine ⟨rfl, rfl, fun j => ?_⟩
  have emptied : r.emptied.subs[j] = r.subs[j].map fun s => { s with cursor := none, unread := 0 } := vecMap_get ..
  rw [Ring.append_sub, emptied, Option.map_map]
  rfl

/-- The OPEN event leaves the result records alone (12 R170). -/
theorem Device.openWith_result (d : Device) (s : Session) (j : Port) :
    ((d.openWith s).port j).result = (d.port j).result := by
  simp only [Device.openWith, Device.mark, Device.port_raise, Device.port_appendRecord]
  rfl

/-! ## ABORT and CLOSE -/

/-- The ABORTED mark of an ABORT; a CLOSE makes none (01 R7, R8, R14). -/
def Device.abortMark (d : Device) (c : Command) : Device := if c = .abort then d.mark .aborted .p1 else d

theorem handCommand_return {d : Device} {c : Command} (i : Port) (fields : List Byte) (hc : c = .abort ∨ c = .close)
    (accepted : d.session.state ∈ statesOf c) :
    handCommand i c fields d = (.done, (d.returnToIdle.abortMark c).raise .session) := by
  rcases hc with rfl | rfl
  · exact if_neg fun idle => by simp [statesOf, idle] at accepted
  · have ended : d.session.state = .ended := by simpa [statesOf] using accepted
    exact if_neg (not_not.2 ended)

/-- On the return to IDLE an open chart write is cut off (04 R47). -/
theorem Device.port_returnToIdle (d : Device) (j : Port) :
    d.returnToIdle.port j = { d.port j with transaction := (d.port j).transaction.map Transaction.cutOff } :=
  vecMap_get ..

/-- The mark moves the ring and the notices alone. -/
theorem Device.abortMark_eq (d : Device) (c : Command) :
    ∃ ports, d.abortMark c
        = { d with ring := if c = .abort then d.ring.append (markRecord .aborted .p1) else d.ring, ports := ports }
      ∧ ∀ j : Port, ∃ notices, ports[j] = { d.port j with notices := notices } := by
  unfold Device.abortMark
  split
  · exact ⟨_, rfl, fun j => ⟨_, d.port_appendRecord (markRecord .aborted .p1) j⟩⟩
  · exact ⟨_, rfl, fun j => ⟨_, rfl⟩⟩

end Sys2Proof.Machine

section
open Sys2Proof.Machine Sys2Proof.Safety

/-- Settles O8: the port refuses before the block sees the command; a block that does not accept it in this session state
answers WRONG_STATE. -/
theorem refusedCommandsChangeNothing : Obligations.RefusedCommandsChangeNothing := by
  refine ⟨fun s i c fields sendable refused => ?_, fun s i c fields closed => ?_⟩
  · have length : fields.length + 1 = c.length := sendable.2.2
    have answer := exec_sendable sendable
    have hc : c ≠ .softReset := by
      rintro rfl
      exact refused (softReset_accepted _)
    rw [handCommand_wrongState i fields refused, leaveResult_eq hc] at answer
    exact ⟨_, answer, Device.setResult_only .., Device.setResult_answered _ _ _ _ (length ▸ c.length_le)⟩
  · refine ⟨_, exec_instrOf c i fields s, fun noRight => ?_, fun right length => ?_, fun refused small => ?_⟩
    · simp only [Device.command_refused _ _ _ _ _ closed (portRefusal_noRight fields noRight)]
      exact ⟨Device.setResult_only .., by simp, by simp⟩
    · simp only [Device.command_refused _ _ _ _ _ closed (portRefusal_badLength right length)]
      exact ⟨Device.setResult_only .., by simp, by simp⟩
    · obtain ⟨code, refusal⟩ : ∃ code, portRefusal (s.device.port i).role c fields = some code := by
        by_cases right : c ∈ rightsOf (s.device.port i).role
        · exact ⟨_, portRefusal_badLength right (refused.resolve_left (not_not.2 right))⟩
        · exact ⟨_, portRefusal_noRight fields right⟩
      simp only [Device.command_refused _ _ _ _ _ closed refusal, Device.port_setResult, if_true]
      exact countField_small _ small

/-- Settles O5: the fields as the session controller reads them, and each block at the OPEN event. -/
theorem openSongEffect : Obligations.OpenSongEffect := by
  refine ⟨fun s i style mask policy lead sendable idle hs hp hm hm' hd => ?_,
    fun s i style mask policy lead sendable idle bad => ?_⟩
  · have answer := exec_sendable sendable
    have fits : ¬openSongBad style.toNat mask.toNat policy.toNat = true := by
      rw [openSongBad_iff]
      omega
    rw [handCommand, openSong_fields _ _ _ _ _ idle, if_neg fits, leaveResult_eq (by decide)] at answer
    refine ⟨_, answer, Device.setResult_answered _ _ _ _ (by simp), ⟨rfl, rfl, rfl, rfl, rfl, fun p => by cases p <;> rfl⟩,
      ⟨rfl, fun p => by cases p <;> exact ⟨rfl, rfl⟩⟩, fun p => by cases p <;> rfl, ⟨rfl, rfl, rfl⟩,
      ⟨rfl, fun q => Vector.getElem_replicate ..⟩, ⟨rfl, fun p => by cases p <;> rfl⟩, s.device.ring.opened _,
      ⟨rfl, fun p => ⟨Vector.getElem_replicate .., Vector.getElem_replicate ..⟩⟩, fun j => ⟨?_, fun other => ?_⟩⟩
    · exact Device.holds_raise_setResult ..
    · rw [Device.port_setResult, if_neg other]
      exact Device.openWith_result ..
  · have answer := exec_sendable sendable
    rw [handCommand, openSong_fields _ _ _ _ _ idle, if_pos ((openSongBad_iff ..).2 bad), leaveResult_eq (by decide)]
      at answer
    exact ⟨_, answer, Device.setResult_only .., Device.setResult_answered _ _ _ _ (by simp)⟩

/-- Settles O7. -/
theorem abortAndCloseReturnToIdle : Obligations.AbortAndCloseReturnToIdle := by
  intro s i c hc sendable accepted
  have answer := exec_sendable sendable
  have notReset : c ≠ .softReset := by rcases hc with rfl | rfl <;> decide
  obtain ⟨ports, blocks, port⟩ := s.device.returnToIdle.abortMark_eq c
  rw [handCommand_return i [] hc accepted, leaveResult_eq notReset, blocks] at answer
  refine ⟨_, answer, Device.setResult_answered _ _ _ _ (by simp), rfl, rfl, fun p => by cases p <;> rfl,
    fun p => by cases p <;> rfl, rfl, ⟨rfl, fun q => Vector.getElem_replicate ..⟩, ⟨rfl, rfl, rfl, rfl⟩, rfl,
    fun j => ⟨Device.holds_raise_setResult .., fun other => ?_, ?_⟩⟩
  · obtain ⟨notices, kept⟩ := port j
    rw [Device.port_setResult, if_neg other, Device.port_raise]
    change ports[j].result = _
    rw [kept, s.device.port_returnToIdle]
  · obtain ⟨notices, kept⟩ := port j
    have transaction : ports[j].transaction = (s.device.port j).transaction.map Transaction.cutOff := by
      rw [kept, s.device.port_returnToIdle]
    rw [Device.port_setResult, Device.port_raise]
    refine Eq.trans (?_ : _ = ports[j].transaction) (transaction.trans (congrArg (Option.map · _) (funext fun x => ?_)))
    · split <;> rfl
    · cases x <;> rfl

end
end

