-- ==== Sys2Proof/Proofs/SweepEnds.lean ====
section
/-!
A sweep that fails or clears its player (O29): the sweep of a TAP up to the score keeper, and the session controller's
answer, with the end of the song.
-/
namespace Sys2Proof.Safety
open Sys2Proof.Machine

/-! ## Notices that are only raised -/

/-- A set lies in another exactly where none of its kinds is missing. -/
theorem notices_subset_iff (x y : BitVec 16) :
    x &&& ~~~y = 0 ↔ ∀ k, x.getLsbD k = true → y.getLsbD k = true := by
  constructor
  · intro h k hx
    have bit := congrArg (BitVec.getLsbD · k) h
    have small : k < 16 := BitVec.lt_of_getLsbD hx
    simpa [hx, small] using bit
  · intro h
    refine BitVec.eq_of_getLsbD_eq fun k small => ?_
    by_cases hx : x.getLsbD k = true
    · simp [h k hx]
    · simp [hx]

theorem onlyRaised_of_ports {d e : Device} (h : e.ports = d.ports) : OnlyRaised d e := fun i => by
  have port : e.port i = d.port i := by simp only [Device.port, h]
  rw [port]
  exact ⟨rfl, by simp⟩

theorem OnlyRaised.trans {d e g : Device} (h : OnlyRaised d e) (k : OnlyRaised e g) : OnlyRaised d g := fun i => by
  obtain ⟨first, sub⟩ := h i
  obtain ⟨second, sub'⟩ := k i
  rw [notices_subset_iff] at sub sub' ⊢
  exact ⟨by rw [second, first], fun b hb => sub' b (sub b hb)⟩

theorem onlyRaised_raise (d : Device) (k : Notice) : OnlyRaised d (d.raise k) := fun i => by
  rw [Device.port_raise, notices_subset_iff]
  exact ⟨rfl, fun b hb => by simp [hb]⟩

theorem onlyRaised_appendRecord (d : Device) (x : Record) : OnlyRaised d (d.appendRecord x) := fun i => by
  rw [Device.port_appendRecord, notices_subset_iff]
  exact ⟨rfl, fun b hb => by simp [hb]⟩

theorem OnlyRaised.holds {d e : Device} (h : OnlyRaised d e) {i : Port} {k : Notice} (held : Holds d i k) :
    Holds e i k := (notices_subset_iff _ _).1 (h i).2 _ held

theorem holds_raise (d : Device) (k : Notice) (i : Port) : Holds (d.raise k) i k := by
  unfold Holds
  rw [Device.port_raise]
  exact Notice.getLsbD_or_mask _ k

end Sys2Proof.Safety

namespace Sys2Proof.Machine
open Sys2Proof.Safety

/-! ## The sweep of a TAP -/

/-- The record of a TAP that is missed (08 R126). -/
def Device.missRecord (d : Device) (q : LaneQueue) (n : Note) : Record :=
  { seq := 0, type := .tap .miss, player := d.owner q, lane := logicalLane d.session.style q, early := false,
    lateDecode := n.lateDecode, forcedEnd := false, timed := false, offset := 0, row := n.row }

/-- A missed TAP has left its queue, and its record and its MISS are handed on (08 R118, R127). -/
def Device.missed (d : Device) (q : LaneQueue) (n : Note) : Device :=
  ((d.removeNote q n).appendRecord (d.missRecord q n)).takeOutcome (d.owner q) .miss

/-- A TAP's sweep hands one outcome, and then examines the done condition (08 R118, R127). -/
theorem Flow.sweepNote_tap (d : Device) (q : LaneQueue) (n : Note) (tap : n.kind = .tap) :
    (Flow.start d).sweepNote q n
      = ({ device := d.missed q n, owed := d.outcomeReports (d.owner q) .miss, handed := true } : Flow).handOff
          (d.owner q) := by
  simp [Flow.sweepNote, Flow.start, Flow.between, Flow.outcome, Flow.mayReport, Flow.record, Flow.score, Flow.flash, tap,
    NoteKind.recordType, Device.laneRecord, Device.missed, Device.missRecord, Device.outcomeReports]

/-- The first TAP or HOLD_START of a lane that is judged is due for the sweep when its window has passed (08 R118). -/
theorem Device.sweepDue_eq {d : Device} {q : LaneQueue} {pre post : List Note} {n : Note}
    (run : d.session.state = .run) (playing : d.playerState (d.owner q) = .playing)
    (queue : (d.lane q).queue = pre ++ n :: post) (avoids : ∀ m ∈ pre, m.kind = .avoid) (tap : n.kind = .tap)
    (past : (n.due : Int) + d.judge.windows.poor.late < d.laneTime q) : d.sweepDue q = some n := by
  have target : (d.lane q).target = some n := by
    have skipped : pre.find? (fun m => m.kind != .avoid) = none :=
      List.find?_eq_none.2 fun m hm => by simp [avoids m hm]
    rw [Lane.target, queue, List.find?_append, skipped]
    simp [tap]
  have judged : d.judging q = true := by simp [Device.judging, run, playing]
  have passed : d.judge.pastWindow n (d.laneTime q) = true := by
    simp [Judge.pastWindow, Judge.lateLimit, tap, past]
  simp [Device.sweepDue, judged, target, passed]

section
variable {d : Device} {q : LaneQueue} {n : Note}

/-- A sweep whose MISS leaves life above 0 goes on to the done condition (01 R10). -/
theorem Device.sweepLane_examines (due : d.sweepDue q = some n) (tap : n.kind = .tap)
    (alive : d.outcomeReports (d.owner q) .miss = false) :
    d.sweepLane q = (d.missed q n).examineDone (d.owner q) := by
  simp [Device.sweepLane, due, Flow.sweepNote_tap d q n tap, Flow.handOff, Flow.finish, alive]

/-- A sweep whose MISS takes life to 0, for a player who is not done, goes on to the report (01 R11). -/
theorem Device.sweepLane_reports (due : d.sweepDue q = some n) (tap : n.kind = .tap)
    (dead : d.outcomeReports (d.owner q) .miss = true) (undone : (d.missed q n).doneHolds (d.owner q) = false) :
    d.sweepLane q = (d.missed q n).takeReport (d.owner q) := by
  have kept : (d.missed q n).examineDone (d.owner q) = d.missed q n := by simp [Device.examineDone, undone]
  simp [Device.sweepLane, due, Flow.sweepNote_tap d q n tap, Flow.handOff, Flow.finish, dead, undone, kept]

end

/-! ## The end of the song -/

/-- With a player in RUN out of play, the song has ended unless the other is PLAYING (01 R13). -/
theorem Device.examineEnd_eq (d : Device) (p other : Player) (ho : other = if p = .p1 then .p2 else .p1)
    (run : d.session.state = .run) (left : d.playerState p ≠ .playing) :
    ∃ ports, d.examineEnd = { d with
        session := { d.session with state := if d.playerState other = .playing then .run else .ended }
        ring := if d.playerState other = .playing then d.ring else d.ring.append (markRecord .ended .p1)
        ports := ports }
      ∧ OnlyRaised d d.examineEnd
      ∧ (d.playerState other ≠ .playing → ∀ j, Holds d.examineEnd j .session) := by
  have both : (d.playerState .p1 ≠ .playing ∧ d.playerState .p2 ≠ .playing) ↔ d.playerState other ≠ .playing := by
    cases p <;> simp [ho, left]
  rcases d.examineEnd_cases with ⟨-, p1, p2, e⟩ | ⟨goes, e⟩ <;> rw [e]
  · have out := both.1 ⟨p1, p2⟩
    refine ⟨_, by simp only [if_neg out]; rfl, ?_, fun _ j => holds_raise _ _ j⟩
    exact (onlyRaised_appendRecord d (markRecord .ended .p1)).trans (onlyRaised_raise _ _)
  · have plays : d.playerState other = .playing := by
      by_contra out
      exact goes ⟨run, both.2 out⟩
    exact ⟨d.ports, by simp only [if_pos plays, ← run], onlyRaised_of_ports rfl, fun out => absurd plays out⟩

/-! ## A player that leaves play -/

/-- A player goes out of play with its mark and PLAYER, and the end of the song is examined (01 R10, R11). -/
def Device.leavePlay (d : Device) (p : Player) (x : PlayerState) (k : MarkKind) : Device :=
  (((d.setPlayer p x).mark k p).raise .player).examineEnd

/-- A player that leaves play takes its mark into the ring, and ends the song unless the other is PLAYING. -/
theorem Device.leavePlay_eq (d : Device) (p other : Player) (x : PlayerState) (k : MarkKind)
    (ho : other = if p = .p1 then .p2 else .p1) (run : d.session.state = .run) (out : x ≠ .playing) :
    ∃ ports, d.leavePlay p x k = { d with
        session := { d.session with
          players := d.session.players.set p x
          state := if d.playerState other = .playing then .run else .ended }
        ring := if d.playerState other = .playing then d.ring.append (markRecord k p)
          else (d.ring.append (markRecord k p)).append (markRecord .ended .p1)
        ports := ports }
      ∧ OnlyRaised d (d.leavePlay p x k) ∧ (∀ j, Holds (d.leavePlay p x k) j .player)
      ∧ (d.playerState other ≠ .playing → ∀ j, Holds (d.leavePlay p x k) j .session) := by
  let e := ((d.setPlayer p x).mark k p).raise .player
  have differ : other ≠ p := by cases p <;> simp [ho]
  have own : e.playerState p = x := (d.playerState_setPlayer p p x).trans (if_pos rfl)
  have others : e.playerState other = d.playerState other := (d.playerState_setPlayer p other x).trans (if_neg differ)
  have marked : OnlyRaised d ((d.setPlayer p x).mark k p) :=
    (onlyRaised_of_ports rfl).trans (onlyRaised_appendRecord _ (markRecord k p))
  obtain ⟨ports, eq, only, session⟩ := e.examineEnd_eq p other ho run (own ▸ out)
  rw [others] at eq session
  exact ⟨ports, eq, (marked.trans (onlyRaised_raise _ _)).trans only, fun j => only.holds (holds_raise _ _ j), session⟩

@[simp] theorem Device.leavePlay_lane (d : Device) (p : Player) (x : PlayerState) (k : MarkKind) (q : LaneQueue) :
    (d.leavePlay p x k).lane q = d.lane q := by
  unfold Device.leavePlay Device.examineEnd
  split <;> rfl

@[simp] theorem Device.leavePlay_decoder (d : Device) (p other : Player) (x : PlayerState) (k : MarkKind) :
    (d.leavePlay p x k).decoder other = d.decoder other := by
  unfold Device.leavePlay Device.examineEnd
  split <;> rfl

/-- A player that is done is CLEARED (01 R10). -/
theorem Device.examineDone_leaves {d : Device} {p : Player} (done : d.doneHolds p = true) :
    d.examineDone p = d.leavePlay p .cleared .cleared := if_pos done

/-- A player whose report is taken is FAILED, its lanes emptied and its decoder in DISCARD (01 R11, notes/assumptions
33). -/
theorem Device.takeReport_leaves {d : Device} {p : Player} (fails : d.wouldFail p = true) :
    d.takeReport p = ((d.emptyLanes p).onDecoder p Decoder.discarded).leavePlay p .failed .failed := if_pos fails

/-- A failure empties the player's own lanes and no other (08 R128). -/
theorem Device.lane_emptyLanes (d : Device) (p : Player) (x : LaneQueue) :
    (d.emptyLanes p).lane x = if d.owner x = p then Lane.reset else d.lane x := by
  simp [Device.lane, Device.emptyLanes, Device.owns]

@[simp] theorem Device.emptyLanes_decoder (d : Device) (p other : Player) :
    (d.emptyLanes p).decoder other = d.decoder other := rfl

@[simp] theorem Device.emptyLanes_playerState (d : Device) (p other : Player) :
    (d.emptyLanes p).playerState other = d.playerState other := rfl

/-- The emptying and DISCARD of a failure are in the lanes and the decoders alone (04 R68, 08 R128). -/
theorem Device.emptyLanes_onDecoder_eq (d : Device) (p : Player) (f : Decoder → Decoder) :
    ∃ lanes decoders, (d.emptyLanes p).onDecoder p f
      = { d with judge := { d.judge with lanes := lanes }, decoders := decoders } := ⟨_, _, rfl⟩

/-! ## The device after a MISS -/

/-- A MISS of a PLAYING player takes the note from its queue, and reaches the ring and the score (08 R126, R127). -/
theorem Device.missed_eq {d : Device} {q : LaneQueue} (n : Note) (playing : d.playerState (d.owner q) = .playing) :
    ∃ ports, d.missed q n = { d with
        judge := { d.judge with lanes := vecModify d.judge.lanes q fun l => { l with queue := l.queue.erase n } }
        score := { d.score with
          records := d.score.records.set (d.owner q)
            ((d.record (d.owner q)).apply d.score d.session.failPolicy .miss) }
        ring := d.ring.append (d.missRecord q n)
        ports := ports }
      ∧ OnlyRaised d (d.missed q n) := by
  have e : d.missed q n = ((d.removeNote q n).appendRecord (d.missRecord q n)).onRecord (d.owner q)
      fun r => r.apply d.score d.session.failPolicy .miss := if_pos playing
  rw [e]
  refine ⟨_, rfl, ?_⟩
  have recorded : OnlyRaised d ((d.removeNote q n).appendRecord (d.missRecord q n)) :=
    (onlyRaised_of_ports (d.removeNote_ports q n)).trans (onlyRaised_appendRecord _ _)
  exact recorded.trans (onlyRaised_of_ports rfl)

theorem Device.missed_lane (d : Device) (q x : LaneQueue) (n : Note) :
    (d.missed q n).lane x
      = if x = q then { d.lane x with queue := (d.lane x).queue.erase n } else d.lane x := by
  unfold Device.missed Device.takeOutcome
  split <;> simp

@[simp] theorem Device.missed_session (d : Device) (q : LaneQueue) (n : Note) :
    (d.missed q n).session = d.session := by
  unfold Device.missed Device.takeOutcome
  split <;> rfl

@[simp] theorem Device.missed_decoder (d : Device) (q : LaneQueue) (n : Note) (p : Player) :
    (d.missed q n).decoder p = d.decoder p := by
  unfold Device.missed Device.takeOutcome
  split <;> rfl

@[simp] theorem Device.missed_playerState (d : Device) (q : LaneQueue) (n : Note) (p : Player) :
    (d.missed q n).playerState p = d.playerState p := by simp [Device.playerState]

@[simp] theorem Device.missed_owner (d : Device) (q x : LaneQueue) (n : Note) :
    (d.missed q n).owner x = d.owner x := by simp [Device.owner]

/-! ## The two ends of a sweep -/

section
variable {d : Device} {q : LaneQueue} {n : Note}

/-- A player whose MISS takes life to 0 under STOP leaves play FAILED (01 R11, 08 R128). -/
theorem Device.sweepLane_fails (due : d.sweepDue q = some n) (tap : n.kind = .tap)
    (playing : d.playerState (d.owner q) = .playing) (stop : d.session.failPolicy = .stop)
    (chart : (d.decoder (d.owner q)).state ≠ .ended)
    (dead : (d.record (d.owner q)).reachesZero d.score .miss = true) :
    d.sweepLane q
      = (((d.missed q n).emptyLanes (d.owner q)).onDecoder (d.owner q) Decoder.discarded).leavePlay (d.owner q) .failed
        .failed := by
  have reports : d.outcomeReports (d.owner q) .miss = true := by simp [Device.outcomeReports, playing, dead]
  have undone : (d.missed q n).doneHolds (d.owner q) = false := by simp [Device.doneHolds, chart]
  have fails : (d.missed q n).wouldFail (d.owner q) = true := by simp [Device.wouldFail, playing, stop]
  exact (Device.sweepLane_reports due tap reports undone).trans (Device.takeReport_leaves fails)

/-- The miss of a chart's last note leaves its player's lanes empty and IDLE. -/
theorem Device.missed_lane_empty (last : d.lane q = { queue := [n], hold := .idle })
    (others : ∀ x : LaneQueue, x ≠ q → d.owner x = d.owner q → d.lane x = { queue := [], hold := .idle })
    (x : LaneQueue) (own : d.owner x = d.owner q) : (d.missed q n).lane x = { queue := [], hold := .idle } := by
  by_cases swept : x = q
  · simp [swept, Device.missed_lane, last]
  · simp [Device.missed_lane, swept, others x swept own]

/-- A player whose decoder has ended and whose lanes are left empty by a MISS leaves play CLEARED (01 R10). -/
theorem Device.sweepLane_clears (due : d.sweepDue q = some n) (tap : n.kind = .tap)
    (playing : d.playerState (d.owner q) = .playing) (chart : (d.decoder (d.owner q)).state = .ended)
    (alive : (d.record (d.owner q)).reachesZero d.score .miss = false)
    (emptied : ∀ x, d.owner x = d.owner q → (d.missed q n).lane x = { queue := [], hold := .idle }) :
    d.sweepLane q = (d.missed q n).leavePlay (d.owner q) .cleared .cleared := by
  have survives : d.outcomeReports (d.owner q) .miss = false := by simp [Device.outcomeReports, alive]
  have lanes : (d.missed q n).lanesDone (d.owner q) = true := by
    simp only [Device.lanesDone, List.all_eq_true]
    rintro x -
    by_cases own : d.owner x = d.owner q
    · simp [emptied x own]
    · simp [Device.owns, own]
  have done : (d.missed q n).doneHolds (d.owner q) = true := by simp [Device.doneHolds, playing, chart, lanes]
  exact (Device.sweepLane_examines due tap survives).trans (Device.examineDone_leaves done)

end

end Sys2Proof.Machine
end

section
open Sys2Proof.Machine Sys2Proof.Safety

/-- Settles O29: the sweep takes the note, and the player leaves play by the report or by the done condition. -/
theorem sweepEndsPlayer : Obligations.SweepEndsPlayer := by
  unfold Obligations.SweepEndsPlayer
  constructor
  case left =>
    rintro s q pre post n p other miss rfl ho run playing stop chart active queue avoids tap past dead rfl
    refine ⟨_, rfl, ?_⟩
    rw [State.onDevice_device]
    generalize s.device = d at *
    set p := d.owner q
    have differ : other ≠ p := by cases hp : p <;> simp [ho, hp]
    let g := ((d.missed q n).emptyLanes p).onDecoder p Decoder.discarded
    have swept : d.sweepLane q = g.leavePlay p .failed .failed :=
      Device.sweepLane_fails (Device.sweepDue_eq run playing queue avoids tap past) tap playing stop chart dead
    obtain ⟨ports, missed, only⟩ := Device.missed_eq n playing
    obtain ⟨lanes, decoders, emptied⟩ := (d.missed q n).emptyLanes_onDecoder_eq p Decoder.discarded
    obtain ⟨ports', left, only', player, session⟩ :=
      g.leavePlay_eq p other .failed .failed ho (by simp [g, Device.emptyLanes, run]) (by decide)
    have emptying : OnlyRaised (d.missed q n) g := onlyRaised_of_ports (by rw [show g = _ from emptied])
    rw [← swept, show g = _ from emptied, missed] at left
    rw [← swept] at only' player session
    refine ⟨?_, ?_, ?_, fun x => ?_, ?_, ?_, ?_, ?_, ?_, player, ?_⟩
    · rw [left]; rfl
    · rw [left]
    · rw [left]
    · rw [swept, Device.leavePlay_lane]
      by_cases own : d.owner x = p
      · simp [g, Device.lane_emptyLanes, own, Lane.reset]
      · have apart : x ≠ q := fun e => own (e ▸ rfl)
        simp [g, Device.lane_emptyLanes, own, Device.missed_lane, apart]
    · simp [swept, g, Decoder.discarded, active]
    · simp [swept, g, differ]
    · rw [left, ← stop]
    · rw [left]; rfl
    · exact (only.trans emptying).trans only'
    · intro out
      refine session ?_
      simpa [g] using out
  case right =>
    rintro s q n p other miss rfl ho run playing chart queue tap others past alive rfl
    refine ⟨_, rfl, ?_⟩
    rw [State.onDevice_device]
    generalize s.device = d at *
    set p := d.owner q
    have emptied := Device.missed_lane_empty queue others
    have due : d.sweepDue q = some n :=
      Device.sweepDue_eq (pre := []) (post := []) run playing (by rw [queue]; rfl) (by simp) tap past
    have swept := Device.sweepLane_clears due tap playing chart alive emptied
    obtain ⟨ports, missed, only⟩ := Device.missed_eq n playing
    obtain ⟨ports', left, only', player, session⟩ :=
      (d.missed q n).leavePlay_eq p other .cleared .cleared ho (by simp [run]) (by decide)
    rw [← swept, missed] at left
    rw [← swept] at only' player session
    refine ⟨?_, ?_, ?_, fun x own => ?_, fun x own => ?_, ?_, ?_, only.trans only', player, ?_⟩
    · rw [left]; rfl
    · rw [left]
    · rw [left]
    · rw [swept, Device.leavePlay_lane, emptied x own]
    · have apart : x ≠ q := fun e => own (e ▸ rfl)
      simp [swept, Device.missed_lane, apart]
    · rw [left]
    · rw [left]; rfl
    · intro out
      refine session ?_
      simpa using out

end

