-- ==== Sys2Proof/Proofs/Updates.lean ====
section
/-!
What the part's own events write, said precisely enough for capacities, scores and times. Every event of a lane, of a
chart entry in hand, of a panel, a link or the clock is a chain of the elementary updates named here, at three levels:
those of the judge's events, those of the work of an entry in hand, and all. A law that each update keeps is kept by
every event.
-/
namespace Sys2Proof.Machine
open Sys2Proof.Safety

/-! ## Elementary updates -/

/-- An update by an event at the judge: no queue grows and no beat tracker moves. -/
inductive LaneUpdate (d : Device) : Device → Prop
  | lane (q : LaneQueue) (f : Lane → Lane) (h : ∀ l, (f l).queue.length ≤ l.queue.length) : LaneUpdate d (d.onLane q f)
  | empty (p : Player) : LaneUpdate d (d.emptyLanes p)
  | append (x : Record) : LaneUpdate d (d.appendRecord x)
  | outcome (p : Player) (o : Outcome) : LaneUpdate d (d.takeOutcome p o)
  | leave (p : Player) (x : PlayerState) (playing : d.playerState p = .playing) (hx : x ≠ .off) :
      LaneUpdate d (d.setPlayer p x)
  | ended (run : d.session.state = .run) : LaneUpdate d { d with session := { d.session with state := .ended } }
  | discard (p : Player) : LaneUpdate d (d.onDecoder p Decoder.discarded)
  | aside (lamps : Lamps) (ports : Vector PortState 3) (choices : Nat) :
      LaneUpdate d { d with lamps := lamps, ports := ports, choices := choices }

/-- An update by the work of an entry in hand of a player: the judge's, an append where there is room, and moves of the
player's decoder that keep its state, its entry in hand and its buffer. -/
inductive WorkUpdate (p : Player) (d : Device) : Device → Prop
  | judge {e : Device} (h : LaneUpdate d e) : WorkUpdate p d e
  | append (q : LaneQueue) (n : Note) (room : (d.lane q).queue.length < queueCapacity) :
      WorkUpdate p d (d.onLane q fun l => { l with queue := l.queue ++ [n] })
  | decoder (f : Decoder → Decoder) (h : ∀ c, (f c).state = c.state ∧ (f c).inHand = c.inHand ∧ (f c).buffer = c.buffer) :
      WorkUpdate p d (d.onDecoder p f)
  | units (f : ScoreRecord → ScoreRecord) (h : ∀ r, (f r).earned = r.earned) : WorkUpdate p d (d.onRecord p f)

/-- A clock after an update other than the microsecond: the free counter and the trackers stand, the capture list keeps to
its capacity, and song time within its limit does not fall (02 R17, R20, R23). -/
structure ClockUpdate (c k : Clock) : Prop where
  free     : k.free = c.free
  trackers : k.trackers = c.trackers
  captures : k.captures.length ≤ max captureCapacity c.captures.length
  songTime : c.songTime ≤ maxTime → c.songTime ≤ k.songTime ∧ k.songTime ≤ maxTime

/-- An update by any event of the part, or by a command that writes settings alone. -/
inductive Update (d : Device) : Device → Prop
  | work (p : Player) {e : Device} (h : WorkUpdate p d e) : Update d e
  | decoder (p : Player) (f : Decoder → Decoder) (h : ∀ c, (f c).buffer.length ≤ c.buffer.length) :
      Update d (d.onDecoder p f)
  | tracker (p : Player) (f : Tracker → Tracker)
      (h : (f (d.tracker p)).map.length ≤ max mapCapacity (d.tracker p).map.length) : Update d (d.onTracker p f)
  | clock (k : Clock) (h : ClockUpdate d.clock k) : Update d { d with clock := k }
  | panels (links : PerStage Link) (press : PressDetector) : Update d { d with links := links, press := press }
  | settings (mapper : Mapper) (judge : Judge) (score : ScoreKeeper) (hm : mapper.suppressed = d.mapper.suppressed)
      (hj : judge.lanes = d.judge.lanes) (hk : score.records = d.score.records) :
      Update d { d with mapper := mapper, judge := judge, score := score }

/-- A chain of updates by events at the judge. -/
def LaneUpdates : Device → Device → Prop := Relation.ReflTransGen LaneUpdate

/-- A chain of updates by the work of a player's entry in hand. -/
def WorkUpdates (p : Player) : Device → Device → Prop := Relation.ReflTransGen (WorkUpdate p)

/-- A chain of updates. -/
def Updates : Device → Device → Prop := Relation.ReflTransGen Update

theorem LaneUpdates.refl (d : Device) : LaneUpdates d d := Relation.ReflTransGen.refl

theorem LaneUpdates.trans {d e g : Device} (h : LaneUpdates d e) (k : LaneUpdates e g) : LaneUpdates d g :=
  Relation.ReflTransGen.trans h k

theorem WorkUpdates.refl (p : Player) (d : Device) : WorkUpdates p d d := Relation.ReflTransGen.refl

theorem WorkUpdates.trans {p : Player} {d e g : Device} (h : WorkUpdates p d e) (k : WorkUpdates p e g) :
    WorkUpdates p d g := Relation.ReflTransGen.trans h k

theorem Updates.refl (d : Device) : Updates d d := Relation.ReflTransGen.refl

theorem Updates.trans {d e g : Device} (h : Updates d e) (k : Updates e g) : Updates d g :=
  Relation.ReflTransGen.trans h k

theorem LaneUpdate.chain {d e : Device} (h : LaneUpdate d e) : LaneUpdates d e := Relation.ReflTransGen.single h

theorem WorkUpdate.chain {p : Player} {d e : Device} (h : WorkUpdate p d e) : WorkUpdates p d e :=
  Relation.ReflTransGen.single h

theorem Update.chain {d e : Device} (h : Update d e) : Updates d e := Relation.ReflTransGen.single h

theorem LaneUpdates.work {d e : Device} (p : Player) (h : LaneUpdates d e) : WorkUpdates p d e :=
  Relation.ReflTransGen.mono (fun _ _ => WorkUpdate.judge) _ _ h

theorem WorkUpdates.all {p : Player} {d e : Device} (h : WorkUpdates p d e) : Updates d e :=
  Relation.ReflTransGen.mono (fun _ _ => Update.work p) _ _ h

theorem LaneUpdates.all {d e : Device} (h : LaneUpdates d e) : Updates d e := (h.work .p1).all

/-! ## Updates of the judge -/

section
variable (d : Device)

theorem LaneUpdates.setHold (q : LaneQueue) (h : HoldState) : LaneUpdates d (d.setHold q h) :=
  (LaneUpdate.lane q (fun l => { l with hold := h }) fun _ => Nat.le_refl _).chain

theorem LaneUpdates.removeNote (q : LaneQueue) (n : Note) : LaneUpdates d (d.removeNote q n) :=
  (LaneUpdate.lane q _ fun _ => List.length_erase_le).chain

theorem markReached_length (n : Note) (ns : List Note) : (markReached n ns).length = ns.length := by
  induction ns with
  | nil => rfl
  | cons x xs ih =>
    unfold markReached
    split
    · rfl
    · rw [List.length_cons, List.length_cons, ih]

theorem LaneUpdates.markReached (q : LaneQueue) (n : Note) :
    LaneUpdates d (d.onLane q fun l => { l with queue := Machine.markReached n l.queue }) :=
  (LaneUpdate.lane q _ fun l => (markReached_length n l.queue).le).chain

theorem LaneUpdates.tailQueue (q : LaneQueue) (row due : Nat) (forced : Bool) :
    LaneUpdates d (d.onLane q fun l => { l with queue := Machine.tailQueue row due forced l.queue }) :=
  (LaneUpdate.lane q _ fun _ => List.length_map _ |>.le).chain

theorem LaneUpdates.countChoice : LaneUpdates d d.countChoice := (LaneUpdate.aside d.lamps d.ports _).chain

theorem LaneUpdates.ports (v : Vector PortState 3) : LaneUpdates d { d with ports := v } :=
  (LaneUpdate.aside d.lamps v d.choices).chain

theorem LaneUpdates.lamps (x : Lamps) : LaneUpdates d { d with lamps := x } :=
  (LaneUpdate.aside x d.ports d.choices).chain

theorem LaneUpdates.raise (k : Notice) : LaneUpdates d (d.raise k) := .ports d _

theorem LaneUpdates.appendRecord (x : Record) : LaneUpdates d (d.appendRecord x) := (LaneUpdate.append x).chain

theorem LaneUpdates.takeOutcome (p : Player) (o : Outcome) : LaneUpdates d (d.takeOutcome p o) :=
  (LaneUpdate.outcome p o).chain

theorem LaneUpdates.flashFor (g : Grade) (q : LaneQueue) : LaneUpdates d (d.flashFor g q) := by
  unfold Device.flashFor
  split
  · split
    · exact .refl d
    · exact .lamps d _
  · exact .refl d

theorem LaneUpdates.headerMayFall (i : Port) : LaneUpdates d (d.headerMayFall i) := by
  unfold Device.headerMayFall
  split
  · split
    · exact (LaneUpdates.countChoice d).trans (.ports _ _)
    · exact .countChoice d
  all_goals exact .refl d

theorem LaneUpdates.headersMayFall : LaneUpdates d d.headersMayFall :=
  ((LaneUpdates.headerMayFall d 0).trans (.headerMayFall _ 1)).trans (.headerMayFall _ 2)

theorem LaneUpdates.examineEnd : LaneUpdates d d.examineEnd := by
  rcases d.examineEnd_cases with ⟨run, -, -, e⟩ | ⟨-, e⟩ <;> rw [e]
  · exact ((LaneUpdate.ended run).chain.trans (.appendRecord _ _)).trans (.raise _ _)
  · exact .refl d

theorem LaneUpdates.examineDone (p : Player) : LaneUpdates d (d.examineDone p) := by
  rcases d.examineDone_cases p with ⟨done, e⟩ | ⟨-, e⟩ <;> rw [e]
  · have playing : d.playerState p = .playing := by
      simp only [Device.doneHolds, Bool.and_eq_true, decide_eq_true_eq] at done
      exact done.1.1
    exact (((LaneUpdate.leave p .cleared playing (by decide)).chain.trans (.appendRecord _ _)).trans (.raise _ _)).trans
      (.examineEnd _)
  · exact .refl d

theorem LaneUpdates.takeReport (p : Player) : LaneUpdates d (d.takeReport p) := by
  rcases d.takeReport_cases p with ⟨fails, e⟩ | ⟨-, e⟩ <;> rw [e]
  · have playing : d.playerState p = .playing := by
      simp only [Device.wouldFail, Bool.and_eq_true, decide_eq_true_eq] at fails
      exact fails.1
    have left := ((LaneUpdate.leave p .failed playing (by decide)).chain.trans (LaneUpdate.empty p).chain).trans
      (LaneUpdate.discard p).chain
    exact ((left.trans (.appendRecord _ _)).trans (.raise _ _)).trans (.examineEnd _)
  · exact .refl d

end

/-! ## Outcomes of the judge -/

section
variable (f : Flow)

theorem LaneUpdates.mayReport (p : Player) : LaneUpdates f.device (f.mayReport p).device := by
  unfold Flow.mayReport
  split
  · split
    · exact (LaneUpdates.countChoice _).trans (.takeReport _ p)
    · exact .countChoice _
  · exact .refl _

theorem LaneUpdates.goOn (q : LaneQueue) : LaneUpdates f.device (f.goOn q).device := .mayReport f _

theorem LaneUpdates.between : LaneUpdates f.device f.between.device := by
  unfold Flow.between
  split
  · exact .headersMayFall _
  · exact .refl _

theorem LaneUpdates.record (x : Option Record) : LaneUpdates f.device (f.record x).device := by
  cases x
  · exact .refl _
  · exact .appendRecord _ _

theorem LaneUpdates.flash (q : LaneQueue) (o : Outcome) : LaneUpdates f.device (f.flash q o).device := by
  cases o
  case graded g => exact .flashFor _ g q
  all_goals exact .refl _

theorem LaneUpdates.outcome (q : LaneQueue) (x : Option Record) (o : Outcome) :
    LaneUpdates f.device (f.outcome q x o).device :=
  ((((LaneUpdates.mayReport f _).trans (.record _ x)).trans (.mayReport _ _)).trans (.takeOutcome _ _ o)).trans
    (.flash (Flow.score _ _ o) q o)

theorem LaneUpdates.handOff (p : Player) : LaneUpdates f.device (f.handOff p).device := by
  unfold Flow.handOff
  split
  · split
    · exact (LaneUpdates.countChoice _).trans (.examineDone _ p)
    · exact (LaneUpdates.countChoice _).trans (.takeReport _ p)
  · exact .examineDone _ p

theorem LaneUpdates.finish (p : Player) : LaneUpdates f.device (f.finish p) := by
  unfold Flow.finish
  split
  · exact .takeReport _ p
  · exact .refl _

theorem LaneUpdates.endHold (q : LaneQueue) (h : ActiveHold) (held : Bool) :
    LaneUpdates f.device (f.endHold q h held).device :=
  (((LaneUpdates.between f).trans (.setHold _ q .idle)).trans
    (.outcome { f.between with device := f.between.device.setHold q .idle } q _ _)).trans (.handOff _ _)

theorem LaneUpdates.sweepNote (q : LaneQueue) (n : Note) : LaneUpdates f.device (f.sweepNote q n).device := by
  unfold Flow.sweepNote
  extract_lets g d miss f₁ f₂
  have miss_ : LaneUpdates f.device f₁.device :=
    ((LaneUpdates.between f).trans (.removeNote g.device q n)).trans (.outcome { g with device := d } q (some miss) .miss)
  have letGo : LaneUpdates f₁.device f₂.device := by
    simp only [f₂]
    split
    · exact (LaneUpdates.between f₁).trans (.outcome _ q _ _)
    · exact .refl _
  exact (miss_.trans letGo).trans (.handOff _ _)

theorem LaneUpdates.hitAvoid (q : LaneQueue) (n : Note) (timed : Option Int) :
    LaneUpdates f.device (f.hitAvoid q n timed).device :=
  (((LaneUpdates.between f).trans (.removeNote _ q n)).trans
    (.outcome { f.between with device := f.between.device.removeNote q n } q _ _)).trans (.handOff _ _)

theorem LaneUpdates.gradeNote (q : LaneQueue) (n : Note) (stamp : Int) :
    LaneUpdates f.device (f.gradeNote q n stamp).device := by
  unfold Flow.gradeNote
  extract_lets f₀ o g hold d₁ d₂ x f₁
  have removed : LaneUpdates f.device d₂ := by
    refine ((LaneUpdates.between f).trans (.removeNote f₀.device q n)).trans ?_
    simp only [d₂]
    split
    · exact .setHold _ q _
    · exact .refl _
  have graded : LaneUpdates f.device f₁.device :=
    ((removed.trans (.outcome { f₀ with device := d₂ } q _ _)).trans (.handOff _ _)).trans (.goOn _ q)
  split
  · exact graded.trans (.endHold f₁ q hold true)
  · exact graded

theorem LaneUpdates.stray (q : LaneQueue) (hit : Bool) : LaneUpdates f.device (f.stray q hit).device := by
  unfold Flow.stray
  split
  · exact .refl _
  · exact (LaneUpdates.between f).trans (.outcome _ q none _)

theorem LaneUpdates.strike (q : LaneQueue) (stamp : Int) (hit : Bool) (fuel : Nat) :
    LaneUpdates f.device (Flow.strike q stamp hit fuel f).device := by
  induction fuel generalizing f with
  | zero => exact .refl _
  | succ fuel ih =>
    unfold Flow.strike
    refine (LaneUpdates.goOn f q).trans ?_
    dsimp only
    split
    · split
      · exact .stray _ q hit
      · split
        · exact (LaneUpdates.sweepNote _ q _).trans (ih _)
        · split
          · exact .stray _ q hit
          · exact .gradeNote _ q _ stamp
    · exact .refl _

theorem LaneUpdates.hitAvoids (q : LaneQueue) (stamp : Int) (notes : List Note) :
    LaneUpdates f.device (Flow.hitAvoids q stamp f notes).device := by
  unfold Flow.hitAvoids
  induction notes generalizing f with
  | nil => exact .refl _
  | cons n notes ih =>
    rw [List.foldl_cons]
    refine (LaneUpdates.goOn f q).trans (LaneUpdates.trans ?_ (ih _))
    dsimp only
    split
    · exact .hitAvoid _ q n _
    · exact .refl _

theorem LaneUpdates.meetHold (q : LaneQueue) (stamp : Int) (hit : Bool) :
    LaneUpdates f.device (f.meetHold q stamp hit).device := by
  have target : ∀ g : Flow, LaneUpdates g.device (g.strikeTarget q stamp hit).device := fun g => .strike g q stamp hit _
  unfold Flow.meetHold
  split
  · exact target f
  · split
    · exact (LaneUpdates.endHold f q _ true).trans (target _)
    · exact .setHold _ q _
  · split
    · exact (LaneUpdates.endHold f q _ _).trans (target _)
    · split
      · exact (LaneUpdates.endHold f q _ true).trans (target _)
      · exact .setHold _ q _

end

/-! ## Events of a lane -/

section
variable (d : Device)

theorem LaneUpdates.pressLane (q : LaneQueue) (stamp : Int) : LaneUpdates d (d.pressLane q stamp) := by
  unfold Device.pressLane
  split
  · refine LaneUpdates.trans ?_ (.finish _ _)
    refine ((LaneUpdates.hitAvoids (Flow.start d) q stamp (d.avoidsHit q stamp)).trans (.goOn _ q)).trans ?_
    split
    · exact .meetHold _ q stamp _
    · exact .refl _
  · exact .refl d

theorem LaneUpdates.releaseLane (q : LaneQueue) (stamp : Int) : LaneUpdates d (d.releaseLane q stamp) := by
  unfold Device.releaseLane
  split
  · split
    · split
      · exact (LaneUpdates.endHold (Flow.start d) q _ true).trans (.finish _ _)
      · exact .setHold d q _
    · exact .refl d
    · exact .refl d
  · exact .refl d

theorem LaneUpdates.sweepLane (q : LaneQueue) : LaneUpdates d (d.sweepLane q) := by
  unfold Device.sweepLane
  split
  · exact .refl d
  · exact (LaneUpdates.sweepNote (Flow.start d) q _).trans (.finish _ _)

theorem LaneUpdates.reachAvoid (q : LaneQueue) (n : Note) : LaneUpdates d (d.reachAvoid q n) := by
  unfold Device.reachAvoid
  split
  · exact (LaneUpdates.hitAvoid (Flow.start d) q n none).trans (.finish _ _)
  · exact .markReached d q n

theorem LaneUpdates.avoidDueLane (q : LaneQueue) : LaneUpdates d (d.avoidDueLane q) := by
  unfold Device.avoidDueLane
  split
  · exact .refl d
  · exact .reachAvoid d q _

theorem LaneUpdates.expireAvoid (q : LaneQueue) (n : Note) : LaneUpdates d (d.expireAvoid q n) := by
  unfold Device.expireAvoid
  split
  · exact .reachAvoid d q n
  · exact (LaneUpdates.removeNote d q n).trans (.examineDone _ _)

theorem LaneUpdates.avoidPastLane (q : LaneQueue) : LaneUpdates d (d.avoidPastLane q) := by
  unfold Device.avoidPastLane
  split
  · exact .refl d
  · exact .expireAvoid d q _

theorem LaneUpdates.tailLane (q : LaneQueue) : LaneUpdates d (d.tailLane q) := by
  unfold Device.tailLane
  split
  · exact .refl d
  · exact (LaneUpdates.endHold (Flow.start d) q _ true).trans (.finish _ _)

theorem LaneUpdates.graceLane (q : LaneQueue) : LaneUpdates d (d.graceLane q) := by
  unfold Device.graceLane
  split
  · exact .refl d
  · exact (LaneUpdates.endHold (Flow.start d) q _ _).trans (.finish _ _)

theorem LaneUpdates.sweepAll (q : LaneQueue) (fuel : Nat) : LaneUpdates d (Device.sweepAll q fuel d) := by
  induction fuel generalizing d with
  | zero => exact .refl d
  | succ fuel ih =>
    unfold Device.sweepAll
    split
    · refine (LaneUpdates.sweepLane d q).trans (LaneUpdates.trans ?_ (ih _))
      split
      · exact .headersMayFall _
      · exact .refl _
    · exact .refl d

theorem LaneUpdates.examineAppended (q : LaneQueue) (n : Note) : LaneUpdates d (d.examineAppended q n) := by
  unfold Device.examineAppended
  split
  · split
    · exact .sweepAll d q _
    · exact .sweepAll d q _
    · split
      · exact .expireAvoid d q n
      · split
        · exact .reachAvoid d q n
        · exact .refl d
  · exact .refl d

theorem LaneUpdates.settleTail (q : LaneQueue) : LaneUpdates d (d.settleTail q) := by
  unfold Device.settleTail
  split
  · exact .graceLane d q
  · exact .tailLane d q

theorem LaneUpdates.takeTail (q : LaneQueue) (row due : Nat) (forced : Bool) : LaneUpdates d (d.takeTail q row due forced) := by
  unfold Device.takeTail
  split
  · exact .tailQueue d q row due forced
  · split
    · exact .refl d
    · split
      · exact (LaneUpdates.setHold d q _).trans (.settleTail _ q)
      · exact .refl d
    · split
      · exact (LaneUpdates.setHold d q _).trans (.settleTail _ q)
      · exact .refl d

theorem LaneUpdates.takeLaneEvent (q : LaneQueue) (k : LaneEvent) : LaneUpdates d (d.takeLaneEvent q k) := by
  cases k
  · exact .sweepLane d q
  · exact .avoidDueLane d q
  · exact .avoidPastLane d q
  · exact .tailLane d q
  · exact .graceLane d q

end

/-! ## The work of an entry in hand -/

section
variable (d : Device) (p : Player)

theorem WorkUpdates.onDecoder (f : Decoder → Decoder)
    (h : ∀ c, (f c).state = c.state ∧ (f c).inHand = c.inHand ∧ (f c).buffer = c.buffer := by
      exact fun _ => ⟨rfl, rfl, rfl⟩) : WorkUpdates p d (d.onDecoder p f) := (WorkUpdate.decoder f h).chain

theorem WorkUpdates.addFault (k : FaultKind) : WorkUpdates p d (d.addFault p k) := by
  rcases d.addFault_cases p k with ⟨-, e⟩ | ⟨-, e⟩ <;> rw [e]
  · exact .refl p d
  · exact (WorkUpdates.onDecoder d p _).trans ((LaneUpdates.raise _ _).work p)

theorem WorkUpdates.addFaultIf (k : FaultKind) (cond : Bool) : WorkUpdates p d (d.addFaultIf p k cond) := by
  unfold Device.addFaultIf
  split
  · exact .addFault d p k
  · exact .refl p d

theorem WorkUpdates.moveCursor (row : Nat) : WorkUpdates p d (d.moveCursor p row) := by
  unfold Device.moveCursor
  exact ((WorkUpdates.addFaultIf d p .rowClamped _).trans (.addFaultIf _ p .dueClamped _)).trans
    (.onDecoder _ p _)

theorem WorkUpdates.handTail (lane : Fin 12) (row due : Nat) (forced : Bool) :
    WorkUpdates p d (d.handTail p lane row due forced) := by
  unfold Device.handTail
  split
  · exact .refl p d
  · exact (LaneUpdates.takeTail d _ row due forced).work p

theorem WorkUpdates.clearMark (lane : Fin 12) : WorkUpdates p d (d.clearMark p lane) :=
  .onDecoder d p _

theorem WorkUpdates.handUnits (kind : NoteKind) : WorkUpdates p d (d.handUnits p kind) := by
  have units (n : Nat) : WorkUpdates p d (d.takeDecodedUnits p n) := (WorkUpdate.units _ fun _ => by rfl).chain
  cases kind
  · exact units _
  · exact units _
  · exact .refl p d

/-- An accepted append moves the decoder's last row, its count and its mark alone (04 R56). -/
theorem Decoder.appended_kept (c : Decoder) (lane : Fin 12) (n : Note) :
    (c.appended lane n).state = c.state ∧ (c.appended lane n).inHand = c.inHand
      ∧ (c.appended lane n).buffer = c.buffer := by
  unfold Decoder.appended
  dsimp only
  split <;> exact ⟨rfl, rfl, rfl⟩

theorem WorkUpdates.acceptNote (lane : Fin 12) (q : LaneQueue) (n : Note)
    (room : (d.lane q).queue.length < queueCapacity) : WorkUpdates p d (d.acceptNote p lane q n) :=
  (((WorkUpdate.append q _ room).chain.trans (.onDecoder _ p _ fun c => c.appended_kept lane _)).trans
    (.handUnits _ p _)).trans ((LaneUpdates.examineAppended _ q _).work p)

/-- A note is accepted where the queue has room alone (08 R110). -/
theorem Device.appendAnswer_accepted {d : Device} {p : Player} {q : LaneQueue}
    (h : d.appendAnswer p q = .accepted) : (d.lane q).queue.length < queueCapacity := by
  unfold Device.appendAnswer at h
  split_ifs at h with _ room
  exact room

theorem WorkUpdates.tryAppend {lane : Fin 12} {n : Note} {e : Device} (h : d.tryAppend p lane n = some e) :
    WorkUpdates p d e := by
  unfold Device.tryAppend at h
  split at h
  · cases h
    exact .refl p d
  · split at h
    · cases h
      exact .refl p d
    · cases h
    · rename_i accepted
      cases h
      exact .acceptNote d p lane _ n (Device.appendAnswer_accepted accepted)

theorem WorkUpdates.endOverlap (lane : Fin 12) (due : Nat) : WorkUpdates p d (d.endOverlap p lane due) := by
  unfold Device.endOverlap
  split
  · exact .refl p d
  · exact ((WorkUpdates.addFault d p _).trans (.clearMark _ p lane)).trans (.handTail _ p lane _ _ _)

theorem WorkUpdates.placeHoldEnd (lane : Fin 12) : WorkUpdates p d (d.placeHoldEnd p lane) := by
  unfold Device.placeHoldEnd
  split
  · exact .addFault d p _
  · exact (WorkUpdates.clearMark d p lane).trans (.handTail _ p lane _ _ _)

theorem WorkUpdates.appendStep (lane : Fin 12) (n : Note) : WorkUpdates p d (d.appendStep p lane n).device := by
  unfold Device.appendStep
  split
  · rename_i h
    exact .tryAppend d p h
  · exact .refl p d

theorem WorkUpdates.placeNote (kind : NoteKind) (lane : Fin 12) : WorkUpdates p d (d.placeNote p kind lane).device := by
  unfold Device.placeNote
  dsimp only
  split
  · exact .addFault d p _
  · split
    · exact .appendStep d p lane _
    · exact (WorkUpdates.endOverlap d p lane _).trans (.appendStep _ p lane _)

theorem WorkUpdates.workStep (w : Work) : WorkUpdates p d (d.workStep p w).device := by
  match w with
  | .moveTo row => exact .moveCursor d p row
  | .place .tap lane => exact .placeNote d p .tap lane
  | .place .holdStart lane => exact .placeNote d p .holdStart lane
  | .place .avoid lane => exact .placeNote d p .avoid lane
  | .place .holdEnd lane => exact .placeHoldEnd d p lane
  | .append lane n => exact .appendStep d p lane n

/-- What the work of an entry in hand ends with: nothing where the player has failed meanwhile, the entry finished, or a
stall on a lane (04 R51, R56, R68). -/
theorem runWork_cases (ws : List Work) : ∃ e, WorkUpdates p d e
    ∧ ((e.decoder p).state = .discard ∧ runWork p ws d = e
      ∨ (e.decoder p).state ≠ .discard ∧ runWork p ws d = e.onDecoder p Decoder.notesFinished
      ∨ ∃ task, runWork p ws d = e.onDecoder p fun c => c.stalled .stalledLane task) := by
  induction ws generalizing d with
  | nil =>
    refine ⟨d, .refl p d, ?_⟩
    unfold runWork
    split
    · rename_i failed
      exact .inl ⟨failed, rfl⟩
    · rename_i going
      exact .inr (.inl ⟨going, rfl⟩)
  | cons w ws ih =>
    unfold runWork
    have taken := WorkUpdates.workStep d p w
    split
    · rename_i failed
      exact ⟨d, .refl p d, .inl ⟨failed, rfl⟩⟩
    · split <;> rename_i h <;> rw [h] at taken
      · obtain ⟨e, rest, ends⟩ := ih _
        exact ⟨e, taken.trans rest, ends⟩
      · exact ⟨_, taken, .inr (.inr ⟨_, rfl⟩)⟩

end

/-! ## Entries of a chart -/

section
variable (d : Device) (p : Player)

theorem Updates.onDecoder (f : Decoder → Decoder) (h : ∀ c, (f c).buffer.length ≤ c.buffer.length := by
      exact fun _ => Nat.le_refl _) : Updates d (d.onDecoder p f) := (Update.decoder p f h).chain

theorem Decoder.finished_buffer (c : Decoder) : c.finished.buffer.length ≤ c.buffer.length :=
  List.length_drop.le.trans (Nat.sub_le _ _)

theorem Updates.runWork (ws : List Work) : Updates d (runWork p ws d) := by
  obtain ⟨e, work, ⟨-, eq⟩ | ⟨-, eq⟩ | ⟨task, eq⟩⟩ := runWork_cases d p ws <;> rw [eq]
  · exact work.all
  · exact work.all.trans (.onDecoder e p _ Decoder.finished_buffer)
  · exact work.all.trans (.onDecoder e p _)

theorem LaneUpdates.beatPulse : LaneUpdates d (d.beatPulse p) := by
  unfold Device.beatPulse
  split
  · exact .lamps d _
  · exact .refl d

theorem Updates.recomputeBeat : Updates d (d.recomputeBeat p) := by
  have moved : Updates d (d.onTracker p fun k => { k with beatIndex := d.beatIndexNow p }) :=
    (Update.tracker p _ (Nat.le_max_right _ _)).chain
  unfold Device.recomputeBeat
  split
  · dsimp only
    split
    · exact moved.trans (LaneUpdates.beatPulse _ p).all
    · exact moved
  · exact .refl d

theorem Tracker.advanced_length (k : Tracker) (songTime : Int) : (k.advanced songTime).map.length ≤ k.map.length :=
  List.length_drop.le.trans (Nat.sub_le _ _)

theorem Updates.advanceTracker : Updates d (d.advanceTracker p) := by
  unfold Device.advanceTracker
  split
  · refine (Update.tracker p _ ?_).chain.trans (.recomputeBeat _ p)
    exact (Tracker.advanced_length _ _).trans (Nat.le_max_right _ _)
  · exact .refl d

theorem Updates.dropFront (n : Nat) : Updates d (d.dropFront p n) :=
  .onDecoder d p _ fun _ => List.length_drop.le.trans (Nat.sub_le _ _)

theorem Updates.discardAfterEnd : Updates d (d.discardAfterEnd p) := by
  unfold Device.discardAfterEnd
  split
  · exact (WorkUpdates.addFault d p _).all.trans (.onDecoder _ p _ fun _ => Nat.zero_le _)
  · exact .refl d

theorem Updates.firstEntry (isHeader : Bool) : Updates d (d.firstEntry p isHeader) := by
  unfold Device.firstEntry
  split
  · exact (WorkUpdates.addFaultIf d p _ _).all.trans (.onDecoder _ p _)
  · exact .refl d

theorem Updates.dropRepeat : Updates d (d.dropRepeat p) := by
  unfold Device.dropRepeat
  split
  · exact (WorkUpdates.addFault d p _).all.trans (.onDecoder _ p _)
  · exact .refl d

theorem Updates.offer (s : Segment) : Updates d (d.offer p s) := by
  unfold Device.offer
  split
  · rename_i room
    have pushed : Updates d (d.onTracker p fun k => { k with map := k.map ++ [s] }) := by
      refine (Update.tracker p _ (le_max_of_le_left ?_)).chain
      simpa [Device.mapHasRoom] using room
    exact ((pushed.trans (.onDecoder _ p _)).trans
      (.onDecoder _ p _ Decoder.finished_buffer)).trans (.advanceTracker _ p)
  · exact .onDecoder d p _

theorem Updates.tempoFaults (period : Nat) : Updates d (d.tempoFaults p period) :=
  (WorkUpdates.addFaultIf d p _ _).all

theorem Updates.dwellFaults (length : Nat) : Updates d (d.dwellFaults p length) :=
  ((WorkUpdates.addFaultIf d p _ _).trans (.addFaultIf _ p _ _)).all

theorem Updates.takeInHand (size : Nat) (task : Task) : Updates d (d.onDecoder p fun c => c.takeInHand size task) :=
  .onDecoder d p _

theorem WorkUpdates.forceEnd (lane : Fin 12) : WorkUpdates p d (Device.forceEnd p d lane) := by
  unfold Device.forceEnd
  split
  · exact .refl p d
  · split
    · exact .refl p d
    · exact (WorkUpdates.clearMark d p lane).trans (.handTail _ p lane _ _ _)

theorem WorkUpdates.forceEnds (lanes : List (Fin 12)) : WorkUpdates p d (lanes.foldl (Device.forceEnd p) d) := by
  induction lanes generalizing d with
  | nil => exact .refl p d
  | cons lane lanes ih => exact (WorkUpdates.forceEnd d p lane).trans (ih _)

theorem Updates.enterEnded : Updates d (d.enterEnded p) := by
  unfold Device.enterEnded
  split
  · exact .refl d
  · exact ((Updates.onDecoder d p _ fun c => by exact c.finished_buffer).trans (.discardAfterEnd _ p)).trans
      (LaneUpdates.examineDone _ p).all

theorem Updates.actBadTag : Updates d (d.actBadTag p) := (WorkUpdates.addFault d p _).all.trans (.dropFront _ p _)

theorem Updates.actEntry (e : Entry) : Updates d (d.actEntry p e) := by
  have pre := (Updates.firstEntry d p false).trans (.dropRepeat _ p)
  cases e with
  | header noteTotal holdTotal =>
    have totals (a : Device) : Updates a (a.takeHeader p noteTotal holdTotal) :=
      (WorkUpdate.units (p := p) _ fun _ => by rfl).chain.all
    simp only [Device.actEntry, Device.actHeader]
    split
    · exact (((Updates.firstEntry d p true).trans (.onDecoder _ p _)).trans (totals _)).trans
        (.dropFront _ p _)
    · exact ((Updates.dropRepeat d p).trans (WorkUpdates.addFault _ p _).all).trans (.dropFront _ p _)
  | rows count => exact (pre.trans (WorkUpdates.moveCursor _ p _).all).trans (.dropFront _ p _)
  | notes kind mask =>
    simp only [Device.actEntry, Device.actNotes]
    split
    · exact (((Updates.firstEntry d p false).trans (WorkUpdates.addFaultIf _ p _ _).all).trans (.takeInHand _ p _ _)).trans
        (.runWork _ p _)
    · exact ((pre.trans (WorkUpdates.addFaultIf _ p _ _).all).trans (.takeInHand _ p _ _)).trans (.runWork _ p _)
  | repeated times spacing => exact (pre.trans (.onDecoder _ p _)).trans (.dropFront _ p _)
  | tempo period => exact ((pre.trans (.tempoFaults _ p _)).trans (.takeInHand _ p _ _)).trans (.offer _ p _)
  | dwell length => exact ((pre.trans (.dwellFaults _ p _)).trans (.takeInHand _ p _ _)).trans (.offer _ p _)
  | ending => exact ((pre.trans (.takeInHand _ p _ _)).trans (WorkUpdates.forceEnds _ p _).all).trans (.enterEnded _ p)
  | badTag => exact .actBadTag d p

theorem Updates.discardEntry (e : Entry) : Updates d (d.discardEntry p e) := by
  have segment (a : Device) (f : Decoder → DecoderSegment) :
      Updates a (a.onDecoder p fun c => { c with segment := f c }) := .onDecoder a p _
  cases e with
  | rows count => exact (WorkUpdates.moveCursor d p _).all.trans (.dropFront _ p _)
  | tempo period => exact ((Updates.tempoFaults d p _).trans (segment _ _)).trans (.dropFront _ p _)
  | dwell length => exact ((Updates.dwellFaults d p _).trans (segment _ _)).trans (.dropFront _ p _)
  | badTag => exact .actBadTag d p
  | header _ _ | notes _ _ | repeated _ _ | ending => exact .dropFront d p _

theorem Updates.takeEntry (e : Entry) : Updates d (d.takeEntry p e) := by
  unfold Device.takeEntry
  split
  · exact .discardEntry d p e
  · exact .actEntry d p e

theorem Updates.takeKind (k : EntryKind) : Updates d (d.takeKind p k) := by
  unfold Device.takeKind
  split
  · exact .refl d
  · split
    · exact .takeEntry d p _
    · exact .refl d

theorem Updates.takeNext : Updates d (d.takeNext p) := by
  unfold Device.takeNext
  split
  · exact .refl d
  · exact .takeEntry d p _

theorem Updates.releaseStall : Updates d (d.releaseStall p) := by
  unfold Device.releaseStall
  split
  · split
    · exact .refl d
    · have going := Updates.onDecoder d p (fun c => { c with state := .decoding })
      dsimp only
      split
      · exact going.trans (.runWork _ p _)
      · exact going.trans (.offer _ p _)
  · exact .refl d

theorem Updates.retryAt (q : LaneQueue) : Updates d (d.retryAt q) := by
  unfold Device.retryAt
  split
  · exact .releaseStall d _
  · exact .refl d

end

end Sys2Proof.Machine
end

