-- ==== Sys2Proof/Proofs/EventUpdates.lean ====
section
/-!
The events of the panels, the links and the clock as chains of elementary updates, the events of one instant among them.
-/
namespace Sys2Proof.Machine
open Sys2Proof.Safety

/-! ## Panels and links -/

section
variable (d : Device)

theorem Updates.onPanel (p : Panel) (f : PanelPress → PanelPress) : Updates d (d.onPanel p f) :=
  (Update.panels d.links _).chain

theorem Updates.onLink (l : Stage) (f : Link → Link) : Updates d (d.onLink l f) := (Update.panels _ d.press).chain

theorem Updates.raceAvoids (q : LaneQueue) (fuel : Nat) : Updates d (Device.raceAvoids q fuel d) := by
  induction fuel generalizing d with
  | zero => exact .refl d
  | succ fuel ih =>
    unfold Device.raceAvoids
    split
    · split
      · exact (((LaneUpdates.countChoice d).trans (.avoidDueLane _ q)).all.trans (.retryAt _ q)).trans
          ((LaneUpdates.headersMayFall _).all.trans (ih _))
      · exact (LaneUpdates.countChoice d).all
    · exact .refl d

theorem Updates.pressChange (p : Panel) (before : Bool) : Updates d (d.pressChange p before) := by
  have routed (e : Device) : Updates e (e.routePress p) := by
    unfold Device.routePress
    split
    · exact .refl e
    · exact (Updates.raceAvoids e _ _).trans (LaneUpdates.pressLane _ _ _).all
  have released (e : Device) : Updates e (e.routeRelease p) := by
    unfold Device.routeRelease
    split
    · exact .refl e
    · exact (LaneUpdates.releaseLane e _ _).all
  unfold Device.pressChange
  split
  · exact (Updates.onPanel d p _).trans (routed _)
  · exact (Updates.onPanel d p _).trans (released _)
  · exact .refl d
  · exact .refl d

theorem Updates.takeGoodReport (p : Panel) (r : GoodReport) : Updates d (d.takeGoodReport p r) := by
  unfold Device.takeGoodReport
  refine (Updates.onPanel d p fun x => x.afterReport r).trans (Updates.trans ?_ (.pressChange _ p _))
  split
  · exact (LaneUpdates.raise _ _).all
  · exact .refl _

theorem Updates.takeBoardLost (p : Panel) : Updates d (d.takeBoardLost p) :=
  (Updates.onPanel d p _).trans (.pressChange _ p _)

theorem Updates.expireStuck (p : Panel) : Updates d (d.expireStuck p) := by
  unfold Device.expireStuck
  split
  · split
    · exact .onPanel d p _
    · exact (((Updates.onPanel d p _).trans (.pressChange _ p _)).trans (LaneUpdates.raise _ _).all).trans
        (.onPanel _ p _)
  · exact .refl d

theorem Updates.expireAllStuck : Updates d d.expireAllStuck := by
  unfold Device.expireAllStuck
  induction allPanels generalizing d with
  | nil => exact .refl d
  | cons p ps ih => exact (Updates.expireStuck d p).trans (ih _)

theorem Updates.pollTransfer (x : PollTransfer) : Updates d (d.pollTransfer x) := by
  have begun (l : Stage) : Updates d (d.beginPoll l) := by
    unfold Device.beginPoll
    split
    · exact .onLink d l _
    · exact .refl d
  cases x with
  | whole l =>
    simp only [Device.pollTransfer]
    split
    · exact (begun l).trans (.onLink _ l _)
    · exact .refl d
  | begins l => exact begun l
  | ends l => exact .onLink d l _

theorem Updates.endEmptyRound (l : Stage) : Updates d (d.endEmptyRound l) := by
  unfold Device.endEmptyRound
  split
  · exact .onLink d l _
  · exact .refl d

theorem Updates.wakeLink (l : Stage) (wasSilent : Bool) : Updates d (d.wakeLink l wasSilent) := by
  unfold Device.wakeLink
  split
  · exact .onLink d l _
  · exact .refl d

theorem Updates.setLink (l : Stage) (enable : BitVec 6) (replyLimit missLimit : Nat) :
    Updates d (d.setLink l enable replyLimit missLimit) := by
  have lost (as : List (Fin 6)) (e : Device) : Updates e (as.foldl (fun d a => d.takeBoardLost (panelOf l a)) e) := by
    induction as generalizing e with
    | nil => exact .refl e
    | cons a as ih => exact (Updates.takeBoardLost e _).trans (ih _)
  exact ((Updates.onLink d l _).trans (lost _ _)).trans (.wakeLink _ l _)

theorem Updates.miss (l : Stage) (a : Fin 6) : Updates d (d.miss l a) := by
  have missed : Updates d (d.onLink l fun x => x.onBoard a fun b => b.missed x.missLimit) := .onLink d l _
  unfold Device.miss
  dsimp only
  split
  · exact (missed.trans (LaneUpdates.raise _ _).all).trans (.takeBoardLost _ _)
  · exact missed

theorem Updates.judgeReport (l : Stage) (a : Fin 6) (f : ReportFrame) : Updates d (d.judgeReport l a f) := by
  unfold Device.judgeReport
  split
  · exact ((Updates.onLink d l _).trans (LaneUpdates.raise _ _).all).trans (.miss _ l a)
  · split
    · exact .miss d l a
    · exact (Updates.onLink d l _).trans (.takeGoodReport _ _ _)

theorem Updates.receiveReport (l : Stage) (f : ReportFrame) (quarters : Nat) :
    Updates d (d.receiveReport l f quarters) := by
  unfold Device.receiveReport
  split
  case h_2 =>
    split
    · split
      · exact .onLink d l _
      · exact (Updates.onLink d l _).trans (.judgeReport _ l _ f)
    · exact .refl d
  all_goals exact .refl d

theorem Updates.passDeadline (l : Stage) : Updates d (d.passDeadline l) := by
  unfold Device.passDeadline
  split
  case h_2 =>
    split
    · exact .onLink d l _
    · exact (Updates.onLink d l _).trans (.miss _ l _)
  all_goals exact .refl d

/-! ## The clock -/

/-- A clock in which the counter, song time, the captures and the trackers stand. -/
theorem Updates.clockAside (k : Clock) (h : k.free = d.clock.free ∧ k.songTime = d.clock.songTime
    ∧ k.captures = d.clock.captures ∧ k.trackers = d.clock.trackers) : Updates d { d with clock := k } := by
  obtain ⟨free, songTime, captures, trackers⟩ := h
  refine (Update.clock k ⟨free, trackers, ?_, fun limit => ?_⟩).chain
  · rw [captures]
    exact Nat.le_max_right _ _
  · rw [songTime]
    exact ⟨Int.le_refl _, limit⟩

theorem Updates.endStall : Updates d d.endStall := by
  unfold Device.endStall
  split
  · exact .clockAside d _ ⟨rfl, rfl, rfl, rfl⟩
  · exact .refl d

/-- The oldest of four captures gives way to a fifth (02 R20). -/
theorem Clock.captureNow_length (c : Clock) :
    c.captureNow.captures.length ≤ max captureCapacity c.captures.length := by
  unfold Clock.captureNow
  split <;> simp [captureCapacity] at * <;> omega

theorem Updates.edge : Updates d d.edge := by
  unfold Device.edge
  dsimp only
  split
  · refine Updates.trans (Update.clock _ ⟨?_, ?_, ?_, ?_⟩).chain (LaneUpdates.raise _ _).all
    · rfl
    · rfl
    · exact Clock.captureNow_length _
    · exact fun limit => ⟨Int.le_refl _, limit⟩
  · exact .clockAside d _ ⟨rfl, rfl, rfl, rfl⟩

theorem Updates.loseSync : Updates d d.loseSync := by
  unfold Device.loseSync
  split
  · exact (Updates.clockAside d _ (by exact ⟨rfl, rfl, rfl, rfl⟩)).trans (LaneUpdates.raise _ _).all
  · exact .refl d

theorem Updates.reachTempo (p : Player) : Updates d (d.reachTempo p) := by
  unfold Device.reachTempo
  split
  · exact .advanceTracker d p
  · exact .refl d

theorem Updates.crossBeat (p : Player) : Updates d (d.crossBeat p) := by
  unfold Device.crossBeat
  split
  · exact .recomputeBeat d p
  · exact .refl d

/-- A rise within the limit of song time raises it, and stops there (02 R17). -/
theorem raiseSongTime_range {t amount : Int} (ht : t ≤ maxTime) (ha : 0 ≤ amount) :
    t ≤ raiseSongTime t amount ∧ raiseSongTime t amount ≤ maxTime := by
  unfold raiseSongTime
  omega

/-- A correction stalls song time or raises it, and never turns it back (02 R23). -/
theorem Clock.corrected_update (c : Clock) (slew jump : Nat) (e : Int) :
    ClockUpdate c (c.corrected (correctionFor slew jump e)) := by
  have rises {amount : Int} {isJump : Bool} (h : correctionFor slew jump e = .rise amount isJump) : 0 ≤ amount := by
    unfold correctionFor at h
    split_ifs at h <;> cases h <;> omega
  cases h : correctionFor slew jump e with
  | nothing => exact ⟨rfl, rfl, Nat.zero_le _, fun limit => ⟨Int.le_refl _, limit⟩⟩
  | rise amount isJump => exact ⟨rfl, rfl, Nat.zero_le _, fun limit => raiseSongTime_range limit (rises h)⟩
  | stall length isJump => exact ⟨rfl, rfl, Nat.zero_le _, fun limit => ⟨Int.le_refl _, limit⟩⟩

theorem Updates.correct (x : Capture) (reported : Int) : Updates d (d.correct x reported) := by
  unfold Device.correct
  extract_lets k d₁ d₂
  have corrected : Updates d d₁ := (Update.clock _ (d.clock.corrected_update _ _ _)).chain
  have noticed : Updates d₁ d₂ := by
    simp only [d₂]
    split
    · exact .refl _
    · exact (LaneUpdates.raise _ _).all
  exact ((corrected.trans noticed).trans (.advanceTracker _ .p1)).trans (.advanceTracker _ .p2)

/-! ## The events of one instant -/

theorem Updates.endFlash (p : Panel) : Updates d (d.endFlash p) := by
  unfold Device.endFlash
  split
  · exact (LaneUpdates.lamps d _).all
  · exact .refl d

theorem Updates.endBeatPulse (p : Panel) : Updates d (d.endBeatPulse p) := by
  unfold Device.endBeatPulse
  split
  · exact (LaneUpdates.lamps d _).all
  · exact .refl d

theorem Updates.takeEvent (e : Event) : Updates d (d.takeEvent e) := by
  cases e with
  | lane k q => exact (LaneUpdates.takeLaneEvent d q k).all
  | stallEnd => exact .endStall d
  | syncTimeout => exact .loseSync d
  | tempo p => exact .reachTempo d p
  | beat p => exact .crossBeat d p
  | stuck p => exact .expireStuck d p
  | flashEnd p => exact .endFlash d p
  | beatPulseEnd p => exact .endBeatPulse d p
  | entry p => exact .takeNext d p
  | stallRelease p => exact .releaseStall d p

theorem Updates.settle (due : Device → List Event) (fuel : Nat) : Updates d (settle due fuel d) :=
  settle_induct due Updates .refl .trans (fun e => (LaneUpdates.countChoice e).all)
    (fun e => (LaneUpdates.headersMayFall e).all) (fun _ e x _ _ => .takeEvent e x) fuel d

theorem Updates.settleLanes : Updates d d.settleLanes := .settle d _ _

theorem Updates.settleAll : Updates d d.settleAll := .settle d _ _

end

end Sys2Proof.Machine
end

