-- ==== Sys2Proof/Proofs/StepActs.lean ====
section
/-!
What a step can do, in the terms of the elementary updates: a chain of updates, of bytes that enter a buffer, of records
clocked out, of commands handed to their blocks, a microsecond, or a power-on reset; and what a command can do once it is
handed on.
-/
namespace Sys2Proof.Machine
open Sys2Proof.Safety

/-! ## What a handed command does -/

/-- The part after a command that a port hands on. -/
inductive Handed (i : Port) (c : Command) (d : Device) : Device → Prop
  | updates {e : Device} (h : Updates d e) : Handed i c d e
  | opened (s : Session) (hc : c = .openSong) (idle : d.session.state = .idle) (hs : s.state = .preload) :
      Handed i c d (d.openWith s)
  | started {e : Device} (hc : c = .start) (preload : d.session.state = .preload) (h : Updates d.startSong e) :
      Handed i c d e
  | returned (hc : c = .abort ∨ c = .close) : Handed i c d ((d.returnToIdle.abortMark c).raise .session)
  | subscribed (start threshold : Nat) (notices : BitVec 16) (hc : c = .subscribe) : Handed i c d
      (({ d with ring := { d.ring with
          subs := d.ring.subs.set i.val (some (d.ring.subscription start threshold)) i.isLt } }).raiseAt i notices)
  | unsubscribed (hc : c = .unsubscribe) :
      Handed i c d { d with ring := { d.ring with subs := d.ring.subs.set i.val none i.isLt } }
  | reset {e : Device} (hc : c = .softReset) (h : Updates d.softResetBlocks e) : Handed i c d e

section
variable (d : Device)

theorem Updates.settings (mapper : Mapper) (judge : Judge) (score : ScoreKeeper)
    (h : mapper.suppressed = d.mapper.suppressed ∧ judge.lanes = d.judge.lanes ∧ score.records = d.score.records) :
    Updates d { d with mapper := mapper, judge := judge, score := score } :=
  (Update.settings mapper judge score h.1 h.2.1 h.2.2).chain

theorem Updates.position (fields : List Byte) : Updates d (position fields d).2 := by
  unfold Machine.position
  split
  · exact .refl d
  · dsimp only
    exact (Updates.correct d _ _).trans (.settleLanes _)

theorem Updates.setSync (fields : List Byte) : Updates d (setSync fields d).2 := by
  unfold Machine.setSync
  split
  · exact .refl d
  · dsimp only
    split
    · exact .refl d
    · exact .clockAside d _ ⟨rfl, rfl, rfl, rfl⟩

theorem Updates.setStage (fields : List Byte) : Updates d (setStage fields d).2 := by
  have offsets (x : PerStage Int) : Updates d { d with clock := { d.clock with offsets := x } } :=
    .clockAside d _ ⟨rfl, rfl, rfl, rfl⟩
  unfold Machine.setStage
  split
  · exact .refl d
  · split
    · exact .refl d
    · exact ((offsets _).trans (.setLink _ .a _ _ _)).trans (.setLink _ .b _ _ _)

theorem Updates.setPanel (fields : List Byte) : Updates d (setPanel fields d).2 := by
  rcases setPanel_cases d fields with e | e <;> rw [e]
  · exact .refl d
  · exact (Update.panels d.links _).chain.trans (.expireAllStuck (d.calibrated fields))

theorem Updates.setMap (fields : List Byte) : Updates d (setMap fields d).2 := by
  have modified (x : PerPlayer Modifiers) : Updates d { d with mapper := { d.mapper with modifiers := x } } :=
    .settings d _ d.judge d.score ⟨rfl, rfl, rfl⟩
  unfold Machine.setMap
  dsimp only
  split_ifs
  · exact .refl d
  · exact modified _
  · exact modified _
  · exact .refl d

theorem Updates.setWindows (fields : List Byte) : Updates d (setWindows fields d).2 := by
  unfold Machine.setWindows
  split
  · exact .refl d
  · split
    · exact .refl d
    · exact .settings d d.mapper _ d.score ⟨rfl, rfl, rfl⟩

theorem Updates.setScoring (fields : List Byte) : Updates d (setScoring fields d).2 := by
  unfold Machine.setScoring
  split
  · exact .refl d
  · exact .settings d d.mapper d.judge _ ⟨rfl, rfl, rfl⟩

theorem Updates.setLife (fields : List Byte) : Updates d (setLife fields d).2 := by
  unfold Machine.setLife
  split
  · exact .refl d
  · exact .settings d d.mapper d.judge _ ⟨rfl, rfl, rfl⟩

theorem Updates.softReset : Updates d.softResetBlocks d.softReset :=
  ((Updates.wakeLink d.softResetBlocks .a _).trans (.wakeLink _ .b _)).trans (.expireAllStuck _)

/-- What follows a START at once: the two done conditions, and the lane events due (01 R5, R10). -/
theorem Updates.startSong : Updates d.startSong ((d.startSong.examineDone .p1).examineDone .p2).settleLanes :=
  ((LaneUpdates.examineDone d.startSong .p1).trans (.examineDone _ .p2)).all.trans
    (.settleLanes ((d.startSong.examineDone .p1).examineDone .p2))

/-- Every command that is handed on does one of these. -/
theorem handCommand_handed (i : Port) (c : Command) (fields : List Byte) :
    Handed i c d (handCommand i c fields d).2 := by
  by_cases accepted : d.session.state ∈ statesOf c
  case neg =>
    rw [handCommand_wrongState i fields accepted]
    exact .updates (.refl d)
  cases c with
  | openSong =>
    have idle : d.session.state = .idle := by simpa [statesOf] using accepted
    simp only [handCommand, openSong, idle, ne_eq, not_true_eq_false, if_false]
    split_ifs
    · exact .updates (.refl d)
    · exact .opened _ rfl idle rfl
  | start =>
    have preload : d.session.state = .preload := by simpa [statesOf] using accepted
    have begun : start d = (.done, ((d.startSong.examineDone .p1).examineDone .p2).settleLanes) :=
      if_neg (not_not.2 preload)
    rw [handCommand, begun]
    exact .started rfl preload (Updates.startSong d)
  | abort | close =>
    rw [handCommand_return i fields (by decide) accepted]
    exact .returned (by decide)
  | position => exact .updates (.position d fields)
  | setSync => exact .updates (.setSync d fields)
  | setStage => exact .updates (.setStage d fields)
  | setPanel => exact .updates (.setPanel d fields)
  | setMap => exact .updates (.setMap d fields)
  | setWindows => exact .updates (.setWindows d fields)
  | setScoring => exact .updates (.setScoring d fields)
  | setLife => exact .updates (.setLife d fields)
  | setLamps => exact .updates (LaneUpdates.lamps d _).all
  | subscribe =>
    simp only [handCommand, ringSubscribe]
    split_ifs
    · exact .updates (.refl d)
    · exact .subscribed _ _ _ rfl
  | unsubscribe => exact .unsubscribed rfl
  | softReset =>
    simp only [handCommand]
    exact .reset rfl (.softReset d)

end

/-! ## Chains of acts -/

/-- An act of a step. A command is handed on only in a session state in which `allowed` holds of it, and a power-on reset
comes only where `resets` holds. -/
inductive Act (allowed : SessionState → Command → Prop) (resets : Prop) (d : Device) : Device → Prop
  | updates {e : Device} (h : Updates d e) : Act allowed resets d e
  | byte (p : Player) (b : Byte) (room : d.bufferHasRoom p = true) :
      Act allowed resets d (d.onDecoder p fun c => { c with buffer := c.buffer ++ [b] })
  | consume (i : Port) (x : Record) : Act allowed resets d (d.consumeRecord i x)
  | tick : Act allowed resets d { d with clock := d.clock.tick d.songRuns }
  | hand {e : Device} (i : Port) (c : Command) (h : allowed d.session.state c) (handed : Handed i c d e) :
      Act allowed resets d e
  | powerOn (s : Straps) (h : resets) : Act allowed resets d (d.powerOn s)

/-- A chain of acts. -/
def Acts (allowed : SessionState → Command → Prop) (resets : Prop) : Device → Device → Prop :=
  Relation.ReflTransGen (Act allowed resets)

section
variable {allowed : SessionState → Command → Prop} {resets : Prop} {d e : Device}

theorem Acts.refl (d : Device) : Acts allowed resets d d := Relation.ReflTransGen.refl

theorem Acts.trans {g : Device} (h : Acts allowed resets d e) (k : Acts allowed resets e g) : Acts allowed resets d g :=
  Relation.ReflTransGen.trans h k

theorem Act.chain (h : Act allowed resets d e) : Acts allowed resets d e := Relation.ReflTransGen.single h

theorem Updates.acts (h : Updates d e) : Acts allowed resets d e := (Act.updates h).chain

/-- What every act keeps, a chain of them keeps. -/
theorem Acts.keeps {P : Device → Prop} (act : ∀ d e, Act allowed resets d e → P d → P e)
    (h : Acts allowed resets d e) (hd : P d) : P e := by
  induction h with
  | refl => exact hd
  | tail _ ha ih => exact act _ _ ha ih

/-- A reflexive and transitive relation that every act meets, a chain of them meets. -/
theorem Acts.relates {R : Device → Device → Prop} (refl : ∀ d, R d d) (trans : ∀ a b c, R a b → R b c → R a c)
    (act : ∀ d e, Act allowed resets d e → R d e) (h : Acts allowed resets d e) : R d e := by
  induction h with
  | refl => exact refl d
  | tail _ ha ih => exact trans _ _ _ ih (act _ _ ha)

variable (d) (i : Port)

theorem Acts.onPort (f : PortState → PortState) : Acts allowed resets d (d.onPort i f) :=
  (LaneUpdates.ports d _).all.acts

theorem Acts.setResult (channel : BitVec 6) (code : ResultCode) (n : Nat) :
    Acts allowed resets d (d.setResult i channel code n) := .onPort d i _

/-! ## The ports -/

theorem Acts.chartByte (b : Byte) : Acts allowed resets d (d.chartByte i b) := by
  unfold Device.chartByte
  split
  · split
    · rename_i room
      exact ((Act.byte _ b room).chain.trans (Updates.discardAfterEnd _ _).acts).trans (.onPort _ i _)
    · exact .onPort d i _
  · exact .refl d

theorem Acts.chartRise : Acts allowed resets d (d.chartRise i) := by
  unfold Device.chartRise
  split
  case h_1 =>
    dsimp only
    split
    · exact .onPort d i _
    · exact (Acts.onPort d i _).trans (.setResult _ i _ _ _)
  all_goals exact .refl d

theorem Acts.chartTaken (p : Player) (data : List Byte) : Acts allowed resets d (d.chartTaken i p data) := by
  have bytes (e : Device) : Acts allowed resets e (data.foldl (fun d b => d.chartByte i b) e) := by
    induction data generalizing e with
    | nil => exact .refl e
    | cons b data ih => exact (Acts.chartByte e i b).trans (ih _)
  exact ((Acts.onPort d i _).trans (bytes _)).trans (.chartRise _ i)

theorem Acts.noticeTaken (data : List Byte) : Acts allowed resets d (d.noticeTaken i data) := by
  unfold Device.noticeTaken
  split
  · exact (Acts.onPort d i _).trans (.setResult _ i _ _ _)
  · exact .setResult d i _ _ _

theorem Acts.maskTaken (data : List Byte) : Acts allowed resets d (d.maskTaken i data) := by
  unfold Device.maskTaken
  split
  · exact (Acts.onPort d i _).trans (.setResult _ i _ _ _)
  · exact .setResult d i _ _ _

theorem Acts.lampTaken (data : List Byte) : Acts allowed resets d (d.lampTaken i data) := by
  unfold Device.lampTaken
  split
  · exact (LaneUpdates.lamps d _).all.acts.trans (.setResult _ i _ _ _)
  · exact .setResult d i _ _ _

theorem Acts.readTaken (channel : ChannelField) : Acts allowed resets d (d.readTaken i channel) := by
  unfold Device.readTaken
  split
  · split
    · exact .setResult d i _ _ _
    · exact .refl d
  · exact .setResult d i _ _ _

theorem Acts.commandTaken (c : Command) (fields : List Byte) (h : allowed d.session.state c) :
    Acts allowed resets d (d.commandTaken i c fields) := by
  unfold Device.commandTaken
  split
  · exact .setResult d i _ _ _
  · refine (Act.hand i c h (handCommand_handed d i c fields)).chain.trans ?_
    unfold leaveResult
    split
    · exact .refl _
    · exact .setResult _ i _ _ _

theorem Acts.commandBytesTaken (data : List Byte) (h : ∀ c, allowed d.session.state c) :
    Acts allowed resets d (d.commandBytesTaken i data) := by
  unfold Device.commandBytesTaken
  split
  · exact .setResult d i _ _ _
  · split
    · exact .setResult d i _ _ _
    · exact .commandTaken d i _ _ (h _)

theorem Acts.writeTaken (channel : ChannelField) (data : List Byte)
    (h : channel = 0x01#7 → ∀ c, allowed d.session.state c) : Acts allowed resets d (d.writeTaken i channel data) := by
  unfold Device.writeTaken
  split
  case h_1 command => exact .commandBytesTaken d i data (h (BitVec.eq_of_toNat_eq command))
  case h_2 => exact .noticeTaken d i data
  case h_3 => exact .maskTaken d i data
  case h_4 => exact .chartTaken d i _ data
  case h_5 => exact .chartTaken d i _ data
  case h_6 => exact .lampTaken d i data
  case h_7 => exact .setResult d i _ _ _

/-- The rise of SEL_N: a command is handed on where a write of COMMAND is in progress (12 R167, R170). -/
theorem Acts.rise
    (h : ∀ data, (d.port i).transaction = some (.write 0x01#7 data) → ∀ c, allowed d.session.state c) :
    Acts allowed resets d (d.rise i) := by
  have closed : Acts allowed resets d (d.onPort i fun p => { p with transaction := none }) := .onPort d i _
  unfold Device.rise
  dsimp only
  split
  case h_4 channel data open_ =>
    refine closed.trans (.writeTaken _ i channel data fun command => ?_)
    rw [command] at open_
    exact h data open_
  case h_5 channel _ _ => exact closed.trans (.readTaken _ i channel)
  case h_6 => exact .chartRise d i
  all_goals exact closed

end

/-! ## The step -/

/-- A write of COMMAND in progress on the port of a command is one that the command may end. -/
theorem endsCommand_of_open {d : Device} {c : Instr} {i : Port} {data : List Byte} (hc : portOf c = some i)
    (open_ : (d.port i).transaction = some (.write 0x01#7 data)) : endsCommand d c = true := by
  simp [endsCommand, hc, open_]

section
variable {allowed : SessionState → Command → Prop} {resets : Prop} {d : Device} {i : Port}

/-- The hypothesis under which the rise that a transaction command brings may hand a command on. -/
def RiseAllowed (allowed : SessionState → Command → Prop) (d : Device) (i : Port) : Prop :=
  ∀ data, (d.port i).transaction = some (.write 0x01#7 data) → ∀ c, allowed d.session.state c

theorem Acts.fall (h : RiseAllowed allowed d i) : Acts allowed resets d (d.fall i) :=
  (Acts.rise d i h).trans (.onPort _ i _)

theorem Acts.readHeader (channel : ChannelField) (h : RiseAllowed allowed d i) :
    Acts allowed resets d (d.readHeader i channel) := (Acts.rise d i h).trans (.onPort _ i _)

theorem Acts.headingRead (channel : ChannelField) (h : RiseAllowed allowed d i) :
    Acts allowed resets d (d.headingRead i channel) := by
  unfold Device.headingRead
  split
  · exact .onPort d i _
  all_goals exact (Acts.rise d i h).trans (.onPort _ i _)

theorem Acts.byteIn (b : Byte) : Acts allowed resets d (d.byteIn i b) := by
  unfold Device.byteIn
  split
  · exact .onPort d i _
  · exact .chartByte d i b
  all_goals exact .refl d

theorem Acts.chartTransfer (x : ChartTransfer) (h : RiseAllowed allowed d i) :
    Acts allowed resets d (d.chartTransfer i x) := by
  cases x with
  | whole p data => exact (Acts.rise d i h).trans (.chartTaken _ i p data)
  | header p => exact (Acts.rise d i h).trans (.onPort _ i _)
  | byte b => exact .chartByte d i b
  | rise => exact .chartRise d i

theorem Acts.writeTransfer (channel : ChannelField) (x : WriteTransfer) (h : RiseAllowed allowed d i)
    (own : spellsCommand (.registerWrite i channel x) = true → ∀ c, allowed (d.rise i).session.state c) :
    Acts allowed resets d (d.writeTransfer i channel x) := by
  cases x with
  | whole data =>
    exact (Acts.rise d i h).trans (.writeTaken _ i channel data fun command => own (by simp [spellsCommand, command]))
  | fall => exact .fall h
  | header =>
    refine (Acts.rise d i h).trans ?_
    simp only [Device.writeTransfer, Device.writeHeader]
    split <;> exact .onPort _ i _
  | byte b => exact .byteIn b
  | rise => exact .rise d i h

theorem Acts.readTransfer (x : ReadTransfer) (h : RiseAllowed allowed d i) :
    Acts allowed resets d (d.readTransfer i x) := by
  cases x with
  | whole channel => exact (Acts.rise d i h).trans (.readTaken _ i channel)
  | fall => exact .fall h
  | heading channel => exact .headingRead channel h
  | header channel => exact .readHeader channel h
  | rise => exact .rise d i h

theorem Acts.ringTransfer (x : RingTransfer)
    (h : ∀ i, portOf (.ringRead x) = some i → RiseAllowed allowed d i) : Acts allowed resets d (d.ringTransfer x) := by
  cases x with
  | whole i => exact (Acts.rise d i (h i rfl)).trans (.readTaken _ i _)
  | heading i => exact .headingRead _ (h i rfl)
  | header i => exact .readHeader _ (h i rfl)
  | rise i => exact .rise d i (h i rfl)

theorem Acts.recordSent : Acts allowed resets d (d.recordSent i) := by
  unfold Device.recordSent
  split
  · split
    · exact .refl d
    · exact (Act.consume i _).chain.trans (.onPort _ i _)
  · exact .refl d

theorem Acts.command (c : Command) (fields : List Byte) (h : RiseAllowed allowed d i)
    (own : allowed (d.rise i).session.state c) : Acts allowed resets d (d.command i c fields) :=
  (Acts.rise d i h).trans (.commandTaken _ i c fields own)

end

/-- Every command is a chain of acts. It hands on the write of COMMAND that it may end, and the command that it is or
spells. -/
theorem exec_acts {allowed : SessionState → Command → Prop} {resets : Prop} {c : Instr} {s t : State}
    (h : exec c s = .next t) (first : endsCommand s.device c = true → ∀ k, allowed s.device.session.state k)
    (own : ∀ i k, portOf c = some i → (∃ fields, c = instrOf k i fields) ∨ spellsCommand c = true →
      allowed (s.device.rise i).session.state k)
    (reset : ∀ straps, c = .powerOnReset straps → resets) : Acts allowed resets s.device t.device := by
  have ends (i : Port) (hc : portOf c = some i) : RiseAllowed allowed s.device i :=
    fun data open_ => first (endsCommand_of_open hc open_)
  cases c <;> rw [answer_next h]
  case openSong i fields | start i fields | abort i fields | close i fields | position i fields | setSync i fields
    | setStage i fields | setPanel i fields | setMap i fields | setWindows i fields | setScoring i fields
    | setLife i fields | setLamps i fields | subscribe i fields | unsubscribe i fields | softReset i fields =>
    exact .command _ fields (ends i rfl) (own i _ rfl (.inl ⟨fields, rfl⟩))
  case chartWrite i x => exact .chartTransfer x (ends i rfl)
  case noticeWrite i data => exact (Acts.rise _ i (ends i rfl)).trans (.noticeTaken _ i data)
  case noticeMaskWrite i data => exact (Acts.rise _ i (ends i rfl)).trans (.maskTaken _ i data)
  case lampWrite i data => exact (Acts.rise _ i (ends i rfl)).trans (.lampTaken _ i data)
  case registerWrite i channel x => exact .writeTransfer channel x (ends i rfl) fun spells k => own i k rfl (.inr spells)
  case ringRead x => exact .ringTransfer x ends
  case ringRecordConsumed i => exact .recordSent
  case powerOnReset straps => exact (Act.powerOn straps (reset straps rfl)).chain
  case fsyncEdge => exact (Updates.edge _).acts
  case microsecondTick => exact (Updates.settleAll _).acts.trans Act.tick.chain
  case stallEnd => exact (Updates.endStall _).acts
  case syncTimeout => exact (Updates.loseSync _).acts
  case tempoEntryReached p => exact (Updates.reachTempo _ p).acts
  case beatCrossing p => exact (Updates.crossBeat _ p).acts
  case poll x => exact (Updates.pollTransfer _ x).acts
  case emptyRound l => exact (Updates.endEmptyRound _ l).acts
  case report l frame quarters => exact (Updates.receiveReport _ l frame quarters).acts
  case replyDeadline l => exact (Updates.passDeadline _ l).acts
  case stuckExpiry p => exact (Updates.expireStuck _ p).acts
  case sweep q => exact (LaneUpdates.sweepLane _ q).all.acts
  case avoidDue q => exact (LaneUpdates.avoidDueLane _ q).all.acts
  case avoidPastWindow q => exact (LaneUpdates.avoidPastLane _ q).all.acts
  case tailReached q => exact (LaneUpdates.tailLane _ q).all.acts
  case graceExpiry q => exact (LaneUpdates.graceLane _ q).all.acts
  case flashEnd p => exact (Updates.endFlash _ p).acts
  case beatPulseEnd p => exact (Updates.endBeatPulse _ p).acts
  case headerEntry p | rowsEntry p | notesEntry p | repeatEntry p | tempoEntry p | dwellEntry p | endEntry p | badTag p =>
    exact (Updates.takeKind _ p _).acts
  case stallRelease p => exact (Updates.releaseStall _ p).acts
  case refusedRead i x => exact .readTransfer x (ends i rfl)

/-- Every step is a chain of acts. -/
theorem step_acts {s t : State} (h : step s = .next t) : Acts (fun _ _ => True) True s.device t.device := by
  unfold step at h
  split at h
  · cases h
    exact .refl _
  · rename_i c rest _
    exact exec_acts (s := { s with pending := rest }) h (fun _ _ => trivial) (fun _ _ _ _ => trivial) fun _ _ => trivial

end Sys2Proof.Machine
end

