-- ==== Sys2Proof/Proofs/RingLaw.lean ====
section
/-!
The ring's numbering and its cursors (O53): what an append, a subscription and a consumed record make of them.
-/
namespace Sys2Proof.Safety
open Sys2Proof.Machine

/-! ## The numbering -/

/-- The count of a record, laps included, fixes its sequence number (10 R147). -/
theorem seq_of_count {lap top m : Nat} {x y : BitVec 16}
    (h : lap * 65536 + x.toNat + m = top * 65536 + y.toNat) : x = y - BitVec.ofNat 16 m := by
  refine BitVec.eq_of_toNat_eq ?_
  have := x.isLt
  have := y.isLt
  simp only [BitVec.toNat_sub, BitVec.toNat_ofNat]
  omega

/-- The numbering follows from the counts. -/
theorem RecordsLaw.of_count {r : Ring} (capacity : r.records.length ≤ 64)
    (count : ∀ k (h : k < r.records.length), r.records[k].lap * 65536 + r.records[k].seq.toNat + (r.records.length - k)
      = r.lap * 65536 + r.seq.toNat) : RecordsLaw r :=
  ⟨capacity, fun k h => ⟨seq_of_count (count k h), count k h⟩⟩

theorem ringKept_eq (r : Ring) : r.kept = r.records.drop (if r.records.length < 64 then 0 else 1) := by
  unfold Ring.kept ringCapacity
  split <;> simp

/-- The length of a ring after an append: a full one has lost a record (10 R150). -/
theorem ringAppend_length (r : Ring) (x : Record) :
    (r.append x).records.length = r.records.length - (if r.records.length < 64 then 0 else 1) + 1 := by
  simp [Ring.append, ringKept_eq]

/-- An append numbers the new record next and loses the oldest of a full ring (10 R150). -/
theorem RecordsLaw.append {r : Ring} (h : RecordsLaw r) (x : Record) : RecordsLaw (r.append x) := by
  obtain ⟨capacity, numbered⟩ := h
  have records : (r.append x).records = r.kept ++ [r.numbered x] := rfl
  have length := ringAppend_length r x
  rw [ringKept_eq] at records
  refine .of_count (r.append_length x capacity) fun k hk => ?_
  rw [r.append_count]
  generalize (if r.records.length < 64 then 0 else 1) = lost at records length
  simp only [length] at hk ⊢
  by_cases new : k = r.records.length - lost
  · have newest : (r.append x).records[k] = r.numbered x := by
      simp only [records, new]
      exact List.getElem_concat_length (by rw [List.length_drop]) _
    rw [newest, Ring.numbered_lap, Ring.numbered_seq]
    omega
  · have inside : lost + k < r.records.length := by omega
    have old : (r.append x).records[k] = r.records[lost + k] := by
      simp only [records]
      rw [List.getElem_append_left (by rw [List.length_drop]; omega), List.getElem_drop]
    have := (numbered _ inside).2
    rw [old]
    omega

/-! ## The cursors -/

/-- The record that an append takes from a full ring bears the number 64 before the counter's (10 R150). -/
theorem loses_eq {r : Ring} (h : RecordsLaw r) :
    r.loses = if r.records.length < 64 then none else some (r.seq - 64#16) := by
  obtain ⟨capacity, numbered⟩ := h
  unfold Ring.loses ringCapacity
  split
  · rfl
  · rename_i full
    have length : r.records.length = 64 := by omega
    rw [List.head?_eq_getElem?, List.getElem?_eq_getElem (by omega), Option.map_some, (numbered 0 (by omega)).1, length]

/-- The record that is oldest after an append to a full ring (10 R150). -/
theorem oldest_eq {r : Ring} (h : RecordsLaw r) (full : ¬r.records.length < 64) :
    (r.kept.head?.map (·.seq)).getD r.seq = r.seq - 63#16 := by
  obtain ⟨capacity, numbered⟩ := h
  have length : r.records.length = 64 := by omega
  rw [ringKept_eq, if_neg full, List.head?_drop, List.getElem?_eq_getElem (by omega), Option.map_some, Option.getD_some,
    (numbered 1 (by omega)).1, length]

/-- Sixteen-bit numbers at most 64 before a counter are as far apart as their distances. -/
theorem sub_ofNat_inj {x : BitVec 16} {m n : Nat} (hm : m ≤ 64) (hn : n ≤ 64)
    (h : x - BitVec.ofNat 16 m = x - BitVec.ofNat 16 n) : m = n := by
  have := x.isLt
  have e := congrArg BitVec.toNat h
  simp only [BitVec.toNat_sub, BitVec.toNat_ofNat] at e
  omega

theorem sub_ofNat_succ (x : BitVec 16) (n : Nat) : x + 1 - BitVec.ofNat 16 (n + 1) = x - BitVec.ofNat 16 n := by
  have := x.isLt
  refine BitVec.eq_of_toNat_eq ?_
  simp only [BitVec.toNat_sub, BitVec.toNat_add, BitVec.toNat_ofNat, show (1 : BitVec 16).toNat = 1 from rfl]
  omega

/-- An append moves each cursor as 10 R150 says: one at the head onto the new record, one on the record that a full ring
loses onto the next, and no other. -/
theorem SubscriptionLaw.append {r : Ring} {s : Subscription} (h : RecordsLaw r) (law : SubscriptionLaw r s)
    (x : Record) :
    SubscriptionLaw (r.append x) (s.onAppend r.loses ((r.kept.head?.map (·.seq)).getD r.seq) r.seq) := by
  obtain ⟨low, high, unread, cursor⟩ := law
  have capacity := h.1
  have length := ringAppend_length r x
  unfold Subscription.onAppend
  by_cases atHead : s.unread = 0
  · rw [if_pos atHead] at cursor
    simp only [cursor]
    refine ⟨low, high, by rw [length]; split <;> simp only [atHead] <;> omega, ?_⟩
    simp only [atHead, Ring.append_seq]
    exact congrArg some (by simp)
  · rw [if_neg atHead] at cursor
    simp only [cursor, loses_eq h]
    split_ifs with small lost lost
    · exact absurd lost (by simp)
    · refine ⟨low, high, by simp only [length, if_pos small]; omega, ?_⟩
      simp only [Ring.append_seq, sub_ofNat_succ, Nat.add_eq_zero_iff, atHead, false_and, if_false]
    · have last : s.unread = 64 := (sub_ofNat_inj (by omega) (by omega) (Option.some.inj lost)).symm
      refine ⟨low, high, by simp only [length, if_neg small]; omega, ?_⟩
      simp only [oldest_eq h small, last, Ring.append_seq]
      exact congrArg some (sub_ofNat_succ r.seq 63).symm
    · have notLast : s.unread ≠ 64 := fun last => lost (by rw [last])
      refine ⟨low, high, by simp only [length, if_neg small]; omega, ?_⟩
      simp only [Ring.append_seq, sub_ofNat_succ, Nat.add_eq_zero_iff, atHead, false_and, if_false]

theorem RingLaw.append {r : Ring} (law : RingLaw r) (x : Record) : RingLaw (r.append x) := by
  obtain ⟨records, subs⟩ := law
  refine ⟨records.append x, fun i s h => ?_⟩
  rw [Ring.append_sub, Option.map_eq_some_iff] at h
  obtain ⟨before, held, rfl⟩ := h
  exact (subs i before held).append records x

/-- The law of a ring whose records and counter stand and whose cursors keep to theirs. -/
theorem RingLaw.withSubs {r : Ring} (law : RingLaw r) (subs : Vector (Option Subscription) 3)
    (h : ∀ (i : Port) s, subs[i] = some s → SubscriptionLaw r s) : RingLaw { r with subs := subs } :=
  ⟨law.1, h⟩

/-- One port's subscription replaced. -/
theorem RingLaw.setSub {r : Ring} (law : RingLaw r) (i : Port) (sub : Option Subscription)
    (h : ∀ s, sub = some s → SubscriptionLaw r s) : RingLaw { r with subs := r.subs.set i.val sub i.isLt } := by
  refine law.withSubs _ fun j s held => ?_
  by_cases same : i.val = j.val
  · simp only [Fin.getElem_fin, ← same, Vector.getElem_set_self] at held
    exact h s held
  · simp only [Fin.getElem_fin, Vector.getElem_set_ne _ _ same] at held
    exact law.2 j s held

/-- A SUBSCRIBE sets its cursor on the oldest record or at the head (10 R152). -/
theorem RingLaw.subscription {r : Ring} (law : RingLaw r) (start threshold : Nat) :
    SubscriptionLaw r (r.subscription start threshold) := by
  have range : 1 ≤ subscribeThreshold threshold ∧ subscribeThreshold threshold ≤ 63 := by
    unfold subscribeThreshold
    split <;> omega
  obtain ⟨⟨-, numbered⟩, -⟩ := law
  unfold Ring.subscription
  split
  · refine ⟨range.1, range.2, Nat.le_refl _, ?_⟩
    dsimp only
    split
    · rename_i empty
      simp [List.length_eq_zero_iff.1 empty]
    · rw [List.head?_eq_getElem?, List.getElem?_eq_getElem (by omega), Option.map_some, (numbered 0 (by omega)).1]
      rfl
  · exact ⟨range.1, range.2, Nat.zero_le _, rfl⟩

/-- The records from a cursor on (10 R154). -/
theorem RingLaw.snapshotFrom {r : Ring} (law : RingLaw r) {n : Nat} (low : 0 < n) (high : n ≤ r.records.length) :
    r.snapshotFrom (some (r.seq - BitVec.ofNat 16 n)) = r.records.drop (r.records.length - n) := by
  obtain ⟨⟨capacity, numbered⟩, -⟩ := law
  have inside : r.records.length - n < r.records.length := by omega
  have before : ∀ x ∈ r.records.take (r.records.length - n), (x.seq != r.seq - BitVec.ofNat 16 n) = true := by
    intro x hx
    obtain ⟨k, hk, rfl⟩ := List.mem_take_iff_getElem.1 hx
    rw [bne_iff_ne, (numbered k (by omega)).1]
    intro same
    have := sub_ofNat_inj (by omega) (by omega) same
    omega
  have found : ¬((r.records[r.records.length - n].seq != r.seq - BitVec.ofNat 16 n) = true) := by
    have back : r.records.length - (r.records.length - n) = n := by omega
    rw [(numbered _ inside).1, back]
    simp
  change r.records.dropWhile (fun x => x.seq != r.seq - BitVec.ofNat 16 n) = _
  conv_lhs => rw [← List.take_append_drop (r.records.length - n) r.records]
  rw [List.dropWhile_append_of_pos before, List.drop_eq_getElem_cons inside, List.dropWhile_cons, if_neg found]

/-- A consumed record moves its cursor onto the next (10 R155). -/
theorem SubscriptionLaw.consume {r : Ring} {s : Subscription} (law : RingLaw r) (h : SubscriptionLaw r s)
    (x : Record) : SubscriptionLaw r (s.consume r x) := by
  rcases s.consume_cases r x with ⟨under, e⟩ | ⟨-, e⟩ <;> rw [e]
  · obtain ⟨low, high, unread, cursor⟩ := h
    have some_unread : 0 < s.unread := by
      by_contra none_unread
      rw [if_pos (by omega)] at cursor
      simp [Ring.under, Ring.snapshotFrom, cursor] at under
    rw [if_neg (by omega)] at cursor
    refine ⟨low, high, Nat.le_trans (Nat.sub_le _ _) unread, ?_⟩
    dsimp only
    rw [cursor, law.snapshotFrom some_unread unread, List.tail_drop, List.head?_drop]
    split
    · rename_i last
      rw [List.getElem?_eq_none (by omega), Option.map_none]
    · have back : r.records.length - (r.records.length - s.unread + 1) = s.unread - 1 := by omega
      rw [List.getElem?_eq_getElem (by omega), Option.map_some, (law.1.2 _ (by omega)).1, back]
  · exact h

theorem RingLaw.consume {r : Ring} (law : RingLaw r) (i : Port) (x : Record) :
    RingLaw { r with subs := vecModify r.subs i (Option.map (Subscription.consume r x)) } := by
  refine law.withSubs _ fun j s held => ?_
  rw [vecModify_get] at held
  split at held
  · rw [Option.map_eq_some_iff] at held
    obtain ⟨before, held, rfl⟩ := held
    exact (law.2 j before held).consume law x
  · exact law.2 j s held

/-- The OPEN event empties the ring and sets every cursor to the head (10 R157). -/
theorem RingLaw.emptied {r : Ring} (law : RingLaw r) : RingLaw r.emptied := by
  refine ⟨⟨Nat.zero_le _, nofun⟩, fun i s held => ?_⟩
  have emptied : r.emptied.subs[i] = r.subs[i].map fun s => { s with cursor := none, unread := 0 } := vecMap_get ..
  rw [emptied, Option.map_eq_some_iff] at held
  obtain ⟨before, held, rfl⟩ := held
  obtain ⟨low, high, -⟩ := law.2 i before held
  exact ⟨low, high, Nat.le_refl _, rfl⟩

end Sys2Proof.Safety
end

