-- ==== Sys2Proof/Proofs/CapacityLaw.lean ====
section
/-!
The ring's law and every capacity through a step (O53): what each elementary update, each handed command and each act
keeps.
-/
namespace Sys2Proof.Machine
open Sys2Proof.Safety

/-! ## The ring under updates -/

@[simp] theorem Device.takeOutcome_ring (d : Device) (p : Player) (o : Outcome) : (d.takeOutcome p o).ring = d.ring := by
  unfold Device.takeOutcome
  split <;> rfl

/-- The ring after an update: as it was, or with one record appended (10 R149). -/
theorem LaneUpdate.ring {d e : Device} (h : LaneUpdate d e) : e.ring = d.ring ∨ ∃ x, e.ring = d.ring.append x := by
  cases h with
  | append x => exact .inr ⟨x, rfl⟩
  | outcome p o => exact .inl (d.takeOutcome_ring p o)
  | lane | empty | leave | ended | discard | aside => exact .inl rfl

theorem Update.ring {d e : Device} (h : Update d e) : e.ring = d.ring ∨ ∃ x, e.ring = d.ring.append x := by
  cases h with
  | work p h =>
    cases h with
    | judge h => exact h.ring
    | append | decoder | units => exact .inl rfl
  | decoder | tracker | clock | panels | settings => exact .inl rfl

/-- What an append keeps of the ring, every event of the part keeps. -/
theorem Updates.ring_keeps {P : Ring → Prop} (append : ∀ r x, P r → P (r.append x)) {d e : Device} (h : Updates d e)
    (hd : P d.ring) : P e.ring := by
  induction h with
  | refl => exact hd
  | tail _ hm ih =>
    rcases hm.ring with same | ⟨x, appended⟩
    · rwa [same]
    · rw [appended]
      exact append _ x ih

@[simp] theorem Device.powerOn_ring (d : Device) (s : Straps) : (d.powerOn s).ring = .reset := by
  unfold Device.powerOn
  dsimp only
  split <;> rfl

@[simp] theorem Device.freezeMap_ring (d : Device) : d.freezeMap.ring = d.ring := by
  unfold Device.freezeMap
  dsimp only
  split <;> rfl

/-- The ring at START takes the STARTED mark (01 R14). -/
theorem Device.startSong_ring (d : Device) : d.startSong.ring = d.ring.append (markRecord .started .p1) :=
  congrArg (Ring.append · _) (Device.freezeMap_ring _)

theorem Device.abortMark_ring (d : Device) (c : Command) :
    (d.abortMark c).ring = d.ring ∨ ∃ x, (d.abortMark c).ring = d.ring.append x := by
  unfold Device.abortMark
  split
  · exact .inr ⟨_, rfl⟩
  · exact .inl rfl

end Sys2Proof.Machine

namespace Sys2Proof.Safety
open Sys2Proof.Machine

theorem RingLaw.updates {d e : Device} (h : Updates d e) (law : RingLaw d.ring) : RingLaw e.ring :=
  h.ring_keeps (fun _ x law => law.append x) law

theorem RingLaw.handed {i : Port} {c : Command} {d e : Device} (h : Handed i c d e) (law : RingLaw d.ring) :
    RingLaw e.ring := by
  cases h with
  | updates h => exact law.updates h
  | opened s => exact law.emptied.append _
  | started _ _ h =>
    refine RingLaw.updates h ?_
    rw [Device.startSong_ring]
    exact law.append _
  | returned =>
    rw [Device.raise_ring]
    rcases d.returnToIdle.abortMark_ring c with same | ⟨x, appended⟩
    · rwa [same]
    · rw [appended]
      exact RingLaw.append law x
  | subscribed start threshold _ _ => exact law.setSub i _ fun s hs => Option.some.inj hs ▸ law.subscription start threshold
  | unsubscribed => exact law.setSub i none nofun
  | reset _ h => exact RingLaw.updates h ringLaw_reset

theorem RingLaw.act {allowed : SessionState → Command → Prop} {resets : Prop} {d e : Device}
    (h : Act allowed resets d e) (law : RingLaw d.ring) : RingLaw e.ring := by
  cases h with
  | updates h => exact law.updates h
  | byte | tick => exact law
  | consume i x => exact law.consume i x
  | hand i c _ h => exact law.handed h
  | powerOn s =>
    rw [Device.powerOn_ring]
    exact ringLaw_reset

/-! ## Capacities -/

theorem discarded_buffer (c : Decoder) : c.discarded.buffer.length ≤ c.buffer.length := by
  unfold Decoder.discarded
  split
  · exact Nat.le_refl _
  · exact List.length_drop.le.trans (Nat.sub_le _ _)

section
variable {d e : Device}

/-- The law speaks of the lengths of the lists alone. -/
theorem CapacityLaw.shrink (law : CapacityLaw d)
    (lanes : ∀ q : LaneQueue, (e.lane q).queue.length ≤ (d.lane q).queue.length)
    (buffers : ∀ p, (e.decoder p).buffer.length ≤ (d.decoder p).buffer.length)
    (maps : ∀ p, (e.tracker p).map.length ≤ (d.tracker p).map.length)
    (captures : e.clock.captures.length ≤ d.clock.captures.length) (mapper : e.mapper.suppressed = d.mapper.suppressed)
    (ring : e.ring.records.length ≤ 64) : CapacityLaw e := by
  obtain ⟨lane, buffer, map, capture, suppressed, -⟩ := law
  exact ⟨fun q => (lanes q).trans (lane q), fun p => (buffers p).trans (buffer p), fun p => (maps p).trans (map p),
    captures.trans capture, fun p => mapper ▸ suppressed p, ring⟩

/-- What leaves every list alone keeps the law. -/
theorem CapacityLaw.same (law : CapacityLaw d) (judge : e.judge.lanes = d.judge.lanes)
    (decoders : e.decoders = d.decoders) (clock : e.clock = d.clock)
    (mapper : e.mapper.suppressed = d.mapper.suppressed) (ring : e.ring.records = d.ring.records) : CapacityLaw e := by
  refine law.shrink (fun q => ?_) (fun p => ?_) (fun p => ?_) (clock ▸ Nat.le_refl _) mapper ?_
  · simp only [Device.lane, judge, Nat.le_refl]
  · simp only [Device.decoder, decoders, Nat.le_refl]
  · simp only [Device.tracker, clock, Nat.le_refl]
  · rw [ring]
    exact law.2.2.2.2.2

theorem CapacityLaw.laneUpdate (law : CapacityLaw d) (h : LaneUpdate d e) : CapacityLaw e := by
  have records := law.2.2.2.2.2
  cases h with
  | lane q f hf =>
    refine law.shrink (fun x => ?_) (fun _ => Nat.le_refl _) (fun _ => Nat.le_refl _) (Nat.le_refl _) rfl records
    rw [Device.lane_onLane]
    split
    · exact hf _
    · exact Nat.le_refl _
  | empty p =>
    refine law.shrink (fun x => ?_) (fun _ => Nat.le_refl _) (fun _ => Nat.le_refl _) (Nat.le_refl _) rfl records
    rw [Device.lane_emptyLanes]
    split
    · exact Nat.zero_le _
    · exact Nat.le_refl _
  | append x =>
    exact law.shrink (fun _ => Nat.le_refl _) (fun _ => Nat.le_refl _) (fun _ => Nat.le_refl _) (Nat.le_refl _) rfl
      (d.ring.append_length x records)
  | outcome p o =>
    unfold Device.takeOutcome
    split
    · exact law.same rfl rfl rfl rfl rfl
    · exact law
  | leave | ended | aside => exact law.same rfl rfl rfl rfl rfl
  | discard p =>
    refine law.shrink (fun _ => Nat.le_refl _) (fun x => ?_) (fun _ => Nat.le_refl _) (Nat.le_refl _) rfl records
    rw [Device.decoder_onDecoder]
    split
    · rename_i same
      rw [same]
      exact discarded_buffer _
    · exact Nat.le_refl _

theorem CapacityLaw.onDecoder (law : CapacityLaw d) (p : Player) (f : Decoder → Decoder)
    (hf : (f (d.decoder p)).buffer.length ≤ 512) : CapacityLaw (d.onDecoder p f) := by
  obtain ⟨lane, buffer, rest⟩ := law
  refine ⟨lane, fun x => ?_, rest⟩
  rw [Device.decoder_onDecoder]
  split
  · exact hf
  · exact buffer x

theorem CapacityLaw.workUpdate (law : CapacityLaw d) {p : Player} (h : WorkUpdate p d e) : CapacityLaw e := by
  cases h with
  | judge h => exact law.laneUpdate h
  | append q n room =>
    obtain ⟨lane, rest⟩ := law
    refine ⟨fun x => ?_, rest⟩
    rw [Device.lane_onLane]
    split
    · rename_i same
      rw [same, List.length_append]
      exact room
    · exact lane x
  | decoder f hf =>
    refine law.onDecoder p f ?_
    rw [(hf _).2.2]
    exact law.2.1 p
  | units f _ => exact law.same rfl rfl rfl rfl rfl

theorem CapacityLaw.update (law : CapacityLaw d) (h : Update d e) : CapacityLaw e := by
  cases h with
  | work p h => exact law.workUpdate h
  | decoder p f hf => exact law.onDecoder p f ((hf _).trans (law.2.1 p))
  | tracker p f hf =>
    obtain ⟨lane, buffer, map, rest⟩ := law
    refine ⟨lane, buffer, fun x => ?_, rest⟩
    rw [Device.tracker_onTracker]
    split
    · exact hf.trans (max_le (Nat.le_refl 16) (map p))
    · exact map x
  | clock k hk =>
    obtain ⟨lane, buffer, map, captures, rest⟩ := law
    refine ⟨lane, buffer, fun x => ?_, hk.captures.trans (max_le (Nat.le_refl 4) captures), rest⟩
    simp only [Device.tracker, hk.trackers]
    exact map x
  | panels => exact law.same rfl rfl rfl rfl rfl
  | settings mapper judge score hm hj hk => exact law.same hj rfl rfl hm rfl

theorem CapacityLaw.updates (law : CapacityLaw d) (h : Updates d e) : CapacityLaw e := by
  induction h with
  | refl => exact law
  | tail _ hm ih => exact ih.update hm

end

/-! ## Capacities under a handed command -/

/-- The computation of the map suppresses at most the pairs there are (07 R103, R107). -/
theorem applyPairs_length (present : Panel → Bool) (pairs : List PanelPair) (r : LaneMap × List PanelPair) :
    (applyPairs present pairs r).2.length ≤ r.2.length + pairs.length := by
  induction pairs generalizing r with
  | nil => exact Nat.le_refl _
  | cons x xs ih =>
    obtain ⟨t, suppressed⟩ := r
    unfold applyPairs
    split <;> refine (ih _).trans ?_ <;> simp only [List.length_append, List.length_cons, List.length_nil] <;> omega

theorem modifierPairs_length (style : Style) (p : Player) (m : Modifiers) : (modifierPairs style p m).length ≤ 16 := by
  have part (on : Bool) (pairs : List PanelPair) (own : PanelPair → Bool) :
      (if on = true then pairs.filter own else []).length ≤ pairs.length := by
    split
    · exact List.length_filter_le _ _
    · exact Nat.zero_le _
  simp only [modifierPairs, List.length_append]
  exact Nat.add_le_add (Nat.add_le_add (part _ pairsX _) (part _ pairsY _)) (part _ pairsS _)

theorem mapPlayer_length (d : Device) (t : LaneMap) (p : Player) : (d.mapPlayer t p).2.length ≤ 16 := by
  unfold Device.mapPlayer
  split
  · exact (applyPairs_length _ _ _).trans (by simpa using modifierPairs_length _ _ _)
  · exact Nat.zero_le _

/-- START moves the clock as 01 R5 says, whatever the map comes out as. -/
theorem startSong_clock (d : Device) : d.startSong.clock = d.clock.started d.session.leadIn := by
  have frozen (e : Device) : e.freezeMap.clock = e.clock := by
    unfold Device.freezeMap
    dsimp only
    split <;> rfl
  exact frozen _

/-- START leaves the lanes and the decoders alone. -/
theorem startSong_same (d : Device) : d.startSong.judge = d.judge ∧ d.startSong.decoders = d.decoders := by
  have frozen (e : Device) : e.freezeMap.judge = e.judge ∧ e.freezeMap.decoders = e.decoders := by
    unfold Device.freezeMap
    dsimp only
    split <;> exact ⟨rfl, rfl⟩
  exact frozen _

theorem CapacityLaw.startSong {d : Device} (law : CapacityLaw d) : CapacityLaw d.startSong := by
  obtain ⟨lane, buffer, map, -, -, ring⟩ := law
  obtain ⟨judge, decoders⟩ := startSong_same d
  have clock := startSong_clock d
  refine ⟨fun q => ?_, fun p => ?_, fun p => ?_, ?_, fun p => ?_, ?_⟩
  · simp only [Device.lane, judge]
    exact lane q
  · simp only [Device.decoder, decoders]
    exact buffer p
  · simp only [Device.tracker, clock]
    cases p
    · exact (Tracker.advanced_length _ _).trans (map .p1)
    · exact (Tracker.advanced_length _ _).trans (map .p2)
  · rw [clock]
    exact Nat.zero_le _
  · rw [show d.startSong.mapper = _ from Device.freezeMap_mapper _]
    cases p
    · exact mapPlayer_length _ _ _
    · exact mapPlayer_length _ _ _
  · rw [Device.startSong_ring]
    exact d.ring.append_length _ ring

theorem emptied_lane (j : Judge) (q : LaneQueue) : j.emptied.lanes[q] = Lane.reset := Vector.getElem_replicate ..

theorem CapacityLaw.openWith {d : Device} (law : CapacityLaw d) (s : Session) : CapacityLaw (d.openWith s) := by
  obtain ⟨-, -, -, captures, suppressed, -⟩ := law
  refine ⟨fun q => ?_, fun p => ?_, fun p => ?_, captures, suppressed, ?_⟩
  · change (d.judge.emptied.lanes[q]).queue.length ≤ 24
    rw [emptied_lane]
    decide
  · cases p <;> exact Nat.zero_le _
  · cases p <;> exact Nat.zero_le _
  · exact d.ring.emptied.append_length _ (Nat.zero_le _)

theorem CapacityLaw.returnToIdle {d : Device} (law : CapacityLaw d) : CapacityLaw d.returnToIdle := by
  refine law.shrink (fun q => ?_) (fun p => ?_) (fun p => ?_) (Nat.zero_le _) rfl law.2.2.2.2.2
  · change (d.judge.emptied.lanes[q]).queue.length ≤ _
    rw [emptied_lane]
    exact Nat.zero_le _
  · cases p <;> exact Nat.zero_le _
  · cases p <;> exact Nat.zero_le _

/-- A reset empties every list. -/
theorem CapacityLaw.of_reset {d : Device} (judge : d.judge.lanes = Judge.reset.lanes)
    (decoders : d.decoders = ⟨.reset, .reset⟩) (trackers : d.clock.trackers = ⟨.reset, .reset⟩)
    (captures : d.clock.captures = []) (mapper : d.mapper = .reset) (ring : d.ring = .reset) : CapacityLaw d := by
  refine ⟨fun q => ?_, fun p => ?_, fun p => ?_, ?_, fun p => ?_, ?_⟩
  · rw [Device.lane, judge, show Judge.reset.lanes[q] = Lane.reset from Vector.getElem_replicate ..]
    decide
  · rw [Device.decoder, decoders]
    cases p <;> decide
  · rw [Device.tracker, trackers]
    cases p <;> decide
  · rw [captures]
    decide
  · rw [mapper]
    cases p <;> decide
  · rw [ring]
    decide

theorem CapacityLaw.handed {i : Port} {c : Command} {d e : Device} (h : Handed i c d e) (law : CapacityLaw d) :
    CapacityLaw e := by
  cases h with
  | updates h => exact law.updates h
  | opened s => exact law.openWith s
  | started _ _ h => exact law.startSong.updates h
  | returned =>
    have marked : Updates d.returnToIdle ((d.returnToIdle.abortMark c).raise .session) := by
      unfold Device.abortMark
      split
      · exact ((LaneUpdates.appendRecord _ _).trans (.raise _ _)).all
      · exact (LaneUpdates.raise _ _).all
    exact law.returnToIdle.updates marked
  | subscribed | unsubscribed => exact law.same rfl rfl rfl rfl rfl
  | reset _ h =>
    refine CapacityLaw.updates ?_ h
    exact .of_reset rfl rfl rfl rfl rfl rfl

/-! ## The step -/

/-- A microsecond leaves the captures and the trackers alone (02 R16). -/
theorem tick_lists (c : Clock) (runs : Bool) :
    (c.tick runs).captures = c.captures ∧ (c.tick runs).trackers = c.trackers := by
  unfold Clock.tick
  dsimp only
  split
  · split <;> exact ⟨rfl, rfl⟩
  · exact ⟨rfl, rfl⟩

theorem CapacityLaw.act {allowed : SessionState → Command → Prop} {resets : Prop} {d e : Device}
    (h : Act allowed resets d e) (law : CapacityLaw d) : CapacityLaw e := by
  cases h with
  | updates h => exact law.updates h
  | byte p b room =>
    refine law.onDecoder p _ ?_
    rw [List.length_append]
    exact of_decide_eq_true room
  | consume => exact law.same rfl rfl rfl rfl rfl
  | tick =>
    obtain ⟨captures, trackers⟩ := tick_lists d.clock d.songRuns
    refine law.shrink (fun _ => Nat.le_refl _) (fun _ => Nat.le_refl _) (fun p => ?_) ?_ rfl law.2.2.2.2.2
    · simp only [Device.tracker, trackers, Nat.le_refl]
    · rw [captures]
  | hand i c _ h => exact law.handed h
  | powerOn s =>
    unfold Device.powerOn
    dsimp only
    split
    · exact .of_reset rfl rfl rfl rfl rfl rfl
    · exact .of_reset rfl rfl rfl rfl rfl rfl

end Sys2Proof.Safety

section
open Sys2Proof.Machine Sys2Proof.Safety

/-- Settles O53: every act of a step keeps the ring's law, and the capacities. -/
theorem ringAndCapacitiesHold : Obligations.RingAndCapacitiesHold :=
  ⟨fun _ _ h law => (step_acts h).keeps (P := fun d => RingLaw d.ring) (fun _ _ act law => law.act act) law,
    fun _ _ h law => (step_acts h).keeps (fun _ _ act law => law.act act) law⟩

end
end

