-- ==== Sys2Proof/Proofs/Forward.lean ====
section
/-!
What only goes forward in a song (O60): song time, EARNED and the ring, through every elementary update, handed command
and act.
-/
namespace Sys2Proof.Machine
open Sys2Proof.Safety

/-! ## EARNED -/

/-- A player's points within their limit do not fall (09 R138). -/
def EarnedForward (d e : Device) : Prop :=
  ∀ p, (d.record p).earned ≤ maxEarned → (d.record p).earned ≤ (e.record p).earned ∧ (e.record p).earned ≤ maxEarned

theorem EarnedForward.of_earned {d e : Device} (h : ∀ p, (e.record p).earned = (d.record p).earned) :
    EarnedForward d e := fun p limit => by
  rw [h p]
  exact ⟨Nat.le_refl _, limit⟩

theorem EarnedForward.of_records {d e : Device} (h : e.score.records = d.score.records) : EarnedForward d e :=
  .of_earned fun p => by simp only [Device.record, h]

theorem EarnedForward.trans {d e g : Device} (h : EarnedForward d e) (k : EarnedForward e g) : EarnedForward d g :=
  fun p limit =>
    have ⟨rises, within⟩ := h p limit
    have ⟨rises', within'⟩ := k p within
    ⟨rises.trans rises', within'⟩

@[simp] theorem ScoreRecord.combine_earned (r : ScoreRecord) (floor : Grade) (o : Outcome) :
    (r.combine floor o).earned = r.earned := by
  unfold ScoreRecord.combine
  split <;> rfl

/-- An outcome adds its weight, up to the limit (09 R138). -/
theorem ScoreRecord.apply_earned (r : ScoreRecord) (k : ScoreKeeper) (policy : FailPolicy) (o : Outcome)
    (limit : r.earned ≤ maxEarned) :
    r.earned ≤ (r.apply k policy o).earned ∧ (r.apply k policy o).earned ≤ maxEarned := by
  simp only [ScoreRecord.apply, ScoreRecord.combine_earned]
  unfold ScoreRecord.earn
  split
  · exact ⟨Nat.le_refl _, limit⟩
  · exact ⟨le_min (Nat.le_add_right _ _) limit, min_le_right _ _⟩

theorem LaneUpdate.earned {d e : Device} (h : LaneUpdate d e) : EarnedForward d e := by
  cases h with
  | outcome p o =>
    unfold Device.takeOutcome
    split
    · intro x limit
      rw [Device.record_onRecord]
      split
      · rename_i same
        rw [same] at limit ⊢
        exact ScoreRecord.apply_earned _ _ _ _ limit
      · exact ⟨Nat.le_refl _, limit⟩
    · exact .of_records rfl
  | lane | empty | append | leave | ended | discard | aside => exact .of_records rfl

theorem WorkUpdate.earned {p : Player} {d e : Device} (h : WorkUpdate p d e) : EarnedForward d e := by
  cases h with
  | judge h => exact h.earned
  | units f hf =>
    refine .of_earned fun x => ?_
    rw [Device.record_onRecord]
    split
    · rename_i same
      rw [hf, same]
    · rfl
  | append | decoder => exact .of_records rfl

theorem Update.earned {d e : Device} (h : Update d e) : EarnedForward d e := by
  cases h with
  | work p h => exact h.earned
  | settings _ _ _ _ _ hk => exact .of_records hk
  | decoder | tracker | clock | panels => exact .of_records rfl

theorem Updates.earned {d e : Device} (h : Updates d e) : EarnedForward d e := by
  induction h with
  | refl => exact .of_records rfl
  | tail _ hm ih => exact ih.trans hm.earned

/-! ## The ring -/

/-- Records leave a ring within its capacity by appends to a full one alone, and the counter counts the appends (10
R150). -/
def RingForward (r r' : Ring) : Prop :=
  r.records.length ≤ 64 → ∃ new : List Record,
    r'.records = (r.records ++ new).drop ((r.records ++ new).length - 64)
      ∧ r'.seq = r.seq + BitVec.ofNat 16 new.length

theorem RingForward.of_records {r r' : Ring} (records : r'.records = r.records) (seq : r'.seq = r.seq) :
    RingForward r r' := fun capacity => by
  refine ⟨[], ?_, ?_⟩
  · rw [records, List.append_nil, Nat.sub_eq_zero_of_le capacity, List.drop_zero]
  · simp [seq]

theorem RingForward.append (r : Ring) (x : Record) : RingForward r (r.append x) := fun capacity => by
  refine ⟨[r.numbered x], ?_, rfl⟩
  have length : (r.records ++ [r.numbered x]).length = r.records.length + 1 := List.length_append
  rw [length]
  rcases r.append_cases x with ⟨small, e⟩ | ⟨full, e⟩ <;> rw [e]
  · have none_lost : r.records.length + 1 - 64 = 0 := by simp only [ringCapacity] at small; omega
    rw [none_lost, List.drop_zero]
  · simp only [ringCapacity] at full
    have one_lost : r.records.length + 1 - 64 = 1 := by omega
    rw [one_lost, List.drop_append_of_le_length (by omega), List.drop_one]

/-- The last 64 of a list of which only the last 64 had been kept. -/
theorem drop_append_drop {α : Type} (xs ys : List α) :
    (xs.drop (xs.length - 64) ++ ys).drop ((xs.drop (xs.length - 64) ++ ys).length - 64)
      = (xs ++ ys).drop ((xs ++ ys).length - 64) := by
  have joined : xs.drop (xs.length - 64) ++ ys = (xs ++ ys).drop (xs.length - 64) :=
    (List.drop_append_of_le_length (Nat.sub_le _ _)).symm
  rw [joined, List.drop_drop, List.length_drop, List.length_append]
  refine congrArg (fun n => (xs ++ ys).drop n) ?_
  omega

theorem RingForward.trans {r r' r'' : Ring} (h : RingForward r r') (k : RingForward r' r'') : RingForward r r'' :=
  fun capacity => by
    obtain ⟨new, records, seq⟩ := h capacity
    obtain ⟨newer, records', seq'⟩ := k (by rw [records, List.length_drop]; omega)
    refine ⟨new ++ newer, ?_, ?_⟩
    · rw [records', records, drop_append_drop, List.append_assoc]
    · rw [seq', seq, List.length_append, BitVec.ofNat_add, BitVec.add_assoc]

theorem Updates.ringForward {d e : Device} (h : Updates d e) : RingForward d.ring e.ring :=
  h.ring_keeps (fun r x k => k.trans (.append r x)) (.of_records rfl rfl)

/-! ## Song time -/

/-- A song that runs afterwards ran before, and its time, within its limit, has not fallen (02 R17, R23). -/
def ClockForward (d e : Device) : Prop :=
  e.songRuns = true → d.songRuns = true
    ∧ (d.clock.songTime ≤ maxTime → d.clock.songTime ≤ e.clock.songTime ∧ e.clock.songTime ≤ maxTime)

theorem ClockForward.trans {d e g : Device} (h : ClockForward d e) (k : ClockForward e g) : ClockForward d g :=
  fun runs =>
    have ⟨before, later⟩ := k runs
    have ⟨start, earlier⟩ := h before
    ⟨start, fun limit =>
      have ⟨rises, within⟩ := earlier limit
      have ⟨rises', within'⟩ := later within
      ⟨rises.trans rises', within'⟩⟩

theorem ClockForward.of_stopped {d e : Device} (h : e.songRuns = false) : ClockForward d e := fun runs => by
  rw [h] at runs
  cases runs

theorem ClockForward.of_time {d e : Device} (runs : e.songRuns = d.songRuns)
    (time : e.clock.songTime = d.clock.songTime) : ClockForward d e := fun after =>
  ⟨runs ▸ after, fun limit => by rw [time]; exact ⟨Int.le_refl _, limit⟩⟩

/-- No event of the part moves the session on but to the end of a song (01 R13). -/
theorem LaneUpdate.state {d e : Device} (h : LaneUpdate d e) :
    e.session.state = d.session.state ∨ d.session.state = .run ∧ e.session.state = .ended := by
  cases h with
  | ended run => exact .inr ⟨run, rfl⟩
  | outcome p o =>
    unfold Device.takeOutcome
    split <;> exact .inl rfl
  | lane | empty | append | leave | discard | aside => exact .inl rfl

theorem Update.state {d e : Device} (h : Update d e) :
    e.session.state = d.session.state ∨ d.session.state = .run ∧ e.session.state = .ended := by
  cases h with
  | work p h =>
    cases h with
    | judge h => exact h.state
    | append | decoder | units => exact .inl rfl
  | decoder | tracker | clock | panels | settings => exact .inl rfl

theorem Updates.songRuns {d e : Device} (h : Updates d e) : e.songRuns = d.songRuns := by
  induction h with
  | refl => rfl
  | tail _ hm ih =>
    rw [← ih]
    rcases hm.state with same | ⟨run, ended⟩
    · simp only [Device.songRuns, same]
    · simp [Device.songRuns, run, ended]

theorem Updates.preload {d e : Device} (h : Updates d e) (preload : e.session.state = .preload) :
    d.session.state = .preload := by
  induction h with
  | refl => exact preload
  | tail _ hm ih =>
    refine ih ?_
    rcases hm.state with same | ⟨-, ended⟩
    · rw [← same, preload]
    · rw [ended] at preload
      cases preload

theorem LaneUpdate.clock {d e : Device} (h : LaneUpdate d e) : e.clock = d.clock := by
  cases h with
  | outcome p o =>
    unfold Device.takeOutcome
    split <;> rfl
  | lane | empty | append | leave | ended | discard | aside => rfl

theorem WorkUpdate.clock {p : Player} {d e : Device} (h : WorkUpdate p d e) : e.clock = d.clock := by
  cases h with
  | judge h => exact h.clock
  | append | decoder | units => rfl

/-- No event of the part but the microsecond moves the free counter (02 R16). -/
theorem Update.free {d e : Device} (h : Update d e) : e.clock.free = d.clock.free := by
  cases h with
  | work p h => rw [h.clock]
  | clock k hk => exact hk.free
  | decoder | tracker | panels | settings => rfl

theorem Updates.free {d e : Device} (h : Updates d e) : e.clock.free = d.clock.free := by
  induction h with
  | refl => rfl
  | tail _ hm ih => exact hm.free.trans ih

theorem Update.clockForward {d e : Device} (h : Update d e) : ClockForward d e := by
  cases h with
  | work p work => exact .of_time (Update.work p work).chain.songRuns (by rw [work.clock])
  | clock k hk => exact fun runs => ⟨runs, hk.songTime⟩
  | decoder | tracker | panels | settings => exact .of_time rfl rfl

theorem Updates.clockForward {d e : Device} (h : Updates d e) : ClockForward d e := by
  induction h with
  | refl => exact .of_time rfl rfl
  | tail _ hm ih => exact ih.trans hm.clockForward

/-- A microsecond raises song time by 1, or a stall holds it (02 R17, R24). -/
theorem ClockForward.tick (d : Device) : ClockForward d { d with clock := d.clock.tick d.songRuns } := fun runs => by
  have before : d.songRuns = true := runs
  have raised (limit : d.clock.songTime ≤ maxTime) := raiseSongTime_range limit (amount := 1) (by decide)
  simp only [Clock.tick, before, if_true]
  refine ⟨trivial, fun limit => ?_⟩
  split
  · exact ⟨Int.le_refl _, limit⟩
  · exact raised limit
  · exact raised limit

theorem softResetBlocks_songRuns (d : Device) : d.softResetBlocks.songRuns = false := rfl

theorem powerOn_songRuns (d : Device) (s : Straps) : (d.powerOn s).songRuns = false := by
  rw [Device.songRuns, (Quiet.powerOn d s).session]
  rfl

theorem Device.startSong_score (d : Device) : d.startSong.score.records = d.score.records := by
  have frozen (e : Device) : e.freezeMap.score = e.score := by
    unfold Device.freezeMap
    dsimp only
    split <;> rfl
  exact congrArg ScoreKeeper.records (frozen _)

/-! ## Handed commands and acts -/

/-- But for a START, no command brings a song to run or turns its time back. -/
theorem Handed.clockForward {i : Port} {c : Command} {d e : Device} (h : Handed i c d e)
    (state : d.session.state ≠ .preload) : ClockForward d e := by
  cases h with
  | updates h => exact h.clockForward
  | opened s _ _ hs => exact .of_stopped (by simp [Device.songRuns, Device.openWith, hs])
  | started _ preload _ => exact absurd preload state
  | returned =>
    refine .of_stopped ?_
    unfold Device.abortMark
    split <;> rfl
  | subscribed | unsubscribed => exact .of_time rfl rfl
  | reset _ h => exact .of_stopped (h.songRuns.trans (softResetBlocks_songRuns d))

/-- From a song that runs no command leads to PRELOAD. -/
theorem Handed.not_preload {i : Port} {c : Command} {d e : Device} (h : Handed i c d e) (runs : d.songRuns = true) :
    e.session.state ≠ .preload := by
  have running {a : Device} (ha : a.songRuns = true) : a.session.state ≠ .preload := fun preload => by
    simp [Device.songRuns, preload] at ha
  cases h with
  | updates h => exact running (h.songRuns.trans runs)
  | opened _ _ idle _ => simp [Device.songRuns, idle] at runs
  | started _ preload _ => exact absurd preload (running runs)
  | returned =>
    unfold Device.abortMark
    split <;> exact nofun
  | subscribed | unsubscribed => exact running runs
  | reset _ h => exact fun preload => nomatch h.preload preload

theorem Act.clockForward {resets : Prop} {d e : Device} (h : Act (fun state _ => state ≠ .preload) resets d e) :
    ClockForward d e := by
  cases h with
  | updates h => exact h.clockForward
  | byte | consume => exact .of_time rfl rfl
  | tick => exact .tick d
  | hand i c state h => exact h.clockForward state
  | powerOn s => exact .of_stopped (powerOn_songRuns d s)

/-- The rise that a command brings first leads from a song that runs to no other PRELOAD. -/
theorem rise_not_preload {d : Device} (i : Port) (runs : d.songRuns = true) : (d.rise i).session.state ≠ .preload := by
  refine (Acts.rise (allowed := fun state _ => state = .run ∨ state = .ended) (resets := False) d i
    fun _ _ _ => ?_).keeps (P := fun a => a.session.state ≠ .preload) (fun a b act before => ?_) ?_
  · simpa [Device.songRuns] using runs
  · cases act with
    | updates h => exact fun preload => before (h.preload preload)
    | byte | consume | tick => exact before
    | hand i c state h => exact h.not_preload (by simpa [Device.songRuns] using state)
    | powerOn _ h => exact h.elim
  · intro preload
    simp [Device.songRuns, preload] at runs

/-- A command that brings neither the OPEN event nor a reset keeps the points and the ring. -/
theorem Handed.songKept {i : Port} {c : Command} {d e : Device} (h : Handed i c d e) (open_ : c ≠ .openSong)
    (reset : c ≠ .softReset) : EarnedForward d e ∧ RingForward d.ring e.ring := by
  cases h with
  | updates h => exact ⟨h.earned, h.ringForward⟩
  | opened _ hc => exact absurd hc open_
  | started _ _ h =>
    refine ⟨EarnedForward.trans (.of_records ?_) h.earned, RingForward.trans ?_ h.ringForward⟩
    · exact d.startSong_score
    · rw [Device.startSong_ring]
      exact .append _ _
  | returned =>
    unfold Device.abortMark
    split
    · exact ⟨.of_records rfl, .append _ _⟩
    · exact ⟨.of_records rfl, .of_records rfl rfl⟩
  | subscribed | unsubscribed => exact ⟨.of_records rfl, .of_records rfl rfl⟩
  | reset hc => exact absurd hc reset

theorem Act.songKept {d e : Device} (h : Act (fun _ c => c ≠ .openSong ∧ c ≠ .softReset) False d e) :
    EarnedForward d e ∧ RingForward d.ring e.ring := by
  cases h with
  | updates h => exact ⟨h.earned, h.ringForward⟩
  | byte | consume | tick => exact ⟨.of_records rfl, .of_records rfl rfl⟩
  | hand i c allowed h => exact h.songKept allowed.1 allowed.2
  | powerOn _ h => exact h.elim

end Sys2Proof.Machine

namespace Sys2Proof.Safety
open Sys2Proof.Machine

/-- A command that can bring no OPEN event is no OPEN_SONG, and it spells and ends no write of COMMAND. -/
theorem mayOpen_eq_false {d : Device} {c : Instr} (h : mayOpen d c = false) :
    spellsCommand c = false ∧ endsCommand d c = false ∧ ∀ i fields, c ≠ instrOf .openSong i fields := by
  unfold mayOpen at h
  split at h
  · cases h
  · rename_i other
    obtain ⟨spells, ends⟩ := Bool.or_eq_false_iff.1 h
    exact ⟨spells, ends, fun i fields => other i fields⟩

theorem mayReset_eq_false {d : Device} {c : Instr} (h : mayReset d c = false) :
    (∀ i fields, c ≠ instrOf .softReset i fields) ∧ ∀ straps, c ≠ .powerOnReset straps := by
  unfold mayReset at h
  split at h
  · cases h
  · cases h
  · rename_i other power
    exact ⟨fun i fields => other i fields, power⟩

end Sys2Proof.Safety

section
open Sys2Proof.Machine Sys2Proof.Safety

/-- Settles O60: no act turns song time back, and but for an OPEN_SONG and a reset none lowers EARNED or takes a record
out of the ring. -/
theorem songsOnlyGoForward : Obligations.SongsOnlyGoForward := by
  intro c s t h
  refine ⟨fun runs after limit => ?_, fun noOpen noReset => ?_⟩
  · have acts : Acts (fun state _ => state ≠ .preload) True s.device t.device :=
      exec_acts h (fun _ _ preload => by simp [Device.songRuns, preload] at runs)
        (fun i _ _ _ => rise_not_preload i runs) fun _ _ => trivial
    have forward : ClockForward s.device t.device :=
      acts.relates (fun _ => .of_time rfl rfl) (fun _ _ _ => ClockForward.trans) fun _ _ act => act.clockForward
    exact ((forward after).2 limit).1
  · obtain ⟨spells, ends, notOpen⟩ := mayOpen_eq_false noOpen
    obtain ⟨notReset, notPower⟩ := mayReset_eq_false noReset
    have acts : Acts (fun _ c => c ≠ .openSong ∧ c ≠ .softReset) False s.device t.device := by
      refine exec_acts h (fun ended => ?_) (fun i k _ own => ?_) fun straps hc => notPower straps hc
      · rw [ends] at ended
        cases ended
      · rw [spells] at own
        obtain ⟨fields, rfl⟩ := own.resolve_right Bool.false_ne_true
        refine ⟨?_, ?_⟩ <;> rintro rfl
        · exact notOpen i fields rfl
        · exact notReset i fields rfl
    obtain ⟨earned, ring⟩ : EarnedForward s.device t.device ∧ RingForward s.device.ring t.device.ring :=
      acts.relates (R := fun d e => EarnedForward d e ∧ RingForward d.ring e.ring)
        (fun _ => ⟨.of_records rfl, .of_records rfl rfl⟩) (fun _ _ _ h k => ⟨h.1.trans k.1, h.2.trans k.2⟩)
        fun _ _ act => act.songKept
    exact ⟨fun p limit => (earned p limit).1, ring⟩

end
end

