-- ==== Sys2Proof/Proofs/SongClock.lean ====
section
/-!
The song clock by itself: the microsecond (O16), edges, stalls and the loss of sync (O17), and SET_SYNC (O9).
-/
namespace Sys2Proof.Machine
open Sys2Proof.Safety

/-! ## The microsecond -/

/-- Where nothing is due, nothing is taken. -/
theorem settle_nothing {due : Device → List Event} {d : Device} (h : due d = []) (fuel : Nat) :
    settle due fuel d = d := by
  cases fuel with
  | zero => rfl
  | succ fuel => rw [settle, h, Device.pick]

theorem Device.microsecond_free (d : Device) : d.microsecond.clock.free = d.clock.free + 1 := by
  have ticked (c : Clock) (runs : Bool) : (c.tick runs).free = c.free + 1 := by
    unfold Clock.tick
    dsimp only
    split
    · split <;> rfl
    · rfl
  rw [Device.microsecond, ticked, (Updates.settleAll d).free]

/-- A stall that ends is due, so where nothing is due none has run out (02 R24). -/
theorem Device.stall_running {d : Device} (h : d.dueEvents = []) : d.clock.stall ≠ some 0 := fun spent => by
  have retries : d.dueRetries.isEmpty = true := by
    by_contra some_
    rw [Device.dueEvents, Device.retriesFirst, if_neg some_] at h
    exact some_ (by rw [h]; rfl)
  simp [Device.dueEvents, Device.retriesFirst, retries, Device.dueOthers, dueWhen, Device.stallOver, spent] at h

/-- A microsecond of a clock whose stall has not run out (02 R16, R17, R24). -/
theorem Clock.tick_eq (c : Clock) (runs : Bool) (h : c.stall ≠ some 0) :
    c.tick runs = { c with
      free := c.free + 1
      stall := if runs then c.stall.map (· - 1) else c.stall
      songTime := if runs = true ∧ c.stall = none then min (c.songTime + 1) 2147483647 else c.songTime } := by
  cases runs with
  | false => rfl
  | true =>
    obtain ⟨stall, e⟩ : ∃ stall, c.stall = stall := ⟨_, rfl⟩
    match stall, e with
    | none, e => simp [Clock.tick, e, raiseSongTime, maxTime]
    | some 0, e => exact absurd e h
    | some (n + 1), e => simp [Clock.tick, e]

/-! ## Edges, stalls and the loss of sync -/

/-- The oldest of four captures gives way to the new one (02 R20). -/
theorem Clock.captureNow_captures (c : Clock) :
    c.captureNow.captures = c.captures.drop (if c.captures.length < 4 then 0 else 1)
      ++ [{ edge := c.edgeCount, free := c.free, time := c.songTime }] := by
  by_cases room : c.captures.length < 4
  · simp [Clock.captureNow, captureCapacity, room]
  · simp [Clock.captureNow, captureCapacity, room]

theorem Device.songRuns_iff (d : Device) :
    d.songRuns = true ↔ d.session.state = .run ∨ d.session.state = .ended := by simp [Device.songRuns]

theorem Device.stopped_iff (d : Device) :
    d.songRuns = false ↔ d.session.state = .idle ∨ d.session.state = .preload := by
  cases h : d.session.state <;> simp [Device.songRuns, h]

/-- A song that runs captures an edge (02 R20, R26). -/
theorem Device.edge_runs {d : Device} (runs : d.songRuns = true) :
    d.edge = ({ d with
      clock := { d.clock with silenceStart := d.clock.free, sync := .present }.captureNow } : Device).raise .capture :=
  if_pos runs

/-- In IDLE and PRELOAD an edge is not captured (02 R20, R26). -/
theorem Device.edge_stopped {d : Device} (stopped : d.songRuns = false) :
    d.edge = { d with clock := { d.clock with silenceStart := d.clock.free, sync := .present } } :=
  if_neg (by rw [stopped]; decide)

/-- SET_SYNC in IDLE, its fields as the song clock reads them (02 R19). -/
theorem setSync_fields (mode : Byte) (slew jump timeout : BitVec 32) {d : Device} (idle : d.session.state = .idle) :
    setSync ([mode] ++ bytesOf 4 slew.toNat ++ bytesOf 4 jump.toNat ++ bytesOf 4 timeout.toNat) d
      = if 1 < mode.toNat then (.badValue, d)
        else (.done, { d with clock := { d.clock with
          mode := if mode.toNat = 1 then .followMode else .localMode
          slew := min slew.toNat 4000
          jump := max (min slew.toNat 4000) (min jump.toNat 1000000)
          syncTimeout := max 1000 (min timeout.toNat 1000000)
          sync := .present } }) := by
  have slewField := u32_field slew [mode] (bytesOf 4 jump.toNat ++ bytesOf 4 timeout.toNat) 1 rfl
  have jumpField := u32_field jump ([mode] ++ bytesOf 4 slew.toNat) (bytesOf 4 timeout.toNat) 5 (by simp)
  have timeoutField :=
    u32_field timeout ([mode] ++ bytesOf 4 slew.toNat ++ bytesOf 4 jump.toNat) [] 9 (by simp)
  have modeField := u8_append_head [] (bytesOf 4 slew.toNat ++ (bytesOf 4 jump.toNat ++ bytesOf 4 timeout.toNat)) mode
  simp only [List.append_assoc, List.append_nil, List.nil_append, List.length_nil,
    List.cons_append] at *
  simp only [setSync, idle, ne_eq, not_true_eq_false, if_false, slewField, jumpField, timeoutField, modeField, clampNat,
    Nat.zero_max, min_comm]

end Sys2Proof.Machine

section
open Sys2Proof.Machine Sys2Proof.Safety

/-- Settles O16: only the microsecond moves the free counter, and with nothing due it is the whole step. -/
theorem microsecondEffect : Obligations.MicrosecondEffect := by
  intro s
  refine ⟨_, rfl, s.device.microsecond_free, fun nothing => ?_⟩
  have settled : s.device.settleAll = s.device := settle_nothing nothing _
  change s.device.microsecond = _
  rw [Device.microsecond, settled, Clock.tick_eq _ _ (Device.stall_running nothing)]

/-- Settles O17. -/
theorem edgesStallsAndSyncLoss : Obligations.EdgesStallsAndSyncLoss := by
  refine ⟨fun s => ?_, fun s => ⟨⟨_, rfl, ?_⟩, _, rfl, fun due => ?_, fun notDue => ?_⟩⟩
  · refine ⟨_, rfl, ?_⟩
    rw [State.onDevice_device]
    cases runs : s.device.songRuns with
    | true =>
      rw [Device.edge_runs runs]
      refine ⟨rfl, fun _ => ⟨rfl, Clock.captureNow_captures _, fun i => Device.port_raise ..⟩, fun stopped => ?_⟩
      rw [(Device.stopped_iff _).2 stopped] at runs
      cases runs
    | false =>
      rw [Device.edge_stopped runs]
      refine ⟨rfl, fun running => ?_, fun _ => ⟨rfl, rfl, rfl⟩⟩
      rw [(Device.songRuns_iff _).2 running] at runs
      cases runs
  · rw [State.onDevice_device]
    by_cases spent : s.device.clock.stall = some 0 <;> simp [Device.endStall, Device.stallOver, spent]
  · obtain ⟨runs, follow, present, silent⟩ := due
    have lost : s.device.syncLossDue = true := by
      simp only [Device.syncLossDue, (Device.songRuns_iff _).2 runs, follow, present, silent, decide_true,
        Bool.and_self]
    rw [State.onDevice_device, Device.loseSync, if_pos lost]
    exact ⟨rfl, fun i => Device.port_raise ..⟩
  · have kept : ¬s.device.syncLossDue = true := fun lost => by
      simp only [Device.syncLossDue, Bool.and_eq_true, decide_eq_true_eq, Device.songRuns_iff] at lost
      obtain ⟨⟨⟨runs, follow⟩, present⟩, silent⟩ := lost
      rcases notDue with h | h | h | h | h
      · simp [h] at runs
      · simp [h] at runs
      · simp [h] at follow
      · simp [h] at present
      · exact absurd silent (Nat.not_le.2 h)
    rw [State.onDevice, Device.loseSync, if_neg kept]

/-- Settles O9. -/
theorem setSyncEffect : Obligations.SetSyncEffect := by
  intro s i mode slew jump timeout sendable idle
  have answer := exec_sendable sendable
  rw [leaveResult_eq (by decide), handCommand, setSync_fields _ _ _ _ idle] at answer
  refine ⟨_, answer, fun known => ?_, fun bad => ?_⟩
  · rw [if_neg (Nat.not_lt.2 known)]
    exact ⟨rfl, Device.setResult_ports _ _ _ _ _ rfl (by simp)⟩
  · rw [if_pos bad]
    exact ⟨Device.setResult_only .., Device.setResult_answered _ _ _ _ (by simp)⟩

end
end

