-- ==== Sys2Proof/Proofs/Trackers.lean ====
section
/-!
The beat trackers: what the recomputing of a beat index and the advance of a tracker write, and what they leave (O19).
-/
namespace Sys2Proof.Machine
open Sys2Proof.Safety

/-- A player's beat pulse lights the panels of the player's stages (11 R164). -/
theorem pulsesStage_panel (style : Style) (p : Player) (x : Panel) :
    pulsesStage style p (stageOfPanel x) = true
      ↔ if style = .doubles then p = .p1 else p = if x.val < 6 then .p1 else .p2 := by
  unfold stageOfPanel
  cases style <;> cases p <;> by_cases low : x.val < 6 <;> simp [pulsesStage, low]

/-- The entries that song time has not reached stay (02 R28). -/
theorem Tracker.advanced_map (k : Tracker) (songTime : Int) :
    (k.advanced songTime).map = k.map.dropWhile (reachedBy songTime) := by
  have split_ : k.map = k.map.takeWhile (reachedBy songTime) ++ k.map.dropWhile (reachedBy songTime) :=
    List.takeWhile_append_dropWhile.symm
  change k.map.drop (k.map.takeWhile (reachedBy songTime)).length = _
  conv_lhs => arg 2; rw [split_]
  exact List.drop_left

theorem PerPlayer.set_set {α : Type} (v : PerPlayer α) (p : Player) (a b : α) : (v.set p a).set p b = v.set p b := by
  cases p <;> rfl

/-- A device in which a player's tracker, the beat pulse timers and nothing else may differ. -/
def TrackerOnly (d e : Device) (p : Player) : Prop :=
  e = { d with
    clock := { d.clock with trackers := d.clock.trackers.set p (e.tracker p) }
    lamps := { d.lamps with beat := e.lamps.beat } }

theorem TrackerOnly.refl (d : Device) (p : Player) : TrackerOnly d d p := by
  simp [TrackerOnly, Device.tracker]

theorem TrackerOnly.onTracker {d e : Device} {p : Player} {f : Tracker → Tracker}
    (h : TrackerOnly (d.onTracker p f) e p) : TrackerOnly d e p := by
  unfold TrackerOnly at h ⊢
  simpa [Device.onTracker, PerPlayer.set_set] using h

@[simp] theorem Device.tracker_beatPulse (d : Device) (p q : Player) : (d.beatPulse p).tracker q = d.tracker q := by
  unfold Device.beatPulse
  split <;> rfl

/-- A beat pulse writes the beat pulse timers alone (11 R164). -/
theorem Device.beatPulse_only (d : Device) (p : Player) : TrackerOnly d (d.beatPulse p) p := by
  unfold Device.beatPulse
  split
  · simp [TrackerOnly, Device.tracker]
  · exact .refl d p

/-- The beat pulse timers after a beat pulse (11 R164). -/
theorem Device.beatPulse_beat (d : Device) (p : Player) (x : Panel) :
    (d.beatPulse p).lamps.beat[x] =
      if 0 < d.lamps.beatTime
          ∧ (if d.session.style = .doubles then p = .p1 else p = if x.val < 6 then .p1 else .p2) then
        some (d.clock.free + BitVec.ofNat 32 d.lamps.beatTime)
      else d.lamps.beat[x] := by
  simp only [← pulsesStage_panel]
  unfold Device.beatPulse
  by_cases lit : 0 < d.lamps.beatTime <;> simp [lit]

/-- The beat pulse timers after a tracker's beat index has moved (11 R164). -/
def PulsesFollow (d e : Device) (p : Player) : Prop :=
  ∀ x : Panel, e.lamps.beat[x] =
    if (d.tracker p).beatIndex < (e.tracker p).beatIndex ∧ 0 < d.lamps.beatTime
        ∧ (if d.session.style = .doubles then p = .p1 else p = if x.val < 6 then .p1 else .p2) then
      some (d.clock.free + BitVec.ofNat 32 d.lamps.beatTime)
    else d.lamps.beat[x]

theorem PulsesFollow.of_same {d e : Device} {p : Player} (index : (e.tracker p).beatIndex = (d.tracker p).beatIndex)
    (beat : e.lamps.beat = d.lamps.beat) : PulsesFollow d e p := fun x => by simp [index, beat]

/-- The beat index that a player's tracker has after it followed song time (02 R29). -/
def Device.followedBeat (d : Device) (p : Player) : Int :=
  if d.playerState p = .off then (d.tracker p).beatIndex else d.beatIndexNow p

/-- The beat index recomputed in a song that runs (02 R29, 11 R164). -/
theorem Device.recomputeBeat_spec (d : Device) (p : Player) (runs : d.songRuns = true) :
    TrackerOnly d (d.recomputeBeat p) p
      ∧ (d.recomputeBeat p).tracker p = { d.tracker p with beatIndex := d.followedBeat p }
      ∧ PulsesFollow d (d.recomputeBeat p) p := by
  by_cases off : d.playerState p = .off
  · have kept : d.recomputeBeat p = d := by simp [Device.recomputeBeat, off]
    rw [kept, Device.followedBeat, if_pos off]
    exact ⟨.refl d p, rfl, .of_same rfl rfl⟩
  · have moved : d.recomputeBeat p
        = if (d.tracker p).beatIndex < d.beatIndexNow p then
            (d.onTracker p fun k => { k with beatIndex := d.beatIndexNow p }).beatPulse p
          else d.onTracker p fun k => { k with beatIndex := d.beatIndexNow p } := by
      simp [Device.recomputeBeat, runs, off]
    rw [Device.followedBeat, if_neg off, moved]
    split
    · rename_i rises
      have tracker : ((d.onTracker p fun k => { k with beatIndex := d.beatIndexNow p }).beatPulse p).tracker p
          = { d.tracker p with beatIndex := d.beatIndexNow p } := by
        rw [Device.tracker_beatPulse, Device.tracker_onTracker, if_pos rfl]
      refine ⟨(Device.beatPulse_only _ p).onTracker, tracker, fun x => ?_⟩
      rw [tracker, Device.beatPulse_beat]
      simp only [rises, true_and]
      rfl
    · rename_i stays
      refine ⟨TrackerOnly.onTracker (.refl _ p), by simp, fun x => ?_⟩
      rw [if_neg]
      · rfl
      · simp [stays]

/-- A tracker that has followed song time: due entries have left its map, and the beat index of a player in play is
song time's (02 R28, R29). -/
def Tracker.following (k : Tracker) (songTime : Int) (state : PlayerState) : Tracker :=
  { k.advanced songTime with
    beatIndex := if state = .off then k.beatIndex else (k.advanced songTime).segment.beatIndex songTime }

/-- The advance of a tracker in a song that runs (02 R28, R29; 11 R164). -/
theorem Device.advanceTracker_spec (d : Device) (p : Player) (runs : d.songRuns = true) :
    TrackerOnly d (d.advanceTracker p) p
      ∧ (d.advanceTracker p).tracker p = (d.tracker p).following d.clock.songTime (d.playerState p)
      ∧ PulsesFollow d (d.advanceTracker p) p := by
  have advanced : d.advanceTracker p = (d.onTracker p fun k => k.advanced d.clock.songTime).recomputeBeat p :=
    if_pos runs
  obtain ⟨only, moved, pulses⟩ :=
    Device.recomputeBeat_spec (d.onTracker p fun k => k.advanced d.clock.songTime) p runs
  have tracker : (d.onTracker p fun k => k.advanced d.clock.songTime).tracker p
      = (d.tracker p).advanced d.clock.songTime := by simp
  rw [← advanced] at only moved pulses
  refine ⟨only.onTracker, ?_, fun x => ?_⟩
  · rw [moved, tracker, Device.followedBeat, Device.beatIndexNow, tracker]
    rfl
  · have pulse := pulses x
    rw [tracker] at pulse
    exact pulse

/-- What the tracker of a device `a` with map `m` follows in a song that runs, where the rest is as in `d` (02 R28, R29;
11 R164). -/
theorem trackerFollows_of_advance {d a : Device} {p : Player} {m : List Segment} (runs : a.songRuns = true)
    (tracker : a.tracker p = { d.tracker p with map := m })
    (same : a.session = d.session ∧ a.clock.songTime = d.clock.songTime ∧ a.clock.free = d.clock.free
      ∧ a.lamps = d.lamps) : TrackerFollows d (a.advanceTracker p) p m := by
  obtain ⟨session, songTime, free, lamps⟩ := same
  obtain ⟨-, following, pulses⟩ := a.advanceTracker_spec p runs
  rw [Device.playerState, session, songTime, tracker] at following
  refine ⟨?_, ?_, ?_, fun x => ?_⟩
  · rw [following]
    exact Tracker.advanced_map _ _
  · rw [following]
    rfl
  · rw [following]
    rfl
  · have pulse := pulses x
    simp only [tracker, session, free, lamps] at pulse
    exact pulse

/-- A tracker with no entry due has followed song time when its beat index has (02 R29). -/
theorem trackerFollows_of_recompute {d e : Device} {p : Player} (waiting : d.tempoDue p = false)
    (runs : d.songRuns = true) (tracker : e.tracker p = { d.tracker p with beatIndex := d.followedBeat p })
    (pulses : PulsesFollow d e p) :
    TrackerFollows d e p (d.tracker p).map := by
  have passed : (d.tracker p).map.takeWhile (reachedBy d.clock.songTime) = [] := by
    have none_ : ((d.tracker p).passed d.clock.songTime).isEmpty = true := by
      simpa [Device.tempoDue, runs] using waiting
    exact List.isEmpty_iff.1 none_
  have map : (d.tracker p).map.dropWhile (reachedBy d.clock.songTime) = (d.tracker p).map := by
    have whole := List.takeWhile_append_dropWhile (p := reachedBy d.clock.songTime) (l := (d.tracker p).map)
    rwa [passed] at whole
  refine ⟨?_, ?_, ?_, pulses⟩
  · rw [tracker, map]
  · rw [tracker, passed]
    rfl
  · rw [tracker]
    rfl

/-- The front entry of the map is reached (02 R28). -/
theorem Device.tempoDue_cons {d : Device} {p : Player} {g : Segment} {rest : List Segment}
    (map : (d.tracker p).map = g :: rest) :
    d.tempoDue p = (d.songRuns && decide ((g.rowTime : Int) ≤ d.clock.songTime)) := by
  by_cases reached : (g.rowTime : Int) ≤ d.clock.songTime <;> simp [Device.tempoDue, Tracker.passed, map, reached]

end Sys2Proof.Machine

section
open Sys2Proof.Machine Sys2Proof.Safety

/-- Settles O19. -/
theorem beatTrackersMove : Obligations.BeatTrackersMove := by
  intro s p c running due
  have runs : s.device.songRuns = true := (Device.songRuns_iff _).2 running
  rcases due with ⟨rfl, g, rest, map, reached⟩ | ⟨rfl, inPlay, waits⟩
  · have entryDue : s.device.tempoDue p = true := by simp [Device.tempoDue_cons map, runs, reached]
    refine ⟨_, rfl, ?_⟩
    rw [State.onDevice_device, Device.reachTempo, if_pos entryDue]
    exact ⟨(s.device.advanceTracker_spec p runs).1, trackerFollows_of_advance runs rfl ⟨rfl, rfl, rfl, rfl⟩⟩
  · have waiting : s.device.tempoDue p = false := by
      cases map : (s.device.tracker p).map with
      | nil => simp [Device.tempoDue, Tracker.passed, map]
      | cons g rest => simp [Device.tempoDue_cons map, waits g rest map]
    refine ⟨_, rfl, ?_⟩
    rw [State.onDevice_device, Device.crossBeat]
    split
    · obtain ⟨only, tracker, pulses⟩ := s.device.recomputeBeat_spec p runs
      exact ⟨only, trackerFollows_of_recompute waiting runs tracker pulses⟩
    · rename_i still
      have index : (s.device.tracker p).beatIndex = s.device.beatIndexNow p := by
        simpa [Device.beatDue, runs, inPlay, waiting] using still
      refine ⟨TrackerOnly.refl _ p, trackerFollows_of_recompute waiting runs ?_ (PulsesFollow.of_same rfl rfl)⟩
      rw [Device.followedBeat, if_neg inPlay, ← index]

end
end

