-- ==== Sys2Proof/Proofs/Offers.lean ====
section
/-!
The entries of the tempo map: TEMPO and DWELL offer theirs, and a stalled offer is made again when the map has room
(O39).
-/
namespace Sys2Proof.Machine
open Sys2Proof.Safety

/-! ## Chart faults -/

theorem FaultKind.bit_inj {k l : FaultKind} (h : k.bit = l.bit) : k = l := by
  cases k <;> cases l <;> cases h <;> rfl

theorem FaultKind.bit_lt (k : FaultKind) : k.bit < 13 := by cases k <;> decide

/-- A fault set that has gained a kind holds it, and else what it held (04 R66). -/
theorem FaultKind.or_mask_bit (faults : BitVec 13) (k l : FaultKind) :
    (faults ||| l.mask).getLsbD k.bit = (faults.getLsbD k.bit || decide (k = l)) := by
  have same : l.bit = k.bit ↔ k = l := ⟨fun h => FaultKind.bit_inj h.symm, fun h => h ▸ rfl⟩
  rw [BitVec.getLsbD_or, FaultKind.mask, BitVec.getLsbD_twoPow]
  simp [l.bit_lt, same]

theorem withFaults_bit (faults : BitVec 13) (kinds : List FaultKind) (k : FaultKind) :
    (withFaults faults kinds).getLsbD k.bit = (faults.getLsbD k.bit || decide (k ∈ kinds)) := by
  induction kinds generalizing faults with
  | nil => simp [withFaults]
  | cons l ls ih =>
    change (withFaults (faults ||| l.mask) ls).getLsbD k.bit = _
    rw [ih, FaultKind.or_mask_bit, Bool.or_assoc]
    simp

end Sys2Proof.Machine

namespace Sys2Proof.Safety
open Sys2Proof.Machine

theorem DecoderOnly.refl (d : Device) (p : Player) : DecoderOnly d d p (d.decoder p) [] := by
  refine ⟨?_, fun i => by simp⟩
  have same : withFaults (d.decoder p).faults [] = (d.decoder p).faults := rfl
  rw [same]
  exact congrArg (fun x : PerPlayer Decoder => { d with decoders := x }) (PerPlayer.set_get d.decoders p).symm

theorem DecoderOnly.decoder {d e : Device} {p : Player} {c : Decoder} {kinds : List FaultKind}
    (h : DecoderOnly d e p c kinds) : e.decoder p = { c with faults := withFaults c.faults kinds } := by
  rw [h.1]
  simp [Device.decoder]

/-- A fault added where a condition holds joins the kinds gained (04 R66). -/
theorem DecoderOnly.addFaultIf {d e : Device} {p : Player} {c : Decoder} {kinds : List FaultKind}
    (h : DecoderOnly d e p c kinds) (hc : c.faults = (d.decoder p).faults) (k : FaultKind) (cond : Bool) :
    DecoderOnly d (e.addFaultIf p k cond) p c (kinds ++ if cond then [k] else []) := by
  cases cond with
  | false => simpa [Device.addFaultIf] using h
  | true =>
    have decoder := h.decoder
    obtain ⟨only, raised⟩ := h
    have gained : withFaults c.faults (kinds ++ [k]) = withFaults c.faults kinds ||| k.mask := List.foldl_append
    have held : (e.decoder p).faults.getLsbD k.bit = (c.faults.getLsbD k.bit || decide (k ∈ kinds)) := by
      rw [decoder]
      exact withFaults_bit ..
    change DecoderOnly d (e.addFault p k) p c (kinds ++ [k])
    rcases e.addFault_cases p k with ⟨old, same⟩ | ⟨new, same⟩ <;> rw [same]
    · have kept : withFaults c.faults (kinds ++ [k]) = withFaults c.faults kinds := by
        rw [gained, FaultKind.or_mask _ k]
        rwa [decoder] at old
      refine ⟨by rw [kept]; exact only, fun i => ?_⟩
      have noMore : (∃ l ∈ kinds ++ [k], (d.decoder p).faults.getLsbD l.bit = false)
          ↔ ∃ l ∈ kinds, (d.decoder p).faults.getLsbD l.bit = false := by
        refine ⟨fun ⟨l, hl, absent⟩ => ?_, fun ⟨l, hl, absent⟩ => ⟨l, List.mem_append_left _ hl, absent⟩⟩
        rcases List.mem_append.1 hl with among | last
        · exact ⟨l, among, absent⟩
        · obtain rfl := List.mem_singleton.1 last
          rw [held, hc, absent] at old
          exact ⟨l, by simpa using old, absent⟩
      simp only [noMore]
      exact raised i
    · have absent : (d.decoder p).faults.getLsbD k.bit = false := by
        rw [held, hc] at new
        exact (Bool.or_eq_false_iff.1 new).1
      have some_ : ∃ l ∈ kinds ++ [k], (d.decoder p).faults.getLsbD l.bit = false := ⟨k, by simp, absent⟩
      refine ⟨?_, fun i => ?_⟩
      · rw [gained]
        simp only [Device.onDecoder, decoder]
        rw [only]
        simp only [PerPlayer.set_set]
        rfl
      · rw [Device.port_raise, Device.onDecoder_port, raised i, if_pos some_]
        split
        · rw [BitVec.or_assoc, BitVec.or_self]
        · rfl

/-- What writes the decoder's other fields leaves the kinds gained (04 R66). -/
theorem DecoderOnly.onDecoder {d e : Device} {p : Player} {c c' : Decoder} {kinds : List FaultKind}
    (h : DecoderOnly d e p c kinds) (f : Decoder → Decoder)
    (hf : f { c with faults := withFaults c.faults kinds } = { c' with faults := withFaults c'.faults kinds }) :
    DecoderOnly d (e.onDecoder p f) p c' kinds := by
  have decoder := h.decoder
  obtain ⟨only, raised⟩ := h
  refine ⟨?_, raised⟩
  rw [← hf, ← decoder, Device.onDecoder, only]
  simp only [PerPlayer.set_set, Device.decoder, PerPlayer.get_set, if_true]

theorem DecoderOnly.onTracker {d e : Device} {p : Player} {c : Decoder} {kinds : List FaultKind}
    (h : DecoderOnly d e p c kinds) (f : Tracker → Tracker) :
    DecoderOnly (d.onTracker p f) (e.onTracker p f) p c kinds := by
  obtain ⟨only, raised⟩ := h
  refine ⟨?_, raised⟩
  rw [only]
  rfl

end Sys2Proof.Safety

namespace Sys2Proof.Machine
open Sys2Proof.Safety

/-! ## Entries at the front of a buffer -/

theorem frontEntry_tempo {tag : Byte} (v : BitVec 32) (rest : List Byte) (h : tag.toNat / 16 = 5) :
    frontEntry (tag :: bytesOf 4 v.toNat ++ rest) = some (.tempo v.toNat) := by
  have field := u32_bytesOf v rest
  simp only [List.cons_append, frontEntry, h, field, List.length_append, bytesOf_length]
  exact if_pos (Nat.le_add_right 4 _)

theorem frontEntry_dwell {tag : Byte} (v : BitVec 32) (rest : List Byte) (h : tag.toNat / 16 = 6) :
    frontEntry (tag :: bytesOf 4 v.toNat ++ rest) = some (.dwell v.toNat) := by
  have field := u32_bytesOf v rest
  simp only [List.cons_append, frontEntry, h, field, List.length_append, bytesOf_length]
  exact if_pos (Nat.le_add_right 4 _)

/-- A decoder that goes on takes the entry at the front of its buffer (04 R51). -/
theorem Device.takeKind_decoding {d : Device} {p : Player} {e : Entry} (decoding : (d.decoder p).state = .decoding)
    (front : frontEntry (d.decoder p).buffer = some e) : d.takeKind p e.kind = d.actEntry p e := by
  simp [Device.takeKind, Device.nextEntry, decoding, DecoderState.takes, front, Device.takeEntry]

theorem Device.firstEntry_decoding {d : Device} {p : Player} (decoding : (d.decoder p).state = .decoding)
    (isHeader : Bool) : d.firstEntry p isHeader = d := if_neg (by rw [decoding]; decide)

theorem Device.dropRepeat_none {d : Device} {p : Player} (alone : (d.decoder p).pendingRepeat = none) :
    d.dropRepeat p = d := if_neg (by rw [alone]; decide)

/-! ## Offers -/

/-- The map takes an offered entry and the decoder starts its segment, before song time is followed (02 R27, 04 R54). -/
def Device.takeOffer (d : Device) (p : Player) (g : Segment) : Device :=
  ((d.onTracker p fun k => { k with map := k.map ++ [g] }).onDecoder p fun c =>
    { c with segment := g.forDecoder }).onDecoder p Decoder.finished

theorem Device.acceptOffer_eq (d : Device) (p : Player) (g : Segment) :
    d.acceptOffer p g = (d.takeOffer p g).advanceTracker p := rfl

theorem Device.takeOffer_tracker (d : Device) (p : Player) (g : Segment) :
    (d.takeOffer p g).tracker p = { d.tracker p with map := (d.tracker p).map ++ [g] } := by
  simp [Device.takeOffer]

theorem Device.mapHasRoom_iff (d : Device) (p : Player) : d.mapHasRoom p = true ↔ (d.tracker p).map.length < 16 :=
  decide_eq_true_iff

theorem Device.advanceTracker_stopped {d : Device} (p : Player) (stopped : d.songRuns = false) :
    d.advanceTracker p = d :=
  if_neg (by rw [stopped]; decide)

/-- An entry of five bytes that offers a tempo map entry while the song does not run (02 R27, 04 R54). -/
theorem offered_preload {d a : Device} {p : Player} {c : Decoder} {kinds : List FaultKind} (g : Segment)
    (faulted : DecoderOnly d a p c kinds) (stopped : d.songRuns = false) :
    Offered d ((a.onDecoder p fun c => c.takeInHand 5 (.offer g)).offer p g) p c (c.buffer.drop 5) g kinds := by
  have clock : a.clock = d.clock := by rw [faulted.1]
  have tracker : (a.onDecoder p fun c => c.takeInHand 5 (.offer g)).tracker p = d.tracker p := by
    rw [Device.onDecoder_tracker, Device.tracker, Device.tracker, clock]
  have still : (a.onDecoder p fun c => c.takeInHand 5 (.offer g)).songRuns = false := by
    rw [Device.onDecoder_songRuns, Device.songRuns, faulted.1]
    exact stopped
  have held := faulted.onDecoder (c' := c.takeInHand 5 (.offer g)) (fun c => c.takeInHand 5 (.offer g)) rfl
  refine ⟨fun room => ?_, fun full => ?_⟩
  · have hasRoom := (Device.mapHasRoom_iff (a.onDecoder p fun c => c.takeInHand 5 (.offer g)) p).2 (by rwa [tracker])
    have taken := ((held.onTracker fun k => { k with map := k.map ++ [g] }).onDecoder
      (c' := { c.takeInHand 5 (.offer g) with segment := g.forDecoder }) (fun c => { c with segment := g.forDecoder })
      rfl).onDecoder
      (c' := { c with buffer := c.buffer.drop 5, inHand := none, segment := g.forDecoder }) Decoder.finished rfl
    rw [Device.offer, if_pos hasRoom, Device.acceptOffer_eq, Device.advanceTracker_stopped p (by exact still)]
    have moved : ((a.onDecoder p fun c => c.takeInHand 5 (.offer g)).takeOffer p g).clock = { d.clock with
        trackers := d.clock.trackers.set p { d.tracker p with map := (d.tracker p).map ++ [g] } } := by
      rw [← clock, ← tracker]
      rfl
    refine ⟨moved, ?_⟩
    rw [moved]
    exact taken
  · have noRoom : ¬(a.onDecoder p fun c => c.takeInHand 5 (.offer g)).mapHasRoom p = true := by
      rw [Device.mapHasRoom_iff, tracker]
      exact Nat.not_lt.2 full
    rw [Device.offer, if_neg noRoom]
    exact held.onDecoder _ rfl

/-- A stalled offer made again and accepted, before song time is followed: the decoder goes on (04 R62). -/
def Device.resumeOffer (d : Device) (p : Player) (g : Segment) : Device :=
  (d.onDecoder p fun c => { c with state := .decoding }).takeOffer p g

theorem Device.resumeOffer_tracker (d : Device) (p : Player) (g : Segment) :
    (d.resumeOffer p g).tracker p = { d.tracker p with map := (d.tracker p).map ++ [g] } :=
  Device.takeOffer_tracker ..

/-- A stalled offer is made again where the map has room (02 R28, 04 R62). -/
theorem Device.releaseStall_offer {d : Device} {p : Player} {size : Nat} {g : Segment}
    (stalled : (d.decoder p).state = .stalledTempo)
    (hand : (d.decoder p).inHand = some { size := size, task := .offer g }) :
    d.releaseStall p = if d.mapHasRoom p then (d.resumeOffer p g).advanceTracker p else d := by
  have free : d.stallFree p = d.mapHasRoom p := by simp [Device.stallFree, stalled, hand]
  rw [Device.releaseStall, free]
  split
  · rename_i room
    simp only [hand, Device.offer, Device.acceptOffer_eq]
    exact if_pos room
  · rfl

/-- The decoder that goes on with an accepted offer starts the segment behind the entry (04 R54, R62). -/
theorem Device.resumeOffer_eq {d : Device} {p : Player} {size : Nat} (g : Segment) {task : Task}
    (hand : (d.decoder p).inHand = some { size := size, task := task }) :
    d.resumeOffer p g = ({ d with
      decoders := d.decoders.set p { d.decoder p with
        state := .decoding, inHand := none, buffer := (d.decoder p).buffer.drop size, segment := g.forDecoder } }
      : Device).onTracker p fun k => { k with map := k.map ++ [g] } := by
  simp only [Device.decoder] at hand
  simp [Device.resumeOffer, Device.takeOffer, Device.onDecoder, Device.decoder, Decoder.finished, Device.onTracker,
    Device.tracker, PerPlayer.set_set, hand]

/-- Entries that song time has not reached stay in the map (02 R28). -/
theorem unreached_stay {songTime : Int} {m : List Segment} (h : ∀ e ∈ m, songTime < e.rowTime) :
    m.takeWhile (reachedBy songTime) = [] ∧ m.dropWhile (reachedBy songTime) = m := by
  cases m with
  | nil => exact ⟨rfl, rfl⟩
  | cons g rest =>
    have waits : reachedBy songTime g = false := by simpa [reachedBy] using h g (List.mem_cons_self ..)
    simp [waits]

theorem clampPeriod_eq (v : Nat) : clampPeriod v = max 65536 (min v 268435455) := by
  rw [clampPeriod, clampNat, min_comm]
  rfl

theorem clampDwell_eq (v : Nat) : clampDwell v = max 1 (min v 60000000) := by
  rw [clampDwell, clampNat, min_comm]
  rfl

/-- The faults of a TEMPO (03 R34). -/
theorem Device.tempoFaults_only (d : Device) (p : Player) (v : Nat) :
    DecoderOnly d (d.tempoFaults p v) p (d.decoder p) (if v < 65536 ∨ 268435455 < v then [.tempoClamped] else []) := by
  have clamped : (clampPeriod v != v) = decide (v < 65536 ∨ 268435455 < v) := by
    rw [clampPeriod_eq, bne, beq_eq_decide, ← decide_not, decide_eq_decide]
    omega
  rw [Device.tempoFaults, clamped]
  simpa using (DecoderOnly.refl d p).addFaultIf rfl .tempoClamped (decide (v < 65536 ∨ 268435455 < v))

/-- The faults of a DWELL (03 R36, R40). -/
theorem Device.dwellFaults_only (d : Device) (p : Player) (v : Nat) :
    DecoderOnly d (d.dwellFaults p v) p (d.decoder p)
      ((if v < 1 ∨ 60000000 < v then [.dwellClamped] else [])
        ++ if 2147483647 < (d.decoder p).rowTime + max 1 (min v 60000000) then [.dueClamped] else []) := by
  have clamped : (clampDwell v != v) = decide (v < 1 ∨ 60000000 < v) := by
    rw [clampDwell_eq, bne, beq_eq_decide, ← decide_not, decide_eq_decide]
    omega
  have first := (DecoderOnly.refl d p).addFaultIf rfl .dwellClamped (decide (v < 1 ∨ 60000000 < v))
  rw [Device.dwellFaults, clamped, clampDwell_eq]
  have second := first.addFaultIf rfl .dueClamped (decide (maxTime < (d.decoder p).rowTime + max 1 (min v 60000000)))
  simp only [List.nil_append, decide_eq_true_eq] at second
  exact second

/-- A TEMPO that a decoder takes with no repeat pending (04 R54, 03 R39). -/
theorem Device.actTempo_eq {d : Device} {p : Player} (v : Nat) (decoding : (d.decoder p).state = .decoding)
    (alone : (d.decoder p).pendingRepeat = none) :
    d.actTempo p v
      = ((d.tempoFaults p v).onDecoder p fun c => c.takeInHand 5 (.offer ((d.decoder p).tempoSegment v))).offer p
        ((d.decoder p).tempoSegment v) := by
  have segment : ((d.tempoFaults p v).decoder p).tempoSegment v = (d.decoder p).tempoSegment v := by
    rw [(d.tempoFaults_only p v).decoder]
    rfl
  rw [Device.actTempo, Device.firstEntry_decoding decoding, Device.dropRepeat_none alone]
  simp only [segment]

/-- A DWELL that a decoder takes with no repeat pending (04 R54, 03 R40). -/
theorem Device.actDwell_eq {d : Device} {p : Player} (v : Nat) (decoding : (d.decoder p).state = .decoding)
    (alone : (d.decoder p).pendingRepeat = none) :
    d.actDwell p v
      = ((d.dwellFaults p v).onDecoder p fun c => c.takeInHand 5 (.offer ((d.decoder p).dwellSegment v))).offer p
        ((d.decoder p).dwellSegment v) := by
  have segment : ((d.dwellFaults p v).decoder p).dwellSegment v = (d.decoder p).dwellSegment v := by
    rw [(d.dwellFaults_only p v).decoder]
    rfl
  rw [Device.actDwell, Device.firstEntry_decoding decoding, Device.dropRepeat_none alone]
  simp only [segment]

end Sys2Proof.Machine

section
open Sys2Proof.Machine Sys2Proof.Safety

/-- Settles O39. -/
theorem tempoAndDwellOffer : Obligations.TempoAndDwellOffer := by
  refine ⟨?_, ?_, ?_⟩
  · rintro s p tag v rest c g rfl buffer decoding alone preload isTempo rfl
    have front := (congrArg frontEntry buffer).trans (frontEntry_tempo v rest isTempo)
    have offered := offered_preload ((s.device.decoder p).tempoSegment v.toNat) (s.device.tempoFaults_only p v.toNat)
      ((Device.stopped_iff _).2 (.inr preload))
    rw [← Device.actTempo_eq _ decoding alone, buffer, Decoder.tempoSegment, clampPeriod_eq] at offered
    refine ⟨_, rfl, ?_⟩
    rw [State.onDevice_device]
    exact (Device.takeKind_decoding decoding front).symm ▸ offered
  · rintro s p tag v rest c g rfl buffer decoding alone preload isDwell rfl
    have front := (congrArg frontEntry buffer).trans (frontEntry_dwell v rest isDwell)
    have offered := offered_preload ((s.device.decoder p).dwellSegment v.toNat) (s.device.dwellFaults_only p v.toNat)
      ((Device.stopped_iff _).2 (.inr preload))
    rw [← Device.actDwell_eq _ decoding alone, buffer, Decoder.dwellSegment, clampDwell_eq] at offered
    refine ⟨_, rfl, ?_⟩
    rw [State.onDevice_device]
    exact (Device.takeKind_decoding decoding front).symm ▸ offered
  · rintro s p c size g rfl stalled hand
    refine ⟨_, rfl, fun full => ?_, fun room running => ?_⟩
    · have noRoom : ¬s.device.mapHasRoom p = true := by
        rw [Device.mapHasRoom_iff]
        exact Nat.not_lt.2 full
      rw [State.onDevice, Device.releaseStall_offer stalled hand, if_neg noRoom]
    · have runs : s.device.songRuns = true := (Device.songRuns_iff _).2 running
      obtain ⟨only, -⟩ := (s.device.resumeOffer p g).advanceTracker_spec p runs
      have follows : TrackerFollows s.device ((s.device.resumeOffer p g).advanceTracker p) p
          ((s.device.tracker p).map ++ [g]) :=
        trackerFollows_of_advance runs (s.device.resumeOffer_tracker p g) ⟨rfl, rfl, rfl, rfl⟩
      have ⟨map, segment, _⟩ := follows
      rw [State.onDevice_device, Device.releaseStall_offer stalled hand, if_pos ((Device.mapHasRoom_iff _ _).2 room)]
      refine ⟨?_, follows, fun waits waits' => ?_, fun empty reached => ?_⟩
      · rw [Device.resumeOffer_eq g hand] at only ⊢
        exact only.onTracker
      · obtain ⟨none_, all⟩ := unreached_stay (songTime := s.device.clock.songTime)
          (m := (s.device.tracker p).map ++ [g])
          fun e he => (List.mem_append.1 he).elim (waits e) fun last => List.mem_singleton.1 last ▸ waits'
        rw [map, segment, none_, all]
        exact ⟨rfl, rfl⟩
      · have due : reachedBy s.device.clock.songTime g = true := decide_eq_true reached
        rw [map, segment, empty]
        simp [due]

end
end

