-- ==== Sys2Proof/Proofs/StageSettings.lean ====
section
/-!
SET_STAGE where no map is frozen (O10): the panels of boards that are lost, the boards and the phase of a link, and the
round that a silent link begins.
-/
namespace Sys2Proof.Machine
open Sys2Proof.Safety

/-! ## Boards that are lost -/

/-- A panel that has lost its board, where it feeds no lane (06 R95, R96). -/
def PanelPress.lost (x : PanelPress) : PanelPress :=
  { x.forcedUp with stuckSince := if x.pressed then none else x.stuckSince }

theorem PanelPress.lost_lost (x : PanelPress) : x.lost.lost = x.lost := by
  have sensors : vecMap (fun s => { s with active := false }) (vecMap (fun s => { s with active := false }) x.sensors)
      = vecMap (fun s : Sensor => { s with active := false }) x.sensors := by
    ext k hk
    all_goals simp [vecMap]
  simp [PanelPress.lost, PanelPress.forcedUp, sensors]

theorem Device.onPanel_congr {d : Device} {p : Panel} {f g : PanelPress → PanelPress}
    (h : f (d.panel p) = g (d.panel p)) : d.onPanel p f = d.onPanel p g := by
  simp only [Device.panel] at h
  simp only [Device.onPanel, vecModify, h]

theorem Device.onPanel_onPanel (d : Device) (p : Panel) (f g : PanelPress → PanelPress) :
    (d.onPanel p f).onPanel p g = d.onPanel p fun x => g (f x) := by
  simp [Device.onPanel, vecModify]

/-- Where no map is frozen no panel feeds a lane (07 R104). -/
theorem Device.feeds_unfrozen {d : Device} (unfrozen : d.mapper.frozen = none) (p : Panel) : d.feeds p = none := by
  simp [Device.feeds, unfrozen]

/-- A board lost moves its panel alone, where the panel feeds no lane (06 R95). -/
theorem Device.takeBoardLost_unfrozen {d : Device} (unfrozen : d.mapper.frozen = none) (p : Panel) :
    d.takeBoardLost p = d.onPanel p PanelPress.lost := by
  have up : ((d.onPanel p PanelPress.forcedUp).panel p).pressed = false := by simp [PanelPress.forcedUp]
  unfold Device.takeBoardLost Device.pressChange
  cases pressed : (d.panel p).pressed <;> simp only [up]
  case true =>
    have released : ((d.onPanel p PanelPress.forcedUp).stopStuck p).feeds p = none := Device.feeds_unfrozen unfrozen p
    rw [Device.routeRelease, released, Device.stopStuck, Device.onPanel_onPanel]
    exact Device.onPanel_congr (by simp [PanelPress.lost, pressed, PanelPress.forcedUp])
  case false => exact Device.onPanel_congr (by simp [PanelPress.lost, pressed, PanelPress.forcedUp])

/-- The panels of a device when those of some boards of a stage have lost them (06 R95). -/
def Device.lostPanels (d : Device) (l : Stage) (as : List (Fin 6)) : Vector PanelPress 12 :=
  Vector.ofFn fun p => if p ∈ as.map (panelOf l) then (d.panel p).lost else d.panel p

@[simp] theorem Device.lostPanels_nil (d : Device) (l : Stage) : d.lostPanels l [] = d.press.panels := by
  ext1 k hk
  simp [Device.lostPanels, Device.panel]

theorem Device.takeBoardsLost_unfrozen {d : Device} (unfrozen : d.mapper.frozen = none) (l : Stage)
    (as : List (Fin 6)) :
    as.foldl (fun d a => d.takeBoardLost (panelOf l a)) d
      = { d with press := { d.press with panels := d.lostPanels l as } } := by
  induction as generalizing d with
  | nil => rw [List.foldl_nil, Device.lostPanels_nil]
  | cons a as ih =>
    have next : (d.onPanel (panelOf l a) PanelPress.lost).lostPanels l as = d.lostPanels l (a :: as) := by
      ext1 k hk
      by_cases first : (⟨k, hk⟩ : Panel) = panelOf l a
      · simp [Device.lostPanels, first, PanelPress.lost_lost]
      · simp [Device.lostPanels, first]
    rw [List.foldl_cons, Device.takeBoardLost_unfrozen unfrozen, ih (by exact unfrozen), next]
    rfl

theorem panelOf_inj {l m : Stage} {a b : Fin 6} : panelOf l a = panelOf m b ↔ l = m ∧ a = b := by
  cases l <;> cases m <;> simp [panelOf, Fin.ext_iff] <;> omega

theorem Device.lostPanels_get (d : Device) (l m : Stage) (as : List (Fin 6)) (a : Fin 6) :
    (d.lostPanels l as)[panelOf m a]
      = if l = m ∧ a ∈ as then (d.panel (panelOf m a)).lost else d.panel (panelOf m a) := by
  have among : panelOf m a ∈ as.map (panelOf l) ↔ l = m ∧ a ∈ as := by
    simp only [List.mem_map, panelOf_inj]
    exact ⟨fun ⟨b, hb, same, e⟩ => ⟨same, e ▸ hb⟩, fun ⟨same, ha⟩ => ⟨a, ha, same, rfl⟩⟩
  simp only [Device.lostPanels, Fin.getElem_fin, Vector.getElem_ofFn, Fin.eta, among]

/-! ## Links -/

theorem PerStage.set_set {α : Type} (v : PerStage α) (l : Stage) (a b : α) : (v.set l a).set l b = v.set l b := by
  cases l <;> rfl

/-- A link with new settings, woken where it was silent (05 R77, R82, R83). -/
def Link.setTo (x : Link) (enable : BitVec 6) (replyLimit missLimit : Nat) (level : Fin 6 → Byte) : Link :=
  if x.silent && !(enable == 0) then (x.withSettings enable replyLimit missLimit).chooseInNextRound level
  else x.withSettings enable replyLimit missLimit

/-- A silent link has no board to lose (05 R77). -/
theorem Link.lostTo_silent {x : Link} (silent : x.silent = true) (enable : BitVec 6) : x.lostTo enable = [] := by
  have none_ : x.enable = 0 := by
    simp only [Link.silent, Link.noneEnabled, Bool.and_eq_true, decide_eq_true_eq] at silent
    exact silent.1
  simp [Link.lostTo, none_]

/-- One stage's settings, where no map is frozen (05 R82, R83, 06 R95). -/
theorem Device.setLink_unfrozen {d : Device} (unfrozen : d.mapper.frozen = none) (l : Stage) (enable : BitVec 6)
    (replyLimit missLimit : Nat) :
    d.setLink l enable replyLimit missLimit
      = { d with
          links := d.links.set l ((d.link l).setTo enable replyLimit missLimit (d.boardLevel l))
          press := { d.press with panels := d.lostPanels l ((d.link l).lostTo enable) } } := by
  unfold Device.setLink
  dsimp only
  rw [Device.takeBoardsLost_unfrozen (by exact unfrozen)]
  cases silent : (d.link l).silent with
  | false =>
    simp only [Device.wakeLink, Link.setTo, silent, Bool.false_and, Bool.false_eq_true, if_false]
    rfl
  | true =>
    rw [Link.lostTo_silent silent, Device.lostPanels_nil, Device.lostPanels_nil]
    have enabled : ((d.onLink l fun x => x.withSettings enable replyLimit missLimit).link l).noneEnabled
        = (enable == 0) := by
      rw [Device.link_onLink, if_pos rfl]
      rfl
    change ((d.onLink l fun x => x.withSettings enable replyLimit missLimit).wakeLink l true) = _
    rw [Device.wakeLink, enabled, Link.setTo, silent]
    split
    · simp [Device.onLink, Device.link, PerStage.set_set]
      rfl
    · rfl

/-- The boards of a link with new settings (05 R83). -/
theorem Link.setTo_boards (x : Link) (enable : BitVec 6) (replyLimit missLimit : Nat) (level : Fin 6 → Byte) :
    (x.setTo enable replyLimit missLimit level).enable = enable
      ∧ (x.setTo enable replyLimit missLimit level).replyLimit = replyLimit
      ∧ (x.setTo enable replyLimit missLimit level).missLimit = missLimit
      ∧ (x.setTo enable replyLimit missLimit level).parity = x.parity
      ∧ ∀ a : Fin 6, (x.setTo enable replyLimit missLimit level).boards[a]
          = x.boards[a].enabledTo (x.enable.getLsbD a.val) (enable.getLsbD a.val) := by
  have boards (a : Fin 6) : (x.withSettings enable replyLimit missLimit).boards[a]
      = x.boards[a].enabledTo (x.enable.getLsbD a.val) (enable.getLsbD a.val) := by simp [Link.withSettings]
  unfold Link.setTo
  split
  · unfold Link.chooseInNextRound
    split
    · exact ⟨rfl, rfl, rfl, rfl, boards⟩
    · obtain ⟨last, phase, chosen⟩ := (x.withSettings enable replyLimit missLimit).nextRound.chooseFresh_eq level
      rw [chosen]
      exact ⟨rfl, rfl, rfl, rfl, boards⟩
  · exact ⟨rfl, rfl, rfl, rfl, boards⟩

/-- The first of all numbers that meets a test is the least that does. -/
theorem find_finRange_least {n : Nat} {test : Fin n → Bool} {a : Fin n} (h : (List.finRange n).find? test = some a) :
    test a = true ∧ ∀ b, test b = true → a ≤ b := by
  obtain ⟨met, before, after, split_, failed⟩ := List.find?_eq_some_iff_append.1 h
  refine ⟨met, fun b hb => ?_⟩
  have ordered := (List.sortedLT_finRange n).pairwise
  have among := List.mem_finRange b
  rw [split_] at among ordered
  rcases List.mem_append.1 among with early | late
  · simpa [hb] using failed b early
  · rcases List.mem_cons.1 late with rfl | later
    · exact le_refl _
    · exact (List.rel_of_pairwise_cons (List.pairwise_append.1 ordered).2.1 later).le

theorem Link.silent_iff (x : Link) : x.silent = true ↔ x.enable = 0 ∧ x.phase = .gap := by
  simp [Link.silent, Link.noneEnabled]

/-- A link that is not woken keeps its round (05 R77). -/
theorem Link.setTo_asleep {x : Link} {enable : BitVec 6} (h : x.enable ≠ 0 ∨ x.phase ≠ .gap ∨ enable = 0)
    (replyLimit missLimit : Nat) (level : Fin 6 → Byte) :
    x.setTo enable replyLimit missLimit level = x.withSettings enable replyLimit missLimit := by
  refine if_neg fun woken => ?_
  obtain ⟨silent, enabled⟩ := Bool.and_eq_true_iff.1 woken
  obtain ⟨none_, gap⟩ := x.silent_iff.1 silent
  rcases h with h | h | h
  · exact h none_
  · exact h gap
  · simp [h] at enabled

/-- A silent link that is given boards polls the lowest of them in a new round (05 R76, R77). -/
theorem Link.setTo_woken {x : Link} {enable : BitVec 6} (none_ : x.enable = 0) (gap : x.phase = .gap)
    (enabled : enable ≠ 0) (replyLimit missLimit : Nat) (level : Fin 6 → Byte) :
    ∃ a : Fin 6, enable.getLsbD a.val = true ∧ (∀ b : Fin 6, enable.getLsbD b.val = true → a ≤ b)
      ∧ x.setTo enable replyLimit missLimit level
        = (x.withSettings enable replyLimit missLimit).nextRound.begin_ a (level a) := by
  have due (a : Fin 6) : (x.withSettings enable replyLimit missLimit).nextRound.boardDue a = enable.getLsbD a.val := by
    have board : (x.withSettings enable replyLimit missLimit).nextRound.boards[a]
        = x.boards[a].enabledTo false (enable.getLsbD a.val) := by simp [Link.nextRound, Link.withSettings, none_]
    rw [Link.boardDue, board]
    change (enable.getLsbD a.val && _) = enable.getLsbD a.val
    cases enable.getLsbD a.val <;> rfl
  have next : (x.withSettings enable replyLimit missLimit).nextRound.nextBoard
      = (List.finRange 6).find? fun a => enable.getLsbD a.val := by
    simp only [Link.nextBoard, due]
    simp [Link.nextRound]
  obtain ⟨a, chosen⟩ : ∃ a, (List.finRange 6).find? (fun a => enable.getLsbD a.val) = some a := by
    by_contra nobody
    refine enabled (BitVec.eq_of_getLsbD_eq fun k hk => ?_)
    have absent := List.find?_eq_none.1 (Option.eq_none_iff_forall_ne_some.2 fun a ha => nobody ⟨a, ha⟩) ⟨k, hk⟩
      (List.mem_finRange _)
    simpa using absent
  have awake : x.setTo enable replyLimit missLimit level
      = (x.withSettings enable replyLimit missLimit).nextRound.chooseFresh level := by
    have silent : x.silent = true := x.silent_iff.2 ⟨none_, gap⟩
    have some_ : (x.withSettings enable replyLimit missLimit).noneEnabled = false := decide_eq_false enabled
    have given : (!(enable == 0)) = true := by simpa using enabled
    rw [Link.setTo, silent, given, Bool.and_self, if_pos rfl, Link.chooseInNextRound, some_, if_neg Bool.false_ne_true]
  obtain ⟨lit, least⟩ := find_finRange_least chosen
  refine ⟨a, lit, least, ?_⟩
  rw [awake, Link.chooseFresh, next, chosen]

/-! ## The command -/

/-- A command that passes the port checks, with the device that it leaves named (12 R171). -/
theorem exec_sendable_device {c : Command} {i : Port} {fields : List Byte} {s : State} (hc : c ≠ .softReset)
    (h : Sendable s.device i c fields) :
    ∃ t, exec (instrOf c i fields) s = .next t
      ∧ t.device
        = (handCommand i c fields s.device).2.setResult i 0x01 (handCommand i c fields s.device).1 c.length := by
  refine ⟨_, exec_sendable h, ?_⟩
  rw [leaveResult_eq hc, h.2.2]

theorem Device.lampLevel_congr {d e : Device} {p : Panel} (lamps : e.lamps = d.lamps) (panel : e.panel p = d.panel p) :
    e.lampLevel p = d.lampLevel p := by simp only [Device.lampLevel, lamps, panel]

/-- Both stages' settings, where no map is frozen (05 R82, R83, 06 R95). -/
theorem Device.setLinks_unfrozen {d : Device} (unfrozen : d.mapper.frozen = none) (enable : PerStage (BitVec 6))
    (reply miss : PerStage Nat) :
    ∃ panels, (d.setLink .a enable.a reply.a miss.a).setLink .b enable.b reply.b miss.b = { d with
        links := ⟨(d.link .a).setTo enable.a reply.a miss.a (d.boardLevel .a),
          (d.link .b).setTo enable.b reply.b miss.b (d.boardLevel .b)⟩
        press := { d.press with panels := panels } }
      ∧ ∀ l (a : Fin 6), panels[panelOf l a]
          = if a ∈ (d.link l).lostTo (enable.get l) then (d.panel (panelOf l a)).lost else d.panel (panelOf l a) := by
  obtain ⟨e, he⟩ : ∃ e, e = d.setLink .a enable.a reply.a miss.a := ⟨_, rfl⟩
  have first := he.trans (Device.setLink_unfrozen unfrozen .a enable.a reply.a miss.a)
  have panel (l : Stage) (a : Fin 6) : e.panel (panelOf l a)
      = if l = .a ∧ a ∈ (d.link .a).lostTo enable.a then (d.panel (panelOf l a)).lost else d.panel (panelOf l a) := by
    rw [first, Device.panel, Device.lostPanels_get]
    simp only [eq_comm]
  have level : e.boardLevel .b = d.boardLevel .b := funext fun a =>
    Device.lampLevel_congr (by rw [first]) ((panel .b a).trans (if_neg fun h => nomatch h.1))
  have link : e.link .b = d.link .b := by rw [first]; rfl
  rw [← he, Device.setLink_unfrozen (by rw [first]; exact unfrozen), level, link]
  refine ⟨e.lostPanels .b ((d.link .b).lostTo enable.b), by rw [first]; rfl, fun l a => ?_⟩
  rw [Device.lostPanels_get, panel]
  cases l with
  | a => by_cases lost : a ∈ (d.link .a).lostTo enable.a <;> simp [lost]
  | b => by_cases lost : a ∈ (d.link .b).lostTo enable.b <;> simp [lost]

/-- The data bytes of a SET_STAGE (05 R82). -/
def stageFields (enable reply miss : PerStage Byte) (offset : PerStage (BitVec 32)) : List Byte :=
  [enable.a] ++ bytesOf 4 offset.a.toNat ++ [reply.a, miss.a] ++ [enable.b] ++ bytesOf 4 offset.b.toNat
    ++ [reply.b, miss.b]

/-- The fields of a SET_STAGE read back (05 R82). -/
theorem stageFields_read (enable reply miss : PerStage Byte) (offset : PerStage (BitVec 32)) :
    (u8 (stageFields enable reply miss offset) 0 = enable.a.toNat
        ∧ s32 (stageFields enable reply miss offset) 1 = offset.a.toInt
        ∧ u8 (stageFields enable reply miss offset) 5 = reply.a.toNat
        ∧ u8 (stageFields enable reply miss offset) 6 = miss.a.toNat)
      ∧ u8 (stageFields enable reply miss offset) 7 = enable.b.toNat
        ∧ s32 (stageFields enable reply miss offset) 8 = offset.b.toInt
        ∧ u8 (stageFields enable reply miss offset) 12 = reply.b.toNat
        ∧ u8 (stageFields enable reply miss offset) 13 = miss.b.toNat := by
  have offsetA := s32_field offset.a [enable.a]
    ([reply.a, miss.a] ++ [enable.b] ++ bytesOf 4 offset.b.toNat ++ [reply.b, miss.b]) 1 rfl
  have offsetB := s32_field offset.b ([enable.a] ++ bytesOf 4 offset.a.toNat ++ [reply.a, miss.a] ++ [enable.b])
    [reply.b, miss.b] 8 rfl
  simp only [List.append_assoc] at offsetA offsetB
  unfold stageFields
  simp only [List.append_assoc, offsetA, offsetB]
  exact ⟨⟨rfl, trivial, rfl, rfl⟩, rfl, trivial, rfl, rfl⟩

/-- SET_STAGE in IDLE, its fields as the clock and the links read them (02 R18, 05 R82). -/
theorem setStage_fields {d : Device} (idle : d.session.state = .idle) (enable reply miss : PerStage Byte)
    (offset : PerStage (BitVec 32)) :
    setStage (stageFields enable reply miss offset) d
      = if 64 ≤ enable.a.toNat ∨ 64 ≤ enable.b.toNat then (.badValue, d)
        else (.done, (({ d with clock := { d.clock with offsets :=
            ⟨max (-200000) (min 200000 offset.a.toInt), max (-200000) (min 200000 offset.b.toInt)⟩ } } : Device).setLink
              .a (enable.a.setWidth 6) (max 17 (min reply.a.toNat 60)) (max 1 (min miss.a.toNat 15))).setLink
              .b (enable.b.setWidth 6) (max 17 (min reply.b.toNat 60)) (max 1 (min miss.b.toNat 15))) := by
  obtain ⟨⟨enableA, offsetA, replyA, missA⟩, enableB, offsetB, replyB, missB⟩ :=
    stageFields_read enable reply miss offset
  simp only [setStage, idle, ne_eq, not_true_eq_false, if_false, enableA, offsetA, replyA, missA, enableB, offsetB,
    replyB, missB, BitVec.ofNat_toNat, clampNat, clampInt, min_comm]

/-- The board enables of a mask of six bits (05 R82). -/
theorem enable_bits {enable : Byte} (fits : enable.toNat < 64) :
    (∀ a : Fin 6, (enable.setWidth 6).getLsbD a.val = enable.getLsbD a.val)
      ∧ (enable.setWidth 6 = 0 ↔ enable.toNat = 0) := by
  refine ⟨fun a => by simp, fun h => ?_, fun h => ?_⟩
  · have := congrArg BitVec.toNat h
    simpa [BitVec.toNat_setWidth, Nat.mod_eq_of_lt fits] using this
  · rw [BitVec.eq_of_toNat_eq (x := enable) (y := 0) h]
    rfl

/-- The boards that a new mask takes from ONLINE or DEGRADED (05 R81, R83). -/
theorem Link.mem_lostTo (x : Link) (enable : BitVec 6) (a : Fin 6) :
    a ∈ x.lostTo enable ↔ x.enable.getLsbD a.val = true ∧ enable.getLsbD a.val = false
      ∧ (x.boards[a].state = .online ∨ x.boards[a].state = .degraded) := by
  have answering (state : BoardState) : state.answering = true ↔ state = .online ∨ state = .degraded := by
    cases state <;> simp [BoardState.answering]
  simp only [Link.lostTo, List.mem_filter, List.mem_finRange, true_and, Bool.and_eq_true, Bool.not_eq_true', answering,
    and_assoc]

/-- A panel that has lost its board is released, with no sensor active (06 R95). -/
theorem PanelPress.lost_eq (x : PanelPress) :
    x.lost = { x with
        sensors := x.lost.sensors, pressed := false, stuckSince := if x.pressed then none else x.stuckSince }
      ∧ ∀ k : Fin 4, x.lost.sensors[k] = { x.sensors[k] with active := false } :=
  ⟨rfl, fun _ => vecMap_get ..⟩

end Sys2Proof.Machine

section
open Sys2Proof.Machine Sys2Proof.Safety

/-- Settles O10. -/
theorem setStageEffect : Obligations.SetStageEffect := by
  intro s i enable reply miss offset fields spelled sendable idle unfrozen
  obtain rfl : fields = stageFields enable reply miss offset := spelled
  obtain ⟨t, answer, device⟩ := exec_sendable_device (by decide) sendable
  rw [handCommand, setStage_fields idle] at device
  refine ⟨t, answer, fun fits => ?_, fun ⟨l, big⟩ => ?_⟩
  · have known : ¬(64 ≤ enable.a.toNat ∨ 64 ≤ enable.b.toNat) :=
      not_or.2 ⟨Nat.not_le.2 (fits .a), Nat.not_le.2 (fits .b)⟩
    obtain ⟨panels, links, panel⟩ := Device.setLinks_unfrozen
      (d := { s.device with clock := { s.device.clock with offsets :=
        ⟨max (-200000) (min 200000 offset.a.toInt), max (-200000) (min 200000 offset.b.toInt)⟩ } }) (by exact unfrozen)
      ⟨enable.a.setWidth 6, enable.b.setWidth 6⟩ ⟨max 17 (min reply.a.toNat 60), max 17 (min reply.b.toNat 60)⟩
      ⟨max 1 (min miss.a.toNat 15), max 1 (min miss.b.toNat 15)⟩
    simp only [if_neg known] at device
    rw [links] at device
    refine ⟨by rw [device]; rfl, by rw [device]; exact Device.setResult_ports _ _ _ _ _ rfl (by decide), ?_⟩
    have bits (l : Sys2Proof.Stage) := enable_bits (fits l)
    have link (l : Sys2Proof.Stage) : t.device.link l = (s.device.link l).setTo ((enable.get l).setWidth 6)
        (max 17 (min (reply.get l).toNat 60)) (max 1 (min (miss.get l).toNat 15)) (s.device.boardLevel l) := by
      rw [device]
      cases l <;> rfl
    have offsets (l : Sys2Proof.Stage) :
        t.device.clock.offsets.get l = max (-200000) (min 200000 (offset.get l).toInt) := by
      rw [device]
      cases l <;> rfl
    have moved (l : Sys2Proof.Stage) (a : Fin 6) : t.device.panel (panelOf l a)
        = if a ∈ (s.device.link l).lostTo ((enable.get l).setWidth 6) then (s.device.panel (panelOf l a)).lost
          else s.device.panel (panelOf l a) := by
      rw [device]
      refine (panel l a).trans ?_
      cases l <;> rfl
    refine ⟨fun l => ?_, fun l none_ gap given => ?_, fun l asleep => ?_, fun l a was now state => ?_,
      fun l a kept => ?_⟩
    · obtain ⟨mask, replyLimit, missLimit, parity, boards⟩ := (s.device.link l).setTo_boards ((enable.get l).setWidth 6)
        (max 17 (min (reply.get l).toNat 60)) (max 1 (min (miss.get l).toNat 15)) (s.device.boardLevel l)
      rw [link]
      refine ⟨offsets l, mask, replyLimit, missLimit, parity, fun a => ?_⟩
      rw [boards, (bits l).1, Board.enabledTo]
      split
      · rfl
      · split <;> rfl
    · obtain ⟨a, lit, least, woken⟩ := Link.setTo_woken none_ gap (fun h => given ((bits l).2.1 h))
        (max 17 (min (reply.get l).toNat 60)) (max 1 (min (miss.get l).toNat 15)) (s.device.boardLevel l)
      rw [(bits l).1] at lit
      have lowest (b : Fin 6) (hb : (enable.get l).getLsbD b.val = true) := least b (((bits l).1 b).trans hb)
      rw [link, woken]
      exact ⟨rfl, a, lit, lowest, rfl, rfl⟩
    · have same : (enable.get l).setWidth 6 = 0 ↔ (enable.get l).toNat = 0 := (bits l).2
      rw [link, Link.setTo_asleep (asleep.imp_right (Or.imp_right same.2))]
      refine ⟨rfl, rfl, ?_⟩
      simp only [Link.withSettings]
      cases phase : (s.device.link l).phase with
      | gap => rfl
      | emptyRound => simp only [LinkPhase.afterEnable, same]
      | sending a level void => simp only [LinkPhase.afterEnable, (bits l).1]
      | transaction a level limit void => simp only [LinkPhase.afterEnable, (bits l).1]
    · have among := ((s.device.link l).mem_lostTo ((enable.get l).setWidth 6) a).2
        ⟨was, ((bits l).1 a).trans now, state⟩
      rw [moved, if_pos among]
      exact PanelPress.lost_eq _
    · refine (moved l a).trans (if_neg fun among => ?_)
      obtain ⟨was, now, state⟩ := ((s.device.link l).mem_lostTo _ a).1 among
      rw [(bits l).1] at now
      rcases kept with h | h | ⟨online, degraded⟩
      · rw [h] at was; cases was
      · rw [h] at now; cases now
      · exact state.elim online degraded
  · have bad : 64 ≤ enable.a.toNat ∨ 64 ≤ enable.b.toNat := by
      cases l with
      | a => exact .inl big
      | b => exact .inr big
    rw [device, if_pos bad]
    exact ⟨Device.setResult_only .., Device.setResult_answered _ _ _ _ (by decide)⟩

end
end

