-- ==== Sys2Proof/Proofs/TrackerSteps.lean ====
section
/-!
What the lane events of a position report, with the retries between them, can do to a player's tracker: nothing, but for
a stalled offer that is made again.
-/
namespace Sys2Proof.Machine
open Sys2Proof.Safety

/-! ## Notices stay -/

theorem onlyRaised_examineEnd (d : Device) : OnlyRaised d d.examineEnd := by
  rcases d.examineEnd_cases with ⟨-, -, -, e⟩ | ⟨-, e⟩ <;> rw [e]
  · exact (onlyRaised_appendRecord d (markRecord .ended .p1)).trans (onlyRaised_raise _ _)
  · exact onlyRaised_of_ports rfl

theorem onlyRaised_leavePlay (d : Device) (p : Player) (x : PlayerState) (k : MarkKind) :
    OnlyRaised d (d.leavePlay p x k) := by
  have marked : OnlyRaised d ((d.setPlayer p x).mark k p) :=
    (onlyRaised_of_ports rfl).trans (onlyRaised_appendRecord _ (markRecord k p))
  exact (marked.trans (onlyRaised_raise _ _)).trans (onlyRaised_examineEnd _)

/-- No event of the part takes a notice out of a set (12 R174). -/
theorem Move.holds {d e : Device} (h : Move d e) {j : Port} {k : Notice} (held : Holds d j k) : Holds e j k := by
  cases h with
  | quiet _ _ ports => exact (onlyRaised_of_ports ports).holds held
  | raise l => exact (onlyRaised_raise d l).holds held
  | append x => exact (onlyRaised_appendRecord d x).holds held
  | header =>
    unfold Holds Device.takeReadHeader
    rw [Device.port_onPort]
    split <;> exact held
  | done p =>
    rcases d.examineDone_cases p with ⟨-, e⟩ | ⟨-, e⟩ <;> rw [e]
    · exact (onlyRaised_leavePlay d p .cleared .cleared).holds held
    · exact held
  | report p =>
    rcases d.takeReport_cases p with ⟨-, e⟩ | ⟨-, e⟩ <;> rw [e]
    · have emptied : OnlyRaised d (((d.setPlayer p .failed).emptyLanes p).onDecoder p Decoder.discarded) :=
        onlyRaised_of_ports rfl
      exact (((emptied.trans (onlyRaised_appendRecord _ (markRecord .failed p))).trans (onlyRaised_raise _ _)).trans
        (onlyRaised_examineEnd _)).holds held
    · exact held

theorem Moves.holds {d e : Device} (h : Moves d e) {j : Port} {k : Notice} (held : Holds d j k) : Holds e j k :=
  h.keeps (P := fun x => Holds x j k) (fun _ _ hm before => hm.holds before) held

/-! ## Steps of a tracker -/

/-- A decoder that no offer leaves: one that is stalled on the map waits on, with the same entry in hand, or is in
DISCARD, and no other comes to wait for the map. -/
structure Waits (x y : Decoder) : Prop where
  stays   : x.state = .stalledTempo → y.state = .discard ∨ y.state = .stalledTempo ∧ y.inHand = x.inHand
  noneNew : y.state = .stalledTempo → x.state = .stalledTempo
  discard : x.state = .discard → y.state = .discard

theorem Waits.of_same {x y : Decoder} (state : y.state = x.state) (inHand : y.inHand = x.inHand) : Waits x y :=
  ⟨fun h => .inr ⟨state.trans h, inHand⟩, fun h => state.symm.trans h, fun h => state.trans h⟩

theorem Waits.of_discard {x y : Decoder} (h : y.state = .discard) : Waits x y :=
  ⟨fun _ => .inl h, fun stalled => (nomatch h.symm.trans stalled), fun _ => h⟩

theorem Waits.of_lane {x y : Decoder} (lane : x.state = .stalledLane) (h : y.state ≠ .stalledTempo) : Waits x y :=
  ⟨fun stalled => (nomatch lane.symm.trans stalled), fun stalled => absurd stalled h,
    fun gone => (nomatch lane.symm.trans gone)⟩

theorem Waits.discarded (c : Decoder) : Waits c c.discarded := by
  unfold Decoder.discarded
  split
  · exact .of_same rfl rfl
  · exact .of_discard rfl

theorem Waits.trans {x y z : Decoder} (h : Waits x y) (k : Waits y z) : Waits x z where
  stays stalled := by
    rcases h.stays stalled with discard | ⟨still, inHand⟩
    · exact .inl (k.discard discard)
    · exact (k.stays still).imp_right fun ⟨state, same⟩ => ⟨state, same.trans inHand⟩
  noneNew stalled := h.noneNew (k.noneNew stalled)
  discard gone := k.discard (h.discard gone)

/-- A player's stalled offer has been made again, and its tracker has followed song time through it (02 R28, 04 R62). -/
def Retried (p : Player) (d e : Device) : Prop :=
  (d.decoder p).state = .stalledTempo ∧ (e.decoder p).state ≠ .stalledTempo
    ∧ ∃ size g, (d.decoder p).inHand = some { size := size, task := .offer g }
      ∧ e.tracker p = ({ d.tracker p with map := (d.tracker p).map ++ [g] } : Tracker).following d.clock.songTime
          (d.playerState p)

/-- A step of a player's tracker in a song that runs: none, or a retried offer. -/
structure TrackerStep (p : Player) (d e : Device) : Prop where
  runs  : e.songRuns = d.songRuns
  time  : e.clock.songTime = d.clock.songTime
  off   : e.playerState p = .off ↔ d.playerState p = .off
  moved : d.songRuns = true → e.tracker p = d.tracker p ∧ Waits (d.decoder p) (e.decoder p) ∨ Retried p d e

theorem Tracker.following_congr {x y : PlayerState} (h : x = .off ↔ y = .off) (k : Tracker) (songTime : Int) :
    k.following songTime x = k.following songTime y := by simp only [Tracker.following, h]

theorem TrackerStep.of_waits {p : Player} {d e : Device} (runs : e.songRuns = d.songRuns) (clock : e.clock = d.clock)
    (off : e.playerState p = .off ↔ d.playerState p = .off) (waits : Waits (d.decoder p) (e.decoder p)) :
    TrackerStep p d e :=
  ⟨runs, by rw [clock], off, fun _ => .inl ⟨by rw [Device.tracker, clock]; rfl, waits⟩⟩

theorem TrackerStep.refl (p : Player) (d : Device) : TrackerStep p d d := .of_waits rfl rfl .rfl (.of_same rfl rfl)

theorem TrackerStep.trans {p : Player} {d e g : Device} (h : TrackerStep p d e) (k : TrackerStep p e g) :
    TrackerStep p d g where
  runs := k.runs.trans h.runs
  time := k.time.trans h.time
  off := k.off.trans h.off
  moved running := by
    rcases h.moved running, k.moved (h.runs.trans running) with
      ⟨⟨tracker, waits⟩ | ⟨stalled, going, size, x, inHand, followed⟩,
        ⟨tracker', waits'⟩ | ⟨stalled', going', size', x', inHand', followed'⟩⟩
    · exact .inl ⟨tracker'.trans tracker, waits.trans waits'⟩
    · have stalled := waits.noneNew stalled'
      rcases waits.stays stalled with discard | ⟨-, same⟩
      · rw [stalled'] at discard
        cases discard
      · refine .inr ⟨stalled, going', size', x', same.symm.trans inHand', ?_⟩
        rw [followed', tracker, h.time, Tracker.following_congr h.off]
    · exact .inr ⟨stalled, fun again => going (waits'.noneNew again), size, x, inHand, tracker'.trans followed⟩
    · exact absurd stalled' going

/-- No event at the judge takes a player out of a song or into one (01 R9). -/
theorem LaneUpdate.off {d e : Device} (h : LaneUpdate d e) (p : Player) :
    e.playerState p = .off ↔ d.playerState p = .off := by
  cases h with
  | leave q x playing hx =>
    rw [Device.playerState_setPlayer]
    split
    · rename_i same
      simp [same, playing, hx]
    · exact .rfl
  | outcome q o =>
    unfold Device.takeOutcome
    split <;> exact .rfl
  | lane | empty | append | ended | discard | aside => exact .rfl

theorem LaneUpdate.waits {d e : Device} (h : LaneUpdate d e) (p : Player) : Waits (d.decoder p) (e.decoder p) := by
  cases h with
  | discard q =>
    rw [Device.decoder_onDecoder]
    split
    · rename_i same
      exact same ▸ .discarded _
    · exact .of_same rfl rfl
  | outcome q o =>
    unfold Device.takeOutcome
    split <;> exact .of_same rfl rfl
  | lane | empty | append | leave | ended | aside => exact .of_same rfl rfl

theorem WorkUpdate.off {q : Player} {d e : Device} (h : WorkUpdate q d e) (p : Player) :
    e.playerState p = .off ↔ d.playerState p = .off := by
  cases h with
  | judge h => exact h.off p
  | append | units | decoder => exact .rfl

theorem WorkUpdate.waits {q : Player} {d e : Device} (h : WorkUpdate q d e) (p : Player) :
    Waits (d.decoder p) (e.decoder p) := by
  cases h with
  | judge h => exact h.waits p
  | append | units => exact .of_same rfl rfl
  | decoder f hf =>
    rw [Device.decoder_onDecoder]
    split
    · rename_i same
      obtain ⟨state, inHand, -⟩ := hf (d.decoder q)
      rw [same]
      exact .of_same state inHand
    · exact .of_same rfl rfl

/-- What the work of an entry in hand leaves of the clock, of who is in the song, and of stalls on the map. -/
theorem WorkUpdates.kept {q : Player} {d e : Device} (h : WorkUpdates q d e) (p : Player) :
    e.clock = d.clock ∧ (e.playerState p = .off ↔ d.playerState p = .off) ∧ Waits (d.decoder p) (e.decoder p) := by
  induction h with
  | refl => exact ⟨rfl, .rfl, .of_same rfl rfl⟩
  | tail _ hm ih =>
    obtain ⟨clock, off, waits⟩ := ih
    exact ⟨hm.clock.trans clock, (hm.off p).trans off, waits.trans (hm.waits p)⟩

theorem LaneUpdates.trackerStep (p : Player) {d e : Device} (h : LaneUpdates d e) : TrackerStep p d e :=
  have ⟨clock, off, waits⟩ := (h.work .p1).kept p
  .of_waits h.all.songRuns clock off waits

/-! ## Retries -/

/-- Where a stalled decoder's retry would be accepted: it waits for a lane, or for the map (04 R62). -/
theorem Device.stallFree_cases {d : Device} {p : Player} (h : d.stallFree p = true) :
    ((d.decoder p).state = .stalledLane
        ∧ ∃ size work, (d.decoder p).inHand = some { size := size, task := .notes work })
      ∨ (d.decoder p).state = .stalledTempo ∧ d.mapHasRoom p = true
        ∧ ∃ size g, (d.decoder p).inHand = some { size := size, task := .offer g } := by
  unfold Device.stallFree at h
  split at h
  · rename_i state inHand
    exact .inl ⟨state, _, _, inHand⟩
  · rename_i state inHand
    exact .inr ⟨state, h, _, _, inHand⟩
  · cases h

theorem Device.onDecoder_id (d : Device) (p : Player) : d.onDecoder p id = d :=
  congrArg (fun x : PerPlayer Decoder => { d with decoders := x }) (PerPlayer.set_get d.decoders p)

/-- A retry on a lane goes on with the work, and no decoder comes to wait for the map (04 R62). -/
theorem TrackerStep.runWork (p q : Player) (ws : List Work) {d : Device} (state : (d.decoder q).state = .stalledLane) :
    TrackerStep p d (runWork q ws (d.onDecoder q fun c => { c with state := .decoding })) := by
  obtain ⟨e, work, ends⟩ := runWork_cases (d.onDecoder q fun c => { c with state := .decoding }) q ws
  obtain ⟨clock, off, waits⟩ := work.kept p
  have going : (e.decoder q).state ≠ .stalledTempo := fun stalled => by
    have before := (work.kept q).2.2.noneNew stalled
    simp at before
  have ended : ∃ f : Decoder → Decoder, Machine.runWork q ws (d.onDecoder q fun c => { c with state := .decoding })
        = e.onDecoder q f ∧ (f (e.decoder q)).state ≠ .stalledTempo := by
    rcases ends with ⟨-, eq⟩ | ⟨-, eq⟩ | ⟨task, eq⟩
    · exact ⟨id, eq.trans (e.onDecoder_id q).symm, going⟩
    · exact ⟨_, eq, going⟩
    · exact ⟨_, eq, nofun⟩
  obtain ⟨f, eq, noStall⟩ := ended
  rw [eq]
  refine .of_waits work.all.songRuns clock off ?_
  rw [Device.decoder_onDecoder]
  split
  · rename_i same
    exact .of_lane (same ▸ state) noStall
  · rename_i other
    rwa [Device.decoder_onDecoder, if_neg other] at waits

/-- The advance of one player's tracker leaves the rest of a song alone (02 R28). -/
theorem Device.advanceTracker_other (d : Device) (q : Player) :
    (d.advanceTracker q).session = d.session ∧ (d.advanceTracker q).decoders = d.decoders
      ∧ (d.advanceTracker q).clock.songTime = d.clock.songTime
      ∧ ∀ p, p ≠ q → (d.advanceTracker q).tracker p = d.tracker p := by
  cases runs : d.songRuns with
  | false =>
    rw [Device.advanceTracker_stopped q runs]
    exact ⟨rfl, rfl, rfl, fun _ _ => rfl⟩
  | true =>
    obtain ⟨only, -⟩ := d.advanceTracker_spec q runs
    rw [only]
    refine ⟨rfl, rfl, rfl, fun p other => ?_⟩
    simp [Device.tracker, other]

/-- A retried offer follows song time through the map (02 R28, 04 R62). -/
theorem TrackerStep.resumeOffer (p q : Player) {d : Device} {size : Nat} {g : Segment}
    (state : (d.decoder q).state = .stalledTempo)
    (inHand : (d.decoder q).inHand = some { size := size, task := .offer g }) :
    TrackerStep p d ((d.resumeOffer q g).advanceTracker q) := by
  obtain ⟨session, decoders, time, others⟩ := (d.resumeOffer q g).advanceTracker_other q
  have off : ((d.resumeOffer q g).advanceTracker q).playerState p = d.playerState p :=
    congrArg (fun x : Session => x.players.get p) session
  refine ⟨congrArg (fun x : Session => (x.state = .run || x.state = .ended : Bool)) session, time, by rw [off],
    fun runs => ?_⟩
  by_cases own : p = q
  · subst own
    refine .inr ⟨state, ?_, size, g, inHand, ?_⟩
    · rw [Device.decoder, decoders, Device.resumeOffer_eq g inHand]
      simp
    · obtain ⟨-, following, -⟩ := (d.resumeOffer p g).advanceTracker_spec p runs
      rw [following, Device.resumeOffer_tracker]
      rfl
  · refine .inl ⟨?_, ?_⟩
    · rw [others p own, Device.resumeOffer_eq g inHand, Device.tracker_onTracker, if_neg own]
      rfl
    · have kept : ((d.resumeOffer q g).advanceTracker q).decoder p = d.decoder p := by
        rw [Device.decoder, decoders, Device.resumeOffer_eq g inHand]
        simp [own, Device.decoder]
      rw [kept]
      exact .of_same rfl rfl

theorem TrackerStep.releaseStall (p : Player) (d : Device) (q : Player) : TrackerStep p d (d.releaseStall q) := by
  by_cases free : d.stallFree q = true
  · rcases Device.stallFree_cases free with ⟨state, size, work, inHand⟩ | ⟨state, room, size, g, inHand⟩
    · have released : d.releaseStall q
          = Machine.runWork q work (d.onDecoder q fun c => { c with state := .decoding }) := by
        simp only [Device.releaseStall, free, inHand, if_true]
      rw [released]
      exact .runWork p q work state
    · rw [Device.releaseStall_offer state inHand, if_pos room]
      exact .resumeOffer p q state inHand
  · have kept : d.releaseStall q = d := if_neg free
    rw [kept]
    exact .refl p d

/-- The lane events of a position report, with the retries between them (04 R62, 08 R118). -/
theorem TrackerStep.settleLanes (p : Player) (d : Device) : TrackerStep p d d.settleLanes :=
  settle_induct _ (TrackerStep p) (.refl p) .trans (fun e => (LaneUpdates.countChoice e).trackerStep p)
    (fun e => (LaneUpdates.headersMayFall e).trackerStep p)
    (fun _ e x hx _ => by
      rcases Device.mem_dueLaneWork _ hx with ⟨q, rfl, -⟩ | ⟨⟨k, q, rfl⟩, -⟩
      · exact .releaseStall p e q
      · exact (LaneUpdates.takeLaneEvent e q k).trackerStep p) _ d

/-! ## Maps followed twice -/

/-- A list whose front has left, with an entry put behind it, loses in front what the whole list loses. -/
theorem dropWhile_dropWhile_append {α : Type} (f : α → Bool) (xs : List α) (g last : α) :
    ((xs.dropWhile f ++ [g]).takeWhile f).getLast?.getD ((xs.takeWhile f).getLast?.getD last)
        = ((xs ++ [g]).takeWhile f).getLast?.getD last
      ∧ (xs.dropWhile f ++ [g]).dropWhile f = (xs ++ [g]).dropWhile f := by
  induction xs generalizing last with
  | nil => exact ⟨rfl, rfl⟩
  | cons x xs ih =>
    cases passes : f x with
    | true => simpa [passes, List.getLast?_cons] using ih x
    | false => simp [passes]

/-- What leaves a map at once leaves it in two steps (02 R28). -/
theorem Tracker.advanced_append (k : Tracker) (g : Segment) (songTime : Int) :
    ({ k.advanced songTime with map := (k.advanced songTime).map ++ [g] } : Tracker).advanced songTime
      = ({ k with map := k.map ++ [g] } : Tracker).advanced songTime := by
  have advanced (x : Tracker) : x.advanced songTime = { x with
      segment := ((x.map.takeWhile (reachedBy songTime)).getLast?).getD x.segment
      map := x.map.dropWhile (reachedBy songTime) } := by rw [← Tracker.advanced_map]; rfl
  simp only [advanced]
  obtain ⟨segment, map⟩ := dropWhile_dropWhile_append (reachedBy songTime) k.map g k.segment
  simp only [segment, map]

/-- A tracker that has followed song time, takes an entry and follows it again, follows it once through all (02 R28). -/
theorem Tracker.following_append (k : Tracker) (g : Segment) (songTime : Int) (state : PlayerState) :
    ({ k.following songTime state with map := (k.following songTime state).map ++ [g] } : Tracker).following songTime
        state
      = ({ k with map := k.map ++ [g] } : Tracker).following songTime state := by
  have same := k.advanced_append g songTime
  by_cases off : state = .off
  · subst off
    exact same
  · simp only [Tracker.following, off, if_false]
    rw [← same]
    rfl

end Sys2Proof.Machine
end

