-- ==== Sys2Proof/Proofs/PositionReports.lean ====
section
/-!
Position reports (O18): the checks, the correction of the clock with its notice, and what follows it in the same step.
-/
namespace Sys2Proof.Machine
open Sys2Proof.Safety

/-! ## The correction table -/

section
variable {c : Clock} {slew jump : Nat} {e : Int}

/-- An error of 0 or above raises song time (02 R23). -/
theorem Clock.corrected_rise (h : 0 ≤ e) (free : c.stall = none) (limit : c.songTime ≤ 2147483647) :
    (c.corrected (correctionFor slew jump e)).stall = none
      ∧ (c.corrected (correctionFor slew jump e)).songTime
        = min (c.songTime + if (slew : Int) < e ∧ e ≤ jump then (slew : Int) else e) 2147483647 := by
  by_cases zero : e = 0
  · have kept : correctionFor slew jump e = .nothing := if_pos zero
    rw [kept, zero]
    refine ⟨free, ?_⟩
    have noSlew : ¬((slew : Int) < 0 ∧ (0 : Int) ≤ jump) := by omega
    rw [if_neg noSlew, add_zero]
    exact (min_eq_left limit).symm
  · have positive : 0 < e := by omega
    unfold correctionFor
    rw [if_neg zero, if_pos positive]
    by_cases small : e ≤ slew
    · rw [if_pos small, if_neg fun large => absurd large.1 (not_lt.2 small)]
      exact ⟨free, rfl⟩
    · by_cases within : e ≤ jump
      · rw [if_neg small, if_pos within, if_pos ⟨not_le.1 small, within⟩]
        exact ⟨free, rfl⟩
      · rw [if_neg small, if_neg within, if_neg fun large => within large.2]
        exact ⟨free, rfl⟩

/-- An error below 0 stalls song time (02 R23). -/
theorem Clock.corrected_stall (h : e < 0) (free : c.stall = none) :
    (c.corrected (correctionFor slew jump e)).songTime = c.songTime
      ∧ (c.corrected (correctionFor slew jump e)).stall
        = startStall (if -(slew : Int) ≤ e then e.natAbs else if -(jump : Int) ≤ e then slew else min e.natAbs 1000000)
            none := by
  unfold correctionFor
  rw [if_neg (by omega), if_neg (by omega)]
  split_ifs
  all_goals exact ⟨rfl, by rw [← free]; rfl⟩

/-- An error within JUMP is a correction (02 R23). -/
theorem correctionFor_corrected (h : e ≠ 0) (small : e.natAbs ≤ jump) :
    (correctionFor slew jump e).notice = some .corrected := by
  unfold correctionFor
  rw [if_neg h]
  split_ifs
  · rfl
  · rfl
  · omega
  · rfl
  · rfl
  · omega

/-- An error beyond JUMP is a jump (02 R23). -/
theorem correctionFor_jumped (ordered : slew ≤ jump) (large : jump < e.natAbs) :
    (correctionFor slew jump e).notice = some .jumped := by
  have nonzero : e ≠ 0 := by omega
  unfold correctionFor
  rw [if_neg nonzero]
  split_ifs
  · omega
  · omega
  · rfl
  · omega
  · omega
  · rfl

end

/-! ## A correction with what follows it -/

/-- A position report's correction of the clock, with its notice, before the trackers follow (02 R21, R23). -/
def Device.correctClock (d : Device) (x : Capture) (reported : Int) : Device :=
  match (correctionFor d.clock.slew d.clock.jump (reported - x.time)).notice with
  | none => { d with clock := d.clock.corrected (correctionFor d.clock.slew d.clock.jump (reported - x.time)) }
  | some n =>
    ({ d with clock := d.clock.corrected (correctionFor d.clock.slew d.clock.jump (reported - x.time)) } : Device).raise
      n

theorem Device.correct_eq (d : Device) (x : Capture) (reported : Int) :
    d.correct x reported = ((d.correctClock x reported).advanceTracker .p1).advanceTracker .p2 := rfl

/-- A correction writes the clock and raises its notice (02 R23). -/
theorem Device.correctClock_eq (d : Device) (x : Capture) (reported : Int) :
    d.correctClock x reported = { d with
        clock := d.clock.corrected (correctionFor d.clock.slew d.clock.jump (reported - x.time))
        ports := (d.correctClock x reported).ports }
      ∧ (∀ j : Port, ((d.correctClock x reported).port j).result = (d.port j).result)
      ∧ ∀ n, (correctionFor d.clock.slew d.clock.jump (reported - x.time)).notice = some n →
          ∀ j, Holds (d.correctClock x reported) j n := by
  unfold Device.correctClock
  split
  · rename_i silent
    exact ⟨rfl, fun _ => rfl, fun n h => (nomatch silent.symm.trans h)⟩
  · rename_i k noticed
    refine ⟨rfl, fun j => by rw [Device.port_raise]; rfl, fun n h j => ?_⟩
    obtain rfl : k = n := Option.some.inj (noticed.symm.trans h)
    exact holds_raise _ _ j

theorem Clock.corrected_eq (c : Clock) (k : Correction) :
    c.corrected k
      = { c with songTime := (c.corrected k).songTime, stall := (c.corrected k).stall, captures := [] } := by
  cases k <;> rfl

/-- Both trackers have followed song time (02 R28, R29). -/
theorem Device.advanceTrackers_spec {d : Device} (runs : d.songRuns = true) (p : Player) :
    ((d.advanceTracker .p1).advanceTracker .p2).tracker p
      = (d.tracker p).following d.clock.songTime (d.playerState p) := by
  obtain ⟨session, -, time, others⟩ := d.advanceTracker_other .p1
  have still : (d.advanceTracker .p1).songRuns = true := by rw [Device.songRuns, session]; exact runs
  cases p with
  | p1 =>
    rw [((d.advanceTracker .p1).advanceTracker_other .p2).2.2.2 .p1 (by decide)]
    exact (d.advanceTracker_spec .p1 runs).2.1
  | p2 =>
    rw [((d.advanceTracker .p1).advanceTracker_spec .p2 still).2.1, others .p2 (by decide), time, Device.playerState,
      Device.playerState, session]

/-- What a tracker holds that has followed song time (02 R28, R29). -/
theorem Tracker.following_holds (k : Tracker) (songTime : Int) (state : PlayerState) :
    (k.following songTime state).map = k.map.dropWhile (reachedBy songTime)
      ∧ (k.following songTime state).segment = ((k.map.takeWhile (reachedBy songTime)).getLast?).getD k.segment
      ∧ (state ≠ .off → (k.following songTime state).beatIndex
          = (k.following songTime state).segment.beatRow songTime / 48) :=
  ⟨k.advanced_map songTime, rfl, fun inPlay => if_neg inPlay⟩

/-- A tracker after a report: it has followed song time through its map, with a retried offer at the back of it (02 R28,
04 R54, R62; notes/assumptions 39). -/
theorem Device.report_tracker {d g : Device} {x : Capture} {reported : Int} {p : Player} (runs : d.songRuns = true)
    (step : TrackerStep p (d.correct x reported) g) :
    ∃ entries, (entries = (d.tracker p).map
          ∧ ((d.decoder p).state = .stalledTempo → (g.decoder p).state ≠ .decoding)
        ∨ (d.decoder p).state = .stalledTempo ∧ (g.decoder p).state ≠ .stalledTempo
          ∧ ∃ size s, (d.decoder p).inHand = some { size := size, task := .offer s }
            ∧ entries = (d.tracker p).map ++ [s])
      ∧ g.tracker p = ({ d.tracker p with map := entries } : Tracker).following g.clock.songTime (d.playerState p) := by
  obtain ⟨eq, -⟩ := d.correctClock_eq x reported
  obtain ⟨e, he⟩ : ∃ e, e = d.correctClock x reported := ⟨_, rfl⟩
  rw [← he] at eq
  have session : e.session = d.session := by rw [eq]
  have decoders : e.decoders = d.decoders := by rw [eq]
  have tracker : e.tracker p = d.tracker p := by
    rw [eq, Device.tracker, Clock.corrected_eq]
    rfl
  have going : e.songRuns = true := by rw [Device.songRuns, session]; exact runs
  obtain ⟨session₁, decoders₁, time₁, -⟩ := e.advanceTracker_other .p1
  obtain ⟨session₂, decoders₂, time₂, -⟩ := (e.advanceTracker .p1).advanceTracker_other .p2
  have followed := Device.advanceTrackers_spec going p
  rw [Device.correct_eq, ← he] at step
  obtain ⟨h, hh⟩ : ∃ h, h = (e.advanceTracker .p1).advanceTracker .p2 := ⟨_, rfl⟩
  rw [← hh] at step followed session₂ decoders₂ time₂
  have state : h.playerState p = d.playerState p := by
    rw [Device.playerState, session₂, session₁, session]
    rfl
  have decoder : h.decoder p = d.decoder p := by
    rw [Device.decoder, decoders₂, decoders₁, decoders]
    rfl
  have stays : e.playerState p = d.playerState p := by rw [Device.playerState, session]; rfl
  have time : e.clock.songTime = g.clock.songTime := by rw [step.time, time₂, time₁]
  rw [tracker, stays, time] at followed
  have running : h.songRuns = true := by rw [Device.songRuns, session₂, session₁, session]; exact runs
  rcases step.moved running with ⟨same, waits⟩ | ⟨stalled, released, size, s, inHand, retried⟩
  · rw [decoder] at waits
    refine ⟨_, .inl ⟨rfl, fun stalled decoding => ?_⟩, same.trans followed⟩
    rcases waits.stays stalled with gone | ⟨still, -⟩
    · rw [gone] at decoding; cases decoding
    · rw [still] at decoding; cases decoding
  · rw [decoder] at stalled inHand
    refine ⟨_, .inr ⟨stalled, released, size, s, inHand, rfl⟩, ?_⟩
    rw [retried, followed, state, ← step.time, Tracker.following_append]

/-! ## The command -/

/-- The checks of a report that are passed (02 R22). -/
theorem Device.reportCheck_ok {d : Device} {edge : Byte} {x : Capture} (follow : d.clock.mode = .followMode)
    (runs : d.songRuns = true) (free : d.clock.stall = none)
    (named : d.clock.captures.find? (fun c => c.edge = edge) = some x) :
    d.reportCheck edge = .ok x := by
  simp [Device.reportCheck, follow, runs, free, named]

theorem position_ok {d : Device} {edge : Byte} {x : Capture} (reported : BitVec 32)
    (passes : d.reportCheck edge = .ok x) :
    position (edge :: bytesOf 4 reported.toNat) d = (.done, (d.correct x reported.toInt).settleLanes) := by
  have field := s32_field reported [edge] [] 1 rfl
  rw [List.append_nil, List.singleton_append] at field
  have edge_ : (edge :: bytesOf 4 reported.toNat).getD 0 0 = edge := rfl
  rw [position, edge_, passes, field]

theorem position_error {d : Device} {edge : Byte} {code : ResultCode} (reported : BitVec 32)
    (fails : d.reportCheck edge = .error code) : position (edge :: bytesOf 4 reported.toNat) d = (code, d) := by
  have edge_ : (edge :: bytesOf 4 reported.toNat).getD 0 0 = edge := rfl
  rw [position, edge_, fails]

theorem holds_setResult {d : Device} {j : Port} {k : Notice} (held : Holds d j k) (i : Port) (channel : BitVec 6)
    (code : ResultCode) (n : Nat) : Holds (d.setResult i channel code n) j k := by
  unfold Holds
  rw [Device.port_setResult]
  split <;> exact held

end Sys2Proof.Machine

section
open Sys2Proof.Machine Sys2Proof.Safety

/-- Settles O18: the correction of the clock, the trackers that follow it, and the lane events with their retries. -/
theorem positionEffect : Obligations.PositionEffect := by
  refine ⟨fun s i edge reported x e sendable follow running free named he ordered limit => ?_,
    fun s i edge reported sendable => ?_⟩
  · have runs : s.device.songRuns = true := (Device.songRuns_iff _).2 running
    obtain ⟨t, answer, device⟩ := exec_sendable_device (by decide) sendable
    rw [handCommand, position_ok reported (Device.reportCheck_ok follow runs free named)] at device
    obtain ⟨eq, results, notices⟩ := s.device.correctClock_eq x reported.toInt
    have frame : EntryFrame (s.device.correctClock x reported.toInt) (s.device.correct x reported.toInt).settleLanes :=
      ((EntryFrame.advanceTracker _ .p1).trans (.advanceTracker _ .p2)).trans (.settleLanes _)
    have moves : Moves (s.device.correctClock x reported.toInt) (s.device.correct x reported.toInt).settleLanes :=
      ((Moves.advanceTracker _ .p1).trans (.advanceTracker _ .p2)).trans (.settleLanes _)
    have step (p : Sys2Proof.Player) := TrackerStep.settleLanes p (s.device.correct x reported.toInt)
    obtain ⟨g, hg⟩ : ∃ g, g = (s.device.correct x reported.toInt).settleLanes := ⟨_, rfl⟩
    rw [← hg] at device frame moves
    simp only [← hg] at step
    rw [← he] at eq notices
    have clock : t.device.clock = { s.device.clock.corrected
        (correctionFor s.device.clock.slew s.device.clock.jump e) with trackers := t.device.clock.trackers } := by
      rw [device]
      exact frame.clock.trans (by rw [eq]; rfl)
    have time : t.device.clock.songTime = _ := congrArg Clock.songTime clock
    have stall : t.device.clock.stall = _ := congrArg Clock.stall clock
    refine ⟨t, answer, ?_, ?_, fun rises => ?_, fun falls => ?_, fun nonzero small j => ?_, fun large j => ?_,
      fun p => ?_, ?_, ?_, ?_, fun j other => ?_⟩
    · rw [device]
      exact Device.setResult_answered _ _ _ _ (by decide)
    · rw [time, stall]
      refine clock.trans ?_
      rw [Clock.corrected_eq]
    · obtain ⟨free', raised⟩ :=
        Clock.corrected_rise (slew := s.device.clock.slew) (jump := s.device.clock.jump) rises free limit
      exact ⟨stall.trans free', time.trans raised⟩
    · obtain ⟨held, stalled⟩ :=
        Clock.corrected_stall (slew := s.device.clock.slew) (jump := s.device.clock.jump) falls free
      refine ⟨time.trans held, fun length hl => ?_⟩
      rw [hl]
      exact stall.trans stalled
    · rw [device]
      exact holds_setResult (moves.holds (notices _ (correctionFor_corrected nonzero small) j)) _ _ _ _
    · rw [device]
      exact holds_setResult (moves.holds (notices _ (correctionFor_jumped ordered large) j)) _ _ _ _
    · obtain ⟨entries, which, followed⟩ := Device.report_tracker runs (step p)
      have songTime : g.clock.songTime = t.device.clock.songTime := by rw [device]; rfl
      have tracker : t.device.tracker p = g.tracker p := by rw [device]; rfl
      have decoder : t.device.decoder p = g.decoder p := by rw [device]; rfl
      obtain ⟨map, segment, beat⟩ := Tracker.following_holds { s.device.tracker p with map := entries }
        t.device.clock.songTime (s.device.playerState p)
      rw [songTime, ← tracker] at followed
      rw [← followed] at map segment beat
      rw [← decoder] at which
      exact ⟨entries, which, map, segment, beat⟩
    · exact (congrArg Device.links device).trans (frame.links.trans (by rw [eq]))
    · exact (congrArg Device.press device).trans (frame.press.trans (by rw [eq]))
    · exact (congrArg Device.mapper device).trans (frame.mapper.trans (by rw [eq]))
    · rw [device, Device.port_setResult, if_neg other, (frame.ports j).result, results]
  · obtain ⟨t, answer, device⟩ := exec_sendable_device (by decide) sendable
    rw [handCommand] at device
    have refused {code : ResultCode} (fails : s.device.reportCheck edge = .error code) :
        OnlyResult s.device t.device i ∧ Answered t.device i code 6 := by
      rw [device, position_error reported fails]
      exact ⟨Device.setResult_only .., Device.setResult_answered _ _ _ _ (by decide)⟩
    refine ⟨t, answer, fun closed => refused (if_pos ?_), fun follow running pending => refused ?_,
      fun follow running free absent => refused ?_⟩
    · rintro ⟨follow, runs⟩
      rcases closed with isLocal | stopped
      · rw [isLocal] at follow
        cases follow
      · rw [(Device.stopped_iff _).2 stopped] at runs
        cases runs
    · have runs := (Device.songRuns_iff _).2 running
      simp [Device.reportCheck, follow, runs, Option.isSome_iff_ne_none.2 pending]
    · have runs := (Device.songRuns_iff _).2 running
      have none_ : s.device.clock.captures.find? (fun c => c.edge = edge) = none :=
        List.find?_eq_none.2 fun c hc => by simpa using absent c hc
      simp [Device.reportCheck, follow, runs, free, none_]

end
end
-- ==== Sys2Proof/Proofs/JudgeSteps.lean ====
section
/-!
What an event at the judge does to queues, holds and decoders, said exactly: it takes a note out of a queue, marks an
AVOID as reached, gives a tail to a queued note, moves a hold, hands an outcome on, or has the session controller
examine a player. A law about queues and decoders that each of these steps keeps is kept by every event at the judge.
-/
namespace Sys2Proof.Machine

/-! ## The steps -/

/-- A step of an event at the judge. -/
inductive JudgeStep (d : Device) : Device → Prop
  | remove (q : LaneQueue) (n : Note) : JudgeStep d (d.removeNote q n)
  | reach (q : LaneQueue) (n : Note) : JudgeStep d (d.onLane q fun l => { l with queue := markReached n l.queue })
  | tail (q : LaneQueue) (row due : Nat) (forced : Bool) :
      JudgeStep d (d.onLane q fun l => { l with queue := tailQueue row due forced l.queue })
  | hold (q : LaneQueue) (h : HoldState) : JudgeStep d (d.setHold q h)
  | outcome (p : Player) (o : Outcome) : JudgeStep d (d.takeOutcome p o)
  | done (p : Player) : JudgeStep d (d.examineDone p)
  | report (p : Player) : JudgeStep d (d.takeReport p)
  | append (x : Record) : JudgeStep d (d.appendRecord x)
  | aside (lamps : Lamps) (ports : Vector PortState 3) (choices : Nat) :
      JudgeStep d { d with lamps := lamps, ports := ports, choices := choices }

/-- A chain of steps of events at the judge. -/
def JudgeSteps : Device → Device → Prop := Relation.ReflTransGen JudgeStep

theorem JudgeSteps.refl (d : Device) : JudgeSteps d d := Relation.ReflTransGen.refl

theorem JudgeSteps.trans {d e g : Device} (h : JudgeSteps d e) (k : JudgeSteps e g) : JudgeSteps d g :=
  Relation.ReflTransGen.trans h k

theorem JudgeStep.chain {d e : Device} (h : JudgeStep d e) : JudgeSteps d e := Relation.ReflTransGen.single h

section
variable (d : Device)

theorem JudgeSteps.removeNote (q : LaneQueue) (n : Note) : JudgeSteps d (d.removeNote q n) :=
  (JudgeStep.remove q n).chain

theorem JudgeSteps.setHold (q : LaneQueue) (h : HoldState) : JudgeSteps d (d.setHold q h) := (JudgeStep.hold q h).chain

theorem JudgeSteps.examineDone (p : Player) : JudgeSteps d (d.examineDone p) := (JudgeStep.done p).chain

theorem JudgeSteps.takeReport (p : Player) : JudgeSteps d (d.takeReport p) := (JudgeStep.report p).chain

theorem JudgeSteps.lamps (x : Lamps) : JudgeSteps d { d with lamps := x } :=
  (JudgeStep.aside x d.ports d.choices).chain

theorem JudgeSteps.ports (x : Vector PortState 3) : JudgeSteps d { d with ports := x } :=
  (JudgeStep.aside d.lamps x d.choices).chain

theorem JudgeSteps.countChoice : JudgeSteps d d.countChoice := (JudgeStep.aside d.lamps d.ports _).chain

theorem JudgeSteps.flashFor (g : Grade) (q : LaneQueue) : JudgeSteps d (d.flashFor g q) := by
  unfold Device.flashFor
  split
  · split
    · exact .refl d
    · exact .lamps d _
  · exact .refl d

theorem JudgeSteps.headerMayFall (i : Port) : JudgeSteps d (d.headerMayFall i) := by
  unfold Device.headerMayFall
  split
  · split
    · exact (JudgeSteps.countChoice d).trans (.ports _ _)
    · exact .countChoice d
  all_goals exact .refl d

theorem JudgeSteps.headersMayFall : JudgeSteps d d.headersMayFall :=
  ((JudgeSteps.headerMayFall d 0).trans (.headerMayFall _ 1)).trans (.headerMayFall _ 2)

end

/-! ## Outcomes -/

section
variable (f : Flow)

theorem JudgeSteps.mayReport (p : Player) : JudgeSteps f.device (f.mayReport p).device := by
  unfold Flow.mayReport
  split
  · split
    · exact (JudgeSteps.countChoice _).trans (.takeReport _ p)
    · exact .countChoice _
  · exact .refl _

theorem JudgeSteps.goOn (q : LaneQueue) : JudgeSteps f.device (f.goOn q).device := .mayReport f _

theorem JudgeSteps.between : JudgeSteps f.device f.between.device := by
  unfold Flow.between
  split
  · exact .headersMayFall _
  · exact .refl _

theorem JudgeSteps.outcome (q : LaneQueue) (x : Option Record) (o : Outcome) :
    JudgeSteps f.device (f.outcome q x o).device := by
  have recorded (g : Flow) : JudgeSteps g.device (g.record x).device := by
    cases x
    · exact .refl _
    · exact (JudgeStep.append _).chain
  have flashed (g : Flow) : JudgeSteps g.device (g.flash q o).device := by
    cases o
    case graded grade => exact .flashFor _ grade q
    all_goals exact .refl _
  have scored (g : Flow) (p : Player) : JudgeSteps g.device (g.score p o).device := (JudgeStep.outcome p o).chain
  exact ((((JudgeSteps.mayReport f _).trans (recorded _)).trans (.mayReport _ _)).trans (scored _ _)).trans (flashed _)

theorem JudgeSteps.handOff (p : Player) : JudgeSteps f.device (f.handOff p).device := by
  unfold Flow.handOff
  split
  · split
    · exact (JudgeSteps.countChoice _).trans (.examineDone _ p)
    · exact (JudgeSteps.countChoice _).trans (.takeReport _ p)
  · exact .examineDone _ p

theorem JudgeSteps.finish (p : Player) : JudgeSteps f.device (f.finish p) := by
  unfold Flow.finish
  split
  · exact .takeReport _ p
  · exact .refl _

theorem JudgeSteps.endHold (q : LaneQueue) (h : ActiveHold) (held : Bool) :
    JudgeSteps f.device (f.endHold q h held).device :=
  (((JudgeSteps.between f).trans (.setHold _ q .idle)).trans
    (.outcome { f.between with device := f.between.device.setHold q .idle } q _ _)).trans (.handOff _ _)

theorem JudgeSteps.sweepNote (q : LaneQueue) (n : Note) : JudgeSteps f.device (f.sweepNote q n).device := by
  unfold Flow.sweepNote
  extract_lets g d miss f₁ f₂
  have missed : JudgeSteps f.device f₁.device :=
    ((JudgeSteps.between f).trans (.removeNote g.device q n)).trans
      (.outcome { g with device := d } q (some miss) .miss)
  have letGo : JudgeSteps f₁.device f₂.device := by
    simp only [f₂]
    split
    · exact (JudgeSteps.between f₁).trans (.outcome _ q _ _)
    · exact .refl _
  exact (missed.trans letGo).trans (.handOff _ _)

theorem JudgeSteps.hitAvoid (q : LaneQueue) (n : Note) (timed : Option Int) :
    JudgeSteps f.device (f.hitAvoid q n timed).device :=
  (((JudgeSteps.between f).trans (.removeNote _ q n)).trans
    (.outcome { f.between with device := f.between.device.removeNote q n } q _ _)).trans (.handOff _ _)

theorem JudgeSteps.gradeNote (q : LaneQueue) (n : Note) (stamp : Int) :
    JudgeSteps f.device (f.gradeNote q n stamp).device := by
  unfold Flow.gradeNote
  extract_lets f₀ o g hold d₁ d₂ x f₁
  have removed : JudgeSteps f.device d₂ := by
    refine ((JudgeSteps.between f).trans (.removeNote f₀.device q n)).trans ?_
    simp only [d₂]
    split
    · exact .setHold _ q _
    · exact .refl _
  have graded : JudgeSteps f.device f₁.device :=
    ((removed.trans (.outcome { f₀ with device := d₂ } q _ _)).trans (.handOff _ _)).trans (.goOn _ q)
  split
  · exact graded.trans (.endHold f₁ q hold true)
  · exact graded

theorem JudgeSteps.stray (q : LaneQueue) (hit : Bool) : JudgeSteps f.device (f.stray q hit).device := by
  unfold Flow.stray
  split
  · exact .refl _
  · exact (JudgeSteps.between f).trans (.outcome _ q none _)

theorem JudgeSteps.strike (q : LaneQueue) (stamp : Int) (hit : Bool) (fuel : Nat) :
    JudgeSteps f.device (Flow.strike q stamp hit fuel f).device := by
  induction fuel generalizing f with
  | zero => exact .refl _
  | succ fuel ih =>
    unfold Flow.strike
    refine (JudgeSteps.goOn f q).trans ?_
    dsimp only
    split
    · split
      · exact .stray _ q hit
      · split
        · exact (JudgeSteps.sweepNote _ q _).trans (ih _)
        · split
          · exact .stray _ q hit
          · exact .gradeNote _ q _ stamp
    · exact .refl _

theorem JudgeSteps.hitAvoids (q : LaneQueue) (stamp : Int) (notes : List Note) :
    JudgeSteps f.device (Flow.hitAvoids q stamp f notes).device := by
  unfold Flow.hitAvoids
  induction notes generalizing f with
  | nil => exact .refl _
  | cons n notes ih =>
    rw [List.foldl_cons]
    refine (JudgeSteps.goOn f q).trans (JudgeSteps.trans ?_ (ih _))
    dsimp only
    split
    · exact .hitAvoid _ q n _
    · exact .refl _

theorem JudgeSteps.meetHold (q : LaneQueue) (stamp : Int) (hit : Bool) :
    JudgeSteps f.device (f.meetHold q stamp hit).device := by
  have ended (h : ActiveHold) (held : Bool) :
      JudgeSteps f.device ((f.endHold q h held).strikeTarget q stamp hit).device :=
    (JudgeSteps.endHold f q h held).trans (.strike _ q stamp hit _)
  unfold Flow.meetHold
  split
  · exact .strike f q stamp hit _
  · split
    · exact ended _ true
    · exact .setHold _ q _
  · split
    · exact ended _ _
    · split
      · exact ended _ true
      · exact .setHold _ q _

end

/-! ## Events of a lane -/

section
variable (d : Device)

theorem JudgeSteps.pressLane (q : LaneQueue) (stamp : Int) : JudgeSteps d (d.pressLane q stamp) := by
  unfold Device.pressLane
  split
  · refine JudgeSteps.trans ?_ (.finish _ _)
    refine ((JudgeSteps.hitAvoids (Flow.start d) q stamp (d.avoidsHit q stamp)).trans (.goOn _ q)).trans ?_
    split
    · exact .meetHold _ q stamp _
    · exact .refl _
  · exact .refl d

/-- A hold that ends in an event of its own. -/
theorem JudgeSteps.holdEnds (q : LaneQueue) (h : ActiveHold) (held : Bool) (p : Player) :
    JudgeSteps d (((Flow.start d).endHold q h held).finish p) :=
  (JudgeSteps.endHold (Flow.start d) q h held).trans (.finish _ p)

theorem JudgeSteps.releaseLane (q : LaneQueue) (stamp : Int) : JudgeSteps d (d.releaseLane q stamp) := by
  unfold Device.releaseLane
  split
  · split
    · split
      · exact .holdEnds d q _ true _
      · exact .setHold d q _
    · exact .refl d
    · exact .refl d
  · exact .refl d

theorem JudgeSteps.sweepLane (q : LaneQueue) : JudgeSteps d (d.sweepLane q) := by
  unfold Device.sweepLane
  split
  · exact .refl d
  · exact (JudgeSteps.sweepNote (Flow.start d) q _).trans (.finish _ _)

theorem JudgeSteps.reachAvoid (q : LaneQueue) (n : Note) : JudgeSteps d (d.reachAvoid q n) := by
  unfold Device.reachAvoid
  split
  · exact (JudgeSteps.hitAvoid (Flow.start d) q n none).trans (.finish _ _)
  · exact (JudgeStep.reach q n).chain

theorem JudgeSteps.expireAvoid (q : LaneQueue) (n : Note) : JudgeSteps d (d.expireAvoid q n) := by
  unfold Device.expireAvoid
  split
  · exact .reachAvoid d q n
  · exact (JudgeSteps.removeNote d q n).trans (.examineDone _ _)

theorem JudgeSteps.tailLane (q : LaneQueue) : JudgeSteps d (d.tailLane q) := by
  unfold Device.tailLane
  split
  · exact .refl d
  · exact .holdEnds d q _ true _

theorem JudgeSteps.graceLane (q : LaneQueue) : JudgeSteps d (d.graceLane q) := by
  unfold Device.graceLane
  split
  · exact .refl d
  · exact .holdEnds d q _ _ _

theorem JudgeSteps.takeLaneEvent (q : LaneQueue) (k : LaneEvent) : JudgeSteps d (d.takeLaneEvent q k) := by
  cases k with
  | sweep => exact .sweepLane d q
  | avoidDue =>
    simp only [Device.takeLaneEvent, Device.avoidDueLane]
    split
    · exact .refl d
    · exact .reachAvoid d q _
  | avoidPast =>
    simp only [Device.takeLaneEvent, Device.avoidPastLane]
    split
    · exact .refl d
    · exact .expireAvoid d q _
  | tail => exact .tailLane d q
  | grace => exact .graceLane d q

/-! ## Appends and tails -/

theorem JudgeSteps.sweepAll (q : LaneQueue) (fuel : Nat) : JudgeSteps d (Device.sweepAll q fuel d) := by
  induction fuel generalizing d with
  | zero => exact .refl d
  | succ fuel ih =>
    unfold Device.sweepAll
    split
    · refine (JudgeSteps.sweepLane d q).trans (JudgeSteps.trans ?_ (ih _))
      split
      · exact .headersMayFall _
      · exact .refl _
    · exact .refl d

theorem JudgeSteps.examineAppended (q : LaneQueue) (n : Note) : JudgeSteps d (d.examineAppended q n) := by
  unfold Device.examineAppended
  split
  · split
    · exact .sweepAll d q _
    · exact .sweepAll d q _
    · split
      · exact .expireAvoid d q n
      · split
        · exact .reachAvoid d q n
        · exact .refl d
  · exact .refl d

theorem JudgeSteps.takeTail (q : LaneQueue) (row due : Nat) (forced : Bool) :
    JudgeSteps d (d.takeTail q row due forced) := by
  have attached (h : HoldState) : JudgeSteps d ((d.setHold q h).settleTail q) := by
    refine (JudgeSteps.setHold d q h).trans ?_
    unfold Device.settleTail
    split
    · exact .graceLane _ q
    · exact .tailLane _ q
  unfold Device.takeTail
  split
  · exact (JudgeStep.tail q row due forced).chain
  · split
    · exact .refl d
    · split
      · exact attached _
      · exact .refl d
    · split
      · exact attached _
      · exact .refl d

end

end Sys2Proof.Machine
end
-- ==== Sys2Proof/Proofs/StepDeeds.lean ====
section
/-!
What a step does to the session, the decoders and the lanes, said exactly: it is a chain of events at the judge, of
entries taken, of retries of stalled decoders, of bytes that enter a buffer, of the three session events and of resets;
all else is beside them.
-/
namespace Sys2Proof.Machine

/-! ## Deeds -/

/-- The session, the decoders and the lanes stand as they were. -/
structure Aside (d e : Device) : Prop where
  session  : e.session = d.session
  decoders : e.decoders = d.decoders
  lanes    : e.judge.lanes = d.judge.lanes

theorem Aside.refl (d : Device) : Aside d d := ⟨rfl, rfl, rfl⟩

theorem Aside.trans {d e g : Device} (h : Aside d e) (k : Aside e g) : Aside d g :=
  ⟨k.session.trans h.session, k.decoders.trans h.decoders, k.lanes.trans h.lanes⟩

section
variable (d : Device)

theorem Aside.onPanel (p : Panel) (f : PanelPress → PanelPress) : Aside d (d.onPanel p f) := ⟨rfl, rfl, rfl⟩

theorem Aside.onLink (l : Stage) (f : Link → Link) : Aside d (d.onLink l f) := ⟨rfl, rfl, rfl⟩

theorem Aside.onPort (i : Port) (f : PortState → PortState) : Aside d (d.onPort i f) := ⟨rfl, rfl, rfl⟩

theorem Aside.raise (k : Notice) : Aside d (d.raise k) := ⟨rfl, rfl, rfl⟩

theorem Aside.clock (c : Clock) : Aside d { d with clock := c } := ⟨rfl, rfl, rfl⟩

end

/-- A deed of a step. -/
inductive Deed (d : Device) : Device → Prop
  | judge {e : Device} (h : JudgeSteps d e) : Deed d e
  | entry (p : Player) (x : Entry) (h : d.nextEntry p = some x) : Deed d (d.takeEntry p x)
  | retry (p : Player) : Deed d (d.releaseStall p)
  | byte (p : Player) (b : Byte) : Deed d (d.bufferByte p b)
  | opened (s : Session) (idle : d.session.state = .idle) : Deed d (d.openWith s)
  | started (preload : d.session.state = .preload) : Deed d d.startSong
  | returned : Deed d d.returnToIdle
  | reset {e : Device} (session : e.session = .reset) (decoders : e.decoders = ⟨.reset, .reset⟩)
      (judge : e.judge = .reset) : Deed d e
  | aside {e : Device} (h : Aside d e) : Deed d e

/-- A chain of deeds. -/
def Deeds : Device → Device → Prop := Relation.ReflTransGen Deed

theorem Deeds.refl (d : Device) : Deeds d d := Relation.ReflTransGen.refl

theorem Deeds.trans {d e g : Device} (h : Deeds d e) (k : Deeds e g) : Deeds d g := Relation.ReflTransGen.trans h k

theorem Deed.chain {d e : Device} (h : Deed d e) : Deeds d e := Relation.ReflTransGen.single h

theorem JudgeSteps.deeds {d e : Device} (h : JudgeSteps d e) : Deeds d e := (Deed.judge h).chain

theorem Aside.deeds {d e : Device} (h : Aside d e) : Deeds d e := (Deed.aside h).chain

/-- What every deed keeps, a chain of them keeps. -/
theorem Deeds.keeps {P : Device → Prop} (deed : ∀ d e, Deed d e → P d → P e) {d e : Device} (h : Deeds d e)
    (hd : P d) : P e := by
  induction h with
  | refl => exact hd
  | tail _ hs ih => exact deed _ _ hs ih

section
variable (d : Device)

/-! ## Panels -/

theorem Deeds.retryAt (q : LaneQueue) : Deeds d (d.retryAt q) := by
  unfold Device.retryAt
  split
  · exact (Deed.retry _).chain
  · exact .refl d

theorem Deeds.raceAvoids (q : LaneQueue) (fuel : Nat) : Deeds d (Device.raceAvoids q fuel d) := by
  induction fuel generalizing d with
  | zero => exact .refl d
  | succ fuel ih =>
    unfold Device.raceAvoids
    split
    · split
      · exact (((JudgeSteps.countChoice d).trans (.takeLaneEvent _ q .avoidDue)).deeds.trans (.retryAt _ q)).trans
          ((JudgeSteps.headersMayFall _).deeds.trans (ih _))
      · exact (JudgeSteps.countChoice d).deeds
    · exact .refl d

theorem Deeds.pressChange (p : Panel) (before : Bool) : Deeds d (d.pressChange p before) := by
  have pressed (e : Device) : Deeds e (e.routePress p) := by
    unfold Device.routePress
    split
    · exact .refl e
    · exact (Deeds.raceAvoids e _ _).trans (JudgeSteps.pressLane _ _ _).deeds
  have released (e : Device) : Deeds e (e.routeRelease p) := by
    unfold Device.routeRelease
    split
    · exact .refl e
    · exact (JudgeSteps.releaseLane e _ _).deeds
  have panel (f : PanelPress → PanelPress) : Deeds d (d.onPanel p f) := (Aside.onPanel d p f).deeds
  unfold Device.pressChange
  split
  · exact (panel _).trans (pressed _)
  · exact (panel _).trans (released _)
  · exact .refl d
  · exact .refl d

theorem Deeds.takeGoodReport (p : Panel) (r : GoodReport) : Deeds d (d.takeGoodReport p r) := by
  unfold Device.takeGoodReport
  refine Deeds.trans (Aside.deeds ?_) (.pressChange _ p _)
  split <;> exact ⟨rfl, rfl, rfl⟩

theorem Deeds.takeBoardLost (p : Panel) : Deeds d (d.takeBoardLost p) :=
  (Aside.onPanel d p PanelPress.forcedUp).deeds.trans (.pressChange _ p _)

theorem Deeds.expireStuck (p : Panel) : Deeds d (d.expireStuck p) := by
  unfold Device.expireStuck
  split
  · split
    · exact (Aside.onPanel d p _).deeds
    · exact ((Aside.onPanel d p _).deeds.trans (.pressChange _ p _)).trans
        ((Aside.raise _ .stuck).trans (.onPanel _ p _)).deeds
  · exact .refl d

theorem Deeds.expireAllStuck : Deeds d d.expireAllStuck := by
  unfold Device.expireAllStuck
  induction allPanels generalizing d with
  | nil => exact .refl d
  | cons p ps ih => exact (Deeds.expireStuck d p).trans (ih _)

/-! ## Links -/

theorem Aside.pollTransfer (x : PollTransfer) : Aside d (d.pollTransfer x) := by
  have begun (l : Stage) : Aside d (d.beginPoll l) := by
    unfold Device.beginPoll
    split <;> exact ⟨rfl, rfl, rfl⟩
  cases x with
  | whole l =>
    simp only [Device.pollTransfer]
    split
    · exact (begun l).trans ⟨rfl, rfl, rfl⟩
    · exact .refl d
  | begins l => exact begun l
  | ends l => exact ⟨rfl, rfl, rfl⟩

theorem Aside.endEmptyRound (l : Stage) : Aside d (d.endEmptyRound l) := by
  unfold Device.endEmptyRound
  split <;> exact ⟨rfl, rfl, rfl⟩

theorem Aside.wakeLink (l : Stage) (wasSilent : Bool) : Aside d (d.wakeLink l wasSilent) := by
  unfold Device.wakeLink
  split <;> exact ⟨rfl, rfl, rfl⟩

theorem Deeds.setLink (l : Stage) (enable : BitVec 6) (replyLimit missLimit : Nat) :
    Deeds d (d.setLink l enable replyLimit missLimit) := by
  have lost (as : List (Fin 6)) (e : Device) : Deeds e (as.foldl (fun d a => d.takeBoardLost (panelOf l a)) e) := by
    induction as generalizing e with
    | nil => exact .refl e
    | cons a as ih => exact (Deeds.takeBoardLost e _).trans (ih _)
  exact ((Aside.onLink d l _).deeds.trans (lost _ _)).trans (Aside.wakeLink _ l _).deeds

theorem Deeds.miss (l : Stage) (a : Fin 6) : Deeds d (d.miss l a) := by
  unfold Device.miss
  dsimp only
  split
  · exact ((Aside.onLink d l _).trans (.raise _ .boardOffline)).deeds.trans (.takeBoardLost _ _)
  · exact (Aside.onLink d l _).deeds

theorem Deeds.judgeReport (l : Stage) (a : Fin 6) (f : ReportFrame) : Deeds d (d.judgeReport l a f) := by
  unfold Device.judgeReport
  split
  · exact ((Aside.onLink d l _).trans (.raise _ .linkParity)).deeds.trans (.miss _ l a)
  · split
    · exact .miss d l a
    · exact (Aside.onLink d l _).deeds.trans (.takeGoodReport _ _ _)

theorem Deeds.receiveReport (l : Stage) (f : ReportFrame) (quarters : Nat) :
    Deeds d (d.receiveReport l f quarters) := by
  have closed : Deeds d (d.endTransaction l) := Aside.deeds ⟨rfl, rfl, rfl⟩
  unfold Device.receiveReport
  split
  case h_2 =>
    split
    · split
      · exact closed
      · exact closed.trans (.judgeReport _ l _ f)
    · exact .refl d
  all_goals exact .refl d

theorem Deeds.passDeadline (l : Stage) : Deeds d (d.passDeadline l) := by
  have closed : Deeds d (d.endTransaction l) := Aside.deeds ⟨rfl, rfl, rfl⟩
  unfold Device.passDeadline
  split
  case h_2 =>
    split
    · exact closed
    · exact closed.trans (.miss _ l _)
  all_goals exact .refl d

/-! ## The clock -/

theorem Aside.recomputeBeat (p : Player) : Aside d (d.recomputeBeat p) := by
  unfold Device.recomputeBeat Device.beatPulse
  split
  · dsimp only
    split
    · split <;> exact ⟨rfl, rfl, rfl⟩
    · exact ⟨rfl, rfl, rfl⟩
  · exact .refl d

theorem Aside.advanceTracker (p : Player) : Aside d (d.advanceTracker p) := by
  unfold Device.advanceTracker
  split
  · exact (Aside.clock d _).trans (.recomputeBeat _ p)
  · exact .refl d

theorem Aside.reachTempo (p : Player) : Aside d (d.reachTempo p) := by
  unfold Device.reachTempo
  split
  · exact .advanceTracker d p
  · exact .refl d

theorem Aside.crossBeat (p : Player) : Aside d (d.crossBeat p) := by
  unfold Device.crossBeat
  split
  · exact .recomputeBeat d p
  · exact .refl d

theorem Aside.endStall : Aside d d.endStall := by
  unfold Device.endStall
  split <;> exact ⟨rfl, rfl, rfl⟩

theorem Aside.edge : Aside d d.edge := by
  unfold Device.edge
  dsimp only
  split <;> exact ⟨rfl, rfl, rfl⟩

theorem Aside.loseSync : Aside d d.loseSync := by
  unfold Device.loseSync
  split <;> exact ⟨rfl, rfl, rfl⟩

theorem Aside.endFlash (p : Panel) : Aside d (d.endFlash p) := by
  unfold Device.endFlash
  split <;> exact ⟨rfl, rfl, rfl⟩

theorem Aside.endBeatPulse (p : Panel) : Aside d (d.endBeatPulse p) := by
  unfold Device.endBeatPulse
  split <;> exact ⟨rfl, rfl, rfl⟩

theorem Aside.correct (x : Capture) (reported : Int) : Aside d (d.correct x reported) := by
  have clock : Aside d (d.correctClock x reported) := by
    unfold Device.correctClock
    split <;> exact ⟨rfl, rfl, rfl⟩
  rw [Device.correct_eq]
  exact (clock.trans (.advanceTracker _ .p1)).trans (.advanceTracker _ .p2)

/-! ## The events of one instant -/

theorem Deeds.takeKind (p : Player) (k : EntryKind) : Deeds d (d.takeKind p k) := by
  unfold Device.takeKind
  split
  · exact .refl d
  · rename_i x next
    split
    · exact (Deed.entry p x next).chain
    · exact .refl d

theorem Deeds.takeEvent (e : Event) : Deeds d (d.takeEvent e) := by
  cases e with
  | lane k q => exact (JudgeSteps.takeLaneEvent d q k).deeds
  | stallEnd => exact (Aside.endStall d).deeds
  | syncTimeout => exact (Aside.loseSync d).deeds
  | tempo p => exact (Aside.reachTempo d p).deeds
  | beat p => exact (Aside.crossBeat d p).deeds
  | stuck p => exact .expireStuck d p
  | flashEnd p => exact (Aside.endFlash d p).deeds
  | beatPulseEnd p => exact (Aside.endBeatPulse d p).deeds
  | entry p =>
    simp only [Device.takeEvent, Device.takeNext]
    split
    · exact .refl d
    · rename_i x next
      exact (Deed.entry p x next).chain
  | stallRelease p => exact (Deed.retry p).chain

theorem Deeds.settle (due : Device → List Event) (fuel : Nat) : Deeds d (settle due fuel d) :=
  settle_induct due Deeds .refl .trans (fun e => (JudgeSteps.countChoice e).deeds)
    (fun e => (JudgeSteps.headersMayFall e).deeds) (fun _ e x _ _ => .takeEvent e x) fuel d

theorem Deeds.microsecond : Deeds d d.microsecond := (Deeds.settle d _ _).trans (Aside.deeds ⟨rfl, rfl, rfl⟩)

/-! ## Commands -/

theorem Deeds.openSong (fields : List Byte) : Deeds d (openSong fields d).2 := by
  unfold Machine.openSong
  split
  · exact .refl d
  · rename_i idle
    split
    · exact .refl d
    · exact (Deed.opened _ (not_not.1 idle)).chain

theorem Deeds.start : Deeds d (start d).2 := by
  unfold Machine.start
  split
  · exact .refl d
  · rename_i preload
    exact ((Deed.started (not_not.1 preload)).chain.trans
      ((JudgeSteps.examineDone _ .p1).trans (.examineDone _ .p2)).deeds).trans (.settle _ _ _)

theorem Deeds.position (fields : List Byte) : Deeds d (position fields d).2 := by
  unfold Machine.position
  split
  · exact .refl d
  · exact (Aside.correct d _ _).deeds.trans (.settle _ _ _)

theorem Deeds.setStage (fields : List Byte) : Deeds d (setStage fields d).2 := by
  unfold Machine.setStage
  split
  · exact .refl d
  · split
    · exact .refl d
    · exact ((Aside.clock d _).deeds.trans (.setLink _ .a _ _ _)).trans (.setLink _ .b _ _ _)

theorem Deeds.softReset : Deeds d d.softReset :=
  (((Deed.reset (e := d.softResetBlocks) rfl rfl rfl).chain.trans (Aside.wakeLink _ .a _).deeds).trans
    (Aside.wakeLink _ .b _).deeds).trans (.expireAllStuck _)

/-- A command handed to its block is a chain of deeds. -/
theorem Deeds.handCommand (i : Port) (c : Command) (fields : List Byte) : Deeds d (handCommand i c fields d).2 := by
  cases c with
  | openSong => exact .openSong d fields
  | start => exact .start d
  | abort =>
    simp only [Machine.handCommand, abort]
    split
    · exact .refl d
    · exact Deed.returned.chain.trans (Aside.deeds ⟨rfl, rfl, rfl⟩)
  | close =>
    simp only [Machine.handCommand, close]
    split
    · exact .refl d
    · exact Deed.returned.chain.trans (Aside.deeds ⟨rfl, rfl, rfl⟩)
  | position => exact .position d fields
  | setStage => exact .setStage d fields
  | setPanel =>
    rcases setPanel_cases d fields with e | e <;> rw [Machine.handCommand, e]
    · exact .refl d
    · have calibrated : Aside d (d.calibrated fields) := ⟨rfl, rfl, rfl⟩
      exact calibrated.deeds.trans (.expireAllStuck _)
  | setSync =>
    simp only [Machine.handCommand, setSync]
    split_ifs <;> exact Aside.deeds ⟨rfl, rfl, rfl⟩
  | setMap =>
    simp only [Machine.handCommand, setMap]
    split_ifs <;> exact Aside.deeds ⟨rfl, rfl, rfl⟩
  | setWindows =>
    simp only [Machine.handCommand, setWindows]
    split_ifs <;> exact Aside.deeds ⟨rfl, rfl, rfl⟩
  | setScoring =>
    simp only [Machine.handCommand, setScoring]
    split
    · exact .refl d
    · exact Aside.deeds ⟨rfl, rfl, rfl⟩
  | setLife =>
    simp only [Machine.handCommand, setLife]
    split
    · exact .refl d
    · exact Aside.deeds ⟨rfl, rfl, rfl⟩
  | setLamps => exact Aside.deeds ⟨rfl, rfl, rfl⟩
  | subscribe =>
    simp only [Machine.handCommand, ringSubscribe]
    split_ifs <;> exact Aside.deeds ⟨rfl, rfl, rfl⟩
  | unsubscribe => exact Aside.deeds ⟨rfl, rfl, rfl⟩
  | softReset =>
    simp only [Machine.handCommand]
    exact .softReset d

/-! ## Ports -/

variable (i : Port)

theorem Aside.readTaken (channel : ChannelField) : Aside d (d.readTaken i channel) := by
  unfold Device.readTaken
  split
  · split <;> exact ⟨rfl, rfl, rfl⟩
  · exact ⟨rfl, rfl, rfl⟩

theorem Aside.chartRise : Aside d (d.chartRise i) := by
  unfold Device.chartRise
  split
  case h_1 =>
    dsimp only
    split <;> exact ⟨rfl, rfl, rfl⟩
  all_goals exact .refl d

theorem Aside.noticeTaken (data : List Byte) : Aside d (d.noticeTaken i data) := by
  unfold Device.noticeTaken
  split <;> exact ⟨rfl, rfl, rfl⟩

theorem Aside.maskTaken (data : List Byte) : Aside d (d.maskTaken i data) := by
  unfold Device.maskTaken
  split <;> exact ⟨rfl, rfl, rfl⟩

theorem Aside.lampTaken (data : List Byte) : Aside d (d.lampTaken i data) := by
  unfold Device.lampTaken
  split <;> exact ⟨rfl, rfl, rfl⟩

theorem Aside.recordSent : Aside d (d.recordSent i) := by
  unfold Device.recordSent
  split
  · split <;> exact ⟨rfl, rfl, rfl⟩
  · exact .refl d

theorem Deeds.chartByte (b : Byte) : Deeds d (d.chartByte i b) := by
  unfold Device.chartByte
  split
  · split
    · exact (Deed.byte _ b).chain.trans (Aside.deeds ⟨rfl, rfl, rfl⟩)
    · exact Aside.deeds ⟨rfl, rfl, rfl⟩
  · exact .refl d

theorem Deeds.chartTaken (p : Player) (data : List Byte) : Deeds d (d.chartTaken i p data) := by
  have bytes (e : Device) : Deeds e (data.foldl (fun d b => d.chartByte i b) e) := by
    induction data generalizing e with
    | nil => exact .refl e
    | cons b data ih => exact (Deeds.chartByte e i b).trans (ih _)
  exact ((Aside.onPort d i _).deeds.trans (bytes _)).trans (Aside.chartRise _ i).deeds

theorem Deeds.commandTaken (c : Command) (fields : List Byte) : Deeds d (d.commandTaken i c fields) := by
  unfold Device.commandTaken
  split
  · exact Aside.deeds ⟨rfl, rfl, rfl⟩
  · refine (Deeds.handCommand d i c fields).trans (Aside.deeds ?_)
    unfold leaveResult
    split <;> exact ⟨rfl, rfl, rfl⟩

theorem Deeds.writeTaken (channel : ChannelField) (data : List Byte) : Deeds d (d.writeTaken i channel data) := by
  have command : Deeds d (d.commandBytesTaken i data) := by
    unfold Device.commandBytesTaken
    split
    · exact Aside.deeds ⟨rfl, rfl, rfl⟩
    · split
      · exact Aside.deeds ⟨rfl, rfl, rfl⟩
      · exact .commandTaken d i _ _
  unfold Device.writeTaken
  split
  · exact command
  · exact (Aside.noticeTaken d i data).deeds
  · exact (Aside.maskTaken d i data).deeds
  · exact .chartTaken d i _ data
  · exact .chartTaken d i _ data
  · exact (Aside.lampTaken d i data).deeds
  · exact Aside.deeds ⟨rfl, rfl, rfl⟩

theorem Deeds.rise : Deeds d (d.rise i) := by
  have closed : Deeds d (d.onPort i fun p => { p with transaction := none }) := Aside.deeds ⟨rfl, rfl, rfl⟩
  unfold Device.rise
  dsimp only
  split
  case h_4 channel data _ => exact closed.trans (.writeTaken _ i channel data)
  case h_5 channel _ _ => exact closed.trans (Aside.readTaken _ i channel).deeds
  case h_6 => exact (Aside.chartRise d i).deeds
  all_goals exact closed

variable {d i}

/-- A moment of a transaction that begins with the rise of the last one. -/
theorem Deeds.afterRise {e : Device} (h : Aside (d.rise i) e) : Deeds d e := (Deeds.rise d i).trans h.deeds

theorem Deeds.headingRead (channel : ChannelField) : Deeds d (d.headingRead i channel) := by
  unfold Device.headingRead
  split
  · exact Aside.deeds ⟨rfl, rfl, rfl⟩
  all_goals exact .afterRise ⟨rfl, rfl, rfl⟩

theorem Deeds.chartTransfer (x : ChartTransfer) : Deeds d (d.chartTransfer i x) := by
  cases x with
  | whole p data => exact (Deeds.rise d i).trans (.chartTaken _ i p data)
  | header p => exact .afterRise ⟨rfl, rfl, rfl⟩
  | byte b => exact .chartByte d i b
  | rise => exact (Aside.chartRise d i).deeds

theorem Deeds.writeTransfer (channel : ChannelField) (x : WriteTransfer) : Deeds d (d.writeTransfer i channel x) := by
  cases x with
  | whole data => exact (Deeds.rise d i).trans (.writeTaken _ i channel data)
  | fall => exact .afterRise ⟨rfl, rfl, rfl⟩
  | header =>
    refine .afterRise (i := i) ?_
    simp only [Device.writeTransfer, Device.writeHeader]
    split <;> exact ⟨rfl, rfl, rfl⟩
  | byte b =>
    simp only [Device.writeTransfer, Device.byteIn]
    split
    · exact Aside.deeds ⟨rfl, rfl, rfl⟩
    · exact .chartByte d i b
    all_goals exact .refl d
  | rise => exact .rise d i

theorem Deeds.readTransfer (x : ReadTransfer) : Deeds d (d.readTransfer i x) := by
  cases x with
  | whole channel => exact .afterRise (Aside.readTaken _ i channel)
  | fall => exact .afterRise ⟨rfl, rfl, rfl⟩
  | heading channel => exact .headingRead channel
  | header channel => exact .afterRise ⟨rfl, rfl, rfl⟩
  | rise => exact .rise d i

theorem Deeds.ringTransfer (x : RingTransfer) : Deeds d (d.ringTransfer x) := by
  cases x with
  | whole i => exact .afterRise (Aside.readTaken _ i _)
  | heading i => exact .headingRead _
  | header i => exact .afterRise (i := i) ⟨rfl, rfl, rfl⟩
  | rise i => exact .rise d i

end

/-! ## The step -/

/-- Every command is a chain of deeds. -/
theorem exec_deeds {c : Instr} {s t : State} (h : exec c s = .next t) : Deeds s.device t.device := by
  cases c <;> rw [answer_next h]
  case openSong i fields | start i fields | abort i fields | close i fields | position i fields | setSync i fields
    | setStage i fields | setPanel i fields | setMap i fields | setWindows i fields | setScoring i fields
    | setLife i fields | setLamps i fields | subscribe i fields | unsubscribe i fields | softReset i fields =>
    exact (Deeds.rise _ i).trans (.commandTaken _ i _ fields)
  case chartWrite i x => exact .chartTransfer x
  case noticeWrite i data => exact .afterRise (.noticeTaken _ i data)
  case noticeMaskWrite i data => exact .afterRise (.maskTaken _ i data)
  case lampWrite i data => exact .afterRise (.lampTaken _ i data)
  case registerWrite i channel x => exact .writeTransfer channel x
  case ringRead x => exact .ringTransfer x
  case refusedRead i x => exact .readTransfer x
  case ringRecordConsumed i => exact (Aside.recordSent _ i).deeds
  case powerOnReset straps =>
    refine (Deed.reset ?_ ?_ ?_).chain <;> simp only [Device.powerOn] <;> split <;> rfl
  case fsyncEdge => exact (Aside.edge _).deeds
  case microsecondTick => exact .microsecond _
  case stallEnd => exact (Aside.endStall _).deeds
  case syncTimeout => exact (Aside.loseSync _).deeds
  case tempoEntryReached p => exact (Aside.reachTempo _ p).deeds
  case beatCrossing p => exact (Aside.crossBeat _ p).deeds
  case poll x => exact (Aside.pollTransfer _ x).deeds
  case emptyRound l => exact (Aside.endEmptyRound _ l).deeds
  case report l frame quarters => exact .receiveReport _ l frame quarters
  case replyDeadline l => exact .passDeadline _ l
  case stuckExpiry p => exact .expireStuck _ p
  case sweep q => exact (JudgeSteps.takeLaneEvent _ q .sweep).deeds
  case avoidDue q => exact (JudgeSteps.takeLaneEvent _ q .avoidDue).deeds
  case avoidPastWindow q => exact (JudgeSteps.takeLaneEvent _ q .avoidPast).deeds
  case tailReached q => exact (JudgeSteps.takeLaneEvent _ q .tail).deeds
  case graceExpiry q => exact (JudgeSteps.takeLaneEvent _ q .grace).deeds
  case flashEnd p => exact (Aside.endFlash _ p).deeds
  case beatPulseEnd p => exact (Aside.endBeatPulse _ p).deeds
  case headerEntry p | rowsEntry p | notesEntry p | repeatEntry p | tempoEntry p | dwellEntry p | endEntry p
    | badTag p =>
    exact .takeKind _ p _
  case stallRelease p => exact (Deed.retry p).chain

/-- Every step is a chain of deeds. -/
theorem step_deeds {s t : State} (h : step s = .next t) : Deeds s.device t.device := by
  unfold step at h
  split at h
  · cases h
    exact .refl _
  · rename_i c rest _
    exact exec_deeds (s := { s with pending := rest }) h

end Sys2Proof.Machine
end
-- ==== Sys2Proof/Proofs/OrderLaw.lean ====
section
/-!
The order of the lane queues (O58) under the elementary operations: what the law asks of a decoder's position, of its
entry in hand and of a queue, and how each is kept by an event at the judge, by a move of the cursor, by a new segment
and by an append.
-/
namespace Sys2Proof.Safety
open Sys2Proof.Machine

/-! ## The parts of the law -/

/-- A lane's queue in order, and within what its player's decoder has reached (08 R109). -/
def LaneOrdered (c : Decoder) (lane : Fin 12) (queue : List Note) : Prop :=
  queue.Pairwise (fun a b => a.row < b.row ∧ a.due ≤ b.due)
    ∧ ∀ n ∈ queue, n.due ≤ c.rowTime ∧ ∃ r, c.lastRow[lane] = some r ∧ n.row ≤ r

theorem orderLaw_iff (d : Device) : OrderLaw d ↔ (∀ p, PositionLaw (d.decoder p) ∧ InHandLaw (d.decoder p))
    ∧ ∀ p lane q, queueOf d.session.style p lane = some q → LaneOrdered (d.decoder p) lane (d.lane q).queue := Iff.rfl

/-- Where a note stands in a chart: its row and its due time. -/
def notePlace (n : Note) : Nat × Nat := (n.row, n.due)

/-- The order speaks of the places of the notes alone. -/
theorem laneOrdered_iff_places (c : Decoder) (lane : Fin 12) (queue : List Note) : LaneOrdered c lane queue
    ↔ (queue.map notePlace).Pairwise (fun a b => a.1 < b.1 ∧ a.2 ≤ b.2)
      ∧ ∀ x ∈ queue.map notePlace, x.2 ≤ c.rowTime ∧ ∃ r, c.lastRow[lane] = some r ∧ x.1 ≤ r := by
  simp only [LaneOrdered, List.pairwise_map, List.forall_mem_map, notePlace]

/-- A queue that has lost notes, or has had them marked or given tails, stays in order. -/
theorem LaneOrdered.sublist {c : Decoder} {lane : Fin 12} {xs ys : List Note} (h : LaneOrdered c lane ys)
    (sub : (xs.map notePlace).Sublist (ys.map notePlace)) : LaneOrdered c lane xs := by
  rw [laneOrdered_iff_places] at h ⊢
  exact ⟨h.1.sublist sub, fun x hx => h.2 x (sub.mem hx)⟩

/-- A decoder that has moved on, its last rows as they were, has still reached its queues. -/
theorem LaneOrdered.later {c c' : Decoder} {lane : Fin 12} {queue : List Note} (h : LaneOrdered c lane queue)
    (time : c.rowTime ≤ c'.rowTime) (rows : c'.lastRow[lane] = c.lastRow[lane]) : LaneOrdered c' lane queue :=
  ⟨h.1, fun n hn => ⟨(h.2 n hn).1.trans time, rows ▸ (h.2 n hn).2⟩⟩

/-- A decoder's place in its chart as it was. -/
structure SamePosition (c c' : Decoder) : Prop where
  cursor  : c'.cursor = c.cursor
  rowTime : c'.rowTime = c.rowTime
  segment : c'.segment = c.segment
  lastRow : c'.lastRow = c.lastRow

theorem SamePosition.trans {c c' c'' : Decoder} (h : SamePosition c c') (k : SamePosition c' c'') :
    SamePosition c c'' :=
  ⟨k.cursor.trans h.cursor, k.rowTime.trans h.rowTime, k.segment.trans h.segment, k.lastRow.trans h.lastRow⟩

theorem PositionLaw.same {c c' : Decoder} (law : PositionLaw c) (h : SamePosition c c') : PositionLaw c' := by
  obtain ⟨cursor, rowTime, segment, lastRow⟩ := h
  simpa only [PositionLaw, cursor, rowTime, segment, lastRow] using law

/-- Only a stalled decoder's entry in hand is bound. -/
theorem InHandLaw.of_takes {c : Decoder} (h : c.state.takes = true) : InHandLaw c := by
  constructor <;> intro stalled <;> rw [stalled] at h <;> cases h

theorem discarded_position (c : Decoder) : SamePosition c c.discarded := by
  unfold Decoder.discarded
  split <;> exact ⟨rfl, rfl, rfl, rfl⟩

theorem discarded_state (c : Decoder) : c.discarded.state = .discard ∨ c.discarded = c := by
  unfold Decoder.discarded
  split
  · exact .inr rfl
  · exact .inl rfl

theorem discarded_discarded (c : Decoder) : c.discarded.discarded = c.discarded := by
  by_cases idle : c.state = .idle
  · have same : c.discarded = c := if_pos idle
    rw [same, same]
  · have gone : c.discarded.state ≠ .idle := by simp [Decoder.discarded, idle]
    rw [show c.discarded.discarded = _ from if_neg gone]
    simp [Decoder.discarded, idle]

theorem InHandLaw.discarded {c : Decoder} (law : InHandLaw c) : InHandLaw c.discarded := by
  rcases discarded_state c with gone | same
  · exact .of_takes (by rw [gone]; rfl)
  · rwa [same]

/-! ## Updates that keep the law -/

section
variable {d e : Device}

/-- The law speaks of the style, the decoders and the lanes alone. -/
theorem OrderLaw.aside (law : OrderLaw d) (style : e.session.style = d.session.style)
    (decoders : e.decoders = d.decoders) (lanes : e.judge.lanes = d.judge.lanes) : OrderLaw e := by
  simpa only [OrderLaw, Device.decoder, Device.lane, style, decoders, lanes] using law

/-- The decoder of a player replaced by one that has not moved back. -/
theorem OrderLaw.onDecoder (law : OrderLaw d) (p : Player) (f : Decoder → Decoder)
    (position : PositionLaw (f (d.decoder p))) (hand : InHandLaw (f (d.decoder p)))
    (time : (d.decoder p).rowTime ≤ (f (d.decoder p)).rowTime)
    (rows : (f (d.decoder p)).lastRow = (d.decoder p).lastRow) : OrderLaw (d.onDecoder p f) := by
  rw [orderLaw_iff] at law ⊢
  refine ⟨fun x => ?_, fun x lane q hq => ?_⟩ <;> rw [Device.decoder_onDecoder] <;> split
  · exact ⟨position, hand⟩
  · exact law.1 x
  · rename_i own
    exact (own ▸ law.2 x lane q hq : LaneOrdered (d.decoder p) lane _).later time (by rw [rows])
  · exact law.2 x lane q hq

/-- The decoder of a player replaced by one at the same position. -/
theorem OrderLaw.onDecoder_same (law : OrderLaw d) (p : Player) (f : Decoder → Decoder)
    (same : SamePosition (d.decoder p) (f (d.decoder p))) (hand : InHandLaw (f (d.decoder p))) :
    OrderLaw (d.onDecoder p f) :=
  law.onDecoder p f ((law.1 p).1.same same) hand same.rowTime.ge same.lastRow

/-- Fault sets are no part of the law. -/
theorem OrderLaw.addFault (law : OrderLaw d) (p : Player) (k : FaultKind) : OrderLaw (d.addFault p k) := by
  rcases d.addFault_cases p k with ⟨-, e⟩ | ⟨-, e⟩ <;> rw [e]
  · exact law
  · have gained := law.onDecoder_same p (fun c => { c with faults := c.faults ||| k.mask }) ⟨rfl, rfl, rfl, rfl⟩
      (law.1 p).2
    exact OrderLaw.aside gained rfl rfl rfl

end

/-! ## Events at the judge -/

/-- What an event at the judge leaves of queues and decoders: no queue gains a note or moves one, and a decoder that
changes has entered DISCARD with its player out of play (04 R68). -/
structure Judged (d e : Device) : Prop where
  style   : e.session.style = d.session.style
  queues  : ∀ q, ((e.lane q).queue.map notePlace).Sublist ((d.lane q).queue.map notePlace)
  decoder : ∀ p, e.decoder p = d.decoder p ∨ e.decoder p = (d.decoder p).discarded ∧ e.appendsFor p = false
  out     : ∀ p, d.appendsFor p = false → e.appendsFor p = false

theorem Judged.refl (d : Device) : Judged d d :=
  ⟨rfl, fun _ => List.Sublist.refl _, fun _ => .inl rfl, fun _ out => out⟩

theorem Judged.trans {d e g : Device} (h : Judged d e) (k : Judged e g) : Judged d g where
  style := k.style.trans h.style
  queues q := (k.queues q).trans (h.queues q)
  decoder p := by
    rcases h.decoder p, k.decoder p with ⟨same | ⟨gone, out⟩, same' | ⟨gone', out'⟩⟩
    · exact .inl (same'.trans same)
    · exact .inr ⟨by rw [gone', same], out'⟩
    · exact .inr ⟨by rw [same', gone], k.out p out⟩
    · exact .inr ⟨by rw [gone', gone, discarded_discarded], out'⟩
  out p out := k.out p (h.out p out)

/-- What leaves the session, the decoders and the lanes alone. -/
theorem Judged.of_same {d e : Device} (session : e.session = d.session) (decoders : e.decoders = d.decoders)
    (lanes : e.judge.lanes = d.judge.lanes) : Judged d e := by
  refine ⟨by rw [session], fun q => ?_, fun p => .inl ?_, fun p out => ?_⟩
  · simp only [Device.lane, lanes, List.Sublist.refl]
  · simp only [Device.decoder, decoders]
  · rw [Device.appendsFor, Device.playerState, session]
    exact out

theorem Judged.onLane (d : Device) (q : LaneQueue) (f : Lane → Lane)
    (hf : ∀ l, ((f l).queue.map notePlace).Sublist (l.queue.map notePlace)) : Judged d (d.onLane q f) := by
  refine ⟨rfl, fun x => ?_, fun _ => .inl rfl, fun _ out => out⟩
  rw [Device.lane_onLane]
  split
  · exact hf _
  · exact List.Sublist.refl _

theorem markReached_places (n : Note) (ns : List Note) : (markReached n ns).map notePlace = ns.map notePlace := by
  induction ns with
  | nil => rfl
  | cons x xs ih =>
    unfold markReached
    split
    · rfl
    · rw [List.map_cons, List.map_cons, ih]

theorem tailQueue_places (row due : Nat) (forced : Bool) (ns : List Note) :
    (tailQueue row due forced ns).map notePlace = ns.map notePlace := by
  rw [tailQueue, List.map_map]
  refine List.map_congr_left fun n _ => ?_
  simp only [Function.comp_apply]
  split <;> rfl

theorem appendsFor_setPlayer {x : PlayerState} (hx : x ≠ .joined ∧ x ≠ .playing) (d : Device) (p z : Player) :
    (d.setPlayer p x).appendsFor z = (d.appendsFor z && decide (z ≠ p)) := by
  simp only [Device.appendsFor, Device.playerState_setPlayer]
  by_cases own : z = p <;> simp [own, hx]

theorem Judged.setPlayer {x : PlayerState} (hx : x ≠ .joined ∧ x ≠ .playing) (d : Device) (p : Player) :
    Judged d (d.setPlayer p x) :=
  ⟨rfl, fun _ => List.Sublist.refl _, fun _ => .inl rfl,
    fun z out => by rw [appendsFor_setPlayer hx, out, Bool.false_and]⟩

theorem Judged.examineEnd (d : Device) : Judged d d.examineEnd := by
  rcases d.examineEnd_cases with ⟨-, -, -, e⟩ | ⟨-, e⟩ <;> rw [e]
  · exact ⟨rfl, fun _ => List.Sublist.refl _, fun _ => .inl rfl, fun _ out => out⟩
  · exact .refl d

theorem Judged.leavePlay {x : PlayerState} (hx : x ≠ .joined ∧ x ≠ .playing) (d : Device) (p : Player) (k : MarkKind) :
    Judged d (d.leavePlay p x k) :=
  ((Judged.setPlayer hx d p).trans (.of_same (e := ((d.setPlayer p x).mark k p).raise .player) rfl rfl rfl)).trans
    (.examineEnd _)

/-- A player that leaves play takes no more appends. -/
theorem leavePlay_out {x : PlayerState} (hx : x ≠ .joined ∧ x ≠ .playing) (d : Device) (p : Player) (k : MarkKind) :
    (d.leavePlay p x k).appendsFor p = false := by
  refine (Judged.examineEnd _).out p ?_
  change (d.setPlayer p x).appendsFor p = false
  rw [appendsFor_setPlayer hx]
  simp

theorem Judged.takeReport (d : Device) (p : Player) : Judged d (d.takeReport p) := by
  cases fails : d.wouldFail p
  case false =>
    rw [Device.takeReport, fails]
    exact .refl d
  case true =>
    rw [Device.takeReport_leaves fails]
    set g := (d.emptyLanes p).onDecoder p Decoder.discarded with hg
    have failed : PlayerState.failed ≠ .joined ∧ PlayerState.failed ≠ .playing := by decide
    have left := Judged.leavePlay failed g p .failed
    refine ⟨left.style, fun q => (left.queues q).trans ?_, fun z => ?_, fun z out => left.out z out⟩
    · rw [hg, Device.onDecoder_lane, Device.lane_emptyLanes]
      split
      · exact List.nil_sublist _
      · exact List.Sublist.refl _
    · rw [Device.leavePlay_decoder, hg, Device.decoder_onDecoder]
      split
      · rename_i own
        exact .inr ⟨by rw [Device.emptyLanes_decoder, own], own ▸ leavePlay_out failed _ _ _⟩
      · exact .inl rfl

theorem Judged.step {d e : Device} (h : JudgeStep d e) : Judged d e := by
  cases h with
  | remove q n => exact .onLane d q _ fun l => (List.erase_sublist).map _
  | reach q n => exact .onLane d q _ fun l => (markReached_places n l.queue).symm ▸ List.Sublist.refl _
  | tail q row due forced =>
    exact .onLane d q _ fun l => (tailQueue_places row due forced l.queue).symm ▸ List.Sublist.refl _
  | hold q h => exact .onLane d q _ fun _ => List.Sublist.refl _
  | outcome p o =>
    unfold Device.takeOutcome
    split
    · exact .of_same rfl rfl rfl
    · exact .refl d
  | done p =>
    cases done : d.doneHolds p
    case false =>
      rw [Device.examineDone, done]
      exact .refl d
    case true =>
      rw [Device.examineDone_leaves done]
      exact .leavePlay (by decide) d p .cleared
  | report p => exact .takeReport d p
  | append | aside => exact .of_same rfl rfl rfl

theorem Judged.steps {d e : Device} (h : JudgeSteps d e) : Judged d e := by
  induction h with
  | refl => exact .refl d
  | tail _ hs ih => exact ih.trans (.step hs)

theorem Judged.position {d e : Device} (h : Judged d e) (p : Player) : SamePosition (d.decoder p) (e.decoder p) := by
  rcases h.decoder p with same | ⟨gone, -⟩
  · rw [same]
    exact ⟨rfl, rfl, rfl, rfl⟩
  · rw [gone]
    exact discarded_position _

/-- An event at the judge keeps the order. -/
theorem OrderLaw.judged {d e : Device} (law : OrderLaw d) (h : Judged d e) : OrderLaw e := by
  rw [orderLaw_iff] at law ⊢
  refine ⟨fun p => ⟨(law.1 p).1.same (h.position p), ?_⟩, fun p lane q hq => ?_⟩
  · rcases h.decoder p with same | ⟨gone, -⟩
    · rw [same]
      exact (law.1 p).2
    · rw [gone]
      exact (law.1 p).2.discarded
  · rw [h.style] at hq
    have position := h.position p
    exact ((law.2 p lane q hq).sublist (h.queues q)).later position.rowTime.ge (by rw [position.lastRow])

/-! ## Appends -/

/-- A lane queue names its player and its lane (07 R100). -/
theorem queueOf_some {style : Style} {p : Player} {lane : Fin 12} {q : LaneQueue} (h : queueOf style p lane = some q) :
    p = ownerOf style q ∧ lane = logicalLane style q := by
  cases style <;> cases p
  case doubles.p1 =>
    cases h
    exact ⟨rfl, rfl⟩
  case doubles.p2 => cases h
  case versus.p1 =>
    simp only [queueOf] at h
    split_ifs at h with small
    cases h
    exact ⟨by simp [ownerOf, small], Fin.ext (Nat.mod_eq_of_lt small).symm⟩
  case versus.p2 =>
    simp only [queueOf] at h
    split_ifs at h with small
    cases h
    exact ⟨by simp [ownerOf], Fin.ext (by simp [logicalLane, Nat.mod_eq_of_lt small])⟩

end Sys2Proof.Safety
end
-- ==== Sys2Proof/Proofs/OrderEntries.lean ====
section
/-!
The order of the lane queues through a chart entry (O58): while a decoder works, its cursor only moves on, so each note
that it places comes behind those of its lane; a stalled one keeps its note for the same place.
-/
namespace Sys2Proof.Safety
open Sys2Proof.Machine

/-! ## Arithmetic of the position -/

/-- A later row is never due earlier (03 R35, R36). -/
theorem dueTime_mono (g : DecoderSegment) {r s : Nat} (h : r ≤ s) : dueTime g r ≤ dueTime g s := by
  have rows : (r - g.row) * g.period ≤ (s - g.row) * g.period := Nat.mul_le_mul_right _ (by omega)
  unfold dueTime clampTime rawDue
  omega

/-- The due time of a segment's first row is its segment time, clamped (03 R35). -/
theorem dueTime_first (g : DecoderSegment) : dueTime g g.row = min g.segTime maxTime := by
  simp [dueTime, rawDue, clampTime]

/-- The position after the cursor has moved on to a row (03 R33, R35, R36). -/
theorem PositionLaw.moved {c : Decoder} (law : PositionLaw c) {row : Nat} (ahead : c.cursor ≤ row) :
    PositionLaw { c with cursor := min row maxRow, rowTime := dueTime c.segment (min row maxRow) } := by
  obtain ⟨segment, cursor, -, -, rows⟩ := law
  have further : c.cursor ≤ min row maxRow := le_min ahead cursor
  exact ⟨segment.trans further, min_le_right _ _, min_le_right _ _, le_refl _,
    fun k r hr => (rows k r hr).trans further⟩

/-- The position in a segment that begins at the cursor row, not before the row time (03 R39, R40). -/
theorem PositionLaw.inSegment {c : Decoder} (law : PositionLaw c) {g : Segment} (row : g.row = c.cursor)
    (time : c.rowTime ≤ g.segTime) : PositionLaw { c with segment := g.forDecoder } := by
  obtain ⟨-, cursor, limit, -, rows⟩ := law
  refine ⟨row.le, cursor, limit, ?_, rows⟩
  have first := dueTime_first g.forDecoder
  rw [show g.forDecoder.row = c.cursor from row] at first
  rw [first]
  exact le_min time limit

/-! ## A decoder that takes an entry -/

/-- The order holds, and a player's decoder is not stalled. -/
structure Taking (p : Player) (d : Device) : Prop where
  law   : OrderLaw d
  takes : (d.decoder p).state.takes = true

section
variable {p : Player} {d : Device}

theorem Taking.position (h : Taking p d) : PositionLaw (d.decoder p) := (h.law.1 p).1

/-- A decoder that moves to a state in which it takes entries, its position as it was. -/
theorem Taking.enter (h : Taking p d) (f : Decoder → Decoder) (takes : (f (d.decoder p)).state.takes = true)
    (same : SamePosition (d.decoder p) (f (d.decoder p)) := by exact ⟨rfl, rfl, rfl, rfl⟩) :
    Taking p (d.onDecoder p f) :=
  ⟨h.law.onDecoder_same p f same (.of_takes takes), by simpa using takes⟩

theorem Taking.onDecoder (h : Taking p d) (f : Decoder → Decoder)
    (state : (f (d.decoder p)).state = (d.decoder p).state := by exact rfl)
    (same : SamePosition (d.decoder p) (f (d.decoder p)) := by exact ⟨rfl, rfl, rfl, rfl⟩) :
    Taking p (d.onDecoder p f) :=
  h.enter f (by rw [state]; exact h.takes) same

theorem Taking.addFault (h : Taking p d) (k : FaultKind) : Taking p (d.addFault p k) :=
  ⟨h.law.addFault p k, by simpa using h.takes⟩

theorem Taking.addFaultIf (h : Taking p d) (k : FaultKind) (cond : Bool) : Taking p (d.addFaultIf p k cond) := by
  cases cond
  · exact h
  · exact h.addFault k

theorem Taking.onRecord (h : Taking p d) (f : ScoreRecord → ScoreRecord) : Taking p (d.onRecord p f) :=
  ⟨h.law.aside rfl rfl rfl, h.takes⟩

theorem Taking.dropFront (h : Taking p d) (n : Nat) : Taking p (d.dropFront p n) :=
  h.onDecoder fun c => { c with buffer := c.buffer.drop n }

theorem Taking.firstEntry (h : Taking p d) (isHeader : Bool) : Taking p (d.firstEntry p isHeader) := by
  unfold Device.firstEntry
  split
  · exact (h.addFaultIf _ _).enter (fun c => { c with state := .decoding }) rfl
  · exact h

theorem Taking.dropRepeat (h : Taking p d) : Taking p (d.dropRepeat p) := by
  unfold Device.dropRepeat
  split
  · exact (h.addFault _).onDecoder fun c => { c with pendingRepeat := none }
  · exact h

/-- A fault leaves the place in the chart, the state and the entry in hand. -/
theorem addFaultIf_decoder (d : Device) (p : Player) (k : FaultKind) (cond : Bool) :
    SamePosition (d.decoder p) ((d.addFaultIf p k cond).decoder p)
      ∧ ((d.addFaultIf p k cond).decoder p).state = (d.decoder p).state
      ∧ ((d.addFaultIf p k cond).decoder p).inHand = (d.decoder p).inHand := by
  cases cond
  · exact ⟨⟨rfl, rfl, rfl, rfl⟩, rfl, rfl⟩
  · have faulted : (d.addFaultIf p k true).decoder p = _ := (d.decoder_addFault p p k).trans (if_pos rfl)
    rw [faulted]
    exact ⟨⟨rfl, rfl, rfl, rfl⟩, rfl, rfl⟩

/-- The decoder after a move of its cursor (03 R33, R36). -/
theorem moveCursor_decoder (d : Device) (p : Player) (row : Nat) : ∃ faults, (d.moveCursor p row).decoder p
    = { d.decoder p with
        cursor := min row maxRow, rowTime := dueTime (d.decoder p).segment (min row maxRow), faults := faults } := by
  have gain (e : Device) (k : FaultKind) (cond : Bool) :
      ∃ faults, (e.addFaultIf p k cond).decoder p = { e.decoder p with faults := faults } := by
    cases cond
    · exact ⟨_, rfl⟩
    · exact ⟨_, (e.decoder_addFault p p k).trans (if_pos rfl)⟩
  obtain ⟨f₁, first⟩ := gain d .rowClamped (maxRow < row)
  obtain ⟨f₂, second⟩ := gain (d.addFaultIf p .rowClamped (maxRow < row)) .dueClamped
    (maxTime < rawDue (d.decoder p).segment (min row maxRow))
  refine ⟨f₂, ?_⟩
  rw [Device.moveCursor, Device.decoder_onDecoder, if_pos rfl, second, first]
  rfl

theorem moveCursor_session (d : Device) (p : Player) (row : Nat) : (d.moveCursor p row).session = d.session := by
  have faulted (e : Device) (k : FaultKind) (cond : Bool) : (e.addFaultIf p k cond).session = e.session := by
    cases cond
    · rfl
    · exact (Quiet.addFault e p k).session
  exact (faulted _ _ _).trans (faulted _ _ _)

/-- The cursor moves on (03 R33, R38). -/
theorem Taking.moveCursor (h : Taking p d) {row : Nat} (ahead : (d.decoder p).cursor ≤ row) :
    Taking p (d.moveCursor p row) := by
  have faulted := (h.addFaultIf .rowClamped (maxRow < row)).addFaultIf .dueClamped
    (maxTime < rawDue (d.decoder p).segment (min row maxRow))
  have same := (addFaultIf_decoder d p .rowClamped (maxRow < row)).1.trans
    (addFaultIf_decoder _ p .dueClamped (maxTime < rawDue (d.decoder p).segment (min row maxRow))).1
  unfold Device.moveCursor
  extract_lets at_ raw e₁ e₂
  have moved := faulted.position.moved (same.cursor ▸ ahead)
  have raw_eq : clampTime raw = dueTime (e₂.decoder p).segment (min row maxRow) := by rw [same.segment]; rfl
  refine ⟨faulted.law.onDecoder p _ ?_ (.of_takes faulted.takes) ?_ rfl, by simpa using faulted.takes⟩
  · rw [raw_eq]
    exact moved
  · change (e₂.decoder p).rowTime ≤ clampTime raw
    rw [raw_eq]
    exact faulted.position.2.2.2.1.trans (dueTime_mono _ (le_min (same.cursor ▸ ahead) faulted.position.2.1))

end

/-! ## A decoder with an entry in hand -/

/-- The order holds, and a player's decoder works at the entry in its hand; it has dropped it at most with its player
out of play (04 R51, R68). -/
structure Working (p : Player) (d : Device) : Prop extends Taking p d where
  hand : d.appendsFor p = true → (d.decoder p).inHand.isSome = true

/-- A part of the work on an entry has been done, and the place in the chart is the same. -/
def WorkedOn (p : Player) (d e : Device) : Prop :=
  Working p e ∧ SamePosition (d.decoder p) (e.decoder p) ∧ e.session.style = d.session.style

section
variable {p : Player} {d e : Device}

theorem Working.stay (h : Working p d) : WorkedOn p d d := ⟨h, ⟨rfl, rfl, rfl, rfl⟩, rfl⟩

theorem WorkedOn.trans {g : Device} (h : WorkedOn p d e) (k : WorkedOn p e g) : WorkedOn p d g :=
  ⟨k.1, h.2.1.trans k.2.1, k.2.2.trans h.2.2⟩

theorem Working.judged (h : Working p d) (k : Judged d e) : WorkedOn p d e := by
  have stays : d.appendsFor p = false → e.appendsFor p = false := k.out p
  refine ⟨⟨⟨h.law.judged k, ?_⟩, fun appends => ?_⟩, k.position p, k.style⟩ <;>
    rcases k.decoder p with same | ⟨gone, out⟩
  · exact same ▸ h.takes
  · rcases discarded_state (d.decoder p) with state | same <;> rw [gone]
    · rw [state]
      rfl
    · rw [same]
      exact h.takes
  · rw [same]
    refine h.hand (Bool.eq_true_of_not_eq_false fun out => ?_)
    rw [stays out] at appends
    cases appends
  · rw [out] at appends
    cases appends

theorem Working.steps (h : Working p d) (k : JudgeSteps d e) : WorkedOn p d e := h.judged (.steps k)

theorem Working.addFault (h : Working p d) (k : FaultKind) : WorkedOn p d (d.addFault p k) := by
  obtain ⟨same, state, inHand⟩ := addFaultIf_decoder d p k true
  refine ⟨⟨h.toTaking.addFault k, ?_⟩, same, (EntryFrame.addFault d p k).style⟩
  intro appends
  refine (congrArg Option.isSome inHand).trans (h.hand ?_)
  rwa [Device.appendsFor, Device.playerState, (Quiet.addFault d p k).session] at appends

theorem Working.clearMark (h : Working p d) (lane : Fin 12) : WorkedOn p d (d.clearMark p lane) :=
  ⟨⟨h.toTaking.onDecoder _, fun appends => by simpa [Device.clearMark] using h.hand appends⟩,
    by simpa [Device.clearMark] using ⟨rfl, rfl, rfl, rfl⟩, rfl⟩

theorem Working.handTail (h : Working p d) (lane : Fin 12) (row due : Nat) (forced : Bool) :
    WorkedOn p d (d.handTail p lane row due forced) := by
  unfold Device.handTail
  split
  · exact h.stay
  · exact h.steps (.takeTail d _ row due forced)

theorem Working.endOverlap (h : Working p d) (lane : Fin 12) (due : Nat) : WorkedOn p d (d.endOverlap p lane due) := by
  unfold Device.endOverlap
  split
  · exact h.stay
  · have faulted := h.addFault .holdOverlap
    have cleared := faulted.1.clearMark lane
    exact (faulted.trans cleared).trans (cleared.1.handTail lane _ _ _)

theorem Working.placeHoldEnd (h : Working p d) (lane : Fin 12) : WorkedOn p d (d.placeHoldEnd p lane) := by
  unfold Device.placeHoldEnd
  split
  · exact h.addFault _
  · have cleared := h.clearMark lane
    exact cleared.trans (cleared.1.handTail lane _ _ _)

/-! ## Appends -/

/-- A note for the place that the decoder has reached, on a lane that has none there yet. -/
structure NoteFits (c : Decoder) (lane : Fin 12) (n : Note) : Prop where
  row : n.row = c.cursor
  due : n.due = c.rowTime
  new : c.lastRow[lane] ≠ some c.cursor

theorem NoteFits.same {c c' : Decoder} {lane : Fin 12} {n : Note} (h : NoteFits c lane n) (k : SamePosition c c') :
    NoteFits c' lane n :=
  ⟨h.row.trans k.cursor.symm, h.due.trans k.rowTime.symm, by rw [k.lastRow, k.cursor]; exact h.new⟩

theorem appended_fields (c : Decoder) (lane : Fin 12) (n : Note) :
    (c.appended lane n).cursor = c.cursor ∧ (c.appended lane n).rowTime = c.rowTime
      ∧ (c.appended lane n).segment = c.segment ∧ (c.appended lane n).state = c.state
      ∧ (c.appended lane n).inHand = c.inHand
      ∧ (c.appended lane n).lastRow = c.lastRow.set lane.val (some n.row) lane.isLt := by
  unfold Decoder.appended
  dsimp only
  split <;> exact ⟨rfl, rfl, rfl, rfl, rfl, rfl⟩

/-- A note of the place that the decoder has reached goes behind those of its lane (08 R109). -/
theorem LaneOrdered.append {c : Decoder} {lane : Fin 12} {queue : List Note} {n : Note} (position : PositionLaw c)
    (h : LaneOrdered c lane queue) (fits : NoteFits c lane n) :
    LaneOrdered (c.appended lane n) lane (queue ++ [n]) := by
  obtain ⟨-, rowTime, -, -, -, lastRow⟩ := appended_fields c lane n
  have last : (c.appended lane n).lastRow[lane] = some n.row := by simp [lastRow]
  have behind : ∀ m ∈ queue, m.row < n.row ∧ m.due ≤ n.due := by
    intro m hm
    obtain ⟨due, r, hr, row⟩ := h.2 m hm
    have reached := position.2.2.2.2 lane r hr
    have before : r ≠ c.cursor := fun same => fits.new (same ▸ hr)
    rw [fits.row, fits.due]
    exact ⟨by omega, due⟩
  refine ⟨List.pairwise_append.2 ⟨h.1, List.pairwise_singleton _ _, fun m hm x hx => ?_⟩, fun m hm => ?_⟩
  · exact List.mem_singleton.1 hx ▸ behind m hm
  · rw [rowTime, last]
    rcases List.mem_append.1 hm with old | new
    · exact ⟨(h.2 m old).1, n.row, rfl, (behind m old).1.le⟩
    · rw [List.mem_singleton.1 new]
      exact ⟨fits.due.le, n.row, rfl, le_refl _⟩

/-- Another lane's queue does not see the append. -/
theorem LaneOrdered.appended_other {c : Decoder} {lane lane' : Fin 12} {queue : List Note} {n : Note}
    (h : LaneOrdered c lane' queue) (other : lane' ≠ lane) : LaneOrdered (c.appended lane n) lane' queue := by
  obtain ⟨-, rowTime, -, -, -, lastRow⟩ := appended_fields c lane n
  refine h.later rowTime.ge ?_
  have apart : lane.val ≠ lane'.val := fun same => other (Fin.ext same.symm)
  simp [lastRow, Vector.getElem_set_ne, apart]

theorem PositionLaw.appended {c : Decoder} {lane : Fin 12} {n : Note} (law : PositionLaw c)
    (row : n.row = c.cursor) : PositionLaw (c.appended lane n) := by
  obtain ⟨cursor, rowTime, segment, -, -, lastRow⟩ := appended_fields c lane n
  obtain ⟨first, range, limit, time, rows⟩ := law
  refine ⟨by rw [segment, cursor]; exact first, by rw [cursor]; exact range, by rw [rowTime]; exact limit,
    by rw [rowTime, segment, cursor]; exact time, fun k r hr => ?_⟩
  rw [cursor]
  by_cases own : lane.val = k.val
  · simp only [lastRow, Fin.getElem_fin, own, Vector.getElem_set_self, Option.some.injEq] at hr
    exact (row ▸ hr ▸ le_refl _ : r ≤ c.cursor)
  · refine rows k r ?_
    simpa only [lastRow, Fin.getElem_fin, Vector.getElem_set_ne _ _ own] using hr

/-- A note joins its lane's queue, and the decoder counts it (04 R56). -/
theorem OrderLaw.append (law : OrderLaw d) {lane : Fin 12} {q : LaneQueue} {n : Note}
    (hq : queueOf d.session.style p lane = some q) (fits : NoteFits (d.decoder p) lane n)
    (takes : (d.decoder p).state.takes = true) :
    OrderLaw ((d.onLane q fun l => { l with queue := l.queue ++ [n] }).onDecoder p fun c => c.appended lane n) := by
  rw [orderLaw_iff] at law ⊢
  have position := (law.1 p).1
  refine ⟨fun x => ?_, fun x lane' q' hq' => ?_⟩ <;> rw [Device.decoder_onDecoder]
  · split
    · obtain ⟨-, -, -, state, -, -⟩ := appended_fields (d.decoder p) lane n
      exact ⟨position.appended fits.row, .of_takes (by rw [← state] at takes; exact takes)⟩
    · exact law.1 x
  · rw [Device.onDecoder_lane, Device.lane_onLane]
    have old := law.2 x lane' q' hq'
    by_cases sameQueue : q' = q
    · obtain ⟨player, sameLane⟩ := queueOf_some (sameQueue ▸ hq')
      obtain ⟨player', sameLane'⟩ := queueOf_some hq
      obtain rfl : x = p := player.trans player'.symm
      obtain rfl : lane' = lane := sameLane.trans sameLane'.symm
      rw [if_pos rfl, if_pos sameQueue]
      exact old.append position fits
    · rw [if_neg sameQueue]
      split
      · rename_i own
        subst own
        refine LaneOrdered.appended_other old fun same => sameQueue ?_
        subst same
        exact Option.some.inj (hq'.symm.trans hq)
      · exact old

theorem Working.acceptNote (h : Working p d) {lane : Fin 12} {q : LaneQueue} {n : Note}
    (hq : queueOf d.session.style p lane = some q) (fits : NoteFits (d.decoder p) lane n) :
    Working p (d.acceptNote p lane q n)
      ∧ ((d.acceptNote p lane q n).decoder p).cursor = (d.decoder p).cursor := by
  unfold Device.acceptNote
  extract_lets n' e₁ e₂
  have fits' : NoteFits (d.decoder p) lane n' := ⟨fits.row, fits.due, fits.new⟩
  obtain ⟨cursor, -, -, state, inHand, -⟩ := appended_fields (d.decoder p) lane n'
  let g := e₁.onDecoder p fun c => c.appended lane n'
  have decoder : g.decoder p = (d.decoder p).appended lane n' := (Device.decoder_onDecoder ..).trans (if_pos rfl)
  have counted : Working p g := by
    refine ⟨⟨h.law.append hq fits' h.takes, ?_⟩, fun appends => ?_⟩ <;> rw [decoder]
    · rw [state]
      exact h.takes
    · rw [inHand]
      exact h.hand appends
  have handed : Judged g e₂ := by
    change Judged g (g.handUnits p n'.kind)
    cases n'.kind
    case avoid => exact .refl g
    all_goals exact .of_same rfl rfl rfl
  have examined := (counted.judged handed).trans ((counted.judged handed).1.steps (.examineAppended e₂ q n'))
  exact ⟨examined.1, examined.2.1.cursor.trans ((congrArg Decoder.cursor decoder).trans cursor)⟩

/-- What a step of work leaves: the work goes on from the row given, or the full queue of a lane stalls it with a note
of that row (04 R56). -/
def StepLeaves (p : Player) (lane : Fin 12) (row : Nat) : WorkResult → Prop
  | .done e => Working p e ∧ (e.decoder p).cursor = row
  | .stall e n => Working p e ∧ (e.decoder p).inHand.isSome = true ∧ NoteFits (e.decoder p) lane n
      ∧ (e.decoder p).cursor = row

theorem Working.appendStep (h : Working p d) {lane : Fin 12} {n : Note} (fits : NoteFits (d.decoder p) lane n) :
    StepLeaves p lane (d.decoder p).cursor (d.appendStep p lane n) := by
  unfold Device.appendStep Device.tryAppend
  split
  · rename_i e taken
    split at taken
    · cases taken
      exact ⟨h, rfl⟩
    · rename_i q hq
      split at taken
      · cases taken
        exact ⟨h, rfl⟩
      · cases taken
      · cases taken
        exact h.acceptNote hq fits
  · rename_i taken
    split at taken
    · cases taken
    · rename_i q hq
      split at taken
      · cases taken
      · rename_i full
        have appends : d.appendsFor p = true := by
          unfold Device.appendAnswer at full
          split_ifs at full with out
          simpa using out
        exact ⟨h, h.hand appends, fits, rfl⟩
      · cases taken

/-! ## The work of a NOTES entry -/

/-- A step of work fits a decoder: it moves the cursor on, or it appends a note of the place reached. -/
def WorkFits (c : Decoder) : Work → Prop
  | .moveTo row => c.cursor ≤ row
  | .place _ _ => True
  | .append lane n => NoteFits c lane n

/-- The row on which a step of work leaves the cursor. -/
def workRow (c : Decoder) : Work → Nat
  | .moveTo row => min row maxRow
  | .place _ _ => c.cursor
  | .append _ _ => c.cursor

theorem Working.placeNote (h : Working p d) (kind : NoteKind) (lane : Fin 12) :
    StepLeaves p lane (d.decoder p).cursor (d.placeNote p kind lane) := by
  have appends (e : Device) (k : WorkedOn p d e) (new : (d.decoder p).lastRow[lane] ≠ some (d.decoder p).cursor) :
      StepLeaves p lane (d.decoder p).cursor (e.appendStep p lane ((d.decoder p).noteAt kind)) := by
    have fits : NoteFits (d.decoder p) lane ((d.decoder p).noteAt kind) := ⟨rfl, rfl, new⟩
    have left := k.1.appendStep (fits.same k.2.1)
    rwa [k.2.1.cursor] at left
  unfold Device.placeNote
  dsimp only
  split
  · have faulted := h.addFault .duplicate
    exact ⟨faulted.1, faulted.2.1.cursor⟩
  · rename_i new
    split
    · exact appends d h.stay new
    · exact appends _ (h.endOverlap lane _) new

theorem Working.workStep (h : Working p d) {w : Work} (fits : WorkFits (d.decoder p) w) :
    StepLeaves p w.laneOf (workRow (d.decoder p) w) (d.workStep p w) := by
  match w, fits with
  | .moveTo row, ahead =>
    obtain ⟨faults, decoder⟩ := moveCursor_decoder d p row
    refine ⟨⟨h.toTaking.moveCursor ahead, fun appends => ?_⟩, by rw [decoder]; rfl⟩
    rw [decoder]
    refine h.hand ?_
    rwa [Device.appendsFor, Device.playerState, moveCursor_session] at appends
  | .place .tap lane, _ => exact h.placeNote .tap lane
  | .place .holdStart lane, _ => exact h.placeNote .holdStart lane
  | .place .avoid lane, _ => exact h.placeNote .avoid lane
  | .place .holdEnd lane, _ =>
    have placed := h.placeHoldEnd lane
    exact ⟨placed.1, placed.2.1.cursor⟩
  | .append lane n, fits => exact h.appendStep fits

/-- The work that a stalled decoder keeps, or one that goes on, fits its place step by step. -/
theorem workRows_cons {c : Decoder} {w : Work} {ws : List Work} (h : WorkRows c.cursor (w :: ws)) :
    WorkFits c w ∧ WorkRows (workRow c w) ws := by
  cases w with
  | moveTo row => exact h
  | place => exact ⟨trivial, h⟩
  | append => exact h.elim

/-- The law of a decoder that stalls on a lane (04 R56). -/
theorem Working.stall (h : Working p d) {lane : Fin 12} {n : Note} {ws : List Work}
    (hand : (d.decoder p).inHand.isSome = true) (fits : NoteFits (d.decoder p) lane n)
    (rows : WorkRows (d.decoder p).cursor ws) :
    OrderLaw (d.onDecoder p fun c => c.stalled .stalledLane (.notes (.append lane n :: ws))) := by
  obtain ⟨entry, inHand⟩ := Option.isSome_iff_exists.1 hand
  refine h.law.onDecoder_same p _ ⟨rfl, rfl, rfl, rfl⟩ ⟨fun _ => ?_, nofun⟩
  exact ⟨entry.size, lane, n, ws, by simp [Decoder.stalled, inHand], fits.row, fits.due, fits.new, rows⟩

theorem Working.finish (h : Working p d) : OrderLaw (d.onDecoder p Decoder.notesFinished) :=
  (h.toTaking.onDecoder Decoder.notesFinished).law

/-- The work of an entry in hand keeps the order, to its end or to a stall (04 R51, R56). -/
theorem Working.runWork (h : Working p d) {ws : List Work}
    (fits : ∀ w rest, ws = w :: rest → WorkFits (d.decoder p) w ∧ WorkRows (workRow (d.decoder p) w) rest) :
    OrderLaw (runWork p ws d) := by
  induction ws generalizing d with
  | nil =>
    unfold Machine.runWork
    split
    · exact h.law
    · exact h.finish
  | cons w ws ih =>
    obtain ⟨first, rows⟩ := fits w ws rfl
    have left := h.workStep first
    unfold Machine.runWork
    split
    · exact h.law
    · split <;> rename_i step <;> rw [step] at left
      · obtain ⟨working, cursor⟩ := left
        refine ih working fun w' rest eq => workRows_cons ?_
        rw [← eq, cursor]
        exact rows
      · obtain ⟨working, hand, fits, cursor⟩ := left
        exact working.stall hand fits (cursor ▸ rows)

/-! ## Entries -/

theorem workRows_placements (cursor : Nat) (kind : SubKind) (lanes : List (Fin 12)) (ws : List Work) :
    WorkRows cursor (placements kind lanes ++ ws) ↔ WorkRows cursor ws := by
  induction lanes with
  | nil => rfl
  | cons lane lanes ih => exact ih

/-- Repetitions go on from row to row (04 R60). -/
theorem workRows_repetitions (kind : SubKind) (lanes : List (Fin 12)) (base spacing n : Nat) {from_ cursor : Nat}
    (h : cursor ≤ base + (from_ + 1) * spacing) :
    WorkRows cursor ((List.range' from_ n).flatMap fun k =>
      Work.moveTo (base + (k + 1) * spacing) :: placements kind lanes) := by
  induction n generalizing from_ cursor with
  | zero => trivial
  | succ n ih =>
    rw [List.range'_succ, List.flatMap_cons, List.cons_append]
    refine ⟨h, (workRows_placements ..).2 (ih ?_)⟩
    have next : (from_ + 1 + 1) * spacing = (from_ + 1) * spacing + spacing := by ring
    exact (min_le_left _ _).trans (by omega)

theorem workRows_notesWork (c : Decoder) (lanes : Nat) (kind : SubKind) (mask : Nat) :
    WorkRows c.cursor (notesWork c lanes kind mask) := by
  unfold notesWork
  dsimp only
  split
  · have alone := workRows_placements c.cursor kind (maskLanes lanes mask) []
    rw [List.append_nil] at alone
    exact alone.2 trivial
  · rename_i times spacing _
    rw [workRows_placements, laterRepetitions, List.range_eq_range']
    exact workRows_repetitions _ _ _ _ _ (Nat.le_add_right _ _)

theorem Taking.takeInHand (h : Taking p d) (size : Nat) (task : Task) :
    Working p (d.onDecoder p fun c => c.takeInHand size task) :=
  ⟨h.onDecoder _, fun _ => by simp [Decoder.takeInHand]⟩

/-- A tempo map entry of the place reached, offered: the decoder starts its segment, or stalls (04 R54). -/
theorem OrderLaw.offer (law : OrderLaw d) {g : Segment} (hand : (d.decoder p).inHand.isSome = true)
    (takes : (d.decoder p).state.takes = true) (row : g.row = (d.decoder p).cursor)
    (time : (d.decoder p).rowTime ≤ g.segTime) : OrderLaw (d.offer p g) := by
  have takeOffer : OrderLaw (d.takeOffer p g) := by
    have tracked : OrderLaw (d.onTracker p fun k => { k with map := k.map ++ [g] }) := law.aside rfl rfl rfl
    have begun := tracked.onDecoder p (fun c => { c with segment := g.forDecoder }) ((law.1 p).1.inSegment row time)
      (.of_takes takes) (le_refl _) rfl
    exact begun.onDecoder_same p Decoder.finished ⟨rfl, rfl, rfl, rfl⟩
      (.of_takes (by simpa [Decoder.finished] using takes))
  unfold Device.offer
  split
  · rw [Device.acceptOffer_eq]
    have tracked := Aside.advanceTracker (d.takeOffer p g) p
    exact OrderLaw.aside takeOffer (by rw [tracked.session]) tracked.decoders tracked.lanes
  · obtain ⟨entry, inHand⟩ := Option.isSome_iff_exists.1 hand
    refine law.onDecoder_same p _ ⟨rfl, rfl, rfl, rfl⟩ ⟨nofun, fun _ => ?_⟩
    exact ⟨entry.size, g, by simp [Decoder.stalled, inHand], row, time⟩

end

end Sys2Proof.Safety
end
-- ==== Sys2Proof/Proofs/OrderSteps.lean ====
section
/-!
The order of the lane queues through every deed of a step, and so through every step (O58).
-/
namespace Sys2Proof.Safety
open Sys2Proof.Machine

section
variable {p : Player} {d : Device}

/-! ## A tempo map entry of the place reached -/

/-- The segment of a TEMPO begins at the place reached (03 R39). -/
theorem tempoSegment_begins (c : Decoder) (period : Nat) :
    (c.tempoSegment period).row = c.cursor ∧ c.rowTime ≤ (c.tempoSegment period).segTime :=
  ⟨rfl, le_refl _⟩

/-- The segment of a DWELL begins at the row reached, and no earlier than its row time (03 R36, R40). -/
theorem dwellSegment_begins {c : Decoder} (law : PositionLaw c) (length : Nat) :
    (c.dwellSegment length).row = c.cursor ∧ c.rowTime ≤ (c.dwellSegment length).segTime := by
  obtain ⟨-, -, limit, -, -⟩ := law
  exact ⟨rfl, le_min (Nat.le_add_right _ _) limit⟩

/-- A decoder that takes entries begins a segment at the place reached. -/
theorem Taking.inSegment (h : Taking p d) {g : Segment} (begins : g.row = (d.decoder p).cursor
    ∧ (d.decoder p).rowTime ≤ g.segTime) : Taking p (d.onDecoder p fun c => { c with segment := g.forDecoder }) :=
  ⟨h.law.onDecoder p _ (h.position.inSegment begins.1 begins.2) (.of_takes h.takes) (le_refl _) rfl,
    by simpa using h.takes⟩

/-- A tempo map entry of the place reached, taken in hand and offered (04 R54). -/
theorem Taking.offer (h : Taking p d) {g : Segment} (begins : g.row = (d.decoder p).cursor
    ∧ (d.decoder p).rowTime ≤ g.segTime) :
    OrderLaw ((d.onDecoder p fun c => c.takeInHand 5 (.offer g)).offer p g) := by
  have working := h.takeInHand 5 (.offer g)
  refine OrderLaw.offer working.law ?_ working.takes ?_ ?_ <;>
    rw [Device.decoder_onDecoder, if_pos rfl]
  · rfl
  · exact begins.1
  · exact begins.2

/-! ## Entries -/

theorem Taking.discardEntry (h : Taking p d) (x : Entry) : OrderLaw (d.discardEntry p x) := by
  cases x with
  | rows count => exact ((h.moveCursor (Nat.le_add_right _ count)).dropFront _).law
  | tempo period =>
    have faulted := h.addFaultIf .tempoClamped (clampPeriod period != period)
    exact ((faulted.inSegment (tempoSegment_begins _ period)).dropFront _).law
  | dwell length =>
    have faulted := (h.addFaultIf .dwellClamped (clampDwell length != length)).addFaultIf .dueClamped
      (maxTime < (d.decoder p).rowTime + clampDwell length)
    exact ((faulted.inSegment (dwellSegment_begins faulted.position length)).dropFront _).law
  | badTag => exact ((h.addFault _).dropFront _).law
  | header | notes | repeated | ending => exact (h.dropFront _).law

theorem Taking.actHeader (h : Taking p d) (noteTotal holdTotal : Nat) :
    OrderLaw (d.actHeader p noteTotal holdTotal) := by
  unfold Device.actHeader
  split
  · have counted := (h.firstEntry true).onDecoder fun c => { c with noteTotal := noteTotal, holdTotal := holdTotal }
    exact ((counted.onRecord _).dropFront _).law
  · exact ((h.dropRepeat.addFault _).dropFront _).law

theorem Taking.actNotes (h : Taking p d) (kind : SubKind) (mask : Nat) : OrderLaw (d.actNotes p kind mask) := by
  unfold Device.actNotes
  extract_lets e₁ e₂ lanes e₃ work
  have first : Taking p e₁ := h.firstEntry false
  have kept : Taking p e₂ := by
    change Taking p (if kind.repeats then e₁ else e₁.dropRepeat p)
    split
    · exact first
    · exact first.dropRepeat
  have faulted : Taking p e₃ := kept.addFaultIf _ _
  refine (faulted.takeInHand 3 (.notes work)).runWork fun w rest eq => workRows_cons ?_
  have rows := workRows_notesWork (e₃.decoder p) lanes kind mask
  rwa [← eq, Device.decoder_onDecoder, if_pos rfl]

theorem Working.forceEnd (h : Working p d) (lane : Fin 12) : Working p (Device.forceEnd p d lane) := by
  unfold Device.forceEnd
  split
  · exact h
  · split
    · exact h
    · exact ((h.clearMark lane).1.handTail lane _ _ _).1

theorem Working.forceEnds (h : Working p d) (lanes : List (Fin 12)) :
    Working p (lanes.foldl (Device.forceEnd p) d) := by
  induction lanes generalizing d with
  | nil => exact h
  | cons lane lanes ih => exact ih (h.forceEnd lane)

/-- Bytes behind an END leave the decoder's place and state as they were (04 R64). -/
theorem OrderLaw.discardAfterEnd (law : OrderLaw d) (p : Player) : OrderLaw (d.discardAfterEnd p) := by
  unfold Device.discardAfterEnd
  split
  · have faulted := OrderLaw.addFault law p .afterEnd
    exact faulted.onDecoder_same p (fun c => { c with buffer := [] }) ⟨rfl, rfl, rfl, rfl⟩ (faulted.1 p).2
  · exact law

theorem Working.enterEnded (h : Working p d) : OrderLaw (d.enterEnded p) := by
  unfold Device.enterEnded
  split
  · exact h.law
  · have ended := h.law.onDecoder_same p (fun c => { c.finished with state := .ended }) ⟨rfl, rfl, rfl, rfl⟩
      ⟨nofun, nofun⟩
    exact (OrderLaw.discardAfterEnd ended p).judged (.steps (.examineDone _ p))

theorem Taking.actEntry (h : Taking p d) (x : Entry) : OrderLaw (d.actEntry p x) := by
  have first := (h.firstEntry false).dropRepeat
  cases x with
  | header noteTotal holdTotal => exact h.actHeader noteTotal holdTotal
  | rows count => exact ((first.moveCursor (Nat.le_add_right _ count)).dropFront _).law
  | notes kind mask => exact h.actNotes kind mask
  | repeated times spacing => exact ((first.onDecoder _).dropFront _).law
  | tempo period => exact (first.addFaultIf _ _).offer (tempoSegment_begins _ period)
  | dwell length =>
    have faulted := (first.addFaultIf .dwellClamped (clampDwell length != length)).addFaultIf .dueClamped
      (maxTime < (((d.firstEntry p false).dropRepeat p).decoder p).rowTime + clampDwell length)
    exact faulted.offer (dwellSegment_begins faulted.position length)
  | ending => exact ((first.takeInHand 1 (.notes [])).forceEnds _).enterEnded
  | badTag => exact ((h.addFault _).dropFront _).law

/-- An entry taken keeps the order. -/
theorem OrderLaw.takeEntry (law : OrderLaw d) {x : Entry} (next : d.nextEntry p = some x) :
    OrderLaw (d.takeEntry p x) := by
  have takes : (d.decoder p).state.takes = true := by
    unfold Device.nextEntry at next
    split at next
    · assumption
    · cases next
  have taking : Taking p d := ⟨law, takes⟩
  unfold Device.takeEntry
  split
  · exact taking.discardEntry x
  · exact taking.actEntry x

/-! ## Stalled decoders -/

/-- Only a stalled decoder is retried (04 R62). -/
theorem stallFree_state (free : d.stallFree p = true) :
    (d.decoder p).state = .stalledLane ∨ (d.decoder p).state = .stalledTempo := by
  unfold Device.stallFree at free
  split at free
  · exact .inl ‹_›
  · exact .inr ‹_›
  · cases free

/-- A retry that finds its place free goes on with the entry in hand (04 R62). -/
theorem OrderLaw.releaseStall (law : OrderLaw d) (p : Player) : OrderLaw (d.releaseStall p) := by
  unfold Device.releaseStall
  split
  case isFalse => exact law
  rename_i free
  obtain ⟨lane_law, tempo_law⟩ := (law.1 p).2
  have resumed : OrderLaw (d.onDecoder p fun c => { c with state := .decoding }) :=
    law.onDecoder_same p _ ⟨rfl, rfl, rfl, rfl⟩ (.of_takes rfl)
  rcases stallFree_state free with stalled | stalled
  · obtain ⟨size, lane, n, rest, hand, row, due, new, rows⟩ := lane_law stalled
    rw [hand]
    have working : Working p (d.onDecoder p fun c => { c with state := .decoding }) :=
      ⟨⟨resumed, by simp [DecoderState.takes]⟩, fun _ => by simp [hand]⟩
    refine working.runWork fun w ws eq => ?_
    cases eq
    rw [Device.decoder_onDecoder, if_pos rfl]
    exact ⟨⟨row, due, new⟩, rows⟩
  · obtain ⟨size, g, hand, row, time⟩ := tempo_law stalled
    rw [hand]
    refine OrderLaw.offer resumed ?_ ?_ ?_ ?_ <;> rw [Device.decoder_onDecoder, if_pos rfl]
    · simp [hand]
    · rfl
    · exact row
    · exact time

/-! ## Bytes, session events and resets -/

theorem OrderLaw.bufferByte (law : OrderLaw d) (p : Player) (b : Byte) : OrderLaw (d.bufferByte p b) :=
  OrderLaw.discardAfterEnd
    (law.onDecoder_same p (fun c => { c with buffer := c.buffer ++ [b] }) ⟨rfl, rfl, rfl, rfl⟩ (law.1 p).2) p

/-- A decoder at the first row, which nothing has been placed on. -/
theorem PositionLaw.of_same_reset {c : Decoder} (h : SamePosition .reset c) : PositionLaw c := by
  refine PositionLaw.same ⟨le_refl _, Nat.zero_le _, Nat.zero_le _, Nat.zero_le _, fun k r hr => ?_⟩ h
  simp [Decoder.reset] at hr

/-- Decoders at the first row and empty lanes are in order. -/
theorem OrderLaw.of_empty {e : Device} (position : ∀ p, SamePosition .reset (e.decoder p))
    (hand : ∀ p, InHandLaw (e.decoder p)) (lanes : ∀ q, (e.lane q).queue = []) : OrderLaw e := by
  rw [orderLaw_iff]
  refine ⟨fun p => ⟨.of_same_reset (position p), hand p⟩, fun p lane q _ => ?_⟩
  rw [lanes q]
  exact ⟨List.Pairwise.nil, nofun⟩

theorem OrderLaw.opened (d : Device) (s : Session) : OrderLaw (d.openWith s) := by
  refine .of_empty (fun p => ?_) (fun p => ?_) fun q => congrArg Lane.queue (emptied_lane d.judge q)
  · cases p <;> exact ⟨rfl, rfl, rfl, rfl⟩
  · have stands (named : Bool) : InHandLaw (Decoder.opened named) := by cases named <;> exact ⟨nofun, nofun⟩
    cases p
    · exact stands s.named.p1
    · exact stands s.named.p2

theorem OrderLaw.returned (d : Device) : OrderLaw d.returnToIdle := by
  refine .of_empty (fun p => ?_) (fun p => ?_) fun q => congrArg Lane.queue (emptied_lane d.judge q)
  · cases p <;> exact ⟨rfl, rfl, rfl, rfl⟩
  · cases p <;> exact ⟨nofun, nofun⟩

theorem OrderLaw.reset {e : Device} (decoders : e.decoders = ⟨.reset, .reset⟩) (judge : e.judge = .reset) :
    OrderLaw e := by
  have decoder (p : Player) : e.decoder p = .reset := by cases p <;> rw [Device.decoder, decoders] <;> rfl
  refine .of_empty (fun p => ?_) (fun p => ?_) fun q => ?_
  · rw [decoder]
    exact ⟨rfl, rfl, rfl, rfl⟩
  · rw [decoder]
    exact ⟨nofun, nofun⟩
  · rw [Device.lane, judge]
    exact congrArg Lane.queue (Vector.getElem_replicate ..)

theorem OrderLaw.started (law : OrderLaw d) : OrderLaw d.startSong := by
  obtain ⟨judge, decoders⟩ := startSong_same d
  exact law.aside (by rw [Device.startSong_session]; rfl) decoders (by rw [judge])

/-- Every deed keeps the order. -/
theorem OrderLaw.deed {e : Device} (h : Deed d e) (law : OrderLaw d) : OrderLaw e := by
  cases h with
  | judge steps => exact law.judged (.steps steps)
  | entry p x next => exact OrderLaw.takeEntry law next
  | retry p => exact OrderLaw.releaseStall law p
  | byte p b => exact OrderLaw.bufferByte law p b
  | opened s => exact .opened d s
  | started => exact OrderLaw.started law
  | returned => exact .returned d
  | reset _ decoders judge => exact .reset decoders judge
  | aside h => exact law.aside (by rw [h.session]) h.decoders h.lanes

end

end Sys2Proof.Safety

section
open Sys2Proof.Machine Sys2Proof.Safety

/-- Settles O58: a step is a chain of deeds, and each keeps the order, since a decoder's cursor only moves on. -/
theorem queuesStayInOrder : Obligations.QueuesStayInOrder := by
  unfold Obligations.QueuesStayInOrder
  intro s t h law
  exact (step_deeds h).keeps (fun _ _ deed law => OrderLaw.deed deed law) law

end
end
-- ==== Sys2Proof/Proofs/GradeWindows.lean ====
section
/-!
Grade windows (03 R41, 08 R112): the grade of an offset is that of the first window that holds it, and a window that
holds an offset holds every nearer one on the same side of the due time.
-/
namespace Sys2Proof.Machine

/-- The window of a grade. -/
def Windows.window (w : Windows) : Grade → Window
  | .exact => w.exact
  | .great => w.great
  | .good => w.good
  | .fair => w.fair
  | .poor => w.poor

theorem Window.holds_iff (w : Window) (o : Int) : w.holds o = true ↔ -(w.early : Int) ≤ o ∧ o ≤ w.late := by
  simp [Window.holds]

/-- A window holds what is nearer on the same side. -/
theorem Window.holds_nearer {w : Window} {near far : Int} (side : 0 ≤ near ∧ near ≤ far ∨ far ≤ near ∧ near ≤ 0)
    (h : w.holds far = true) : w.holds near = true := by
  rw [Window.holds_iff] at h ⊢
  omega

/-- A wider window holds what a narrower one does. -/
theorem Window.atLeast_holds {outer inner : Window} {o : Int} (wider : outer.atLeast inner = true)
    (h : inner.holds o = true) : outer.holds o = true := by
  simp only [Window.atLeast, Bool.and_eq_true, decide_eq_true_eq] at wider
  rw [Window.holds_iff] at h ⊢
  omega

/-- The window of the grade that an offset earns holds it. -/
theorem Windows.window_holds_of_gradeOf {w : Windows} {o : Int} {g : Grade} (h : w.gradeOf o = some g) :
    (w.window g).holds o = true := by
  unfold Windows.gradeOf at h
  split_ifs at h <;> cases h <;> assumption

/-- An offset that a grade's window holds earns that grade or a better one. -/
theorem Windows.gradeOf_of_window_holds {w : Windows} {o : Int} {g : Grade} (h : (w.window g).holds o = true) :
    ∃ g', w.gradeOf o = some g' ∧ g'.toNat ≤ g.toNat := by
  unfold Windows.gradeOf
  cases g <;> simp only [Windows.window] at h <;> split_ifs <;> exact ⟨_, rfl, by decide⟩

/-- An offset earns no grade where no window holds it. -/
theorem Windows.gradeOf_eq_none_iff (w : Windows) (o : Int) :
    w.gradeOf o = none ↔ ∀ g, (w.window g).holds o = false := by
  constructor
  · intro none_ g
    refine Bool.eq_false_iff.2 fun held => ?_
    obtain ⟨g', some_, -⟩ := Windows.gradeOf_of_window_holds held
    rw [none_] at some_
    cases some_
  · intro out
    refine Option.eq_none_iff_forall_ne_some.2 fun g some_ => ?_
    exact Bool.false_ne_true ((out g).symm.trans (Windows.window_holds_of_gradeOf some_))

/-- Under a nested table POOR holds what any window holds. -/
theorem Windows.nested_poor_holds {w : Windows} (nested : w.nested = true) {o : Int} (g : Grade)
    (h : (w.window g).holds o = true) : w.poor.holds o = true := by
  simp only [Windows.nested, Bool.and_eq_true] at nested
  obtain ⟨⟨⟨great, good⟩, fair⟩, poor⟩ := nested
  have of_fair := Window.atLeast_holds poor (o := o)
  have of_good := fun h => of_fair (Window.atLeast_holds fair h)
  have of_great := fun h => of_good (Window.atLeast_holds good h)
  cases g with
  | exact => exact of_great (Window.atLeast_holds great h)
  | great => exact of_great h
  | good => exact of_good h
  | fair => exact of_fair h
  | poor => exact h

end Sys2Proof.Machine

section
open Sys2Proof.Machine Sys2Proof.Safety

/-- Settles O31: the far press's window holds the near one, and a nested table's windows lie within POOR. -/
theorem nearerPressGradesNoWorse : Obligations.NearerPressGradesNoWorse := by
  unfold Obligations.NearerPressGradesNoWorse
  refine fun w near far => ⟨fun g side graded => ?_, fun nested => ?_⟩
  · exact Windows.gradeOf_of_window_holds (Window.holds_nearer side (Windows.window_holds_of_gradeOf graded))
  · have outside : w.poor.holds far = false ↔ far < -(w.poor.early : Int) ∨ (w.poor.late : Int) < far := by
      rw [← Bool.not_eq_true, Window.holds_iff]
      omega
    rw [← outside, Windows.gradeOf_eq_none_iff]
    refine ⟨fun out => out .poor, fun out g => Bool.eq_false_iff.2 fun held => ?_⟩
    rw [Windows.nested_poor_holds nested g held] at out
    cases out

end
end
-- ==== Sys2Proof/Proofs/RowsEntries.lean ====
section
/-!
ROWS entries and bad tags (O34): what the entry at the front of a buffer is, and how each part of a ROWS entry moves the
decoder.
-/
namespace Sys2Proof.Machine
open Sys2Proof.Safety

/-! ## The entry that a decoder takes next -/

/-- Two bytes of room behind a tag. -/
theorem two_le_length (a b : Byte) (rest : List Byte) : 2 ≤ (a :: b :: rest).length := Nat.le_add_left 2 rest.length

theorem frontEntry_rows {tag : Byte} (a b : Byte) (rest : List Byte) (h : tag.toNat / 16 = 2) :
    frontEntry (tag :: a :: b :: rest)
      = some (if a.toNat * 256 + b.toNat = 0 then .badTag else .rows (a.toNat * 256 + b.toNat)) := by
  simp only [frontEntry, h, two_le_length, if_true]
  rfl

theorem frontEntry_repeat {tag : Byte} (a b : Byte) (rest : List Byte) (h : tag.toNat / 16 = 4) :
    frontEntry (tag :: a :: b :: rest)
      = some (if a.toNat = 0 ∨ b.toNat = 0 then .badTag else .repeated a.toNat b.toNat) := by
  simp only [frontEntry, h, two_le_length, if_true]
  rfl

theorem subKindOf_unknown {nibble : Nat} (h : 4 ≤ nibble) : subKindOf nibble = none := by
  unfold subKindOf
  split
  case h_5 => rfl
  all_goals omega

/-- A tag of unknown kind, and a NOTES tag of unknown sub-kind, are bad tags (04 R49, R65). -/
theorem frontEntry_unknown {tag : Byte} (rest : List Byte)
    (h : tag.toNat / 16 = 0 ∨ 7 ≤ tag.toNat / 16 ∧ tag.toNat / 16 ≤ 14 ∨ tag.toNat / 16 = 3 ∧ 4 ≤ tag.toNat % 16) :
    frontEntry (tag :: rest) = some .badTag := by
  rcases h with zero | range | ⟨notes, unknown⟩
  · simp only [frontEntry, zero]
  · simp only [frontEntry]
    split
    case h_8 => rfl
    all_goals omega
  · simp only [frontEntry, notes, subKindOf_unknown unknown]

section
variable {d : Device} {p : Player}

theorem Device.nextEntry_of_front {e : Entry} (takes : (d.decoder p).state.takes = true)
    (front : frontEntry (d.decoder p).buffer = some e) : d.nextEntry p = some e := by
  rw [Device.nextEntry, if_pos takes, front]

theorem Device.takeKind_own {e : Entry} (next : d.nextEntry p = some e) : d.takeKind p e.kind = d.takeEntry p e := by
  simp [Device.takeKind, next]

theorem Device.takeKind_other {e : Entry} {k : EntryKind} (next : d.nextEntry p = some e) (other : e.kind ≠ k) :
    d.takeKind p k = d := by
  simp [Device.takeKind, next, other]

/-- A command for another kind of entry than the next one changes nothing. -/
theorem answer_takeKind_other {s : State} {e : Entry} {k : EntryKind} (next : s.device.nextEntry p = some e)
    (other : e.kind ≠ k) : answer s (fun d => d.takeKind p k) = .next s := by
  rw [answer, State.onDevice, Device.takeKind_other next other]

theorem takes_of_active (h : (d.decoder p).state = .waitHeader ∨ (d.decoder p).state = .decoding) :
    (d.decoder p).state.takes = true := by
  rcases h with h | h <;> rw [h] <;> rfl

theorem takes_of_taking (h : (d.decoder p).state = .waitHeader ∨ (d.decoder p).state = .decoding
    ∨ (d.decoder p).state = .discard) : (d.decoder p).state.takes = true := by
  rcases h with h | h | h <;> rw [h] <;> rfl

/-- A bad tag acts in DISCARD as elsewhere (04 R65, R68). -/
theorem Device.takeEntry_badTag : d.takeEntry p .badTag = d.actBadTag p := by
  unfold Device.takeEntry
  split <;> rfl

/-- A bad tag is skipped as one byte, with BAD_TAG (04 R65). -/
theorem Device.takeKind_badTag {tag : Byte} {rest : List Byte} (buffer : (d.decoder p).buffer = tag :: rest)
    (next : d.nextEntry p = some .badTag) :
    DecoderOnly d (d.takeKind p .badTag) p { d.decoder p with buffer := rest } [.badTag] := by
  have faulted := (DecoderOnly.refl d p).addFaultIf rfl .badTag true
  have taken : d.takeKind p .badTag = (d.addFaultIf p .badTag true).dropFront p 1 :=
    (Device.takeKind_own next).trans Device.takeEntry_badTag
  rw [taken]
  exact faulted.onDecoder _ (by simp [buffer])

end

end Sys2Proof.Machine

/-! ## The parts of a ROWS entry -/

namespace Sys2Proof.Safety
open Sys2Proof.Machine

section
variable {d e : Device} {p : Player} {c : Decoder} {kinds : List FaultKind}

/-- A first entry other than a HEADER starts the decoder, with NO_HEADER (04 R52). -/
theorem DecoderOnly.firstEntry (h : DecoderOnly d e p c kinds) (hc : c.faults = (d.decoder p).faults)
    (active : c.state = .waitHeader ∨ c.state = .decoding) :
    DecoderOnly d (e.firstEntry p false) p { c with state := .decoding }
      (kinds ++ if c.state = .waitHeader then [.noHeader] else []) := by
  have state : (e.decoder p).state = c.state := by rw [h.decoder]
  rcases active with waits | decodes
  · have faulted := h.addFaultIf hc .noHeader true
    rw [Device.firstEntry, if_pos (state.trans waits), if_pos waits]
    exact faulted.onDecoder _ rfl
  · have same : { c with state := .decoding } = c := by rw [← decodes]
    have started : ¬c.state = .waitHeader := by rw [decodes]; decide
    rw [Device.firstEntry_decoding (state.trans decodes), same, if_neg started, List.append_nil]
    exact h

/-- An entry that a pending repeat does not apply to drops it, with BAD_REPEAT (04 R61). -/
theorem DecoderOnly.dropRepeat (h : DecoderOnly d e p c kinds) (hc : c.faults = (d.decoder p).faults) :
    DecoderOnly d (e.dropRepeat p) p { c with pendingRepeat := none }
      (kinds ++ if c.pendingRepeat = none then [] else [.badRepeat]) := by
  have pending : (e.decoder p).pendingRepeat = c.pendingRepeat := by rw [h.decoder]
  by_cases alone : c.pendingRepeat = none
  · have same : { c with pendingRepeat := none } = c := by rw [← alone]
    rw [Device.dropRepeat_none (pending.trans alone), same, if_pos alone, List.append_nil]
    exact h
  · have faulted := h.addFaultIf hc .badRepeat true
    rw [Device.dropRepeat, if_pos (by rw [pending]; exact Option.isSome_iff_ne_none.2 alone), if_neg alone]
    exact faulted.onDecoder _ rfl

/-- The cursor moves to a row, clamped, and the row time is formed afresh (03 R33, R36, R38). -/
theorem DecoderOnly.moveCursor (h : DecoderOnly d e p c kinds) (hc : c.faults = (d.decoder p).faults) (row : Nat) :
    DecoderOnly d (e.moveCursor p row) p
      { c with cursor := min row maxRow, rowTime := clampTime (rawDue c.segment (min row maxRow)) }
      (kinds ++ (if maxRow < row then [.rowClamped] else [])
        ++ if maxTime < rawDue c.segment (min row maxRow) then [.dueClamped] else []) := by
  have segment : (e.decoder p).segment = c.segment := by rw [h.decoder]
  have faulted := (h.addFaultIf hc .rowClamped (maxRow < row)).addFaultIf hc .dueClamped
    (maxTime < rawDue c.segment (min row maxRow))
  simp only [decide_eq_true_eq] at faulted
  unfold Device.moveCursor
  simp only [segment]
  exact faulted.onDecoder _ rfl

/-- A ROWS entry, as first entry or later (04 R52, R53, R61). -/
theorem actRows_only (d : Device) (p : Player) (count : Nat)
    (active : (d.decoder p).state = .waitHeader ∨ (d.decoder p).state = .decoding) :
    DecoderOnly d (d.actRows p count) p
      { d.decoder p with
        state := .decoding, buffer := (d.decoder p).buffer.drop 3, pendingRepeat := none
        cursor := min ((d.decoder p).cursor + count) maxRow
        rowTime := clampTime (rawDue (d.decoder p).segment (min ((d.decoder p).cursor + count) maxRow)) }
      ((if (d.decoder p).state = .waitHeader then [.noHeader] else [])
        ++ (if (d.decoder p).pendingRepeat = none then [] else [.badRepeat])
        ++ (if maxRow < (d.decoder p).cursor + count then [.rowClamped] else [])
        ++ if maxTime < rawDue (d.decoder p).segment (min ((d.decoder p).cursor + count) maxRow) then [.dueClamped]
          else []) := by
  have first := ((DecoderOnly.refl d p).firstEntry rfl active).dropRepeat rfl
  have cursor : (((d.firstEntry p false).dropRepeat p).decoder p).cursor = (d.decoder p).cursor := by rw [first.decoder]
  have moved := first.moveCursor rfl ((d.decoder p).cursor + count)
  rw [List.nil_append] at moved
  unfold Device.actRows
  simp only [cursor]
  exact moved.onDecoder _ rfl

end

end Sys2Proof.Safety

section
open Sys2Proof.Machine Sys2Proof.Safety

/-- Settles O34: the front of the buffer says which entry is taken, and the parts of a ROWS entry add up. -/
theorem rowsAndBadTagsEffect : Obligations.RowsAndBadTagsEffect := by
  unfold Obligations.RowsAndBadTagsEffect
  refine ⟨?rows, ?unknown, ?zeroFields⟩
  case rows =>
    rintro s p tag a b rest count row raw c rfl buffer isRows rfl active rfl rfl
    have next := Device.nextEntry_of_front (takes_of_active active)
      ((congrArg frontEntry buffer).trans (frontEntry_rows a b rest isRows))
    refine ⟨_, _, rfl, rfl, fun some_ => ?_, fun zero => ?_⟩ <;> rw [State.onDevice_device]
    · rw [if_neg some_] at next
      have dropped : rest = (s.device.decoder p).buffer.drop 3 := by rw [buffer]; rfl
      have awake : (s.device.decoder p).state ≠ .discard := by rcases active with h | h <;> rw [h] <;> decide
      refine ⟨by rw [State.onDevice, Device.takeKind_other next (by simp [Entry.kind])], ?_⟩
      rw [show s.device.takeKind p .rows = _ from Device.takeKind_own next, Device.takeEntry, if_neg awake, dropped]
      exact actRows_only s.device p _ active
    · rw [if_pos zero] at next
      exact ⟨by rw [State.onDevice, Device.takeKind_other next (by simp [Entry.kind])],
        Device.takeKind_badTag buffer next⟩
  case unknown =>
    intro s p tag rest buffer taking unknown
    exact ⟨_, rfl, Device.takeKind_badTag buffer (Device.nextEntry_of_front (takes_of_taking taking)
      ((congrArg frontEntry buffer).trans (frontEntry_unknown rest unknown)))⟩
  case zeroFields =>
    intro s p tag a b rest i buffer taking zero
    have taken (next : s.device.nextEntry p = some .badTag) : ∃ t, exec (.badTag p) s = .next t ∧ exec i s = .next s
        ∧ DecoderOnly s.device t.device p { s.device.decoder p with buffer := a :: b :: rest } [.badTag] := by
      refine ⟨_, rfl, ?_, Device.takeKind_badTag buffer next⟩
      rcases zero with ⟨-, -, -, rfl⟩ | ⟨-, -, rfl⟩
      · exact answer_takeKind_other next (by decide)
      · exact answer_takeKind_other next (by decide)
    refine taken (Device.nextEntry_of_front (takes_of_taking taking) ((congrArg frontEntry buffer).trans ?_))
    rcases zero with ⟨isRows, zero, zero', -⟩ | ⟨isRepeat, zero, -⟩
    · rw [frontEntry_rows a b rest isRows, if_pos (by rw [zero, zero']; rfl)]
    · have zeros : a.toNat = 0 ∨ b.toNat = 0 := zero.imp (congrArg BitVec.toNat) (congrArg BitVec.toNat)
      rw [frontEntry_repeat a b rest isRepeat, if_pos zeros]

end
end
-- ==== Sys2Proof/Proofs/Repeats.lean ====
section
/-!
A repeated NOTES entry of one TAP lane in PRELOAD (O37): each repetition moves the cursor on by the spacing and puts one
note behind those of the lane.
-/
namespace Sys2Proof.Machine

/-! ## The lane that a mask names -/

theorem lane_lt_laneCount {style : Style} {p : Player} {k : Fin 12} {q : LaneQueue} (h : queueOf style p k = some q) :
    k.val < laneCount style p := by
  cases style <;> cases p
  case doubles.p1 => exact k.isLt
  case doubles.p2 => cases h
  all_goals
    simp only [queueOf] at h
    split_ifs at h with small
    exact small

/-- A mask of one bit names one lane, and none that the player does not have (04 R55). -/
theorem maskLanes_twoPow {lanes : Nat} {k : Fin 12} (h : k.val < lanes) : maskLanes lanes (2 ^ k.val) = [k] := by
  have only : (fun x : Fin 12 => decide (x.val < lanes) && (2 ^ k.val).testBit x.val) = fun x => decide (x = k) := by
    funext x
    rw [Nat.testBit_two_pow, ← Bool.decide_and, decide_eq_decide, Fin.ext_iff]
    omega
  rw [maskLanes, only]
  exact (by decide : ∀ k : Fin 12, (List.finRange 12).filter (fun x => decide (x = k)) = [k]) k

theorem badLane_twoPow {lanes k : Nat} (h : k < lanes) : (2 ^ k / 2 ^ lanes != 0) = false := by
  rw [Nat.div_eq_of_lt (Nat.pow_lt_pow_right (by decide) h)]
  rfl

/-! ## One note -/

section
variable {d e : Device} {p : Player} {k : Fin 12} {q : LaneQueue}

/-- The device after a TAP of the cursor row has been placed in PRELOAD. -/
def Device.tapPlaced (d : Device) (p : Player) (k : Fin 12) (q : LaneQueue) : Device :=
  ((d.onLane q fun l => { l with queue := l.queue ++ [(d.decoder p).noteAt .tap] }).onDecoder p fun c =>
    c.appended k ((d.decoder p).noteAt .tap)).handUnits p .tap

/-- In PRELOAD the judge examines nothing, and no note is late (04 R57, 08 R110). -/
theorem Device.acceptNote_preload (preload : d.session.state = .preload) :
    d.acceptNote p k q ((d.decoder p).noteAt .tap) = d.tapPlaced p k q := by
  have onTime : d.isLate q ((d.decoder p).noteAt .tap) = false := by simp [Device.isLate, preload]
  have still (x : Device) (n : Note) (same : x.session.state = .preload) : x.examineAppended q n = x := by
    simp [Device.examineAppended, Device.judging, same]
  unfold Device.acceptNote
  simp only [onTime]
  exact still _ _ preload

/-- A TAP for a lane with room, no open hold and no note of the row is appended (04 R55, R56). -/
theorem Device.placeNote_tap (preload : d.session.state = .preload) (joined : d.playerState p = .joined)
    (lane : queueOf d.session.style p k = some q) (room : (d.lane q).queue.length < 24)
    (noHold : (d.decoder p).openHold[k] = none) (new : (d.decoder p).lastRow[k] ≠ some (d.decoder p).cursor) :
    d.placeNote p .tap k = .done (d.tapPlaced p k q) := by
  have alone : d.endOverlap p k (d.decoder p).rowTime = d := by simp only [Device.endOverlap, noHold]
  have accepted : d.appendAnswer p q = .accepted := by
    simp [Device.appendAnswer, Device.appendsFor, joined, queueCapacity, room]
  rw [Device.placeNote]
  dsimp only
  rw [if_neg new, if_neg (by decide), alone]
  simp only [Device.appendStep, Device.tryAppend, lane, accepted, Device.acceptNote_preload preload]

/-- A decoder at a row of its segment (03 R33, R35). -/
def Decoder.toRow (c : Decoder) (row : Nat) : Decoder := { c with cursor := row, rowTime := rawDue c.segment row }

/-- A move of the cursor that nothing clamps (03 R33, R36). -/
theorem Device.moveCursor_unclamped {row : Nat} (limit : row ≤ 16777215)
    (time : rawDue (d.decoder p).segment row ≤ 2147483647) : d.moveCursor p row
      = d.onDecoder p fun c => c.toRow row := by
  have at_ : min row maxRow = row := min_eq_left limit
  have free : decide (maxRow < row) = false := decide_eq_false (Nat.not_lt.2 limit)
  have early : decide (maxTime < rawDue (d.decoder p).segment row) = false := decide_eq_false (Nat.not_lt.2 time)
  have kept : clampTime (rawDue (d.decoder p).segment row) = rawDue (d.decoder p).segment row := min_eq_left time
  simp only [Device.moveCursor, at_, free, early, kept]
  rfl

theorem rawDue_mono (g : DecoderSegment) {r s : Nat} (h : r ≤ s) : rawDue g r ≤ rawDue g s := by
  have rows : (r - g.row) * g.period ≤ (s - g.row) * g.period := Nat.mul_le_mul_right _ (by omega)
  unfold rawDue
  omega

/-- A step of work that is done leads to the rest of the work. -/
theorem runWork_done {w : Work} {ws : List Work} (awake : (d.decoder p).state ≠ .discard)
    (done : d.workStep p w = .done e) : runWork p (w :: ws) d = runWork p ws e := by
  rw [runWork, if_neg awake, done]

end

/-! ## The repetitions -/

/-- The decoder at the row of a repetition (04 R60). -/
def Decoder.atRepetition (c : Decoder) (spacing j : Nat) : Decoder :=
  { c with
    cursor := c.cursor + j * spacing
    rowTime := if j = 0 then c.rowTime else rawDue c.segment (c.cursor + j * spacing) }

/-- The decoder when the TAPs of the repetitions up to `j` have been placed. -/
def Decoder.repeatedTo (c : Decoder) (k : Fin 12) (spacing j : Nat) : Decoder :=
  { c.atRepetition spacing j with
    lastRow := c.lastRow.set k.val (some (c.cursor + j * spacing)) k.isLt, taps := c.taps + (j + 1) }

/-- The TAPs of the first repetitions (04 R60). -/
def Decoder.repeatedNotes (c : Decoder) (spacing times : Nat) : List Note :=
  (List.range times).map fun j => (c.atRepetition spacing j).noteAt .tap

/-- The TAP of the next repetition (04 R60). -/
theorem Decoder.toRow_appended (c : Decoder) (k : Fin 12) (spacing j : Nat) :
    ((c.repeatedTo k spacing j).toRow (c.cursor + (j + 1) * spacing)).appended k
        (((c.repeatedTo k spacing j).toRow (c.cursor + (j + 1) * spacing)).noteAt .tap)
      = c.repeatedTo k spacing (j + 1) := by
  simp [Decoder.repeatedTo, Decoder.atRepetition, Decoder.appended, Decoder.noteAt, Decoder.toRow, Nat.add_assoc]

theorem Decoder.repeatedNotes_succ (c : Decoder) (spacing j : Nat) :
    c.repeatedNotes spacing (j + 1) = c.repeatedNotes spacing j ++ [(c.atRepetition spacing j).noteAt .tap] := by
  simp [Decoder.repeatedNotes, List.range_succ]

theorem Decoder.repeatedNotes_length (c : Decoder) (spacing j : Nat) : (c.repeatedNotes spacing j).length = j := by
  simp [Decoder.repeatedNotes]

/-- Only notes have been placed on a queue, and the decoder is `c`. -/
structure Placed (d : Device) (p : Player) (q : LaneQueue) (notes : List Note) (c : Decoder) (e : Device) : Prop where
  session : e.session = d.session
  ports   : e.ports = d.ports
  ring    : e.ring = d.ring
  others  : ∀ x, x ≠ q → e.lane x = d.lane x
  lane    : e.lane q = { d.lane q with queue := (d.lane q).queue ++ notes }
  decoder : e.decoder p = c
  units   : notes ≠ [] → (e.record p).decodedUnits = c.decodedUnits

section
variable {d e : Device} {p : Player} {q : LaneQueue} {notes : List Note} {c : Decoder}

theorem Placed.start (d : Device) (p : Player) (q : LaneQueue) : Placed d p q [] (d.decoder p) d :=
  ⟨rfl, rfl, rfl, fun _ _ => rfl, by rw [List.append_nil], rfl, fun h => absurd rfl h⟩

/-- A change of the decoder that keeps its counts. -/
theorem Placed.onDecoder (h : Placed d p q notes c e) (f : Decoder → Decoder)
    (counts : (f c).decodedUnits = c.decodedUnits) : Placed d p q notes (f c) (e.onDecoder p f) where
  session := h.session
  ports := h.ports
  ring := h.ring
  others := h.others
  lane := h.lane
  decoder := by rw [Device.decoder_onDecoder, if_pos rfl, h.decoder]
  units some_ := (h.units some_).trans counts.symm

theorem Placed.tapPlaced (h : Placed d p q notes c e) (k : Fin 12) :
    Placed d p q (notes ++ [c.noteAt .tap]) (c.appended k (c.noteAt .tap)) (e.tapPlaced p k q) where
  session := h.session
  ports := h.ports
  ring := h.ring
  others x other := by simp [Device.tapPlaced, Device.handUnits, Device.takeDecodedUnits, other, h.others x other]
  lane := by
    simp [Device.tapPlaced, Device.handUnits, Device.takeDecodedUnits, h.lane, h.decoder]
  decoder := by
    simp [Device.tapPlaced, Device.handUnits, Device.takeDecodedUnits, h.decoder]
  units _ := by
    simp [Device.tapPlaced, Device.handUnits, Device.takeDecodedUnits, h.decoder, ScoreRecord.recount,
      ScoreRecord.rescored]

end

/-- A repeated TAP entry of one lane that fits its queue and its chart's limits, in PRELOAD. -/
structure RepeatFits (d : Device) (p : Player) (k : Fin 12) (q : LaneQueue) (times spacing : Nat) : Prop where
  preload  : d.session.state = .preload
  joined   : d.playerState p = .joined
  decoding : (d.decoder p).state = .decoding
  lane     : queueOf d.session.style p k = some q
  room     : (d.lane q).queue.length + times ≤ 24
  noHold   : (d.decoder p).openHold[k] = none
  row      : (d.decoder p).cursor + (times - 1) * spacing ≤ 16777215
  due      : rawDue (d.decoder p).segment ((d.decoder p).cursor + (times - 1) * spacing) ≤ 2147483647
  apart    : 0 < spacing

section
variable {d e : Device} {p : Player} {k : Fin 12} {q : LaneQueue} {times spacing : Nat}

/-- One more TAP on the lane. -/
theorem RepeatFits.place (fits : RepeatFits d p k q times spacing) {notes : List Note} {c : Decoder}
    (h : Placed d p q notes c e) (room : notes.length < times) (noHold : c.openHold[k] = none)
    (new : c.lastRow[k] ≠ some c.cursor) :
    e.workStep p (.place .tap k) = .done (e.tapPlaced p k q) := by
  refine Device.placeNote_tap ?_ ?_ ?_ ?_ ?_ ?_
  · rw [h.session]
    exact fits.preload
  · rw [Device.playerState, h.session]
    exact fits.joined
  · rw [h.session]
    exact fits.lane
  · have := fits.room
    rw [h.lane, List.length_append]
    omega
  · rw [h.decoder]
    exact noHold
  · rw [h.decoder]
    exact new

/-- A repetition moves the cursor to its row and places its TAP there (04 R60). -/
theorem RepeatFits.repetition (fits : RepeatFits d p k q times spacing) {j : Nat} (within : j + 1 < times)
    (h : Placed d p q ((d.decoder p).repeatedNotes spacing (j + 1)) ((d.decoder p).repeatedTo k spacing j) e)
    (ws : List Work) :
    ∃ e', Placed d p q ((d.decoder p).repeatedNotes spacing (j + 2)) ((d.decoder p).repeatedTo k spacing (j + 1)) e'
      ∧ runWork p (.moveTo ((d.decoder p).cursor + (j + 1) * spacing) :: .place .tap k :: ws) e = runWork p ws e' := by
  set c := d.decoder p with hc
  have apart := fits.apart
  have ahead : c.cursor + (j + 1) * spacing ≤ c.cursor + (times - 1) * spacing :=
    Nat.add_le_add_left (Nat.mul_le_mul_right _ (by omega)) _
  have step : (j + 1) * spacing = j * spacing + spacing := Nat.succ_mul j spacing
  have segment : (e.decoder p).segment = c.segment := by rw [h.decoder]; rfl
  have awake : c.state ≠ .discard := by rw [hc, fits.decoding]; decide
  have moved := h.onDecoder (fun x => x.toRow (c.cursor + (j + 1) * spacing)) rfl
  have move : e.workStep p (.moveTo (c.cursor + (j + 1) * spacing))
      = .done (e.onDecoder p fun x => x.toRow (c.cursor + (j + 1) * spacing)) :=
    congrArg WorkResult.done (Device.moveCursor_unclamped (ahead.trans fits.row)
      (by rw [segment]; exact (rawDue_mono _ ahead).trans fits.due))
  have place := fits.place (k := k) moved (by rw [Decoder.repeatedNotes_length]; exact within) fits.noHold
    (by simp [Decoder.repeatedTo, Decoder.toRow]; omega)
  refine ⟨_, ?_, (runWork_done ?_ move).trans (runWork_done ?_ place)⟩
  · have placed := moved.tapPlaced k
    rw [Decoder.toRow_appended] at placed
    rwa [Decoder.repeatedNotes_succ]
  · rw [h.decoder]
    exact awake
  · rw [moved.decoder]
    exact awake

/-- The later repetitions, to the end of the entry (04 R60). -/
theorem RepeatFits.repetitions (fits : RepeatFits d p k q times spacing) (n : Nat) {j : Nat} (within : j + n < times)
    (h : Placed d p q ((d.decoder p).repeatedNotes spacing (j + 1)) ((d.decoder p).repeatedTo k spacing j) e) :
    Placed d p q ((d.decoder p).repeatedNotes spacing (j + n + 1))
      ((d.decoder p).repeatedTo k spacing (j + n)).notesFinished
      (runWork p ((List.range' j n).flatMap fun i =>
        .moveTo ((d.decoder p).cursor + (i + 1) * spacing) :: placements .tap [k]) e) := by
  induction n generalizing j e with
  | zero =>
    have awake : (e.decoder p).state ≠ .discard := by
      rw [h.decoder]
      change (d.decoder p).state ≠ _
      rw [fits.decoding]
      decide
    simp only [List.range'_zero, List.flatMap_nil, runWork, if_neg awake]
    exact h.onDecoder Decoder.notesFinished rfl
  | succ n ih =>
    obtain ⟨e', placed, ran⟩ := fits.repetition (by omega) h ((List.range' (j + 1) n).flatMap fun i =>
      .moveTo ((d.decoder p).cursor + (i + 1) * spacing) :: placements .tap [k])
    have rest := ih (j := j + 1) (by omega) placed
    rw [List.range'_succ, List.flatMap_cons]
    rw [show j + (n + 1) = j + 1 + n by omega]
    rw [← ran] at rest
    exact rest

/-- The whole of a repeated TAP entry of one lane (04 R60). -/
theorem RepeatFits.expand (fits : RepeatFits d p k q times spacing) (some_ : 0 < times)
    (new : ∀ r, (d.decoder p).lastRow[k] = some r → r < (d.decoder p).cursor) :
    Placed d p q ((d.decoder p).repeatedNotes spacing times)
      ((d.decoder p).repeatedTo k spacing (times - 1)).notesFinished
      (runWork p (placements .tap [k] ++ laterRepetitions .tap [k] (d.decoder p).cursor spacing times) d) := by
  have begun := Placed.start d p q
  have place := fits.place (k := k) begun some_ fits.noHold fun same => Nat.lt_irrefl _ (new _ same)
  have awake : (d.decoder p).state ≠ .discard := by rw [fits.decoding]; decide
  have placed : Placed d p q ((d.decoder p).repeatedNotes spacing 1) ((d.decoder p).repeatedTo k spacing 0)
      (d.tapPlaced p k q) := by
    have first := begun.tapPlaced k
    have decoder : (d.decoder p).repeatedTo k spacing 0 = (d.decoder p).appended k ((d.decoder p).noteAt .tap) := by
      simp [Decoder.repeatedTo, Decoder.atRepetition, Decoder.appended, Decoder.noteAt]
    rw [decoder]
    convert first using 1
    simp [Decoder.repeatedNotes, Decoder.atRepetition]
  have rest := fits.repetitions (times - 1) (j := 0) (by omega) placed
  rw [Nat.zero_add, Nat.sub_add_cancel some_, ← List.range_eq_range'] at rest
  exact (runWork_done awake place).symm ▸ rest

end

end Sys2Proof.Machine

section
open Sys2Proof.Machine Sys2Proof.Safety

/-- Settles O37: the entry's work is one TAP and then, repetition by repetition, a move of the cursor and one TAP
more. -/
theorem repeatExpandsNotes : Obligations.RepeatExpandsNotes := by
  unfold Obligations.RepeatExpandsNotes
  rintro s p hi lo rest k q c times spacing rfl buffer mask decoding pending some_ apart preload joined lane room noHold
    new row due
  set work := placements .tap [k] ++ laterRepetitions .tap [k] (s.device.decoder p).cursor spacing times
  have entry : s.device.takeKind p .notes
      = runWork p work (s.device.onDecoder p fun c => c.takeInHand 3 (.notes work)) := by
    have front : frontEntry (s.device.decoder p).buffer = some (.notes .tap (2 ^ k.val)) := by
      rw [buffer, ← mask]
      rfl
    have small := lane_lt_laneCount lane
    have work_eq : notesWork (s.device.decoder p) (laneCount s.device.session.style p) .tap (2 ^ k.val) = work := by
      simp only [notesWork, pending, maskLanes_twoPow small, work]
    rw [show s.device.takeKind p .notes = _ from Device.takeKind_decoding decoding front, ← work_eq, Device.actEntry,
      Device.actNotes, Device.firstEntry_decoding decoding]
    simp only [SubKind.repeats, if_true, badLane_twoPow small]
    rfl
  have fits : RepeatFits (s.device.onDecoder p fun c => c.takeInHand 3 (.notes work)) p k q times spacing := by
    refine ⟨preload, joined, ?_, lane, room, ?_, ?_, ?_, apart⟩ <;> rw [Device.decoder_onDecoder, if_pos rfl]
    exacts [decoding, noHold, row, due]
  have expanded := fits.expand some_ (by rw [Device.decoder_onDecoder, if_pos rfl]; exact new)
  rw [Device.decoder_onDecoder, if_pos rfl] at expanded
  refine ⟨_, rfl, ?_⟩
  rw [State.onDevice_device, entry]
  obtain ⟨-, ports, ring, others, queue, decoder, units⟩ := expanded
  have last : times - 1 = 0 ↔ times = 1 := by omega
  refine ⟨ports, ring, others, queue, decoder.trans ?_, (units ?_).trans ?_⟩
  · simp [Decoder.repeatedTo, Decoder.atRepetition, Decoder.notesFinished, Decoder.finished, Decoder.takeInHand,
      buffer, Nat.sub_add_cancel some_, last]
  · rw [← List.length_pos_iff, Decoder.repeatedNotes_length]
    exact some_
  · change (s.device.decoder p).taps + (times - 1 + 1) + _ = _
    rw [Nat.sub_add_cancel some_]
    rfl

end
end
-- ==== Sys2Proof/Proofs/Outcomes.lean ====
section
/-!
An outcome of a lane that takes no life to 0 and leaves its player undone (O25, O28): the judge hands its record and the
outcome on, and nothing more comes of it.
-/
namespace Sys2Proof.Machine
open Sys2Proof.Safety

/-! ## The target of a lane -/

/-- The first TAP or HOLD_START of a lane, behind AVOID notes alone (08 R116, R118). -/
theorem Lane.target_eq {l : Lane} {pre post : List Note} {n : Note} (queue : l.queue = pre ++ n :: post)
    (avoids : ∀ m ∈ pre, m.kind = .avoid) (kind : n.kind ≠ .avoid) : l.target = some n := by
  have skipped : pre.find? (fun m => m.kind != .avoid) = none :=
    List.find?_eq_none.2 fun m hm => by simp [avoids m hm]
  rw [Lane.target, queue, List.find?_append, skipped]
  simp [kind]

/-- The target taken out of its queue (08 R109). -/
theorem erase_target {pre post : List Note} {n : Note} (avoids : ∀ m ∈ pre, m.kind = .avoid) (kind : n.kind ≠ .avoid) :
    (pre ++ n :: post).erase n = pre ++ post := by
  rw [List.erase_append_right _ fun among => kind (avoids n among), List.erase_cons_head]

theorem NoteKind.lateLimit_target (j : Judge) {k : NoteKind} (kind : k ≠ .avoid) :
    j.lateLimit k = j.windows.poor.late := by
  cases k with
  | tap | holdStart => rfl
  | avoid => exact absurd rfl kind

/-- The record type of a target (08 R126). -/
theorem NoteKind.recordType_target {k : NoteKind} (kind : k ≠ .avoid) (r : NoteResult) :
    k.recordType r = if k = .tap then .tap r else .holdStart r := by
  cases k with
  | tap | holdStart => rfl
  | avoid => exact absurd rfl kind

/-! ## One outcome -/

/-- The device after the record of an outcome and the outcome itself have been handed on (08 R127). -/
def Device.handed (d : Device) (q : LaneQueue) (x : Record) (o : Outcome) : Device :=
  (d.appendRecord x).takeOutcome (d.owner q) o

section
variable {d : Device} {q : LaneQueue} {x : Record} {o : Outcome}

/-- An outcome of a PLAYING player reaches the ring and the score (08 R126, R127). -/
theorem Device.handed_eq (playing : d.playerState (d.owner q) = .playing) (x : Record) (o : Outcome) :
    d.handed q x o = { d with
      score := { d.score with
        records := d.score.records.set (d.owner q)
          ((d.record (d.owner q)).apply d.score d.session.failPolicy o) }
      ring := d.ring.append x
      ports := (d.appendRecord x).ports } := if_pos playing

theorem onlyRaised_handed (d : Device) (q : LaneQueue) (x : Record) (o : Outcome) : OnlyRaised d (d.handed q x o) := by
  refine (onlyRaised_appendRecord d x).trans (onlyRaised_of_ports ?_)
  unfold Device.handed Device.takeOutcome
  split <;> rfl

@[simp] theorem Device.handed_decoder (p : Player) : (d.handed q x o).decoder p = d.decoder p := by
  unfold Device.handed Device.takeOutcome
  split <;> rfl

@[simp] theorem Device.handed_choices : (d.handed q x o).choices = d.choices := by
  unfold Device.handed Device.takeOutcome
  split <;> rfl

/-- A player whose chart goes on is not done (01 R10). -/
theorem Device.doneHolds_of_chart {p : Player} (chart : (d.decoder p).state ≠ .ended) : d.doneHolds p = false := by
  simp [Device.doneHolds, chart]

end

section
variable {f : Flow} {q : LaneQueue} {p : Player}

theorem Flow.mayReport_unowed (owed : f.owed = false) : f.mayReport p = f := by simp [Flow.mayReport, owed]

theorem Flow.goOn_unowed (owed : f.owed = false) : f.goOn q = f := Flow.mayReport_unowed owed

/-- An outcome that takes no life to 0 owes no report (08 R127, 09 R143). -/
theorem Flow.outcome_alive {o : Outcome} (owed : f.owed = false)
    (alive : f.device.outcomeReports (f.device.owner q) o = false) (x : Record) :
    f.outcome q (some x) o
      = ({ device := f.device.handed q x o, owed := false, handed := true } : Flow).flash q o := by
  have alive' : (f.device.appendRecord x).outcomeReports (f.device.owner q) o = false := alive
  simp [Flow.outcome, Flow.mayReport, Flow.record, Flow.score, owed, alive', Device.handed]

/-- With no report owed and the player undone, the removal changes nothing more (01 R10). -/
theorem Flow.handOff_undone (owed : f.owed = false) (undone : f.device.doneHolds p = false) : f.handOff p = f := by
  have kept : f.device.examineDone p = f.device := if_neg (by rw [undone]; decide)
  rw [Flow.handOff, if_neg (by simp [owed]), kept]

theorem Flow.finish_unowed (owed : f.owed = false) : f.finish p = f.device := by simp [Flow.finish, owed]

end

end Sys2Proof.Machine
end
-- ==== Sys2Proof/Proofs/PressGrades.lean ====
section
/-!
A press that grades its target (O25): on an IDLE lane, with no AVOID in reach, it goes straight to the target, and hands
one outcome on.
-/
namespace Sys2Proof.Machine
open Sys2Proof.Safety

/-- The record of a target that a press has graded (08 R126, 03 R43). -/
def Device.gradeRecord (d : Device) (q : LaneQueue) (n : Note) (stamp : Int) (g : Grade) : Record :=
  d.laneRecord q (n.kind.recordType (.graded g)) n.row n.lateDecode (n.kind = .holdStart && n.forcedEnd)
    (some (pressOffset stamp n.due))

/-- A lane without its target, holding from a graded hold head (08 R117). -/
def Lane.struck (l : Lane) (n : Note) : Lane where
  queue := l.queue.erase n
  hold := if n.kind = .holdStart then .holding { row := n.row, tail := n.tail, forcedEnd := n.forcedEnd } else l.hold

/-- The device after a press has graded its target. -/
def Device.graded (d : Device) (q : LaneQueue) (n : Note) (stamp : Int) (g : Grade) : Device :=
  ((d.onLane q fun l => l.struck n).handed q (d.gradeRecord q n stamp g) (.graded g)).flashFor g q

section
variable {d : Device} {q : LaneQueue} {n : Note} {stamp : Int} {g : Grade}

/-- A flash changes the lamps alone (11 R163). -/
theorem Device.flashFor_eq (d : Device) (g : Grade) (q : LaneQueue) : d.flashFor g q = { d with
    lamps := { d.lamps with flash := (d.flashFor g q).lamps.flash } } := by
  unfold Device.flashFor
  split
  · split <;> rfl
  · rfl

/-- The flash lights the panel that feeds the lane, where the grade is at the floor or better and flashes last (11
R163). -/
theorem Device.flashFor_flash (d : Device) (g : Grade) (q : LaneQueue) (x : Panel) : (d.flashFor g q).lamps.flash[x] =
    if g.toNat ≤ d.lamps.flashFloor.toNat ∧ 0 < d.lamps.flashTime ∧ d.feeder q = some x then
      some (d.clock.free + BitVec.ofNat 32 d.lamps.flashTime)
    else d.lamps.flash[x] := by
  unfold Device.flashFor
  by_cases bright : g.toNat ≤ d.lamps.flashFloor.toNat ∧ 0 < d.lamps.flashTime
  · rw [if_pos bright]
    cases fed : d.feeder q with
    | none => simp
    | some y =>
      by_cases same : y = x
      · simp [bright, same]
      · have apart : y.val ≠ x.val := fun h => same (Fin.ext h)
        simp [same, Vector.getElem_set_ne, apart]
  · rw [if_neg bright, if_neg fun h => bright ⟨h.1, h.2.1⟩]

/-- Two changes of one lane are one. -/
theorem Device.onLane_onLane (d : Device) (q : LaneQueue) (f h : Lane → Lane) :
    (d.onLane q f).onLane q h = d.onLane q fun l => h (f l) := by
  simp [Device.onLane, vecModify]

/-- The target leaves its queue, and a graded hold head starts its hold (08 R116, R117). -/
theorem Device.struck_eq (d : Device) (q : LaneQueue) (n : Note) : (if n.kind = .holdStart then
      (d.removeNote q n).setHold q (.holding { row := n.row, tail := n.tail, forcedEnd := n.forcedEnd })
    else d.removeNote q n) = d.onLane q fun l => l.struck n := by
  by_cases hold : n.kind = .holdStart
  · rw [if_pos hold, Device.removeNote, Device.setHold, Device.onLane_onLane]
    simp only [Lane.struck, hold, if_true]
  · rw [if_neg hold, Device.removeNote]
    simp only [Lane.struck, hold, if_false]

/-- A hold whose tail lies beyond the stamp goes on (08 R117). -/
theorem tailBy_beyond (row : Nat) (tail : Option Nat) (forced : Bool) (beyond : ∀ u, tail = some u → stamp < u) :
    ActiveHold.tailBy { row := row, tail := tail, forcedEnd := forced } stamp = false := by
  cases tail with
  | none => rfl
  | some u => exact decide_eq_false (Int.not_le.2 (beyond u rfl))

/-- A press that takes no life to 0 and ends no hold grades its target and stops there (08 R116, R117). -/
theorem Flow.gradeNote_alive (earned : d.judge.windows.gradeOf (pressOffset stamp n.due) = some g)
    (alive : d.outcomeReports (d.owner q) (.graded g) = false) (chart : (d.decoder (d.owner q)).state ≠ .ended)
    (tail : n.kind = .holdStart → ∀ u, n.tail = some u → stamp < u) :
    (Flow.start d).gradeNote q n stamp = { device := d.graded q n stamp g, owed := false, handed := true } := by
  have held : (n.kind = .holdStart
      && ActiveHold.tailBy { row := n.row, tail := n.tail, forcedEnd := n.forcedEnd } stamp) = false := by
    by_cases hold : n.kind = .holdStart
    · rw [tailBy_beyond _ _ _ (tail hold), Bool.and_false]
    · rw [decide_eq_false hold, Bool.false_and]
  let f : Flow := { device := d.onLane q fun l => l.struck n, owed := false, handed := false }
  have outcome : f.outcome q (some (d.gradeRecord q n stamp g)) (.graded g)
      = { device := d.graded q n stamp g, owed := false, handed := true } :=
    Flow.outcome_alive (f := f) rfl alive _
  have undone : (d.graded q n stamp g).doneHolds (d.owner q) = false := by
    refine Device.doneHolds_of_chart ?_
    rw [Device.graded, Device.flashFor_eq]
    exact (Device.handed_decoder (d.owner q)).symm ▸ chart
  have ends : ((f.outcome q (some (d.gradeRecord q n stamp g)) (.graded g)).handOff (d.owner q)).goOn q
      = { device := d.graded q n stamp g, owed := false, handed := true } := by
    rw [outcome, Flow.handOff_undone rfl undone, Flow.goOn_unowed rfl]
  unfold Flow.gradeNote
  have between : (Flow.start d).between = Flow.start d := rfl
  have best : ((Flow.start d).device.judge.windows.gradeOf (pressOffset stamp n.due)).getD .poor = g := by
    rw [show (Flow.start d).device.judge.windows.gradeOf (pressOffset stamp n.due) = some g from earned]
    rfl
  simp only [between, best, Device.struck_eq]
  rw [if_neg (by rw [held, Bool.false_and]; decide)]
  exact ends

/-- A press on an IDLE lane with no AVOID in reach, in its target's window, goes straight to the target (08 R116). -/
theorem Device.pressLane_grades {pre post : List Note} (judged : d.judging q = true)
    (queue : (d.lane q).queue = pre ++ n :: post) (avoids : ∀ m ∈ pre, m.kind = .avoid) (kind : n.kind ≠ .avoid)
    (idle : (d.lane q).hold = .idle)
    (clear : ∀ m ∈ (d.lane q).queue, m.kind = .avoid → d.judge.avoid.holds (pressOffset stamp m.due) = false)
    (window : d.judge.windows.poor.holds (pressOffset stamp n.due) = true) :
    d.pressLane q stamp = ((Flow.start d).gradeNote q n stamp).finish (d.owner q) := by
  have hits : d.avoidsHit q stamp = [] := by
    refine List.filter_eq_nil_iff.2 fun m hm => ?_
    by_cases avoid : m.kind = .avoid
    · simp [clear m hm avoid]
    · simp [avoid]
  rw [Window.holds_iff, pressOffset] at window
  have inTime : d.judge.pastWindow n stamp = false := by
    rw [Judge.pastWindow, NoteKind.lateLimit_target _ kind]
    exact decide_eq_false (by omega)
  have reached : ¬stamp < (n.due : Int) - d.judge.windows.poor.early := by omega
  have target := Lane.target_eq queue avoids kind
  have goesOn : (Flow.start d).goOn q = Flow.start d := Flow.goOn_unowed rfl
  have struck : (Flow.start d).strikeTarget q stamp false = (Flow.start d).gradeNote q n stamp := by
    unfold Flow.strikeTarget Flow.strike
    simp only [goesOn]
    simp only [Flow.start, judged, target, inTime, if_true]
    exact (if_neg Bool.false_ne_true).trans (if_neg reached)
  have met : (Flow.start d).meetHold q stamp false = (Flow.start d).gradeNote q n stamp := by
    unfold Flow.meetHold
    simp only [Flow.start, idle]
    exact struck
  rw [Device.pressLane, if_pos judged, hits]
  simp only [Flow.hitAvoids, List.foldl_nil, goesOn, List.isEmpty_nil, Bool.not_true, met]
  rw [if_pos (show (Flow.start d).device.judging q = true from judged)]

/-- What a graded press changes: the lane, the score, the ring, the flashes, and the notices of the ports. -/
theorem Device.graded_eq (playing : d.playerState (d.owner q) = .playing) (n : Note) (stamp : Int) (g : Grade) :
    ∃ flash ports, d.graded q n stamp g = { d with
        judge := (d.onLane q fun l => l.struck n).judge
        score := { d.score with
          records := d.score.records.set (d.owner q)
            ((d.record (d.owner q)).apply d.score d.session.failPolicy (.graded g)) }
        ring := d.ring.append (d.gradeRecord q n stamp g)
        lamps := { d.lamps with flash := flash }
        ports := ports }
      ∧ ∀ x : Panel, flash[x] =
          if g.toNat ≤ d.lamps.flashFloor.toNat ∧ 0 < d.lamps.flashTime ∧ d.feeder q = some x then
            some (d.clock.free + BitVec.ofNat 32 d.lamps.flashTime)
          else d.lamps.flash[x] := by
  have handed := Device.handed_eq (d := d.onLane q fun l => l.struck n) (q := q) playing (d.gradeRecord q n stamp g)
    (.graded g)
  refine ⟨(d.graded q n stamp g).lamps.flash, ((d.onLane q fun l => l.struck n).appendRecord
    (d.gradeRecord q n stamp g)).ports, ?_, fun x => ?_⟩
  · rw [Device.graded, handed]
    exact Device.flashFor_eq _ g q
  · rw [Device.graded, handed]
    exact Device.flashFor_flash _ g q x

theorem onlyRaised_graded (d : Device) (q : LaneQueue) (n : Note) (stamp : Int) (g : Grade) :
    OnlyRaised d (d.graded q n stamp g) := by
  have struck : OnlyRaised d (d.onLane q fun l => l.struck n) := onlyRaised_of_ports rfl
  refine (struck.trans (onlyRaised_handed _ q (d.gradeRecord q n stamp g) (.graded g))).trans (onlyRaised_of_ports ?_)
  rw [Device.graded, Device.flashFor_eq]

end

end Sys2Proof.Machine

section
open Sys2Proof.Machine Sys2Proof.Safety

/-- Settles O25: the press goes straight to its target, which leaves the queue with one outcome. -/
theorem pressGradesTarget : Obligations.PressGradesTarget := by
  unfold Obligations.PressGradesTarget
  rintro d q stamp pre post n g p e rfl run playing chart queue avoids kind idle clear window earned tail alive rfl
  have judged : d.judging q = true := by simp [Device.judging, run, playing]
  have pressed : d.pressLane q stamp = d.graded q n stamp g := by
    rw [Device.pressLane_grades judged queue avoids kind idle clear window,
      Flow.gradeNote_alive earned (by simp [Device.outcomeReports, alive]) chart tail]
    exact Flow.finish_unowed rfl
  obtain ⟨flash, ports, eq, lit⟩ := Device.graded_eq playing n stamp g
  have lane : ∀ x, (d.graded q n stamp g).lane x = (d.onLane q fun l => l.struck n).lane x := by
    rw [eq]
    exact fun _ => rfl
  rw [pressed]
  refine ⟨?_, ?_, fun x other => ?_, ?_, ?_, ?_, ⟨?_, fun x => ?_⟩, onlyRaised_graded d q n stamp g⟩
  · rw [eq]
  · rw [lane, Device.lane_onLane, if_pos rfl, Lane.struck, queue, erase_target avoids kind, idle]
  · rw [lane, Device.lane_onLane, if_neg other]
  · rw [eq]
    rfl
  · rw [eq]
  · rw [eq]
    refine congrArg d.ring.append ?_
    have early : decide (pressOffset stamp n.due < 0) = decide (stamp < n.due) :=
      decide_eq_decide.2 (by unfold pressOffset; omega)
    simp only [Device.gradeRecord, Device.laneRecord, NoteKind.recordType_target kind, Option.any_some, early]
    rfl
  · rw [eq]
  · rw [eq]
    exact lit x

end
end
-- ==== Sys2Proof/Proofs/HeadersTaken.lean ====
section
/-!
The moment between two outcomes (08 R131): each header under way may be taken at it, with the snapshot of that moment,
and nothing else changes.
-/
namespace Sys2Proof.Machine
open Sys2Proof.Safety

/-! ## The snapshot of a moment -/

/-- A snapshot sees of its port the result, the notices and the mask, and no other port (12 R169). -/
theorem Device.readStarted_ports (d : Device) {ports : Vector PortState 3} {i : Port} (choices : Nat)
    (result : ports[i].result = (d.port i).result) (notices : ports[i].notices = (d.port i).notices)
    (mask : ports[i].mask = (d.port i).mask) (channel : ChannelField) :
    Device.readStarted { d with ports := ports, choices := choices } i channel = d.readStarted i channel := by
  have snapshot : Device.snapshot { d with ports := ports, choices := choices } i channel = d.snapshot i channel := by
    unfold Device.snapshot
    split
    · exact congrArg ResultRecord.bytes result
    · exact congrArg (fun x : BitVec 16 => bytesOf 2 x.toNat) notices
    · exact congrArg (fun x : BitVec 16 => bytesOf 2 x.toNat) mask
    all_goals rfl
  unfold Device.readStarted
  rw [snapshot]

/-- Headers under way may have been taken, each with the snapshot of the moment (08 R131). -/
structure HeadersTaken (d e : Device) : Prop where
  others : e = { d with ports := e.ports, choices := e.choices }
  port   : ∀ i, e.port i = { d.port i with transaction := (e.port i).transaction }
  taken  : ∀ i, (e.port i).transaction = (d.port i).transaction
    ∨ ∃ status channel, (d.port i).transaction = some (.heading status channel)
      ∧ (e.port i).transaction = some (d.readStarted i channel)

/-- A transaction that a header has started is no header under way. -/
theorem Device.readStarted_ne_heading (d : Device) (i : Port) (channel : ChannelField) (status : Byte)
    (channel' : ChannelField) : d.readStarted i channel ≠ .heading status channel' := by
  unfold Device.readStarted
  split <;> nofun

section
variable {d e g : Device}

theorem HeadersTaken.refl (d : Device) : HeadersTaken d d := ⟨rfl, fun _ => rfl, fun _ => .inl rfl⟩

/-- A header later taken shows what it would have shown at first. -/
theorem HeadersTaken.readStarted (h : HeadersTaken d e) (i : Port) (channel : ChannelField) :
    e.readStarted i channel = d.readStarted i channel := by
  have result := congrArg PortState.result (h.port i)
  have notices := congrArg PortState.notices (h.port i)
  have mask := congrArg PortState.mask (h.port i)
  rw [h.others]
  exact d.readStarted_ports _ result notices mask channel

theorem HeadersTaken.trans (h : HeadersTaken d e) (k : HeadersTaken e g) : HeadersTaken d g := by
  refine ⟨?_, fun i => ?_, fun i => ?_⟩
  · rw [k.others, h.others]
  · rw [k.port, h.port]
  · rcases h.taken i, k.taken i with
      ⟨same | ⟨status, channel, heading, started⟩, same' | ⟨status', channel', heading', started'⟩⟩
    · exact .inl (same'.trans same)
    · exact .inr ⟨status', channel', same ▸ heading', started'.trans (congrArg some (h.readStarted i channel'))⟩
    · exact .inr ⟨status, channel, heading, same'.trans started⟩
    · exfalso
      rw [started] at heading'
      exact Device.readStarted_ne_heading d i channel status' channel' (Option.some.inj heading')

theorem HeadersTaken.headerMayFall (d : Device) (i : Port) : HeadersTaken d (d.headerMayFall i) := by
  have counted : HeadersTaken d d.countChoice := ⟨rfl, fun _ => rfl, fun _ => .inl rfl⟩
  unfold Device.headerMayFall
  split
  case h_1 status channel heading =>
    split
    · refine ⟨rfl, fun j => ?_, fun j => ?_⟩ <;> rw [Device.takeReadHeader, Device.port_onPort]
      · split <;> rfl
      · split
        · rename_i own
          subst own
          exact .inr ⟨status, channel, heading, congrArg some (counted.readStarted j channel)⟩
        · exact .inl rfl
    · exact counted
  all_goals exact .refl d

theorem HeadersTaken.headersMayFall (d : Device) : HeadersTaken d d.headersMayFall :=
  ((HeadersTaken.headerMayFall d 0).trans (.headerMayFall _ 1)).trans (.headerMayFall _ 2)

/-- With no header under way nothing is taken (08 R131). -/
theorem Device.headersMayFall_none (h : NoHeading d) : d.headersMayFall = d := by
  have still (i : Port) : d.headerMayFall i = d := by
    unfold Device.headerMayFall
    split
    case h_1 status channel heading => exact absurd heading (h i status channel)
    all_goals rfl
  rw [Device.headersMayFall, still 0, still 1, still 2]

end

end Sys2Proof.Machine
end
-- ==== Sys2Proof/Proofs/SweepMisses.lean ====
section
/-!
A sweep that takes no life to 0 (O28): the MISS of the target, and for a hold head its LET_GO behind the moment between
the two.
-/
namespace Sys2Proof.Machine
open Sys2Proof.Safety

/-- The record of a target that is swept (08 R118, R126). -/
def Device.sweepRecord (d : Device) (q : LaneQueue) (n : Note) : Record :=
  d.laneRecord q (n.kind.recordType .miss) n.row n.lateDecode (n.kind = .holdStart && n.forcedEnd) none

/-- The record of the hold of a swept head (08 R118, R126). -/
def Device.letGoRecord (d : Device) (q : LaneQueue) (n : Note) : Record :=
  d.laneRecord q (.holdBody false) n.row n.lateDecode n.forcedEnd none

/-- The device after the MISS of a swept target (08 R118). -/
def Device.swept (d : Device) (q : LaneQueue) (n : Note) : Device :=
  (d.removeNote q n).handed q (d.sweepRecord q n) .miss

/-- The device after the LET_GO of a swept hold head (08 R118, R131). -/
def Device.letGone (d : Device) (q : LaneQueue) (n : Note) : Device :=
  (d.swept q n).headersMayFall.handed q (d.letGoRecord q n) .letGo

section
variable {d : Device} {q : LaneQueue} {n : Note}

/-- A target of a lane that is judged is due for the sweep when its window has passed (08 R118). -/
theorem Device.sweepDue_target {pre post : List Note} (judged : d.judging q = true)
    (queue : (d.lane q).queue = pre ++ n :: post) (avoids : ∀ m ∈ pre, m.kind = .avoid) (kind : n.kind ≠ .avoid)
    (past : (n.due : Int) + d.judge.windows.poor.late < d.laneTime q) : d.sweepDue q = some n := by
  have target := Lane.target_eq queue avoids kind
  have passed : d.judge.pastWindow n (d.laneTime q) = true := by
    rw [Judge.pastWindow, NoteKind.lateLimit_target _ kind]
    exact decide_eq_true past
  simp [Device.sweepDue, judged, target, passed]

/-- A MISS reaches the lane, the ring, the score and the notices of the ports (08 R126, R127). -/
theorem Device.swept_eq (playing : d.playerState (d.owner q) = .playing) (n : Note) :
    ∃ ports, d.swept q n = { d with
      judge := (d.removeNote q n).judge
      score := { d.score with
        records := d.score.records.set (d.owner q) ((d.record (d.owner q)).apply d.score d.session.failPolicy .miss) }
      ring := d.ring.append (d.sweepRecord q n)
      ports := ports } :=
  ⟨_, Device.handed_eq (d := d.removeNote q n) playing (d.sweepRecord q n) .miss⟩

theorem onlyRaised_swept (d : Device) (q : LaneQueue) (n : Note) : OnlyRaised d (d.swept q n) :=
  (onlyRaised_of_ports (d.removeNote_ports q n)).trans (onlyRaised_handed _ q (d.sweepRecord q n) .miss)

/-- The moment behind a MISS changes only ports and free bits (08 R131). -/
theorem Device.swept_moment_eq (playing : d.playerState (d.owner q) = .playing) (n : Note) :
    ∃ ports choices, (d.swept q n).headersMayFall = { d with
      judge := (d.removeNote q n).judge
      score := { d.score with
        records := d.score.records.set (d.owner q) ((d.record (d.owner q)).apply d.score d.session.failPolicy .miss) }
      ring := d.ring.append (d.sweepRecord q n)
      ports := ports
      choices := choices } := by
  obtain ⟨ports, swept⟩ := Device.swept_eq playing n
  have moment := (HeadersTaken.headersMayFall (d.swept q n)).others
  generalize (d.swept q n).headersMayFall = e at moment ⊢
  rw [swept] at moment
  exact ⟨_, _, moment⟩

/-- Behind a MISS the lane's player is the same, and its record has taken the MISS. -/
theorem Device.swept_moment_player (playing : d.playerState (d.owner q) = .playing) (n : Note) :
    (d.swept q n).headersMayFall.owner q = d.owner q
      ∧ (d.swept q n).headersMayFall.record (d.owner q)
        = (d.record (d.owner q)).apply d.score d.session.failPolicy .miss := by
  obtain ⟨ports, choices, moment⟩ := Device.swept_moment_eq playing n
  rw [moment]
  exact ⟨rfl, (PerPlayer.get_set ..).trans (if_pos rfl)⟩

/-- A LET_GO reaches the ring, the score and the notices of the ports, behind the MISS (08 R126, R127). -/
theorem Device.letGone_eq (playing : d.playerState (d.owner q) = .playing) (n : Note) :
    ∃ ports choices, d.letGone q n = { d with
      judge := (d.removeNote q n).judge
      score := { d.score with
        records := d.score.records.set (d.owner q) (((d.record (d.owner q)).apply d.score d.session.failPolicy
          .miss).apply d.score d.session.failPolicy .letGo) }
      ring := (d.ring.append (d.sweepRecord q n)).append (d.letGoRecord q n)
      ports := ports
      choices := choices } := by
  obtain ⟨ports, choices, moment⟩ := Device.swept_moment_eq playing n
  have handed := Device.handed_eq (d := (d.swept q n).headersMayFall) (q := q) (by rw [moment]; exact playing)
    (d.letGoRecord q n) .letGo
  obtain ⟨owner, record⟩ := Device.swept_moment_player playing n
  rw [owner, record, moment] at handed
  simp only [PerPlayer.set_set] at handed
  rw [Device.letGone, moment]
  exact ⟨_, _, handed⟩

/-- A sweep that takes no life to 0 hands its outcomes on, and the player's chart goes on (08 R118, R127). -/
theorem Device.sweepLane_alive (due : d.sweepDue q = some n) (playing : d.playerState (d.owner q) = .playing)
    (chart : (d.decoder (d.owner q)).state ≠ .ended)
    (alive : (d.record (d.owner q)).reachesZero d.score .miss = false)
    (alive' : n.kind = .holdStart →
      ((d.record (d.owner q)).apply d.score d.session.failPolicy .miss).reachesZero d.score .letGo = false) :
    d.sweepLane q = if n.kind = .holdStart then d.letGone q n else d.swept q n := by
  have miss : ({ device := d.removeNote q n, owed := false, handed := false } : Flow).outcome q
      (some (d.sweepRecord q n)) .miss = { device := d.swept q n, owed := false, handed := true } :=
    Flow.outcome_alive rfl (by simp [Device.outcomeReports, alive]) _
  have letGo (hold : n.kind = .holdStart) :
      ({ device := d.swept q n, owed := false, handed := true } : Flow).between.outcome q
        (some (d.letGoRecord q n)) .letGo = { device := d.letGone q n, owed := false, handed := true } := by
    refine Flow.outcome_alive rfl ?_ _
    obtain ⟨ports, choices, moment⟩ := Device.swept_moment_eq playing n
    obtain ⟨owner, record⟩ := Device.swept_moment_player playing n
    have survives : ((d.swept q n).headersMayFall.record (d.owner q)).reachesZero (d.swept q n).headersMayFall.score
        .letGo = false := by
      rw [record, moment]
      exact alive' hold
    change (d.swept q n).headersMayFall.outcomeReports ((d.swept q n).headersMayFall.owner q) .letGo = false
    rw [Device.outcomeReports, owner, survives, Bool.and_false]
  have undone (e : Device) (same : e.decoder (d.owner q) = d.decoder (d.owner q)) :
      ({ device := e, owed := false, handed := true } : Flow).handOff (d.owner q)
        = { device := e, owed := false, handed := true } :=
    Flow.handOff_undone rfl (Device.doneHolds_of_chart (by rw [same]; exact chart))
  have swept : (Flow.start d).sweepNote q n
      = { device := if n.kind = .holdStart then d.letGone q n else d.swept q n, owed := false, handed := true } := by
    by_cases hold : n.kind = .holdStart
    · refine Eq.trans ?_ ((undone (d.letGone q n) ?_).trans (by rw [if_pos hold]))
      · rw [← letGo hold, ← miss]
        unfold Flow.sweepNote
        dsimp only
        rw [if_pos hold]
        rfl
      · obtain ⟨_, _, gone⟩ := Device.letGone_eq playing n
        rw [gone]
        rfl
    · refine Eq.trans ?_ ((undone (d.swept q n) ?_).trans (by rw [if_neg hold]))
      · rw [← miss]
        unfold Flow.sweepNote
        dsimp only
        rw [if_neg hold]
        rfl
      · obtain ⟨_, gone⟩ := Device.swept_eq playing n
        rw [gone]
        rfl
  rw [Device.sweepLane, due]
  dsimp only
  rw [swept]
  exact Flow.finish_unowed rfl

/-- A sweep leaves the rest of its lane, the other lanes and the judge's settings (08 R109). -/
theorem Device.removeNote_target {e : Device} {pre post : List Note} (judge : e.judge = (d.removeNote q n).judge)
    (queue : (d.lane q).queue = pre ++ n :: post) (avoids : ∀ m ∈ pre, m.kind = .avoid) (kind : n.kind ≠ .avoid) :
    e.lane q = { d.lane q with queue := pre ++ post } ∧ (∀ x, x ≠ q → e.lane x = d.lane x)
      ∧ e.judge = { d.judge with lanes := e.judge.lanes } := by
  have lane (x : LaneQueue) : e.lane x = (d.removeNote q n).lane x := by rw [Device.lane, judge]; rfl
  refine ⟨?_, fun x other => ?_, by rw [judge]; rfl⟩
  · rw [lane, Device.removeNote, Device.lane_onLane, if_pos rfl, queue, erase_target avoids kind]
  · rw [lane, Device.removeNote, Device.lane_onLane, if_neg other]

/-- The fields of a MISS record (08 R126). -/
theorem Device.sweepRecord_eq (d : Device) (q : LaneQueue) (kind : n.kind ≠ .avoid) : d.sweepRecord q n =
    { seq := 0, type := if n.kind = .tap then .tap .miss else .holdStart .miss, player := d.owner q,
      lane := logicalLane d.session.style q, early := false, lateDecode := n.lateDecode,
      forcedEnd := n.kind = .holdStart && n.forcedEnd, timed := false, offset := 0, row := n.row } := by
  rw [Device.sweepRecord, NoteKind.recordType_target kind]
  rfl

/-! ## The ports through a sweep -/

/-- What two outcomes with the moment between them leave of a port: notices are only raised, and a header under way may
have been taken with the snapshot behind the MISS (08 R131). -/
theorem Device.letGone_port (d : Device) (q : LaneQueue) (n : Note) (i : Port) :
    (d.letGone q n).port i = { d.port i with
        notices := ((d.letGone q n).port i).notices, transaction := ((d.letGone q n).port i).transaction }
      ∧ (d.port i).notices &&& ~~~((d.letGone q n).port i).notices = 0
      ∧ (((d.letGone q n).port i).transaction = (d.port i).transaction
        ∨ ∃ status channel, (d.port i).transaction = some (.heading status channel)
          ∧ ((d.letGone q n).port i).transaction = some ((d.swept q n).readStarted i channel)) := by
  obtain ⟨missed, raised⟩ := onlyRaised_swept d q n i
  have moment := HeadersTaken.headersMayFall (d.swept q n)
  obtain ⟨gone, raised'⟩ := onlyRaised_handed (d.swept q n).headersMayFall q (d.letGoRecord q n) .letGo i
  change (d.letGone q n).port i = _ at gone
  change _ &&& ~~~((d.letGone q n).port i).notices = 0 at raised'
  have notices := congrArg PortState.notices (moment.port i)
  have transaction := congrArg PortState.transaction gone
  have before := congrArg PortState.transaction missed
  dsimp only at notices transaction before
  rw [notices_subset_iff] at raised raised' ⊢
  rw [notices] at raised'
  refine ⟨?_, fun b hb => raised' b (raised b hb), ?_⟩
  · rw [gone, moment.port i, missed]
  · rw [transaction, ← before]
    exact moment.taken i

/-- With no header under way a swept hold only raises notices (08 R131). -/
theorem Device.letGone_quiet (none_ : NoHeading d) (n : Note) :
    OnlyRaised d (d.letGone q n) ∧ (d.letGone q n).choices = d.choices := by
  have missed := onlyRaised_swept d q n
  have still : (d.swept q n).headersMayFall = d.swept q n := by
    refine Device.headersMayFall_none fun i status channel => ?_
    rw [congrArg PortState.transaction (missed i).1]
    exact none_ i status channel
  rw [Device.letGone, still]
  exact ⟨missed.trans (onlyRaised_handed (d.swept q n) q (d.letGoRecord q n) .letGo),
    Device.handed_choices.trans Device.handed_choices⟩

end

end Sys2Proof.Machine

section
open Sys2Proof.Machine Sys2Proof.Safety

/-- Settles O28: the sweep hands a MISS, and for a hold head the moment of 08 R131 and a LET_GO. -/
theorem sweepMisses : Obligations.SweepMisses := by
  unfold Obligations.SweepMisses
  rintro s q pre post n p k r rfl run playing chart queue avoids kind past rfl rfl alive alive'
  refine ⟨_, rfl, ?_⟩
  rw [State.onDevice_device]
  generalize s.device = d at *
  have judged : d.judging q = true := by simp [Device.judging, run, playing]
  have swept := Device.sweepLane_alive (Device.sweepDue_target judged queue avoids kind past) playing chart alive alive'
  have miss := d.sweepRecord_eq q kind
  obtain ⟨_, missed⟩ := Device.swept_eq playing n
  rw [swept]
  by_cases hold : n.kind = .holdStart
  · obtain ⟨_, _, gone⟩ := Device.letGone_eq playing n
    have judge := congrArg Device.judge gone
    obtain ⟨lane, others, settings⟩ := Device.removeNote_target judge queue avoids kind
    rw [if_pos hold, if_pos hold]
    refine ⟨by rw [gone], lane, others, settings, by rw [gone], ?_, ?_⟩
    · rintro x rfl
      rw [← miss, if_pos hold]
      refine ⟨by rw [gone]; rfl, d.swept q n, by rw [judge, missed], onlyRaised_swept d q n, fun i => ?_⟩
      obtain ⟨port, raised, taken⟩ := d.letGone_port q n i
      exact ⟨port, raised, taken.imp_right fun started => ⟨hold, started⟩⟩
    · rintro (tap | none_)
      · rw [tap] at hold
        cases hold
      · exact Device.letGone_quiet none_ n
  · have raised := onlyRaised_swept d q n
    have judge := congrArg Device.judge missed
    obtain ⟨lane, others, settings⟩ := Device.removeNote_target judge queue avoids kind
    rw [if_neg hold, if_neg hold]
    refine ⟨by rw [missed], lane, others, settings, by rw [missed], ?_, fun _ => ⟨raised, by rw [missed]⟩⟩
    rintro x rfl
    rw [← miss, if_neg hold]
    refine ⟨by rw [missed], d.swept q n, by rw [missed], raised, fun i => ?_⟩
    obtain ⟨port, notices⟩ := raised i
    have same := congrArg PortState.transaction port
    refine ⟨?_, notices, .inl same⟩
    rw [same]
    exact port

end
end

