-- ==== Sys2Proof/Proofs/PortsApart.lean ====
section
/-!
What a step does to the ports (O59): a chain of acts, each of them one that every port may meet through another port's
command or an event of the part, or a change of the sender's own port, or a reset.
-/
namespace Sys2Proof.Machine
open Sys2Proof.Safety

/-! ## One port -/

/-- What reaches a port from another port's command or from an event of the part: notices, the header of a read that is
taken, and the cutting off of a chart write (04 R47, 08 R131, 12 R174). -/
structure PortApart (x y : PortState) : Prop where
  same        : y = { x with notices := y.notices, transaction := y.transaction }
  raised      : x.notices &&& ~~~y.notices = 0
  transaction : HeaderStep x.transaction y.transaction ∨ y.transaction = x.transaction.map Transaction.cutOff

theorem Transaction.cutOff_cutOff (x : Transaction) : x.cutOff.cutOff = x.cutOff := by cases x <;> rfl

theorem Transaction.cutOff_heading {x : Transaction} {status : Byte} {channel : ChannelField}
    (h : x.cutOff = .heading status channel) : x = .heading status channel := by
  cases x with
  | heading => exact h
  | chart | selected | write | read | ringRead => cases h

/-- A transaction that a header has just started is none that an ABORT cuts off (04 R47). -/
theorem cutOff_of_taken {y : Option Transaction}
    (h : (∃ channel snapshot, y = some (.read channel snapshot)) ∨ ∃ snapshot, y = some (.ringRead snapshot 0 false)) :
    y.map Transaction.cutOff = y := by
  rcases h with ⟨_, _, rfl⟩ | ⟨_, rfl⟩ <;> rfl

section
variable {x y z : PortState}

theorem PortApart.refl (x : PortState) : PortApart x x := ⟨rfl, by simp, .inl (headerStep_refl _)⟩

theorem PortApart.trans (h : PortApart x y) (k : PortApart y z) : PortApart x z := by
  obtain ⟨same, raised, transaction⟩ := h
  obtain ⟨same', raised', transaction'⟩ := k
  rw [notices_subset_iff] at raised raised'
  refine ⟨by rw [same', same], (notices_subset_iff _ _).2 fun b hb => raised' b (raised b hb), ?_⟩
  rcases transaction with step | cut <;> rcases transaction' with step' | cut'
  · exact .inl (HeaderStep.trans step step')
  · rcases step with same | ⟨heading, taken⟩
    · exact .inr (by rw [cut', same])
    · exact .inl (.inr ⟨heading, by rwa [cut', cutOff_of_taken taken]⟩)
  · rcases step' with same | ⟨⟨status, channel, heading⟩, taken⟩
    · exact .inr (same.trans cut)
    · obtain ⟨w, hw, isHeading⟩ := Option.map_eq_some_iff.1 (cut.symm.trans heading)
      exact .inl (.inr ⟨⟨status, channel, by rw [hw, Transaction.cutOff_heading isHeading]⟩, taken⟩)
  · refine .inr ?_
    rw [cut', cut, Option.map_map]
    exact congrArg (Option.map · x.transaction) (funext Transaction.cutOff_cutOff)

/-- An accepted chart write is the GAME port's (04 R47, 12 R172). -/
def ChartIsGame (x : PortState) : Prop :=
  ∀ p entered full cut reset, x.transaction = some (.chart p .done entered full cut reset) → x.role = .game

/-- What the law of the ports asks of a change of one port. -/
structure PortKept (x y : PortState) : Prop where
  role  : y.role = x.role
  chart : ChartIsGame x → ChartIsGame y

/-- A port whose transaction is no accepted chart write. -/
theorem ChartIsGame.of_none
    (h : ∀ p entered full cut reset, x.transaction ≠ some (.chart p .done entered full cut reset)) :
    ChartIsGame x := fun p entered full cut reset open_ => absurd open_ (h p entered full cut reset)

theorem PortApart.kept (h : PortApart x y) : PortKept x y := by
  have role : y.role = x.role := by rw [h.same]
  refine ⟨role, fun game p entered full cut reset open_ => role.trans ?_⟩
  rcases h.transaction with (same | ⟨-, ⟨_, _, read⟩ | ⟨_, read⟩⟩) | cutOff
  · exact game p entered full cut reset (same.symm.trans open_)
  · rw [read] at open_; cases open_
  · rw [read] at open_; cases open_
  · obtain ⟨w, hw, isChart⟩ := Option.map_eq_some_iff.1 (cutOff.symm.trans open_)
    cases w <;> cases isChart
    exact game _ _ _ _ _ hw

theorem PortKept.softReset (x : PortState) : PortKept x x.softReset := by
  refine ⟨rfl, fun game p entered full cut reset open_ => ?_⟩
  obtain ⟨w, hw, isChart⟩ := Option.map_eq_some_iff.1 open_
  cases w <;> cases isChart
  exact game _ _ _ _ _ hw

/-- A change of a port that keeps its role and its transaction, as of its result, notices and mask. -/
theorem PortKept.of_same (role : y.role = x.role) (transaction : y.transaction = x.transaction) : PortKept x y :=
  ⟨role, fun game p entered full cut reset open_ => role.trans (game p entered full cut reset (transaction ▸ open_))⟩

/-- What a port writes while it holds an accepted chart write. -/
theorem PortKept.of_chart {p : Player} {entered : Nat} {full cut reset : Bool} (role : y.role = x.role)
    (open_ : x.transaction = some (.chart p .done entered full cut reset)) : PortKept x y :=
  ⟨role, fun game _ _ _ _ _ _ => role.trans (game _ _ _ _ _ open_)⟩

/-- A change of a port after which no accepted chart write is in progress on it. -/
theorem PortKept.of_none (role : y.role = x.role)
    (h : ∀ p entered full cut reset, y.transaction ≠ some (.chart p .done entered full cut reset)) : PortKept x y :=
  ⟨role, fun _ => .of_none h⟩

end

/-! ## Acts -/

/-- An act of a step upon the ports: one that every port may meet, a change of the sender's own port, or a reset, which
comes only where `resets` holds. -/
inductive PortAct (own : Option Port) (resets : Prop) (d : Device) : Device → Prop
  | apart {e : Device} (h : ∀ j, PortApart (d.port j) (e.port j)) : PortAct own resets d e
  | own (i : Port) (f : PortState → PortState) (sender : own = some i) (h : PortKept (d.port i) (f (d.port i))) :
      PortAct own resets d (d.onPort i f)
  | softReset {e : Device} (h : resets) (ports : ∀ j, e.port j = (d.port j).softReset) : PortAct own resets d e
  | powerOn (s : Straps) (h : resets) : PortAct own resets d (d.powerOn s)

/-- A chain of acts upon the ports. -/
def PortActs (own : Option Port) (resets : Prop) : Device → Device → Prop := Relation.ReflTransGen (PortAct own resets)

section
variable {own : Option Port} {resets : Prop} {d e g : Device}

theorem PortActs.refl (d : Device) : PortActs own resets d d := Relation.ReflTransGen.refl

theorem PortActs.trans (h : PortActs own resets d e) (k : PortActs own resets e g) : PortActs own resets d g :=
  Relation.ReflTransGen.trans h k

theorem PortAct.chain (h : PortAct own resets d e) : PortActs own resets d e := Relation.ReflTransGen.single h

theorem PortActs.apart (h : ∀ j, PortApart (d.port j) (e.port j)) : PortActs own resets d e := (PortAct.apart h).chain

theorem PortActs.of_ports (h : e.ports = d.ports) : PortActs own resets d e :=
  .apart fun j => by
    rw [show e.port j = d.port j by simp only [Device.port, h]]
    exact .refl _

theorem portApart_of_onlyRaised (h : OnlyRaised d e) (j : Port) : PortApart (d.port j) (e.port j) := by
  obtain ⟨same, raised⟩ := h j
  have transaction : (e.port j).transaction = (d.port j).transaction := by rw [same]
  exact ⟨by rw [transaction]; exact same, raised, .inl (.inl transaction)⟩

/-- Every elementary move of the part leaves a port its role, mask and result (08 R131, 12 R174). -/
theorem Move.apart (h : Move d e) (j : Port) : PortApart (d.port j) (e.port j) := by
  cases h with
  | quiet _ _ ports => exact portApart_of_onlyRaised (onlyRaised_of_ports ports) j
  | raise k => exact portApart_of_onlyRaised (onlyRaised_raise d k) j
  | append x => exact portApart_of_onlyRaised (onlyRaised_appendRecord d x) j
  | @header i status channel heading =>
    rw [Device.takeReadHeader, Device.port_onPort]
    split
    · rename_i here
      subst here
      refine ⟨rfl, by simp, .inl (.inr ⟨⟨status, channel, heading⟩, ?_⟩)⟩
      unfold Device.readStarted
      split
      · exact .inr ⟨_, rfl⟩
      · exact .inl ⟨_, _, rfl⟩
    · exact .refl _
  | done p =>
    rcases d.examineDone_cases p with ⟨-, eq⟩ | ⟨-, eq⟩ <;> rw [eq]
    · exact portApart_of_onlyRaised (onlyRaised_leavePlay d p .cleared .cleared) j
    · exact .refl _
  | report p =>
    rcases d.takeReport_cases p with ⟨-, eq⟩ | ⟨-, eq⟩ <;> rw [eq]
    · have emptied : OnlyRaised d (((d.setPlayer p .failed).emptyLanes p).onDecoder p Decoder.discarded) :=
        onlyRaised_of_ports rfl
      exact portApart_of_onlyRaised (((emptied.trans (onlyRaised_appendRecord _ (markRecord .failed p))).trans
        (onlyRaised_raise _ .player)).trans (onlyRaised_examineEnd _)) j
    · exact .refl _

theorem Moves.apart (h : Moves d e) (j : Port) : PortApart (d.port j) (e.port j) := by
  induction h with
  | refl => exact .refl _
  | tail _ move ih => exact ih.trans (move.apart j)

theorem Moves.portActs (h : Moves d e) : PortActs own resets d e := .apart h.apart

/-- Another port meets only what every port may meet, where no reset comes. -/
theorem PortActs.other (h : PortActs own resets d e) (still : ¬resets) {j : Port} (other : own ≠ some j) :
    PortApart (d.port j) (e.port j) := by
  induction h with
  | refl => exact .refl _
  | tail _ act ih =>
    refine ih.trans ?_
    cases act with
    | apart h => exact h j
    | own i f sender _ =>
      have elsewhere : j ≠ i := fun same => other (same ▸ sender)
      rw [Device.port_onPort, if_neg elsewhere]
      exact .refl _
    | softReset comes => exact absurd comes still
    | powerOn _ comes => exact absurd comes still

/-! ## The law of the ports -/

theorem portLaw_of_kept (law : PortLaw d) (h : ∀ i, PortKept (d.port i) (e.port i)) : PortLaw e := by
  obtain ⟨exclusive, game⟩ := law
  refine ⟨fun i j same some_ => ?_, fun i => (h i).chart (game i)⟩
  rw [(h i).role, (h j).role] at same
  rw [(h i).role] at some_
  exact exclusive i j same some_

/-- No two ports are given one of the roles GAME, AUDIO and LAMP (12 R173). -/
theorem grantedRoles_exclusive (s : Straps) : ∀ i j : Port,
    ((portsOf (grantedRoles s))[i]).role = ((portsOf (grantedRoles s))[j]).role →
      ((portsOf (grantedRoles s))[i]).role ≠ .watch → i = j := by
  obtain ⟨mp0, mp1, mp2⟩ := s
  cases mp0 <;> cases mp1 <;> cases mp2 <;> decide

theorem portLaw_powerOn (d : Device) (s : Straps) : PortLaw (d.powerOn s) := by
  have role (i : Port) : ((d.powerOn s).port i).role = ((portsOf (grantedRoles s))[i]).role := by
    rw [Device.port_powerOn]
  have none_open (i : Port) : ((d.powerOn s).port i).transaction = none := by
    rw [Device.port_powerOn]
    fin_cases i <;> rfl
  refine ⟨fun i j => ?_, fun i => ChartIsGame.of_none fun _ _ _ _ _ => ?_⟩
  · rw [role, role]
    exact grantedRoles_exclusive s i j
  · rw [none_open]
    nofun

/-- Every chain of acts keeps the law of the ports (12 R172, R173). -/
theorem PortActs.law (h : PortActs own resets d e) (law : PortLaw d) : PortLaw e := by
  induction h with
  | refl => exact law
  | tail _ act ih =>
    cases act with
    | apart h => exact portLaw_of_kept ih fun i => (h i).kept
    | own i f _ h =>
      refine portLaw_of_kept ih fun j => ?_
      rw [Device.port_onPort]
      split
      · rename_i here
        rwa [here]
      · exact .of_same rfl rfl
    | softReset _ ports =>
      refine portLaw_of_kept ih fun j => ?_
      rw [ports j]
      exact .softReset _
    | powerOn s _ => exact portLaw_powerOn _ s

end

/-! ## Commands handed on -/

section
variable {own : Option Port} {resets : Prop} (d : Device)

theorem PortActs.raise (k : Notice) : PortActs own resets d (d.raise k) := (Moves.raise d k).portActs

theorem PortActs.mark (k : MarkKind) (p : Player) : PortActs own resets d (d.mark k p) :=
  (Moves.appendRecord d (markRecord k p)).portActs

/-- An update that leaves the ports, and what comes after it. -/
theorem PortActs.behind {a e : Device} (h : PortActs own resets a e) (ports : a.ports = d.ports) :
    PortActs own resets d e := (PortActs.of_ports ports).trans h

theorem PortActs.openWith (s : Session) : PortActs own resets d (d.openWith s) :=
  .behind d ((PortActs.mark _ .opened .p1).trans (.raise _ .session)) rfl

theorem PortActs.raiseAt (i : Port) (kinds : BitVec 16) : PortActs own resets d (d.raiseAt i kinds) :=
  .apart fun j => by
    rw [Device.port_raiseAt]
    split
    · exact ⟨rfl, (notices_subset_iff _ _).2 fun b hb => by simp [hb], .inl (headerStep_refl _)⟩
    · exact .refl _

theorem PortActs.freezeMap : PortActs own resets d d.freezeMap := by
  have mapped : PortActs own resets d { d with mapper := d.computeMap } := .of_ports rfl
  unfold Device.freezeMap
  dsimp only
  split
  · exact mapped
  · exact mapped.trans (.raise _ .mapDegraded)

theorem PortActs.startSong : PortActs own resets d d.startSong :=
  .behind d (((PortActs.freezeMap _).trans (.mark _ .started .p1)).trans (.raise _ .session)) rfl

/-- The return to IDLE cuts off a chart write of any port (04 R47). -/
theorem PortActs.returnToIdle : PortActs own resets d d.returnToIdle :=
  .apart fun j => by
    rw [Device.port_returnToIdle]
    exact ⟨rfl, by simp, .inr rfl⟩

theorem PortActs.setLink (l : Stage) (enable : BitVec 6) (replyLimit missLimit : Nat) :
    PortActs own resets d (d.setLink l enable replyLimit missLimit) :=
  .behind d (Moves.setLink d l enable replyLimit missLimit).portActs rfl

theorem PortActs.setStage (fields : List Byte) : PortActs own resets d (setStage fields d).2 := by
  have offsets (x : PerStage Int) : PortActs own resets d { d with clock := { d.clock with offsets := x } } :=
    .of_ports rfl
  unfold Machine.setStage
  split
  · exact .refl d
  · split
    · exact .refl d
    · exact ((offsets _).trans (.setLink _ .a _ _ _)).trans (.setLink _ .b _ _ _)

theorem PortActs.ringSubscribe (i : Port) (fields : List Byte) :
    PortActs own resets d (ringSubscribe i fields d).2 := by
  have ring (x : Ring) : PortActs own resets d { d with ring := x } := .of_ports rfl
  unfold Machine.ringSubscribe
  dsimp only
  split
  · exact .refl d
  · exact (ring _).trans (.raiseAt _ i _)

/-- The commands that write settings or give up a cursor leave the ports as they are. -/
theorem handCommand_ports (i : Port) {c : Command} (fields : List Byte)
    (hc : c ∈ [.setSync, .setMap, .setWindows, .setScoring, .setLife, .setLamps, .unsubscribe]) :
    (handCommand i c fields d).2.ports = d.ports := by
  simp only [List.mem_cons, List.not_mem_nil, or_false] at hc
  rcases hc with rfl | rfl | rfl | rfl | rfl | rfl | rfl
  · simp only [handCommand, setSync]
    split_ifs <;> rfl
  · simp only [handCommand, setMap]
    split_ifs <;> rfl
  · simp only [handCommand, setWindows]
    split_ifs <;> rfl
  · simp only [handCommand, setScoring]
    split_ifs <;> rfl
  · simp only [handCommand, setLife]
    split_ifs <;> rfl
  · rfl
  · rfl

/-- A soft reset keeps the roles and resets the rest of every port (12 R176, R177). -/
theorem PortActs.softReset (h : resets) : PortActs own resets d d.softReset := by
  have blocks : ∀ j, d.softResetBlocks.port j = (d.port j).softReset := fun j => vecMap_get ..
  exact (PortAct.softReset h blocks).chain.trans (Moves.softReset d).portActs

/-- What a command handed on by a port does to the ports (12 R171). -/
theorem PortActs.handCommand (i : Port) (c : Command) (fields : List Byte) (h : c = .softReset → resets) :
    PortActs own resets d (handCommand i c fields d).2 := by
  by_cases accepted : d.session.state ∈ statesOf c
  case neg =>
    rw [handCommand_wrongState i fields accepted]
    exact .refl d
  cases c with
  | setSync | setMap | setWindows | setScoring | setLife | setLamps | unsubscribe =>
    exact .of_ports (handCommand_ports d i fields (by decide))
  | openSong =>
    simp only [Machine.handCommand, openSong]
    split_ifs
    · exact .refl d
    · exact .refl d
    · exact .openWith d _
  | start =>
    simp only [Machine.handCommand, start]
    split_ifs
    · exact .refl d
    · exact (PortActs.startSong d).trans
        (((Moves.examineDone _ .p1).trans (.examineDone _ .p2)).trans (.settleLanes _)).portActs
  | abort | close =>
    rw [handCommand_return i fields (by decide) accepted]
    refine ((PortActs.returnToIdle d).trans ?_).trans (.raise _ .session)
    unfold Device.abortMark
    split
    · exact .mark _ .aborted .p1
    · exact .refl _
  | position => exact (Moves.position d fields).portActs
  | setStage => exact .setStage d fields
  | setPanel =>
    simp only [Machine.handCommand]
    rcases setPanel_cases d fields with eq | eq <;> rw [eq]
    · exact .refl d
    · exact .behind d (Moves.expireAllStuck (d.calibrated fields)).portActs rfl
  | subscribe => exact .ringSubscribe d i fields
  | softReset =>
    simp only [Machine.handCommand]
    exact .softReset d (h rfl)

end

/-! ## Transactions -/

section
variable {resets : Prop} (d : Device) (i : Port)

theorem PortActs.onPort (f : PortState → PortState) (h : PortKept (d.port i) (f (d.port i))) :
    PortActs (some i) resets d (d.onPort i f) := (PortAct.own i f rfl h).chain

theorem PortActs.setResult (channel : BitVec 6) (code : ResultCode) (n : Nat) :
    PortActs (some i) resets d (d.setResult i channel code n) := .onPort d i _ (.of_same rfl rfl)

/-- A transaction other than an accepted chart write is opened, or one is closed. -/
theorem PortActs.setTransaction (x : Option Transaction)
    (h : ∀ p entered full cut reset, x ≠ some (.chart p .done entered full cut reset)) :
    PortActs (some i) resets d (d.onPort i fun p => { p with transaction := x }) := .onPort d i _ (.of_none rfl h)

theorem PortActs.closed : PortActs (some i) resets d (d.onPort i fun p => { p with transaction := none }) :=
  .setTransaction d i none nofun

/-- The header of a chart write is accepted for the GAME port alone (12 R172). -/
theorem PortActs.chartBegin (p : Player) : PortActs (some i) resets d (d.chartBegin i p) := by
  refine .onPort d i _ ⟨rfl, fun _ _ _ _ _ _ open_ => ?_⟩
  have accepted : d.chartVerdict i p = .done := by
    simp only [Option.some.injEq, Transaction.chart.injEq] at open_
    exact open_.2.1
  by_contra other
  rw [Device.chartVerdict, if_pos other] at accepted
  cases accepted

theorem onlyRaised_addFault (p : Player) (k : FaultKind) : OnlyRaised d (d.addFault p k) := by
  rcases d.addFault_cases p k with ⟨-, eq⟩ | ⟨-, eq⟩ <;> rw [eq]
  · exact onlyRaised_of_ports rfl
  · exact (onlyRaised_of_ports rfl).trans (onlyRaised_raise _ _)

theorem onlyRaised_bufferByte (p : Player) (b : Byte) : OnlyRaised d (d.bufferByte p b) := by
  have entered : OnlyRaised d (d.onDecoder p fun c => { c with buffer := c.buffer ++ [b] }) := onlyRaised_of_ports rfl
  unfold Device.bufferByte Device.discardAfterEnd
  split
  · exact (entered.trans (onlyRaised_addFault _ p .afterEnd)).trans (onlyRaised_of_ports rfl)
  · exact entered

theorem PortActs.chartByte (b : Byte) : PortActs (some i) resets d (d.chartByte i b) := by
  unfold Device.chartByte
  split
  case h_1 p entered open_ =>
    split
    · have raised := onlyRaised_bufferByte d p b
      have still : ((d.bufferByte p b).port i).transaction = some (.chart p .done entered false false false) := by
        rw [(raised i).1]
        exact open_
      exact (PortActs.apart (portApart_of_onlyRaised raised)).trans (.onPort _ i _ (.of_chart rfl still))
    · exact .onPort d i _ (.of_chart rfl open_)
  case h_2 => exact .refl d

theorem PortActs.chartRise : PortActs (some i) resets d (d.chartRise i) := by
  unfold Device.chartRise
  split
  case h_1 =>
    dsimp only
    split
    · exact .closed d i
    · exact (PortActs.closed d i).trans (.setResult _ i _ _ _)
  all_goals exact .refl d

theorem PortActs.chartTaken (p : Player) (data : List Byte) : PortActs (some i) resets d (d.chartTaken i p data) := by
  have bytes (e : Device) : PortActs (some i) resets e (data.foldl (fun d b => d.chartByte i b) e) := by
    induction data generalizing e with
    | nil => exact .refl e
    | cons b data ih => exact (PortActs.chartByte e i b).trans (ih _)
  exact ((PortActs.chartBegin d i p).trans (bytes _)).trans (.chartRise _ i)

theorem PortActs.noticeTaken (data : List Byte) : PortActs (some i) resets d (d.noticeTaken i data) := by
  unfold Device.noticeTaken
  split
  · exact (PortActs.onPort d i _ (.of_same rfl rfl)).trans (.setResult _ i _ _ _)
  · exact .setResult d i _ _ _

theorem PortActs.maskTaken (data : List Byte) : PortActs (some i) resets d (d.maskTaken i data) := by
  unfold Device.maskTaken
  split
  · exact (PortActs.onPort d i _ (.of_same rfl rfl)).trans (.setResult _ i _ _ _)
  · exact .setResult d i _ _ _

theorem PortActs.lampTaken (data : List Byte) : PortActs (some i) resets d (d.lampTaken i data) := by
  unfold Device.lampTaken
  split
  · exact .behind d (PortActs.setResult _ i _ _ _) rfl
  · exact .setResult d i _ _ _

theorem PortActs.readTaken (channel : ChannelField) : PortActs (some i) resets d (d.readTaken i channel) := by
  unfold Device.readTaken
  split_ifs
  · exact .setResult d i _ _ _
  · exact .refl d
  · exact .setResult d i _ _ _

theorem PortActs.commandTaken (c : Command) (fields : List Byte) (h : c = .softReset → resets) :
    PortActs (some i) resets d (d.commandTaken i c fields) := by
  unfold Device.commandTaken
  split
  · exact .setResult d i _ _ _
  · refine (PortActs.handCommand d i c fields h).trans ?_
    unfold leaveResult
    split
    · exact .refl _
    · exact .setResult _ i _ _ _

theorem PortActs.commandBytesTaken (data : List Byte) (h : resets) :
    PortActs (some i) resets d (d.commandBytesTaken i data) := by
  unfold Device.commandBytesTaken
  split
  · exact .setResult d i _ _ _
  · split
    · exact .setResult d i _ _ _
    · exact .commandTaken d i _ _ fun _ => h

/-- A write of another channel than COMMAND brings no reset (12 R170). -/
theorem PortActs.writeTaken (channel : ChannelField) (data : List Byte) (h : channel = 0x01#7 → resets) :
    PortActs (some i) resets d (d.writeTaken i channel data) := by
  unfold Device.writeTaken
  split
  case h_1 command => exact .commandBytesTaken d i data (h (BitVec.eq_of_toNat_eq command))
  case h_2 => exact .noticeTaken d i data
  case h_3 => exact .maskTaken d i data
  case h_4 => exact .chartTaken d i _ data
  case h_5 => exact .chartTaken d i _ data
  case h_6 => exact .lampTaken d i data
  case h_7 => exact .setResult d i _ _ _

end

section
variable {resets : Prop} {d : Device} {i : Port}

/-- The hypothesis under which the rise that a transaction command brings may bring a reset. -/
def RiseMayReset (resets : Prop) (d : Device) (i : Port) : Prop :=
  ∀ data, (d.port i).transaction = some (.write 0x01#7 data) → resets

/-- The rise of SEL_N: a reset comes only where a write of COMMAND is in progress (12 R167, R170). -/
theorem PortActs.rise (h : RiseMayReset resets d i) : PortActs (some i) resets d (d.rise i) := by
  have closed := PortActs.closed (resets := resets) d i
  unfold Device.rise
  dsimp only
  split
  case h_4 channel data open_ =>
    exact closed.trans (.writeTaken _ i channel data fun command => h data (command ▸ open_))
  case h_5 channel _ _ => exact closed.trans (.readTaken _ i channel)
  case h_6 => exact .chartRise d i
  all_goals exact closed

theorem PortActs.fall (h : RiseMayReset resets d i) : PortActs (some i) resets d (d.fall i) :=
  (PortActs.rise h).trans (.setTransaction _ i _ nofun)

theorem PortActs.readHeader (channel : ChannelField) (h : RiseMayReset resets d i) :
    PortActs (some i) resets d (d.readHeader i channel) := by
  refine (PortActs.rise h).trans (.setTransaction _ i _ fun _ _ _ _ _ => ?_)
  unfold Device.readStarted
  split <;> nofun

theorem PortActs.headingRead (channel : ChannelField) (h : RiseMayReset resets d i) :
    PortActs (some i) resets d (d.headingRead i channel) := by
  unfold Device.headingRead
  split
  · exact .setTransaction d i _ nofun
  all_goals exact (PortActs.rise h).trans (.setTransaction _ i _ nofun)

theorem PortActs.writeHeader (channel : ChannelField) (h : RiseMayReset resets d i) :
    PortActs (some i) resets d (d.writeHeader i channel) := by
  refine (PortActs.rise h).trans ?_
  unfold Device.writeHeader
  dsimp only
  split
  · exact .chartBegin _ i .p1
  · exact .chartBegin _ i .p2
  · exact .setTransaction _ i _ nofun

theorem PortActs.byteIn (b : Byte) : PortActs (some i) resets d (d.byteIn i b) := by
  unfold Device.byteIn
  split
  · exact .setTransaction d i _ nofun
  · exact .chartByte d i b
  all_goals exact .refl d

theorem PortActs.recordSent : PortActs (some i) resets d (d.recordSent i) := by
  unfold Device.recordSent
  split
  · split
    · exact .refl d
    · exact .behind d (PortActs.setTransaction _ i _ nofun) rfl
  · exact .refl d

theorem PortActs.chartTransfer (x : ChartTransfer) (h : RiseMayReset resets d i) :
    PortActs (some i) resets d (d.chartTransfer i x) := by
  cases x with
  | whole p data => exact (PortActs.rise h).trans (.chartTaken _ i p data)
  | header p => exact (PortActs.rise h).trans (.chartBegin _ i p)
  | byte b => exact .chartByte d i b
  | rise => exact .chartRise d i

theorem PortActs.writeTransfer (channel : ChannelField) (x : WriteTransfer) (h : RiseMayReset resets d i)
    (own : spellsCommand (.registerWrite i channel x) = true → resets) :
    PortActs (some i) resets d (d.writeTransfer i channel x) := by
  cases x with
  | whole data =>
    exact (PortActs.rise h).trans (.writeTaken _ i channel data fun command => own (by simp [spellsCommand, command]))
  | fall => exact .fall h
  | header => exact .writeHeader channel h
  | byte b => exact .byteIn b
  | rise => exact .rise h

theorem PortActs.readTransfer (x : ReadTransfer) (h : RiseMayReset resets d i) :
    PortActs (some i) resets d (d.readTransfer i x) := by
  cases x with
  | whole channel => exact (PortActs.rise h).trans (.readTaken _ i channel)
  | fall => exact .fall h
  | heading channel => exact .headingRead channel h
  | header channel => exact .readHeader channel h
  | rise => exact .rise h

theorem PortActs.ringTransfer (x : RingTransfer)
    (h : ∀ i, portOf (.ringRead x) = some i → RiseMayReset resets d i) :
    PortActs (portOf (.ringRead x)) resets d (d.ringTransfer x) := by
  cases x with
  | whole i => exact (PortActs.rise (h i rfl)).trans (.readTaken _ i _)
  | heading i => exact .headingRead _ (h i rfl)
  | header i => exact .readHeader _ (h i rfl)
  | rise i => exact .rise (h i rfl)

/-- A COMMAND write of a known command, whole (12 R171). -/
theorem PortActs.command (c : Command) (fields : List Byte) (h : RiseMayReset resets d i)
    (own : c = .softReset → resets) : PortActs (some i) resets d (d.command i c fields) :=
  (PortActs.rise h).trans (.commandTaken _ i c fields own)

end

/-! ## The step -/

/-- Every command is a chain of acts upon the ports; it brings a reset only where it may. -/
theorem exec_portActs {c : Instr} {s t : State} (h : exec c s = .next t) :
    PortActs (portOf c) (mayReset s.device c = true) s.device t.device := by
  have ends (i : Port) (hc : portOf c = some i) : RiseMayReset (mayReset s.device c = true) s.device i := by
    intro data open_
    have ended := endsCommand_of_open hc open_
    unfold mayReset
    split
    · rfl
    · rfl
    · rw [ended, Bool.or_true]
  cases c <;> rw [answer_next h]
  case openSong i fields | start i fields | abort i fields | close i fields | position i fields | setSync i fields
    | setStage i fields | setPanel i fields | setMap i fields | setWindows i fields | setScoring i fields
    | setLife i fields | setLamps i fields | subscribe i fields | unsubscribe i fields =>
    exact .command _ fields (ends i rfl) nofun
  case softReset i fields => exact .command .softReset fields (ends i rfl) fun _ => rfl
  case chartWrite i x => exact .chartTransfer x (ends i rfl)
  case noticeWrite i data => exact (PortActs.rise (ends i rfl)).trans (.noticeTaken _ i data)
  case noticeMaskWrite i data => exact (PortActs.rise (ends i rfl)).trans (.maskTaken _ i data)
  case lampWrite i data => exact (PortActs.rise (ends i rfl)).trans (.lampTaken _ i data)
  case registerWrite i channel x =>
    exact .writeTransfer channel x (ends i rfl) fun spells => by simp [mayReset, spells]
  case ringRead x => exact .ringTransfer x ends
  case ringRecordConsumed i => exact .recordSent
  case refusedRead i x => exact .readTransfer x (ends i rfl)
  case powerOnReset straps => exact (PortAct.powerOn straps rfl).chain
  case fsyncEdge => exact (Moves.edge _).portActs
  case microsecondTick => exact (Moves.microsecond _).portActs
  case stallEnd => exact (Moves.endStall _).portActs
  case syncTimeout => exact (Moves.loseSync _).portActs
  case tempoEntryReached p => exact (Moves.reachTempo _ p).portActs
  case beatCrossing p => exact (Moves.crossBeat _ p).portActs
  case poll x => exact (Moves.pollTransfer _ x).portActs
  case emptyRound l => exact (Moves.endEmptyRound _ l).portActs
  case report l frame quarters => exact (Moves.receiveReport _ l frame quarters).portActs
  case replyDeadline l => exact (Moves.passDeadline _ l).portActs
  case stuckExpiry p => exact (Moves.expireStuck _ p).portActs
  case sweep q => exact (Moves.sweepLane _ q).portActs
  case avoidDue q => exact (Moves.avoidDueLane _ q).portActs
  case avoidPastWindow q => exact (Moves.avoidPastLane _ q).portActs
  case tailReached q => exact (Moves.tailLane _ q).portActs
  case graceExpiry q => exact (Moves.graceLane _ q).portActs
  case flashEnd p => exact (Moves.endFlash _ p).portActs
  case beatPulseEnd p => exact (Moves.endBeatPulse _ p).portActs
  case headerEntry p | rowsEntry p | notesEntry p | repeatEntry p | tempoEntry p | dwellEntry p | endEntry p
      | badTag p =>
    exact (Moves.takeKind _ p _).portActs
  case stallRelease p => exact (Moves.releaseStall _ p).portActs

end Sys2Proof.Machine

section
open Sys2Proof.Machine Sys2Proof.Safety

/-- Settles O59: every command is a chain of acts upon the ports, each of which keeps the law, and each of which another
port than the sender's meets only as any port may. -/
theorem portsStayApart : Obligations.PortsStayApart := by
  refine ⟨fun s t h law => ?_, fun c s t j h other quiet => ?_⟩
  · unfold step at h
    split at h
    · cases h
      exact law
    · rename_i c rest _
      exact (exec_portActs (s := { s with pending := rest }) h).law law
  · obtain ⟨same, raised, transaction⟩ := (exec_portActs h).other (by simp [quiet]) other
    exact ⟨same, raised, transaction⟩

end
end

