-- ==== Sys2Proof/Proofs/TransactionMoments.lean ====
section
/-!
Transactions and their moments (O43), and a read of a chart channel (O46): a whole transaction is its header, its bytes
and its rise, since no transaction is left open behind a rise.
-/
namespace Sys2Proof.Machine
open Sys2Proof.Safety

/-! ## Updates of one port -/

section
variable (d : Device) (i : Port)

theorem Device.ports_ext {d e : Device} (same : e = { d with ports := e.ports }) (ports : ∀ j, e.port j = d.port j) :
    e = d := by
  have vectors : e.ports = d.ports := by
    ext1 j hj
    exact ports ⟨j, hj⟩
  rw [same, vectors]

@[simp] theorem Device.onPort_onPort (f g : PortState → PortState) :
    (d.onPort i f).onPort i g = d.onPort i fun x => g (f x) := by
  refine Device.ports_ext rfl fun j => ?_
  simp only [Device.port_onPort]
  split <;> rfl

theorem Device.setResult_eq (channel : BitVec 6) (code : ResultCode) (n : Nat) :
    d.setResult i channel code n = d.onPort i fun x => { x with result := ⟨channel, code, countField n⟩ } := rfl

/-- A port with no transaction in progress is as it was when one is closed on it. -/
theorem Device.close_closed (h : (d.port i).transaction = none) :
    (d.onPort i fun x => { x with transaction := none }) = d :=
  d.onPort_id i _ (by rw [← h])

/-! ## Behind a rise no transaction is open -/

variable {d i}

/-- No command that is handed on opens a transaction (12 R167). -/
theorem PortActs.closed_stays {resets : Prop} {e : Device} (h : PortActs none resets d e) (j : Port)
    (closed : (d.port j).transaction = none) : (e.port j).transaction = none := by
  induction h with
  | refl => exact closed
  | tail _ act ih =>
    cases act with
    | apart h =>
      rcases (h j).transaction with (same | ⟨⟨_, _, heading⟩, -⟩) | cut
      · rw [same, ih]
      · rw [ih] at heading
        cases heading
      · rw [cut, ih]
        rfl
    | own _ _ sender _ => cases sender
    | softReset _ ports =>
      rw [ports j]
      change Option.map _ _ = none
      rw [ih]
      rfl
    | powerOn s _ =>
      rw [Device.port_powerOn]
      fin_cases j <;> rfl

theorem Device.setResult_transaction (channel : BitVec 6) (code : ResultCode) (n : Nat) (j : Port) :
    ((d.setResult i channel code n).port j).transaction = (d.port j).transaction := by
  rw [Device.port_setResult]
  split <;> rfl

theorem Device.commandTaken_closed (c : Command) (fields : List Byte) (closed : (d.port i).transaction = none) :
    ((d.commandTaken i c fields).port i).transaction = none := by
  unfold Device.commandTaken
  split
  · rw [Device.setResult_transaction, closed]
  · have handed :=
      (PortActs.handCommand (own := none) (resets := True) d i c fields fun _ => trivial).closed_stays i closed
    unfold leaveResult
    split
    · exact handed
    · rw [Device.setResult_transaction, handed]

theorem Device.commandBytesTaken_closed (data : List Byte) (closed : (d.port i).transaction = none) :
    ((d.commandBytesTaken i data).port i).transaction = none := by
  unfold Device.commandBytesTaken
  split
  · rw [Device.setResult_transaction, closed]
  · split
    · rw [Device.setResult_transaction, closed]
    · exact Device.commandTaken_closed _ _ closed

/-- A chart write is in progress on a port. -/
def Device.ChartWriting (d : Device) (i : Port) : Prop :=
  ∃ p verdict entered full cut reset, (d.port i).transaction = some (.chart p verdict entered full cut reset)

theorem Device.chartBegin_writing (p : Player) : (d.chartBegin i p).ChartWriting i :=
  ⟨p, d.chartVerdict i p, 0, false, false, false, by simp [Device.chartBegin]⟩

theorem Device.chartByte_writing (b : Byte) (h : d.ChartWriting i) : (d.chartByte i b).ChartWriting i := by
  unfold Device.chartByte
  split
  case h_1 p entered _ =>
    split
    · exact ⟨p, .done, entered + 1, false, false, false, by simp⟩
    · exact ⟨p, .done, entered, true, false, false, by simp⟩
  case h_2 => exact h

theorem Device.chartBytes_writing (data : List Byte) (h : d.ChartWriting i) :
    (data.foldl (fun d b => d.chartByte i b) d).ChartWriting i := by
  induction data generalizing d with
  | nil => exact h
  | cons b data ih => exact ih (Device.chartByte_writing b h)

theorem Device.chartRise_closed (h : d.ChartWriting i) : ((d.chartRise i).port i).transaction = none := by
  obtain ⟨p, verdict, entered, full, cut, reset, open_⟩ := h
  unfold Device.chartRise
  rw [open_]
  dsimp only
  split
  · simp
  · simp

theorem Device.readTaken_closed (channel : ChannelField) (closed : (d.port i).transaction = none) :
    ((d.readTaken i channel).port i).transaction = none := by
  obtain ⟨-, -, own⟩ := d.readTaken_only i channel
  rw [own]
  exact closed

theorem Device.writeTaken_closed (channel : ChannelField) (data : List Byte) (closed : (d.port i).transaction = none) :
    ((d.writeTaken i channel data).port i).transaction = none := by
  have charted (p : Player) : ((d.chartTaken i p data).port i).transaction = none :=
    Device.chartRise_closed (Device.chartBytes_writing data (Device.chartBegin_writing p))
  unfold Device.writeTaken
  split
  case h_1 => exact Device.commandBytesTaken_closed data closed
  case h_2 =>
    unfold Device.noticeTaken
    split <;> simp [closed]
  case h_3 =>
    unfold Device.maskTaken
    split <;> simp [closed]
  case h_4 => exact charted .p1
  case h_5 => exact charted .p2
  case h_6 =>
    unfold Device.lampTaken
    split
    · rw [Device.setResult_transaction]
      exact closed
    · rw [Device.setResult_transaction, closed]
  case h_7 => rw [Device.setResult_transaction, closed]

/-- The rise of SEL_N ends the transaction of its port (12 R167). -/
theorem Device.rise_closed (d : Device) (i : Port) : ((d.rise i).port i).transaction = none := by
  have closed : ((d.onPort i fun x => { x with transaction := none }).port i).transaction = none := by simp
  unfold Device.rise
  dsimp only
  split
  case h_4 => exact Device.writeTaken_closed _ _ closed
  case h_5 => exact Device.readTaken_closed _ closed
  case h_6 open_ => exact Device.chartRise_closed ⟨_, _, _, _, _, _, open_⟩
  all_goals exact closed

end

/-! ## The fall and the header on a port with no transaction in progress -/

/-- The fall of SEL_N on a port with no transaction in progress (12 R168). -/
def Device.select (d : Device) (i : Port) : Device :=
  d.onPort i fun p => { p with transaction := some (.selected (d.statusByte i)) }

/-- The header of a write on a port with no transaction in progress (12 R167). -/
def Device.beginWrite (d : Device) (i : Port) (channel : ChannelField) : Device :=
  match channel.toNat with
  | 0x04 => d.chartBegin i .p1
  | 0x05 => d.chartBegin i .p2
  | _ => d.onPort i fun p => { p with transaction := some (.write channel []) }

theorem Device.fall_eq (d : Device) (i : Port) : d.fall i = (d.rise i).select i := rfl

theorem Device.writeHeader_eq (d : Device) (i : Port) (channel : ChannelField) :
    d.writeHeader i channel = (d.rise i).beginWrite i channel := rfl

/-! ## A transaction moment by moment -/

/-- Commands that answer one after another. -/
theorem runAll_append (cs ds : List Instr) (s : State) : runAll (cs ++ ds) s = (runAll cs s).bind (runAll ds) := by
  induction cs generalizing s with
  | nil => rfl
  | cons c cs ih =>
    rw [List.cons_append, runAll, runAll]
    cases exec c s with
    | next t => exact ih t
    | fault r => rfl
    | refused r => rfl

theorem runAll_bytes {byte : Byte → Instr} {f : Device → Byte → Device}
    (h : ∀ b s, exec (byte b) s = answer s fun d => f d b) (data : List Byte) (s : State) :
    runAll (data.map byte) s = some (s.onDevice fun d => data.foldl f d) := by
  induction data generalizing s with
  | nil => rfl
  | cons b data ih =>
    rw [List.map_cons, runAll, h]
    exact ih _

/-- A header, the data bytes and the rise, taken one after another. -/
theorem runAll_moments {header rise : Instr} {byte : Byte → Instr} {begin_ end_ : Device → Device}
    {f : Device → Byte → Device} (hb : ∀ s, exec header s = answer s begin_)
    (h : ∀ b s, exec (byte b) s = answer s fun d => f d b) (he : ∀ s, exec rise s = answer s end_) (data : List Byte)
    (s : State) :
    runAll ((header :: data.map byte) ++ [rise]) s = some (s.onDevice fun d => end_ (data.foldl f (begin_ d))) := by
  rw [runAll_append, runAll, hb, answer]
  dsimp only
  rw [runAll_bytes h, Option.bind_some, runAll, he]
  rfl

section
variable {d : Device} {i : Port}

theorem Device.byteIn_writing (b : Byte) (h : d.ChartWriting i) : d.byteIn i b = d.chartByte i b := by
  obtain ⟨p, verdict, entered, full, cut, reset, open_⟩ := h
  simp only [Device.byteIn, open_]

theorem Device.bytesIn_writing (data : List Byte) (h : d.ChartWriting i) :
    data.foldl (fun d b => d.byteIn i b) d = data.foldl (fun d b => d.chartByte i b) d := by
  induction data generalizing d with
  | nil => rfl
  | cons b data ih =>
    rw [List.foldl_cons, List.foldl_cons, Device.byteIn_writing b h]
    exact ih (Device.chartByte_writing b h)

theorem Device.rise_writing (h : d.ChartWriting i) : d.rise i = d.chartRise i := by
  obtain ⟨p, verdict, entered, full, cut, reset, open_⟩ := h
  simp only [Device.rise, open_]

/-- A data byte of a write of another channel than a chart's waits for the rise (12 R170). -/
theorem Device.byteIn_write {channel : ChannelField} {data : List Byte} (b : Byte)
    (open_ : (d.port i).transaction = some (.write channel data)) :
    d.byteIn i b = d.onPort i fun x => { x with transaction := some (.write channel (data ++ [b])) } := by
  simp only [Device.byteIn, open_]

/-- The data bytes of such a write, one after another. -/
theorem Device.bytesIn_write (channel : ChannelField) (data pre : List Byte) :
    data.foldl (fun d b => d.byteIn i b) (d.onPort i fun x => { x with transaction := some (.write channel pre) })
      = d.onPort i fun x => { x with transaction := some (.write channel (pre ++ data)) } := by
  induction data generalizing pre with
  | nil => rw [List.foldl_nil, List.append_nil]
  | cons b data ih =>
    rw [List.foldl_cons, Device.byteIn_write (channel := channel) (data := pre) b (by simp), Device.onPort_onPort, ih,
      List.append_assoc]
    rfl

/-- A chart write spelled by its header (notes/assumptions 9). -/
theorem Device.chartMoments (p : Player) (data : List Byte) :
    (data.foldl (fun d b => d.byteIn i b) (d.chartBegin i p)).rise i = d.chartTaken i p data := by
  have begun : (d.chartBegin i p).ChartWriting i := Device.chartBegin_writing p
  rw [Device.bytesIn_writing data begun, Device.rise_writing (Device.chartBytes_writing data begun)]
  rfl

/-- A write is its header, its bytes and its rise (12 R167, R170). -/
theorem Device.writeMoments (channel : ChannelField) (data : List Byte) :
    (data.foldl (fun d b => d.byteIn i b) (d.writeHeader i channel)).rise i
      = (d.rise i).writeTaken i channel data := by
  rw [Device.writeHeader_eq]
  unfold Device.beginWrite
  split
  case h_1 first =>
    rw [Device.chartMoments]
    simp only [Device.writeTaken, first]
  case h_2 second =>
    rw [Device.chartMoments]
    simp only [Device.writeTaken, second]
  case h_3 =>
    rw [Device.bytesIn_write, List.nil_append, Device.rise_write _ i channel data (by simp), Device.onPort_onPort,
      Device.close_closed _ i (d.rise_closed i)]

/-- What a header of a read starts: a RING read of a port with a cursor, or a read of its channel (10 R154, 12 R169). -/
theorem Device.readStarted_cases (d : Device) (i : Port) (channel : ChannelField) :
    (channel = 0x06#7 ∧ d.ring.subs[i] ≠ none ∧ ∃ snapshot, d.readStarted i channel = .ringRead snapshot 0 false)
      ∨ d.readStarted i channel = .read channel (d.snapshot i channel) := by
  unfold Device.readStarted
  split
  · rename_i x subscribed
    split_ifs at subscribed with ring
    exact .inl ⟨ring, by rw [subscribed]; nofun, _, rfl⟩
  · exact .inr rfl

theorem Device.rise_read {channel : ChannelField} {snapshot : List Byte}
    (open_ : (d.port i).transaction = some (.read channel snapshot)) :
    d.rise i = (d.onPort i fun x => { x with transaction := none }).readTaken i channel := by
  simp only [Device.rise, open_]

/-- The rise of a RING read of a port with a cursor leaves no result (10 R154). -/
theorem Device.rise_ringRead {snapshot : List Record} {sent : Nat} {dead : Bool}
    (open_ : (d.port i).transaction = some (.ringRead snapshot sent dead)) :
    d.rise i = d.onPort i fun x => { x with transaction := none } := by
  simp only [Device.rise, open_]

/-- A read is its header and its rise (12 R167, R169; 10 R154). -/
theorem Device.readMoments (channel : ChannelField) :
    (d.readHeader i channel).rise i = (d.rise i).readTaken i channel := by
  have closed : (d.readHeader i channel).onPort i (fun x => { x with transaction := none }) = d.rise i := by
    rw [Device.readHeader, Device.takeReadHeader, Device.onPort_onPort]
    exact Device.close_closed _ i (d.rise_closed i)
  have open_ : ((d.readHeader i channel).port i).transaction = some ((d.rise i).readStarted i channel) := by
    simp [Device.readHeader, Device.takeReadHeader]
  rcases (d.rise i).readStarted_cases i channel with ⟨rfl, subscribed, _, started⟩ | started <;> rw [started] at open_
  · have taken : (d.rise i).readTaken i 0x06#7 = d.rise i := by
      unfold Device.readTaken
      rw [if_pos (by decide), if_neg fun refused => refused.elim (by decide) fun h => subscribed h.2]
    rw [Device.rise_ringRead open_, closed, taken]
  · rw [Device.rise_read open_, closed]

end

/-! ## A chart write that enters no more -/

section
variable {d : Device} {i : Port} {p : Player} {verdict : ResultCode} {entered : Nat} {full cut reset : Bool}

/-- Behind a refusal, a full buffer, an ABORT, a CLOSE or a soft reset the further bytes change nothing (04 R47, R70). -/
theorem Device.chartByte_stopped (open_ : (d.port i).transaction = some (.chart p verdict entered full cut reset))
    (stopped : verdict ≠ .done ∨ full = true ∨ cut = true ∨ reset = true) (b : Byte) : d.chartByte i b = d := by
  unfold Device.chartByte
  split
  case h_1 accepted =>
    rw [open_] at accepted
    simp only [Option.some.injEq, Transaction.chart.injEq] at accepted
    obtain ⟨-, rfl, -, rfl, rfl, rfl⟩ := accepted
    simp at stopped
  case h_2 => rfl

/-- The rise of a chart write leaves its verdict and the bytes that had entered; after a soft reset, nothing (04 R47,
12 R170, R177). -/
theorem Device.chartRise_eq (open_ : (d.port i).transaction = some (.chart p verdict entered full cut reset)) :
    d.chartRise i = d.onPort i fun x => { x with
      transaction := none
      result := if reset then x.result
        else ⟨chartChannel p, verdict, countField (if verdict = .done then entered else 0)⟩ } := by
  unfold Device.chartRise
  rw [open_]
  dsimp only
  cases reset with
  | true => rfl
  | false =>
    rw [if_neg (by decide), Device.setResult_eq, Device.onPort_onPort]
    rfl

theorem chartChannel_eq (p : Player) : chartChannel p = if p = .p1 then 0x04 else 0x05 := by cases p <;> rfl

end

/-! ## The fall of SEL_N, and a header under way -/

section
variable {d : Device} {i : Port} {status : Byte}

/-- SEL_N is low on a port and its header has not come, with or without its first bits (12 R167). -/
def Device.BeforeHeader (d : Device) (i : Port) (status : Byte) : Prop :=
  (d.port i).transaction = some (.selected status)
    ∨ ∃ channel, (d.port i).transaction = some (.heading status channel)

/-- The rise before the header ends the transaction and does nothing else, so one that a command brings finds the part as
it would without the fall (12 R167). -/
theorem Device.rise_beforeHeader (h : d.BeforeHeader i status) :
    d.rise i = (d.onPort i fun x => { x with transaction := none }).rise i := by
  have closed : ((d.onPort i fun x => { x with transaction := none }).port i).transaction = none := by simp
  rw [Device.rise_none _ i closed]
  rcases h with selected | ⟨channel, heading⟩
  · exact d.rise_selected i status selected
  · simp only [Device.rise, heading]

end

/-! ## A read of a chart channel -/

/-- The snapshot of a chart channel is the free count of the player's buffer, high byte first (04 R48). -/
theorem Device.snapshot_chart (d : Device) (i : Port) (p : Player) :
    d.snapshot i (if p = .p1 then 0x04#7 else 0x05#7)
      = [BitVec.ofNat 8 ((512 - (d.decoder p).buffer.length) / 256),
        BitVec.ofNat 8 (512 - (d.decoder p).buffer.length)] := by
  cases p <;> rfl

end Sys2Proof.Machine

section
open Sys2Proof.Machine Sys2Proof.Safety

/-- Settles O43: a transaction is the chain of its moments, the second spellings are the same definitions, and before the
header a command finds the part as without the fall. -/
theorem chartWriteMoments : Obligations.ChartWriteMoments := by
  unfold Obligations.ChartWriteMoments
  refine ⟨?whole, ?stopped, ?registers, ?spellings, ?waits, ?fall⟩
  case whole =>
    intro s i p data
    exact ⟨_, rfl, runAll_moments (header := .chartWrite i (.header p)) (byte := fun b => .chartWrite i (.byte b))
      (rise := .chartWrite i .rise) (fun _ => rfl) (fun _ _ => rfl) (fun _ => rfl) data s⟩
  case stopped =>
    intro s i p verdict entered full cut reset b open_ small
    refine ⟨_, _, rfl, rfl, fun stopped => ?_, ?_⟩
    · change s.onDevice (fun d => d.chartByte i b) = s
      rw [State.onDevice, Device.chartByte_stopped open_ stopped]
    · rw [State.onDevice_device]
      refine (Device.chartRise_eq open_).trans ?_
      rw [chartChannel_eq, countField_small _ (by split <;> omega)]
      congr 1
      funext x
      cases verdict <;> rfl
  case registers =>
    intro s i channel data
    have write := runAll_moments (header := .registerWrite i channel .header)
      (byte := fun b => .registerWrite i channel (.byte b)) (rise := .registerWrite i channel .rise)
      (begin_ := fun d => d.writeHeader i channel) (f := fun d b => d.byteIn i b) (end_ := fun d => d.rise i)
      (fun _ => rfl) (fun _ _ => rfl) (fun _ => rfl) data s
    refine ⟨_, _, rfl, ?_, rfl, ?_⟩
    · rw [write]
      simp only [Device.writeMoments]
      rfl
    · change some (s.onDevice fun d => (d.readHeader i channel).rise i) = _
      simp only [Device.readMoments]
      rfl
  case spellings =>
    intro s i data
    refine ⟨fun c code fields known => ?_, rfl, rfl, rfl, rfl, rfl, rfl, rfl, rfl, rfl, fun channel => ⟨rfl, rfl⟩⟩
    have taken (d : Device) : d.writeTransfer i 0x01#7 (.whole (code :: fields)) = d.command i c fields := by
      change (d.rise i).commandBytesTaken i (code :: fields) = _
      simp only [Device.commandBytesTaken, known]
      rfl
    have spelled : exec (.registerWrite i 0x01#7 (.whole (code :: fields))) s
        = answer s fun d => d.command i c fields := congrArg (answer s) (funext taken)
    rw [spelled]
    cases c <;> rfl
  case waits =>
    intro s i channel data b open_
    exact ⟨_, rfl, Device.byteIn_write b open_⟩
  case fall =>
    intro s i status c before sender moment
    have rise : s.device.rise i = (s.device.onPort i fun x => { x with transaction := none }).rise i :=
      Device.rise_beforeHeader before
    have taken : ∃ g : Device → Device, ∀ s, exec c s = answer s fun d => g (d.rise i) := by
      cases c with
      | openSong _ fields | start _ fields | abort _ fields | close _ fields | position _ fields | setSync _ fields
      | setStage _ fields | setPanel _ fields | setMap _ fields | setWindows _ fields | setScoring _ fields
      | setLife _ fields | setLamps _ fields | subscribe _ fields | unsubscribe _ fields | softReset _ fields =>
        cases sender
        exact ⟨fun d => d.commandTaken i _ fields, fun _ => rfl⟩
      | noticeWrite _ data => cases sender; exact ⟨fun d => d.noticeTaken i data, fun _ => rfl⟩
      | noticeMaskWrite _ data => cases sender; exact ⟨fun d => d.maskTaken i data, fun _ => rfl⟩
      | lampWrite _ data => cases sender; exact ⟨fun d => d.lampTaken i data, fun _ => rfl⟩
      | chartWrite _ x =>
        cases sender
        cases x with
        | whole p data => exact ⟨fun d => d.chartTaken i p data, fun _ => rfl⟩
        | header p => exact ⟨fun d => d.chartBegin i p, fun _ => rfl⟩
        | byte _ | rise => exact moment.elim
      | registerWrite _ channel x =>
        cases sender
        cases x with
        | whole data => exact ⟨fun d => d.writeTaken i channel data, fun _ => rfl⟩
        | fall => exact ⟨fun d => d.select i, fun s => congrArg (answer s) (funext fun d => d.fall_eq i)⟩
        | header =>
          exact ⟨fun d => d.beginWrite i channel,
            fun s => congrArg (answer s) (funext fun d => d.writeHeader_eq i channel)⟩
        | byte _ => exact moment.elim
        | rise => exact ⟨id, fun _ => rfl⟩
      | refusedRead _ x =>
        cases sender
        cases x with
        | whole channel => exact ⟨fun d => d.readTaken i channel, fun _ => rfl⟩
        | fall => exact ⟨fun d => d.select i, fun s => congrArg (answer s) (funext fun d => d.fall_eq i)⟩
        | heading _ => exact moment.elim
        | header channel => exact ⟨fun d => d.takeReadHeader i channel, fun _ => rfl⟩
        | rise => exact ⟨id, fun _ => rfl⟩
      | ringRead x =>
        cases x with
        | whole _ => cases sender; exact ⟨fun d => d.readTaken i 0x06#7, fun _ => rfl⟩
        | heading _ => exact moment.elim
        | header _ => cases sender; exact ⟨fun d => d.takeReadHeader i 0x06#7, fun _ => rfl⟩
        | rise _ => cases sender; exact ⟨id, fun _ => rfl⟩
      | ringRecordConsumed _ => exact moment.elim
      | _ => cases sender
    obtain ⟨g, taken⟩ := taken
    rw [taken, taken]
    simp only [answer, State.onDevice, ← rise]

/-- Settles O46: the snapshot is fixed at the header, and the rise of a read that is not refused only closes it. -/
theorem chartReadGivesFreeCount : Obligations.ChartReadGivesFreeCount := by
  unfold Obligations.ChartReadGivesFreeCount
  rintro s i p channel free chart rfl
  have snapshot := chart ▸ s.device.snapshot_chart i p
  have notRing : channel ≠ 0x06#7 := by rw [chart]; split <;> decide
  have notCommand : channel ≠ 0x01#7 := by rw [chart]; split <;> decide
  have known : knownChannel channel = true := by rw [chart]; split <;> decide
  refine ⟨by rw [Device.readByte, snapshot]; rfl, by rw [Device.readByte, snapshot]; rfl, Nat.sub_le ..,
    fun k beyond => ?_,
    fun closed => ?_⟩
  · rw [Device.readByte, snapshot]
    exact List.getD_eq_default _ _ beyond
  · have header : s.device.readHeader i channel
        = s.device.onPort i fun x => { x with transaction := some (.read channel (s.device.snapshot i channel)) } := by
      rw [Device.readHeader, s.device.rise_none i closed, Device.takeReadHeader]
      unfold Device.readStarted
      rw [if_neg notRing]
    have unread (d : Device) : d.readTaken i channel = d := by
      unfold Device.readTaken
      rw [if_pos known, if_neg fun refused => refused.elim notCommand fun ring => notRing ring.1]
    refine ⟨_, _, rfl, rfl, header, fun k => ?_, ?_⟩
    · change (s.device.readHeader i channel).sends i k = _
      rw [header]
      simp [Device.sends, Device.readByte]
    · change s.onDevice (fun d => (d.readHeader i channel).rise i) = s
      rw [State.onDevice, Device.readMoments, s.device.rise_none i closed, unread]

end
end

