-- ==== Sys2Proof/Proofs/ChartBytes.lean ====
section
/-!
A whole chart write (O42): its bytes enter as far as the buffer has room, or each is discarded behind the END; the rise
counts them.
-/
namespace Sys2Proof.Machine
open Sys2Proof.Safety

section
variable {d : Device} {p : Player} {i : Port}

/-! ## Updates of one decoder -/

theorem Device.onDecoder_congr {f g : Decoder → Decoder} (h : f (d.decoder p) = g (d.decoder p)) :
    d.onDecoder p f = d.onDecoder p g := by
  simp only [Device.onDecoder, h]

theorem Device.onDecoder_same {f : Decoder → Decoder} (h : f (d.decoder p) = d.decoder p) : d.onDecoder p f = d := by
  have same : d.decoders.set p (f (d.decoder p)) = d.decoders := by
    rw [h]
    exact PerPlayer.set_get ..
  simp only [Device.onDecoder, same]

@[simp] theorem Device.onDecoder_onDecoder (f g : Decoder → Decoder) :
    (d.onDecoder p f).onDecoder p g = d.onDecoder p fun c => g (f c) := by
  simp [Device.onDecoder, Device.decoder, PerPlayer.set_set]

theorem Device.onPort_onDecoder (f : PortState → PortState) (g : Decoder → Decoder) :
    (d.onPort i f).onDecoder p g = (d.onDecoder p g).onPort i f := rfl

/-! ## Faults and the ports -/

/-- A transaction moves apart from the faults of a chart (04 R66). -/
theorem Device.addFault_onPort (k : FaultKind) (x : Option Transaction) :
    (d.onPort i fun s => { s with transaction := x }).addFault p k
      = (d.addFault p k).onPort i fun s => { s with transaction := x } := by
  have raised (e : Device) : (e.onPort i fun s => { s with transaction := x }).raise .chartFault
      = (e.raise .chartFault).onPort i fun s => { s with transaction := x } := by
    refine Device.ports_ext rfl fun j => ?_
    simp only [Device.port_raise, Device.port_onPort]
    split <;> rfl
  unfold Device.addFault
  rw [Device.onPort_onDecoder, raised]
  exact (apply_ite (fun e : Device => e.onPort i fun s => { s with transaction := x }) _ _ _).symm

/-- A fault in the set already adds nothing (04 R66). -/
theorem Device.addFault_again (d : Device) (p : Player) (k : FaultKind) :
    (d.addFault p k).addFault p k = d.addFault p k := by
  have held : ((d.addFault p k).decoder p).faults.getLsbD k.bit = true := by
    rw [Device.decoder_addFault, if_pos rfl]
    exact (FaultKind.or_mask_bit ..).trans (by simp)
  exact if_pos held

/-- Bytes in the buffer hide nothing of a fault that is added: once they are gone, the fault is there alone. -/
theorem Device.addFault_buffered (empty : (d.decoder p).buffer = []) (k : FaultKind) (bytes : List Byte) :
    ((d.onDecoder p fun c => { c with buffer := bytes }).addFault p k).onDecoder p (fun c => { c with buffer := [] })
      = d.addFault p k := by
  have emptied : { d.decoder p with buffer := [] } = d.decoder p := by rw [← empty]
  rcases d.addFault_cases p k with ⟨old, same⟩ | ⟨new, same⟩
  · rw [same, Device.addFault, if_pos (by simpa using old), Device.onDecoder_onDecoder]
    exact Device.onDecoder_same emptied
  · have raised (e : Device) (f : Decoder → Decoder) :
        (e.raise .chartFault).onDecoder p f = (e.onDecoder p f).raise .chartFault := rfl
    rw [same, Device.addFault, if_neg (by simp [new]), raised, Device.onDecoder_onDecoder, Device.onDecoder_onDecoder]
    exact congrArg (Device.raise · .chartFault) (Device.onDecoder_congr
      (congrArg (fun c : Decoder => { c with faults := c.faults ||| k.mask }) emptied))

/-! ## The bytes -/

/-- A byte enters the buffer of a chart that has not ended (04 R46). -/
theorem Device.bufferByte_open (going : (d.decoder p).state ≠ .ended) (b : Byte) :
    d.bufferByte p b = d.onDecoder p fun c => { c with buffer := c.buffer ++ [b] } := by
  rw [Device.bufferByte, Device.discardAfterEnd, if_neg]
  simp [going]

/-- A byte behind the END is discarded with AFTER_END (04 R64). -/
theorem Device.bufferByte_ended (ended : (d.decoder p).state = .ended) (empty : (d.decoder p).buffer = []) (b : Byte) :
    d.bufferByte p b = d.addFault p .afterEnd := by
  have entered : (d.onDecoder p fun c => { c with buffer := c.buffer ++ [b] })
      = d.onDecoder p fun c => { c with buffer := [b] } := Device.onDecoder_congr (by rw [empty]; rfl)
  rw [Device.bufferByte, entered, Device.discardAfterEnd, if_pos (by simp [ended])]
  exact Device.addFault_buffered empty _ _

/-- The chart write that a port holds, accepted, with the bytes that have entered. -/
def writing (p : Player) (entered : Nat) (full : Bool) (x : PortState) : PortState :=
  { x with transaction := some (.chart p .done entered full false false) }

/-- The buffer of a chart with the bytes of a write that find room (04 R46). -/
def Decoder.filled (c : Decoder) (data : List Byte) : Decoder :=
  { c with buffer := c.buffer ++ data.take (512 - c.buffer.length) }

theorem Decoder.filled_cons (c : Decoder) (b : Byte) (data : List Byte) (room : c.buffer.length < 512) :
    Decoder.filled { c with buffer := c.buffer ++ [b] } data = c.filled (b :: data) := by
  obtain ⟨n, left⟩ := Nat.exists_eq_add_of_lt room
  have taken : 512 - (c.buffer ++ [b]).length = n := by simp; omega
  have before : 512 - c.buffer.length = n + 1 := by omega
  simp only [Decoder.filled, taken, before, List.take_succ_cons, List.append_assoc, List.singleton_append]

theorem Device.chartByte_accepted {n : Nat}
    (open_ : (d.port i).transaction = some (.chart p .done n false false false)) (b : Byte) :
    d.chartByte i b = if d.bufferHasRoom p then (d.bufferByte p b).onPort i (writing p (n + 1) false)
      else d.onPort i (writing p n true) := by
  unfold Device.chartByte
  rw [open_]
  rfl

/-- The bytes of an accepted write to a chart that has not ended: those that find room enter (04 R46, R47). -/
theorem Device.chartBytes_open (data : List Byte) {n : Nat}
    (open_ : (d.port i).transaction = some (.chart p .done n false false false))
    (going : (d.decoder p).state ≠ .ended) :
    ∃ full, data.foldl (fun d b => d.chartByte i b) d
      = (d.onDecoder p fun c => c.filled data).onPort i
        (writing p (n + (data.take (512 - (d.decoder p).buffer.length)).length) full) := by
  induction data generalizing d n with
  | nil =>
    refine ⟨false, ?_⟩
    rw [Device.onDecoder_same (by simp [Decoder.filled])]
    exact (d.onPort_id i _ (by rw [List.take_nil, writing, List.length_nil, Nat.add_zero, ← open_])).symm
  | cons b data ih =>
    rw [List.foldl_cons]
    by_cases room : (d.decoder p).buffer.length < 512
    · have space : d.bufferHasRoom p = true := decide_eq_true room
      have entered : d.chartByte i b
          = (d.onDecoder p fun c => { c with buffer := c.buffer ++ [b] }).onPort i (writing p (n + 1) false) := by
        rw [Device.chartByte_accepted open_, if_pos space, Device.bufferByte_open going]
      obtain ⟨full, rest⟩ := ih (d := d.chartByte i b) (n := n + 1) (by simp [entered, writing])
        (by simp [entered, going])
      refine ⟨full, rest.trans ?_⟩
      have counted : n + 1 + (data.take (512 - ((d.chartByte i b).decoder p).buffer.length)).length
          = n + ((b :: data).take (512 - (d.decoder p).buffer.length)).length := by
        simp [entered]
        omega
      rw [counted, entered, Device.onPort_onDecoder, Device.onDecoder_onDecoder, Device.onPort_onPort,
        Device.onDecoder_congr (g := fun c => c.filled (b :: data)) (Decoder.filled_cons _ b data room)]
      rfl
    · have stopped : d.chartByte i b = d.onPort i (writing p n true) := by
        rw [Device.chartByte_accepted open_,
          if_neg fun space : d.bufferHasRoom p = true => room (of_decide_eq_true space)]
      have rest (data : List Byte) : data.foldl (fun d b => d.chartByte i b) (d.chartByte i b) = d.chartByte i b := by
        induction data with
        | nil => rfl
        | cons x data ih =>
          rw [List.foldl_cons, Device.chartByte_stopped (by rw [stopped, Device.port_onPort, if_pos rfl]; rfl)
            (.inr (.inl rfl)), ih]
      have none_left : 512 - (d.decoder p).buffer.length = 0 := by omega
      refine ⟨true, ?_⟩
      rw [rest, stopped, none_left, Device.onDecoder_same (by simp [Decoder.filled, none_left])]
      rfl

/-- The bytes of an accepted write to an ended chart are all discarded, and all counted (04 R47, R64). -/
theorem Device.chartBytes_ended (data : List Byte) {n : Nat}
    (open_ : (d.port i).transaction = some (.chart p .done n false false false))
    (ended : (d.decoder p).state = .ended) (empty : (d.decoder p).buffer = []) :
    data.foldl (fun d b => d.chartByte i b) d
      = (if data = [] then d else d.addFault p .afterEnd).onPort i (writing p (n + data.length) false) := by
  induction data generalizing d n with
  | nil => exact (d.onPort_id i _ (by rw [writing, List.length_nil, Nat.add_zero, ← open_])).symm
  | cons b data ih =>
    have entered : d.chartByte i b = (d.addFault p .afterEnd).onPort i (writing p (n + 1) false) := by
      rw [Device.chartByte_accepted open_, if_pos (by simp [Device.bufferHasRoom, empty, bufferCapacity]),
        Device.bufferByte_ended ended empty]
    have again : (if data = [] then d.chartByte i b else (d.chartByte i b).addFault p .afterEnd) = d.chartByte i b := by
      split
      · rfl
      · rw [entered]
        exact (Device.addFault_onPort ..).trans (by rw [Device.addFault_again]; rfl)
    rw [List.foldl_cons, ih (n := n + 1) (by simp [entered, writing]) (by simp [entered, ended])
      (by simp [entered, empty]), again, entered, if_neg (List.cons_ne_nil b data), Device.onPort_onPort,
      List.length_cons, Nat.add_assoc, Nat.add_comm 1]
    rfl

/-! ## The whole write -/

/-- A chart write whose moments leave it in progress as `f` has it, on a device `e` that is apart from it. -/
theorem Device.chartTaken_of_bytes {e : Device} {data : List Byte} {f : PortState → PortState} {verdict : ResultCode}
    {n : Nat} {full : Bool} (bytes : data.foldl (fun d b => d.chartByte i b) (d.chartBegin i p) = e.onPort i f)
    (open_ : ∀ x, f x = { x with transaction := some (.chart p verdict n full false false) }) :
    d.chartTaken i p data = e.onPort i fun x => { x with
      transaction := none
      result := ⟨chartChannel p, verdict, countField (if verdict = .done then n else 0)⟩ } := by
  have held : ((e.onPort i f).port i).transaction = some (.chart p verdict n full false false) := by
    rw [Device.port_onPort, if_pos rfl, open_]
  rw [Device.chartTaken, bytes, Device.chartRise_eq held, Device.onPort_onPort]
  simp only [open_]
  rfl

/-- The bytes of a chart write leave it a write of the same chart. -/
theorem Device.chartBytes_chart (data : List Byte) {verdict : ResultCode} {n : Nat} {full : Bool}
    (open_ : (d.port i).transaction = some (.chart p verdict n full false false)) :
    ∃ n full, ((data.foldl (fun d b => d.chartByte i b) d).port i).transaction
      = some (.chart p verdict n full false false) := by
  induction data generalizing d n full with
  | nil => exact ⟨n, full, open_⟩
  | cons b data ih =>
    rw [List.foldl_cons]
    by_cases stopped : verdict ≠ .done ∨ full = true
    · have same : d.chartByte i b = d := Device.chartByte_stopped open_ (stopped.imp_right .inl) b
      exact ih (by rw [same]; exact open_)
    · obtain ⟨rfl, rfl⟩ : verdict = .done ∧ full = false := by simpa using stopped
      have accepted := Device.chartByte_accepted open_ b
      split at accepted
      · exact ih (n := n + 1) (full := false) (by rw [accepted, Device.port_onPort, if_pos rfl]; rfl)
      · exact ih (n := n) (full := true) (by rw [accepted, Device.port_onPort, if_pos rfl]; rfl)

/-- A whole chart write leaves a result of its channel (12 R170). -/
theorem Device.chartTaken_channel (data : List Byte) :
    ((d.chartTaken i p data).port i).result.channel = chartChannel p := by
  obtain ⟨n, full, open_⟩ := Device.chartBytes_chart (d := d.chartBegin i p) (i := i) (p := p)
    (verdict := d.chartVerdict i p) (n := 0) (full := false) data (by simp [Device.chartBegin])
  rw [Device.chartTaken, Device.chartRise_eq open_, Device.port_onPort, if_pos rfl]
  rfl

/-- A write that is refused at its header leaves its verdict and nothing else (04 R47). -/
theorem Device.chartTaken_refused (data : List Byte) (refused : d.chartVerdict i p ≠ .done) :
    d.chartTaken i p data = d.onPort i fun x => { x with
      transaction := none, result := ⟨chartChannel p, d.chartVerdict i p, 0⟩ } := by
  have bytes : data.foldl (fun d b => d.chartByte i b) (d.chartBegin i p) = d.chartBegin i p := by
    induction data with
    | nil => rfl
    | cons b data ih =>
      rw [List.foldl_cons, Device.chartByte_stopped (by rw [Device.chartBegin, Device.port_onPort, if_pos rfl])
        (.inl refused), ih]
  rw [Device.chartTaken_of_bytes bytes fun _ => rfl, if_neg refused]
  rfl

/-- An accepted write to a chart that has not ended (04 R46, R47). -/
theorem Device.chartTaken_open (data : List Byte) (accepted : d.chartVerdict i p = .done)
    (going : (d.decoder p).state ≠ .ended) :
    d.chartTaken i p data = (d.onDecoder p fun c => c.filled data).onPort i fun x => { x with
      transaction := none
      result := ⟨chartChannel p, .done, countField (data.take (512 - (d.decoder p).buffer.length)).length⟩ } := by
  obtain ⟨full, bytes⟩ := Device.chartBytes_open (d := d.chartBegin i p) (i := i) (p := p) data (n := 0)
    (by rw [Device.chartBegin, Device.port_onPort, if_pos rfl, accepted]) going
  rw [Device.chartBegin, Device.onPort_onDecoder, Device.onPort_onPort, Nat.zero_add] at bytes
  rw [Device.chartTaken_of_bytes bytes fun _ => rfl, if_pos rfl]
  rfl

/-- An accepted write to an ended chart (04 R47, R64). -/
theorem Device.chartTaken_ended (data : List Byte) (accepted : d.chartVerdict i p = .done)
    (ended : (d.decoder p).state = .ended) (empty : (d.decoder p).buffer = []) :
    d.chartTaken i p data = (if data = [] then d else d.addFault p .afterEnd).onPort i fun x => { x with
      transaction := none, result := ⟨chartChannel p, .done, countField data.length⟩ } := by
  have bytes := Device.chartBytes_ended (d := d.chartBegin i p) (i := i) (p := p) data (n := 0)
    (by rw [Device.chartBegin, Device.port_onPort, if_pos rfl, accepted]) ended empty
  have apart : (if data = [] then d.chartBegin i p else (d.chartBegin i p).addFault p .afterEnd)
      = (if data = [] then d else d.addFault p .afterEnd).onPort i fun x => { x with
          transaction := some (.chart p .done 0 false false false) } := by
    rw [Device.chartBegin, accepted, Device.addFault_onPort]
    split <;> rfl
  rw [apart, Device.onPort_onPort, Nat.zero_add] at bytes
  rw [Device.chartTaken_of_bytes bytes fun _ => rfl, if_pos rfl]

theorem Device.chartOpen_iff (d : Device) (p : Player) : d.chartOpen p = true ↔ ChartOpen d p := by
  simp [Device.chartOpen, or_assoc]

theorem Device.chartVerdict_done (right : (d.port i).role = .game) (open_ : ChartOpen d p) :
    d.chartVerdict i p = .done := by
  rw [Device.chartVerdict, if_neg (not_not_intro right), if_pos ((d.chartOpen_iff p).2 open_)]

/-- Only the result of the port differs where its transaction was closed (12 R170). -/
theorem Device.onlyResult_onPort (closed : (d.port i).transaction = none) (r : ResultRecord) :
    OnlyResult d (d.onPort i fun x => { x with transaction := none, result := r }) i := by
  refine ⟨rfl, fun j other => by simp [other], ?_⟩
  rw [Device.port_onPort, if_pos rfl, ← closed]

end

end Sys2Proof.Machine

namespace Sys2Proof.Safety
open Sys2Proof.Machine

/-- A fault that is added changes the fault set and the notice sets (04 R66). -/
theorem DecoderOnly.addFault (d : Device) (p : Player) (k : FaultKind) :
    DecoderOnly d (d.addFault p k) p (d.decoder p) [k] :=
  (DecoderOnly.refl d p).addFaultIf rfl k true

end Sys2Proof.Safety

section
open Sys2Proof.Machine Sys2Proof.Safety

/-- Settles O42: the verdict at the header decides; an accepted write is followed byte by byte to its rise. -/
theorem chartWriteFillsBuffer : Obligations.ChartWriteFillsBuffer := by
  unfold Obligations.ChartWriteFillsBuffer
  rintro s i p data taken c closed rfl rfl
  generalize hd : s.device = d at *
  have whole : exec (.chartWrite i (.whole p data)) s = .next (s.onDevice fun _ => d.chartTaken i p data) := by
    change answer s _ = _
    rw [answer, State.onDevice, hd, Device.chartTransfer, Device.rise_none d i closed]
    rfl
  refine ⟨_, whole, ?channel, ?noRight, ?wrongState, ?going, ?ended⟩ <;> rw [State.onDevice_device]
  case channel => rw [Device.chartTaken_channel, chartChannel_eq]
  case noRight =>
    intro right
    have verdict : d.chartVerdict i p = .noRight := if_pos right
    rw [Device.chartTaken_refused data (by rw [verdict]; decide), verdict]
    exact ⟨Device.onlyResult_onPort closed _, by simp, by simp⟩
  case wrongState =>
    intro right shut
    have verdict : d.chartVerdict i p = .wrongState := by
      rw [Device.chartVerdict, if_neg (not_not_intro right), if_neg fun h => shut ((d.chartOpen_iff p).1 h)]
    rw [Device.chartTaken_refused data (by rw [verdict]; decide), verdict]
    exact ⟨Device.onlyResult_onPort closed _, by simp, by simp⟩
  case going =>
    intro right open_ going
    rw [Device.chartTaken_open data (Device.chartVerdict_done right open_) going]
    refine ⟨rfl, fun j other => ?_, by simp, ?_⟩
    · rw [Device.port_onPort, if_neg other]
      rfl
    · rw [Device.port_onPort, if_pos rfl]
      exact countField_small _ (by simp; omega)
  case ended =>
    intro right open_ ended empty
    rw [Device.chartTaken_ended data (Device.chartVerdict_done right open_) ended empty]
    refine ⟨?_, fun sent new j => ?_, by simp, fun small => ?_⟩
    · obtain ⟨same, -⟩ := DecoderOnly.refl d p
      obtain ⟨faulted, -⟩ := DecoderOnly.addFault d p .afterEnd
      by_cases sent : data = []
      · rw [if_pos sent, if_pos sent]
        exact congrArg (fun e : Device => e.onPort i _) same
      · rw [if_neg sent, if_neg sent]
        exact congrArg (fun e : Device => e.onPort i _) faulted
    · rw [if_neg sent]
      have held : Holds (d.addFault p .afterEnd) j .chartFault := by
        rw [Device.addFault, if_neg (by simp [new])]
        exact holds_raise _ _ j
      rw [Holds, Device.port_onPort]
      split
      · exact held
      · exact held
    · rw [Device.port_onPort, if_pos rfl]
      exact countField_small _ small

end
end

