-- ==== Sys2Proof/Proofs/HeadersAndDiscard.lean ====
section
/-!
HEADER and REPEAT entries (O33), and what is left of the entries in DISCARD (O41).
-/
namespace Sys2Proof.Machine
open Sys2Proof.Safety

/-! ## More entries at the front of a buffer -/

theorem frontEntry_header {tag : Byte} (a b c e : Byte) (rest : List Byte) (h : tag.toNat / 16 = 1) :
    frontEntry (tag :: a :: b :: c :: e :: rest)
      = some (.header (a.toNat * 256 + b.toNat) (c.toNat * 256 + e.toNat)) := by
  have whole : 4 ≤ (a :: b :: c :: e :: rest).length := Nat.le_add_left 4 rest.length
  simp only [frontEntry, h, whole, if_true]
  rfl

theorem frontEntry_notes {tag : Byte} {kind : SubKind} (a b : Byte) (rest : List Byte) (h : tag.toNat / 16 = 3)
    (known : subKindOf (tag.toNat % 16) = some kind) :
    frontEntry (tag :: a :: b :: rest) = some (.notes kind (a.toNat * 256 + b.toNat)) := by
  simp only [frontEntry, h, known, two_le_length, if_true]
  rfl

theorem frontEntry_ending {tag : Byte} (rest : List Byte) (h : tag.toNat / 16 = 15) :
    frontEntry (tag :: rest) = some .ending := by
  simp only [frontEntry, h]

theorem subKindOf_known {nibble : Nat} (h : nibble < 4) : ∃ kind, subKindOf nibble = some kind := by
  interval_cases nibble
  · exact ⟨.tap, rfl⟩
  · exact ⟨.holdStart, rfl⟩
  · exact ⟨.holdEnd, rfl⟩
  · exact ⟨.avoid, rfl⟩

theorem frontEntry_repeated {tag : Byte} {a b : Byte} (rest : List Byte) (h : tag.toNat / 16 = 4) (times : a ≠ 0)
    (spacing : b ≠ 0) : frontEntry (tag :: a :: b :: rest) = some (.repeated a.toNat b.toNat) := by
  have given : ¬(a.toNat = 0 ∨ b.toNat = 0) := by
    simpa [← BitVec.toNat_inj] using And.intro times spacing
  rw [frontEntry_repeat a b rest h, if_neg given]

/-- Four bytes in a row are the bytes of the 32-bit field they spell (04 R49). -/
theorem bytesOf_append (a b d e : Byte) : bytesOf 4 (a ++ b ++ d ++ e : BitVec 32).toNat = [a, b, d, e] := by
  have step {w : Nat} (x : BitVec w) (y : Byte) : (x ++ y).toNat = x.toNat * 256 + y.toNat := by
    rw [BitVec.toNat_append, ← Nat.shiftLeft_add_eq_or_of_lt y.isLt, Nat.shiftLeft_eq]
  have last (n : Nat) (y : Byte) : BitVec.ofNat 8 (n * 256 + y.toNat) = y := by
    apply BitVec.eq_of_toNat_eq
    have := y.isLt
    simp
    omega
  have front (n : Nat) (y : Byte) : (n * 256 + y.toNat) / 256 = n := by
    have := y.isLt
    omega
  rw [step, step, step]
  simp only [bytesOf, front, last, List.nil_append, List.cons_append]
  rw [BitVec.ofNat_toNat, BitVec.setWidth_eq]

/-! ## Entries in DISCARD -/

section
variable {d : Device} {p : Player}

/-- A decoder in DISCARD takes the entry at the front of its buffer without acting on it (04 R68). -/
theorem Device.takeKind_discard {e : Entry} (discard : (d.decoder p).state = .discard)
    (front : frontEntry (d.decoder p).buffer = some e) : d.takeKind p e.kind = d.discardEntry p e := by
  have takes : (d.decoder p).state.takes = true := by rw [discard]; rfl
  rw [Device.takeKind_own (Device.nextEntry_of_front takes front), Device.takeEntry, if_pos discard]

/-- An entry that only leaves the buffer. -/
theorem Device.dropFront_only {bytes rest : List Byte} {n : Nat} (buffer : (d.decoder p).buffer = bytes ++ rest)
    (size : bytes.length = n) : DecoderOnly d (d.dropFront p n) p { d.decoder p with buffer := rest } [] := by
  have left : (d.decoder p).buffer.drop n = rest := by simp [buffer, ← size]
  exact (DecoderOnly.refl d p).onDecoder _ (by rw [← left])

/-- The decoder's segment that a TEMPO entry starts in DISCARD (04 R68, 03 R34). -/
theorem Device.discard_tempo {tag : Byte} {v : BitVec 32} {rest : List Byte}
    (buffer : (d.decoder p).buffer = tag :: bytesOf 4 v.toNat ++ rest) :
    DecoderOnly d (d.discardEntry p (.tempo v.toNat)) p
      { d.decoder p with
        buffer := rest
        segment := { row := (d.decoder p).cursor, segTime := (d.decoder p).rowTime,
                     period := max 65536 (min v.toNat 268435455) } }
      (if v.toNat < 65536 ∨ 268435455 < v.toNat then [.tempoClamped] else []) := by
  have left : (d.decoder p).buffer.drop 5 = rest := by simp [buffer, bytesOf]
  rw [Device.discardEntry, Device.dropFront, Device.onDecoder_onDecoder]
  refine (d.tempoFaults_only p v.toNat).onDecoder _ ?_
  rw [← clampPeriod_eq, ← left]
  rfl

/-- The decoder's segment that a DWELL entry starts in DISCARD (04 R68, 03 R40). -/
theorem Device.discard_dwell {tag : Byte} {v : BitVec 32} {rest : List Byte}
    (buffer : (d.decoder p).buffer = tag :: bytesOf 4 v.toNat ++ rest) :
    DecoderOnly d (d.discardEntry p (.dwell v.toNat)) p
      { d.decoder p with
        buffer := rest
        segment := { row := (d.decoder p).cursor,
                     segTime := min ((d.decoder p).rowTime + max 1 (min v.toNat 60000000)) 2147483647,
                     period := (d.decoder p).segment.period } }
      ((if v.toNat < 1 ∨ 60000000 < v.toNat then [.dwellClamped] else [])
        ++ if 2147483647 < (d.decoder p).rowTime + max 1 (min v.toNat 60000000) then [.dueClamped] else []) := by
  have left : (d.decoder p).buffer.drop 5 = rest := by simp [buffer, bytesOf]
  rw [Device.discardEntry, Device.dropFront, Device.onDecoder_onDecoder]
  refine (d.dwellFaults_only p v.toNat).onDecoder _ ?_
  rw [← clampDwell_eq, ← left]
  rfl

/-- The cursor that a ROWS entry moves in DISCARD (04 R68, 03 R38). -/
theorem Device.discard_rows {tag a b : Byte} {rest : List Byte} {count : Nat}
    (buffer : (d.decoder p).buffer = tag :: a :: b :: rest) :
    DecoderOnly d (d.discardEntry p (.rows count)) p
      { d.decoder p with
        buffer := rest
        cursor := min ((d.decoder p).cursor + count) maxRow
        rowTime := clampTime (rawDue (d.decoder p).segment (min ((d.decoder p).cursor + count) maxRow)) }
      ((if maxRow < (d.decoder p).cursor + count then [.rowClamped] else [])
        ++ if maxTime < rawDue (d.decoder p).segment (min ((d.decoder p).cursor + count) maxRow) then [.dueClamped]
          else []) := by
  have left : (d.decoder p).buffer.drop 3 = rest := by rw [buffer]; rfl
  have moved := (DecoderOnly.refl d p).moveCursor rfl ((d.decoder p).cursor + count)
  rw [List.nil_append] at moved
  rw [Device.discardEntry, Device.dropFront]
  refine moved.onDecoder _ ?_
  rw [← left]
  rfl

/-! ## HEADER and REPEAT entries -/

theorem Device.takeHeader_onDecoder (notes holds : Nat) (f : Decoder → Decoder) :
    (d.takeHeader p notes holds).onDecoder p f = (d.onDecoder p f).takeHeader p notes holds := rfl

/-- The HEADER that a chart begins with (04 R52, 09 R139). -/
theorem Device.actHeader_first (notes holds : Nat) (waits : (d.decoder p).state = .waitHeader) :
    d.actHeader p notes holds = (d.onDecoder p fun c => { c with
      state := .decoding, noteTotal := notes, holdTotal := holds
      buffer := c.buffer.drop 5 }).takeHeader p notes holds := by
  have first : d.firstEntry p true = d.onDecoder p fun c => { c with state := .decoding } := if_pos waits
  rw [Device.actHeader, if_pos waits, first, Device.onDecoder_onDecoder, Device.dropFront, Device.takeHeader_onDecoder,
    Device.onDecoder_onDecoder]

/-- A later HEADER is ignored (04 R52). -/
theorem Device.actHeader_late {tag a b c e : Byte} {rest : List Byte} (notes holds : Nat)
    (buffer : (d.decoder p).buffer = tag :: a :: b :: c :: e :: rest) (decoding : (d.decoder p).state = .decoding)
    (alone : (d.decoder p).pendingRepeat = none) :
    DecoderOnly d (d.actHeader p notes holds) p { d.decoder p with buffer := rest } [.lateHeader] := by
  have left : (d.decoder p).buffer.drop 5 = rest := by simp [buffer]
  rw [Device.actHeader, if_neg (by rw [decoding]; decide), Device.dropRepeat_none alone]
  exact (DecoderOnly.addFault d p .lateHeader).onDecoder _ (by rw [← left])

/-- A REPEAT entry is held, in place of one that is still pending (04 R60, R61). -/
theorem Device.actRepeat_only {tag a b : Byte} {rest : List Byte} (times spacing : Nat)
    (buffer : (d.decoder p).buffer = tag :: a :: b :: rest) (decoding : (d.decoder p).state = .decoding) :
    DecoderOnly d (d.actRepeat p times spacing) p
      { d.decoder p with buffer := rest, pendingRepeat := some (times, spacing) }
      (if (d.decoder p).pendingRepeat = none then [] else [.badRepeat]) := by
  have left : (d.decoder p).buffer.drop 3 = rest := by simp [buffer]
  have dropped := (DecoderOnly.refl d p).dropRepeat rfl
  rw [List.nil_append] at dropped
  rw [Device.actRepeat, Device.firstEntry_decoding decoding, Device.dropFront, Device.onDecoder_onDecoder]
  exact dropped.onDecoder _ (by rw [← left])

end

end Sys2Proof.Machine

section
open Sys2Proof.Machine Sys2Proof.Safety

/-- Settles O33: a HEADER meets a chart that waits for it or one that has begun; a REPEAT drops what is pending. -/
theorem headerAndRepeatEffect : Obligations.HeaderAndRepeatEffect := by
  unfold Obligations.HeaderAndRepeatEffect
  refine ⟨?header, ?repeat_⟩
  case header =>
    intro s p tag a b c d rest buffer isHeader
    have front := (congrArg frontEntry buffer).trans (frontEntry_header a b c d rest isHeader)
    refine ⟨_, rfl, fun waits => ?_, fun decoding alone => ?_⟩ <;> rw [State.onDevice_device]
    · have left : (s.device.decoder p).buffer.drop 5 = rest := by simp [buffer]
      have taken := (Device.takeKind_own (Device.nextEntry_of_front (takes_of_active (.inl waits)) front)).trans
        (if_neg (by rw [waits]; decide))
      rw [show s.device.takeKind p .header = _ from taken, Device.actEntry, Device.actHeader_first _ _ waits, ← left]
      refine ⟨rfl, ?_⟩
      rintro r rfl
      rw [Device.takeHeader, Device.record_onRecord, if_pos rfl]
      exact ⟨rfl, rfl, rfl, rfl⟩
    · exact (Device.takeKind_decoding decoding front).symm ▸ Device.actHeader_late _ _ buffer decoding alone
  case repeat_ =>
    intro s p tag times spacing rest buffer isRepeat some_ apart decoding
    have front := (congrArg frontEntry buffer).trans (frontEntry_repeated rest isRepeat some_ apart)
    refine ⟨_, rfl, ?_⟩
    rw [State.onDevice_device]
    exact (Device.takeKind_decoding decoding front).symm ▸ Device.actRepeat_only _ _ buffer decoding

/-- Settles O41: in DISCARD the entry at the front of the buffer is taken by its own rule of R68. -/
theorem discardDropsEntries : Obligations.DiscardDropsEntries := by
  unfold Obligations.DiscardDropsEntries
  rintro s p c tag a b d e rest rfl discard buffer
  have taken {x : Entry} (front : frontEntry (tag :: a :: b :: d :: e :: rest) = some x) :
      s.device.takeKind p x.kind = s.device.discardEntry p x :=
    Device.takeKind_discard discard ((congrArg frontEntry buffer).trans front)
  have field : (s.device.decoder p).buffer = tag :: bytesOf 4 (a ++ b ++ d ++ e : BitVec 32).toNat ++ rest := by
    rw [bytesOf_append]
    exact buffer
  refine ⟨⟨_, rfl, fun isHeader => ?_⟩, ⟨_, rfl, fun isNotes known => ?_⟩, ⟨_, rfl, fun isRepeat times spacing => ?_⟩,
    ⟨_, rfl, fun isEnd => ?_⟩, ⟨_, rfl, fun v is isTempo => ?_⟩,
    ⟨_, rfl, fun count row raw given some_ rises is isRows => ?_⟩, ⟨_, rfl, fun v length is clamped isDwell => ?_⟩⟩
    <;> rw [State.onDevice_device]
  · exact (taken (frontEntry_header a b d e rest isHeader)).symm ▸
      Device.dropFront_only (bytes := [tag, a, b, d, e]) buffer rfl
  · obtain ⟨kind, is⟩ := subKindOf_known known
    exact (taken (frontEntry_notes a b _ isNotes is)).symm ▸ Device.dropFront_only (bytes := [tag, a, b]) buffer rfl
  · exact (taken (frontEntry_repeated _ isRepeat times spacing)).symm ▸
      Device.dropFront_only (bytes := [tag, a, b]) buffer rfl
  · exact (taken (frontEntry_ending _ isEnd)).symm ▸ Device.dropFront_only (bytes := [tag]) buffer rfl
  · obtain rfl := is
    exact (Device.takeKind_discard discard ((congrArg frontEntry field).trans (frontEntry_tempo _ _ isTempo))).symm ▸
      Device.discard_tempo field
  · obtain rfl := given
    obtain rfl := rises
    obtain rfl := is
    have front := frontEntry_rows a b (d :: e :: rest) isRows
    rw [if_neg some_] at front
    exact (taken front).symm ▸ Device.discard_rows buffer
  · obtain rfl := is
    obtain rfl := clamped
    exact (Device.takeKind_discard discard ((congrArg frontEntry field).trans (frontEntry_dwell _ _ isDwell))).symm ▸
      Device.discard_dwell field

end
end

