-- ==== Sys2Proof/Proofs/EndEntries.lean ====
section
/-!
An END entry in PRELOAD (O40): lane by lane the open holds get their forced tails, and what stands behind the END is
discarded.
-/
namespace Sys2Proof.Machine
open Sys2Proof.Safety

/-! ## Lanes and their queues -/

theorem queueOf_inj {style : Style} {p : Player} {j k : Fin 12} {q : LaneQueue} (hj : queueOf style p j = some q)
    (hk : queueOf style p k = some q) : j = k := by
  obtain ⟨-, rfl⟩ := queueOf_some hj
  exact (queueOf_some hk).2.symm

theorem Device.onLane_congr {d : Device} {q : LaneQueue} {f g : Lane → Lane} (h : f (d.lane q) = g (d.lane q)) :
    d.onLane q f = d.onLane q g := by
  have same : vecModify d.judge.lanes q f = vecModify d.judge.lanes q g := congrArg (d.judge.lanes.set q.val · q.isLt) h
  simp only [Device.onLane, same]

theorem Device.onLane_same {d : Device} {q : LaneQueue} {f : Lane → Lane} (h : f (d.lane q) = d.lane q) :
    d.onLane q f = d := by
  have same : vecModify d.judge.lanes q f = d.judge.lanes :=
    (congrArg (d.judge.lanes.set q.val · q.isLt) h).trans (Vector.set_getElem_self q.isLt)
  simp only [Device.onLane, same]

/-! ## A tail for a lane that is not judged -/

section
variable {d : Device} {p : Player} {q : LaneQueue} {row due : Nat} {forced : Bool}

theorem tailQueue_none {queue : List Note} (none_ : holdsHead row queue = false) :
    tailQueue row due forced queue = queue := by
  refine (List.map_congr_left fun n hn => if_neg fun head => ?_).trans (List.map_id queue)
  simp only [holdsHead, List.any_eq_false] at none_
  exact none_ n hn (by simpa using head)

/-- Outside RUN a tail that attaches to a hold ends nothing (08 R124). -/
theorem Device.settleTail_still (still : d.judging q = false) : d.settleTail q = d := by
  have grace : d.graceDue q = none := if_neg (by simp [still])
  have tail : d.tailDue q = none := if_neg (by simp [still])
  simp [Device.settleTail, Device.tailLane, grace, tail]

/-- Outside RUN a tail changes its own lane alone: the head of its row in the queue, or the hold (08 R124). -/
theorem Device.takeTail_still (still : d.judging q = false) : ∃ hold, d.takeTail q row due forced
    = d.onLane q fun l => { l with queue := tailQueue row due forced l.queue, hold := hold } := by
  by_cases head : holdsHead row (d.lane q).queue
  · exact ⟨(d.lane q).hold, (if_pos head).trans (Device.onLane_congr rfl)⟩
  · have queue : tailQueue row due forced (d.lane q).queue = (d.lane q).queue :=
      tailQueue_none (Bool.eq_false_iff.2 head)
    have apart (hold : HoldState) : d.setHold q hold
        = d.onLane q fun l => { l with queue := tailQueue row due forced l.queue, hold := hold } :=
      Device.onLane_congr (by rw [queue])
    have kept : d = d.onLane q fun l => { l with queue := tailQueue row due forced l.queue, hold := (d.lane q).hold } :=
      (Device.onLane_same (by rw [queue])).symm
    have settled (hold : HoldState) : (d.setHold q hold).settleTail q = d.setHold q hold :=
      Device.settleTail_still still
    rw [Device.takeTail, if_neg head]
    cases (d.lane q).hold with
    | idle => exact ⟨_, kept⟩
    | holding h =>
      by_cases same : h.row = row
      · exact ⟨_, (if_pos same).trans ((settled _).trans (apart _))⟩
      · exact ⟨_, (if_neg same).trans kept⟩
    | grace h expiry =>
      by_cases same : h.row = row
      · exact ⟨_, (if_pos same).trans ((settled _).trans (apart _))⟩
      · exact ⟨_, (if_neg same).trans kept⟩

end

/-! ## The forced tails of an END -/

/-- A queue whose head of an open hold has its forced tail (04 R63). -/
def Decoder.forcedQueue (c : Decoder) (k : Fin 12) (queue : List Note) : List Note :=
  queue.map fun n =>
    if n.kind = .holdStart ∧ c.openHold[k] = some n.row then { n with tail := some c.rowTime, forcedEnd := true } else n

theorem Decoder.forcedQueue_open {c : Decoder} {k : Fin 12} {row : Nat} (held : c.openHold[k] = some row)
    (queue : List Note) : c.forcedQueue k queue = tailQueue row c.rowTime true queue := by
  simp [Decoder.forcedQueue, tailQueue, held, eq_comm]

theorem Decoder.forcedQueue_closed {c : Decoder} {k : Fin 12} (free : c.openHold[k] = none) (queue : List Note) :
    c.forcedQueue k queue = queue := by
  simp [Decoder.forcedQueue, free]

/-- The open holds of a player's first lanes have had their forced tails, in PRELOAD (04 R63). -/
structure HoldsForced (d : Device) (p : Player) (lanes : List (Fin 12)) (e : Device) : Prop where
  rest : e = { d with
    decoders := d.decoders.set p { d.decoder p with openHold := (e.decoder p).openHold }
    judge := { d.judge with lanes := e.judge.lanes } }
  others : ∀ q, d.owner q ≠ p → e.lane q = d.lane q
  marks : ∀ k, (e.decoder p).openHold[k] = if k ∈ lanes then none else (d.decoder p).openHold[k]
  queues : ∀ k q, queueOf d.session.style p k = some q →
    (e.lane q).queue = if k ∈ lanes then (d.decoder p).forcedQueue k (d.lane q).queue else (d.lane q).queue

section
variable {d e : Device} {p : Player} {lanes : List (Fin 12)}

theorem HoldsForced.start (d : Device) (p : Player) : HoldsForced d p [] d where
  rest := by
    have same : d.decoders.set p (d.decoder p) = d.decoders := PerPlayer.set_get ..
    rw [same]
  others _ _ := rfl
  marks _ := rfl
  queues _ _ _ := rfl

theorem HoldsForced.decoder (h : HoldsForced d p lanes e) :
    e.decoder p = { d.decoder p with openHold := (e.decoder p).openHold } := by
  conv_lhs => rw [h.rest]
  simp [Device.decoder]

theorem HoldsForced.judge (h : HoldsForced d p lanes e) : e.judge = { d.judge with lanes := e.judge.lanes } :=
  congrArg Device.judge h.rest

/-- A lane with no open hold is passed over. -/
theorem HoldsForced.skip (h : HoldsForced d p lanes e) {k : Fin 12} (free : (e.decoder p).openHold[k] = none) :
    HoldsForced d p (lanes ++ [k]) e where
  rest := h.rest
  others := h.others
  marks j := by
    by_cases same : j = k
    · rw [same, if_pos (by simp), free]
    · simpa [same] using h.marks j
  queues j q lane := by
    by_cases same : j = k ∧ k ∉ lanes
    · obtain ⟨rfl, new⟩ := same
      have closed := h.marks j
      rw [free, if_neg new] at closed
      rw [h.queues j q lane, if_neg new, if_pos (by simp), Decoder.forcedQueue_closed closed.symm]
    · have among : j ∈ lanes ++ [k] ↔ j ∈ lanes := by
        simp only [List.mem_append, List.mem_singleton, or_iff_left_iff_imp]
        rintro rfl
        by_contra new
        exact same ⟨rfl, new⟩
      simpa only [among] using h.queues j q lane

/-- The head of a lane's open hold gets its forced tail. -/
theorem HoldsForced.force (h : HoldsForced d p lanes e) {k : Fin 12} {q : LaneQueue} {row : Nat} {hold : HoldState}
    (new : k ∉ lanes) (held : (d.decoder p).openHold[k] = some row) (lane : queueOf d.session.style p k = some q) :
    HoldsForced d p (lanes ++ [k]) ((e.clearMark p k).onLane q fun l =>
      { l with queue := tailQueue row (d.decoder p).rowTime true l.queue, hold := hold }) where
  rest := by
    have rest := h.rest
    generalize (e.decoder p).openHold = marks, e.judge.lanes = lanes at rest
    subst rest
    simp [Device.onLane, Device.clearMark, Device.onDecoder, Device.decoder, PerPlayer.set_set]
  others x other := by
    have apart : x ≠ q := fun same => other (by rw [same]; exact (queueOf_some lane).1.symm)
    rw [Device.lane_onLane, if_neg apart]
    exact h.others x other
  marks j := by
    by_cases same : j = k
    · simp [Device.clearMark, same]
    · have apart : ¬k.val = j.val := fun eq => same (Fin.ext eq.symm)
      simpa [Device.clearMark, same, apart, Vector.getElem_set] using h.marks j
  queues j x lane' := by
    by_cases same : j = k
    · obtain rfl := same
      obtain rfl : x = q := Option.some.inj (lane'.symm.trans lane)
      have before := h.queues j x lane
      rw [if_neg new] at before
      rw [Device.lane_onLane, if_pos rfl, if_pos (by simp), Decoder.forcedQueue_open held, ← before]
      rfl
    · have apart : x ≠ q := fun eq => same (queueOf_inj (eq ▸ lane') lane)
      rw [Device.lane_onLane, if_neg apart]
      change (e.lane x).queue = _
      simpa [same] using h.queues j x lane'

/-- One lane more (04 R63, 08 R124). -/
theorem HoldsForced.forceEnd (h : HoldsForced d p lanes e) (awake : (d.decoder p).state ≠ .discard)
    (preload : d.session.state = .preload) (k : Fin 12)
    (known : (d.decoder p).openHold[k].isSome → queueOf d.session.style p k ≠ none) :
    HoldsForced d p (lanes ++ [k]) (e.forceEnd p k) := by
  have awake' : (e.decoder p).state ≠ .discard := by rw [h.decoder]; exact awake
  have mark := h.marks k
  rw [Device.forceEnd, if_neg awake']
  cases held : (e.decoder p).openHold[k] with
  | none => exact h.skip held
  | some row =>
    have new : k ∉ lanes := fun among => by simp [held, among] at mark
    rw [held, if_neg new] at mark
    obtain ⟨q, lane⟩ := Option.ne_none_iff_exists'.1 (known (by rw [← mark]; rfl))
    have time : (e.decoder p).rowTime = (d.decoder p).rowTime := by rw [h.decoder]
    have style : (e.clearMark p k).session = d.session := by rw [h.rest]; rfl
    obtain ⟨hold, taken⟩ := Device.takeTail_still (d := e.clearMark p k) (q := q) (row := row)
      (due := (d.decoder p).rowTime) (forced := true) (by simp [Device.judging, style, preload])
    dsimp only
    rw [Device.handTail, style, lane, time]
    dsimp only
    rw [taken]
    exact h.force new mark.symm lane

/-- All of a player's lanes, one after another (04 R63). -/
theorem HoldsForced.all (awake : (d.decoder p).state ≠ .discard) (preload : d.session.state = .preload)
    (known : ∀ k, (d.decoder p).openHold[k].isSome → queueOf d.session.style p k ≠ none) :
    HoldsForced d p (List.finRange 12) ((List.finRange 12).foldl (Device.forceEnd p) d) := by
  have first (ks : List (Fin 12)) : HoldsForced d p ks (ks.foldl (Device.forceEnd p) d) := by
    induction ks using List.reverseRecOn with
    | nil => exact .start d p
    | append_singleton ks k ih =>
      rw [List.foldl_concat]
      exact ih.forceEnd awake preload k (known k)
  exact first _

/-- Behind the last lane no hold is open, and the judge holds the forced tails (04 R63). -/
theorem HoldsForced.only (h : HoldsForced d p (List.finRange 12) e) :
    DecoderOnly { d with judge := e.judge } e p { d.decoder p with openHold := Vector.replicate 12 none } [] := by
  have closed : (e.decoder p).openHold = Vector.replicate 12 none := by
    ext k hk : 1
    exact (h.marks ⟨k, hk⟩).trans (by simp)
  have ports : e.ports = d.ports := by rw [h.rest]
  refine ⟨?_, fun i => ?_⟩
  · rw [← closed, ports, h.judge]
    exact h.rest
  · rw [Device.port, ports]
    simp
    rfl

end

end Sys2Proof.Machine

/-! ## Behind the END -/

namespace Sys2Proof.Safety
open Sys2Proof.Machine

section
variable {d e : Device} {p : Player} {c : Decoder} {kinds : List FaultKind}

/-- An entry taken in hand is a change of the decoder too (04 R51). -/
theorem DecoderOnly.of_onDecoder {f : Decoder → Decoder} (h : DecoderOnly (d.onDecoder p f) e p c kinds)
    (kept : (f (d.decoder p)).faults = (d.decoder p).faults) : DecoderOnly d e p c kinds := by
  obtain ⟨only, raised⟩ := h
  refine ⟨only.trans ?_, ?_⟩
  · simp only [Device.onDecoder, PerPlayer.set_set]
  · simpa [ChartFaultsRaised, kept] using raised

/-- What stands behind the END is discarded with AFTER_END (04 R64). -/
theorem DecoderOnly.discardAfterEnd (h : DecoderOnly d e p c kinds) (hc : c.faults = (d.decoder p).faults)
    (ended : c.state = .ended) :
    DecoderOnly d (e.discardAfterEnd p) p { c with buffer := [] }
      (kinds ++ if c.buffer = [] then [] else [.afterEnd]) := by
  have decoder := h.decoder
  by_cases empty : c.buffer = []
  · have same : { c with buffer := [] } = c := by rw [← empty]
    rw [Device.discardAfterEnd, if_neg (by simp [decoder, empty]), same, if_pos empty, List.append_nil]
    exact h
  · have faulted := h.addFaultIf hc .afterEnd true
    rw [Device.discardAfterEnd, if_pos (by simp [decoder, ended, empty]), if_neg empty]
    exact faulted.onDecoder _ rfl

end

end Sys2Proof.Safety

section
open Sys2Proof.Machine Sys2Proof.Safety

/-- Settles O40: the open holds are forced lane by lane, and the decoder enters ENDED. -/
theorem endForcesOpenHolds : Obligations.EndForcesOpenHolds := by
  unfold Obligations.EndForcesOpenHolds
  rintro s p tag rest c rfl buffer isEnd decoding alone preload joined known
  refine ⟨_, rfl, ?_⟩
  have front := (congrArg frontEntry buffer).trans (frontEntry_ending rest isEnd)
  rw [State.onDevice_device, show s.device.takeKind p .ending = _ from Device.takeKind_decoding decoding front]
  generalize s.device = d at *
  have begun : d.actEnd p = ((List.finRange 12).foldl (Device.forceEnd p)
      (d.onDecoder p fun c => c.takeInHand 1 (.notes []))).enterEnded p := by
    rw [Device.actEnd, Device.firstEntry_decoding decoding, Device.dropRepeat_none alone]
  have decoder : (d.onDecoder p fun c => c.takeInHand 1 (.notes [])).decoder p
      = (d.decoder p).takeInHand 1 (.notes []) := by simp
  have forced := HoldsForced.all (d := d.onDecoder p fun c => c.takeInHand 1 (.notes [])) (p := p)
    (by rw [decoder]; exact decoding ▸ DecoderState.noConfusion) preload (by rw [decoder]; exact known)
  rw [Device.actEntry, begun]
  generalize (List.finRange 12).foldl (Device.forceEnd p) _ = e at forced
  have only := DecoderOnly.of_onDecoder (d := { d with judge := e.judge })
    (f := fun c => c.takeInHand 1 (.notes [])) forced.only rfl
  rw [decoder] at only
  have awake : (e.decoder p).state ≠ .discard := by
    rw [only.decoder]
    exact decoding ▸ DecoderState.noConfusion
  have ended := (only.onDecoder (c' := { d.decoder p with
      state := .ended, buffer := rest, inHand := none, openHold := Vector.replicate 12 none })
    (fun c => { c.finished with state := .ended })
    (by simp [Decoder.finished, Decoder.takeInHand, buffer])).discardAfterEnd rfl rfl
  have still (x : Device) (same : x.session = d.session) : x.examineDone p = x :=
    if_neg (by simp [Device.doneHolds, show x.playerState p = .joined by rw [Device.playerState, same]; exact joined])
  generalize hx : ((e.onDecoder p fun c => { c.finished with state := .ended }).discardAfterEnd p) = x at ended
  have session : x.session = d.session := by rw [ended.1]
  have judge : x.judge = e.judge := by rw [ended.1]
  rw [Device.enterEnded, if_neg awake, hx, still x session, judge]
  refine ⟨ended, forced.judge, fun q other => ?_, fun k q lane => ?_⟩
  · rw [Device.lane, judge]
    exact forced.others q other
  · rw [Device.lane, judge]
    have queue := forced.queues k q lane
    rw [if_pos (List.mem_finRange k), decoder] at queue
    exact queue

end
end

