-- ==== Sys2Proof/Proofs/NotePlacement.lean ====
section
/-!
The work of a NOTES entry, step by step: how a note is placed on a lane, when the judge has nothing to do with it at
once, and what a full queue makes of it (O38).
-/
namespace Sys2Proof.Machine
open Sys2Proof.Safety

section
variable {d : Device} {p : Player} {k : Fin 12} {q : LaneQueue} {n : Note}

/-! ## The work of an entry -/

/-- A NOTES entry under no pending repeat is one placement for each lane of its mask (04 R55). -/
theorem Device.takeKind_notes {kind : SubKind} {mask : Nat} (decoding : (d.decoder p).state = .decoding)
    (alone : (d.decoder p).pendingRepeat = none) (front : frontEntry (d.decoder p).buffer = some (.notes kind mask)) :
    d.takeKind p .notes = runWork p (placements kind (maskLanes (laneCount d.session.style p) mask))
      ((d.addFaultIf p .badLane (mask / 2 ^ laneCount d.session.style p != 0)).onDecoder p fun c =>
        c.takeInHand 3 (.notes (placements kind (maskLanes (laneCount d.session.style p) mask)))) := by
  have dropped : (if kind.repeats then d else d.dropRepeat p) = d := by
    rw [Device.dropRepeat_none alone, ite_self]
  have pending : ((d.addFaultIf p .badLane (mask / 2 ^ laneCount d.session.style p != 0)).decoder p).pendingRepeat
      = none := by
    unfold Device.addFaultIf
    split
    · simpa using alone
    · exact alone
  rw [show d.takeKind p .notes = _ from Device.takeKind_decoding decoding front, Device.actEntry, Device.actNotes,
    Device.firstEntry_decoding decoding]
  simp only [dropped, notesWork, pending]

/-- A NOTES entry of one lane (04 R55). -/
theorem Device.takeKind_notes_lane {kind : SubKind} {mask : Nat} (decoding : (d.decoder p).state = .decoding)
    (alone : (d.decoder p).pendingRepeat = none) (front : frontEntry (d.decoder p).buffer = some (.notes kind mask))
    (one : mask = 2 ^ k.val) (lane : queueOf d.session.style p k = some q) :
    d.takeKind p .notes
      = runWork p [.place kind k] (d.onDecoder p fun c => c.takeInHand 3 (.notes [.place kind k])) := by
  have small := lane_lt_laneCount lane
  rw [Device.takeKind_notes decoding alone front, one, maskLanes_twoPow small, badLane_twoPow small]
  rfl

/-- A TAP entry of one lane. -/
theorem Device.takeKind_tap {hi lo : Byte} {rest : List Byte} (decoding : (d.decoder p).state = .decoding)
    (alone : (d.decoder p).pendingRepeat = none) (buffer : (d.decoder p).buffer = 0x30 :: hi :: lo :: rest)
    (one : hi.toNat * 256 + lo.toNat = 2 ^ k.val) (lane : queueOf d.session.style p k = some q) :
    d.takeKind p .notes
      = runWork p [.place .tap k] (d.onDecoder p fun c => c.takeInHand 3 (.notes [.place .tap k])) := by
  have front : frontEntry (d.decoder p).buffer = some (.notes .tap (hi.toNat * 256 + lo.toNat)) := by
    rw [buffer]
    rfl
  exact Device.takeKind_notes_lane decoding alone front one lane

/-- One step of work and nothing behind it. -/
theorem runWork_last {w : Work} {e : Device} (awake : (d.decoder p).state ≠ .discard)
    (done : d.workStep p w = .done e) (awake' : (e.decoder p).state ≠ .discard) :
    runWork p [w] d = e.onDecoder p Decoder.notesFinished := by
  rw [runWork_done awake done, runWork, if_neg awake']

/-- A stall at the first step of work (04 R56). -/
theorem runWork_stall {w : Work} {ws : List Work} (awake : (d.decoder p).state ≠ .discard)
    (stall : d.workStep p w = .stall d n) :
    runWork p (w :: ws) d
      = d.onDecoder p fun c => c.stalled .stalledLane (.notes (.append w.laneOf n :: ws)) := by
  rw [runWork, if_neg awake, stall]

/-! ## One note -/

/-- The device after a note has joined its queue and the decoder has counted it, before the judge looks at it
(04 R56, R67). -/
def Device.notePlaced (d : Device) (p : Player) (k : Fin 12) (q : LaneQueue) (n : Note) : Device :=
  ((d.onLane q fun l => { l with queue := l.queue ++ [n] }).onDecoder p fun c => c.appended k n).handUnits p n.kind

/-- A note that is placed changes its lane, its decoder and its player's units. -/
theorem Device.notePlaced_eq (d : Device) (p : Player) (k : Fin 12) (q : LaneQueue) (n : Note) :
    ∃ r, d.notePlaced p k q n = { d with
        decoders := d.decoders.set p ((d.decoder p).appended k n)
        judge := (d.onLane q fun l => { l with queue := l.queue ++ [n] }).judge
        score := { d.score with records := d.score.records.set p r } }
      ∧ (n.kind ≠ .avoid →
        r = ({ d.record p with decodedUnits := ((d.decoder p).appended k n).decodedUnits }).recount) := by
  have handed (kind : NoteKind) (counted : kind ≠ .avoid) (e : Device) :
      e.handUnits p kind = e.takeDecodedUnits p (e.decoder p).decodedUnits := by
    cases kind with
    | tap | holdStart => rfl
    | avoid => exact absurd rfl counted
  by_cases counted : n.kind = .avoid
  · have same : d.score.records.set p (d.record p) = d.score.records := PerPlayer.set_get ..
    refine ⟨d.record p, ?_, fun other => absurd counted other⟩
    rw [Device.notePlaced, counted, same]
    rfl
  · refine ⟨_, ?_, fun _ => rfl⟩
    rw [Device.notePlaced, handed _ counted, Device.decoder_onDecoder, if_pos rfl]
    rfl

theorem Device.notePlaced_decoder : (d.notePlaced p k q n).decoder p = (d.decoder p).appended k n := by
  obtain ⟨r, placed, -⟩ := d.notePlaced_eq p k q n
  rw [placed]
  exact (PerPlayer.get_set ..).trans (if_pos rfl)

theorem Device.notePlaced_lane (x : LaneQueue) : (d.notePlaced p k q n).lane x
    = if x = q then { d.lane q with queue := (d.lane q).queue ++ [n] } else d.lane x := by
  obtain ⟨r, placed, -⟩ := d.notePlaced_eq p k q n
  have lane : (d.notePlaced p k q n).lane x = (d.onLane q fun l => { l with queue := l.queue ++ [n] }).lane x := by
    rw [placed]
    rfl
  rw [lane, Device.lane_onLane]
  split
  · rename_i same
    rw [same]
  · rfl

theorem Device.notePlaced_record (counted : n.kind ≠ .avoid) : (d.notePlaced p k q n).record p
    = ({ d.record p with decodedUnits := ((d.decoder p).appended k n).decodedUnits }).recount := by
  obtain ⟨r, placed, units⟩ := d.notePlaced_eq p k q n
  rw [placed, ← units counted]
  exact (PerPlayer.get_set ..).trans (if_pos rfl)

/-- A lane takes time and windows from blocks that the placement leaves as they are. -/
theorem Device.notePlaced_frame : (d.notePlaced p k q n).session = d.session
    ∧ (d.notePlaced p k q n).ring = d.ring ∧ (d.notePlaced p k q n).ports = d.ports
    ∧ (∀ x, (d.notePlaced p k q n).laneTime x = d.laneTime x)
    ∧ (d.notePlaced p k q n).judge = { d.judge with lanes := (d.notePlaced p k q n).judge.lanes } := by
  obtain ⟨r, placed, -⟩ := d.notePlaced_eq p k q n
  rw [placed]
  exact ⟨rfl, rfl, rfl, fun _ => rfl, rfl⟩

/-- A note that is on time and that the judge leaves alone is placed as it is (04 R57, 08 R110). -/
theorem Device.acceptNote_onTime (plain : n.lateDecode = false) (onTime : d.isLate q n = false)
    (left : (d.notePlaced p k q n).examineAppended q n = d.notePlaced p k q n) :
    d.acceptNote p k q n = d.notePlaced p k q n := by
  have same : { n with lateDecode := d.isLate q n } = n := by rw [onTime, ← plain]
  unfold Device.acceptNote
  rw [same]
  exact left

/-- A queue with room takes a note of a player in play (08 R110). -/
theorem Device.appendStep_accepted (lane : queueOf d.session.style p k = some q) (appends : d.appendsFor p = true)
    (room : (d.lane q).queue.length < 24) : d.appendStep p k n = .done (d.acceptNote p k q n) := by
  have accepted : d.appendAnswer p q = .accepted := by simp [Device.appendAnswer, appends, queueCapacity, room]
  simp only [Device.appendStep, Device.tryAppend, lane, accepted]

/-- A full queue stalls the decoder (04 R56). -/
theorem Device.appendStep_full (lane : queueOf d.session.style p k = some q) (appends : d.appendsFor p = true)
    (full : 24 ≤ (d.lane q).queue.length) : d.appendStep p k n = .stall d n := by
  have refused : d.appendAnswer p q = .full := by simp [Device.appendAnswer, appends, queueCapacity, Nat.not_lt.2 full]
  simp only [Device.appendStep, Device.tryAppend, lane, refused]

/-- A note on a lane with no open hold and no note of its row (04 R55, R58). -/
theorem Device.placeNote_free (kind : NoteKind) (noHold : (d.decoder p).openHold[k] = none)
    (new : (d.decoder p).lastRow[k] ≠ some (d.decoder p).cursor) :
    d.placeNote p kind k = d.appendStep p k ((d.decoder p).noteAt kind) := by
  have alone : d.endOverlap p k (d.decoder p).rowTime = d := by simp only [Device.endOverlap, noHold]
  rw [Device.placeNote]
  dsimp only
  rw [if_neg new, alone, ite_self]

/-! ## A note that the judge leaves alone -/

/-- With no target past its window nothing is due for the sweep (08 R118). -/
theorem Device.sweepDue_none
    (waits : ∀ m ∈ (d.lane q).queue, d.laneTime q ≤ (m.due : Int) + d.judge.windows.poor.late) :
    d.sweepDue q = none := by
  unfold Device.sweepDue
  split
  · cases target : (d.lane q).target with
    | none => rfl
    | some m =>
      have kind : m.kind ≠ .avoid := by simpa using List.find?_some target
      have early := waits m (List.mem_of_find?_eq_some target)
      have within : ¬d.judge.pastWindow m (d.laneTime q) = true := by
        rw [Judge.pastWindow, NoteKind.lateLimit_target _ kind, decide_eq_true_eq]
        omega
      exact if_neg within
  · rfl

theorem Device.sweepAll_none (idle : d.sweepDue q = none) (fuel : Nat) : Device.sweepAll q fuel d = d := by
  cases fuel with
  | zero => rfl
  | succ fuel => rw [Device.sweepAll, if_neg (by simp [idle])]

/-- In RUN a TAP within its window, behind notes within theirs, is placed as it is (04 R57, 08 R110, R118). -/
theorem Device.acceptNote_within (tap : n.kind = .tap) (plain : n.lateDecode = false)
    (waits : ∀ m ∈ (d.lane q).queue, d.laneTime q ≤ (m.due : Int) + d.judge.windows.poor.late)
    (within : d.laneTime q ≤ (n.due : Int) + d.judge.windows.poor.late) :
    d.acceptNote p k q n = d.notePlaced p k q n := by
  obtain ⟨-, -, -, time, judge⟩ := Device.notePlaced_frame (d := d) (p := p) (k := k) (q := q) (n := n)
  refine Device.acceptNote_onTime plain ?_ ?_
  · have early : ¬(n.due : Int) + d.judge.windows.poor.late < d.laneTime q := by omega
    simp [Device.isLate, Judge.pastWindow, Judge.lateLimit, tap, early]
  · have idle : (d.notePlaced p k q n).sweepDue q = none := by
      refine Device.sweepDue_none fun m hm => ?_
      rw [Device.notePlaced_lane, if_pos rfl, List.mem_append, List.mem_singleton] at hm
      rw [time, judge]
      rcases hm with old | rfl
      · exact waits m old
      · exact within
    unfold Device.examineAppended
    rw [tap]
    dsimp only
    rw [Device.sweepAll_none idle, ite_self]

/-- Work that ends with such a TAP (04 R56, R67). -/
theorem Device.runWork_within {w : Work} (awake : (d.decoder p).state ≠ .discard)
    (accepted : d.workStep p w = .done (d.acceptNote p k q n)) (tap : n.kind = .tap) (plain : n.lateDecode = false)
    (waits : ∀ m ∈ (d.lane q).queue, d.laneTime q ≤ (m.due : Int) + d.judge.windows.poor.late)
    (within : d.laneTime q ≤ (n.due : Int) + d.judge.windows.poor.late) :
    (runWork p [w] d).lane q = { d.lane q with queue := (d.lane q).queue ++ [n] }
      ∧ (∀ x, x ≠ q → (runWork p [w] d).lane x = d.lane x)
      ∧ (runWork p [w] d).decoder p = ((d.decoder p).appended k n).notesFinished
      ∧ ((runWork p [w] d).record p).decodedUnits = ((d.decoder p).appended k n).decodedUnits
      ∧ (runWork p [w] d).ring = d.ring ∧ (runWork p [w] d).ports = d.ports := by
  obtain ⟨-, ring, ports, -⟩ := Device.notePlaced_frame (d := d) (p := p) (k := k) (q := q) (n := n)
  obtain ⟨-, -, -, state, -, -⟩ := appended_fields (d.decoder p) k n
  rw [Device.acceptNote_within tap plain waits within] at accepted
  rw [runWork_last awake accepted (by rw [Device.notePlaced_decoder, state]; exact awake)]
  refine ⟨?_, fun x other => ?_, ?_, ?_, ring, ports⟩
  · rw [Device.onDecoder_lane, Device.notePlaced_lane, if_pos rfl]
  · rw [Device.onDecoder_lane, Device.notePlaced_lane, if_neg other]
  · rw [Device.decoder_onDecoder, if_pos rfl, Device.notePlaced_decoder]
  · rw [Device.onDecoder_record, Device.notePlaced_record (by rw [tap]; decide)]
    rfl

/-- A note placed outside RUN is not looked at (08 R110). -/
theorem Device.acceptNote_still (plain : n.lateDecode = false) (still : d.session.state ≠ .run) :
    d.acceptNote p k q n = d.notePlaced p k q n := by
  obtain ⟨session, -⟩ := Device.notePlaced_frame (d := d) (p := p) (k := k) (q := q) (n := n)
  refine Device.acceptNote_onTime plain (by simp [Device.isLate, still]) (if_neg ?_)
  simp [Device.judging, session, still]

/-! ## A stall on a lane -/

/-- The retry of a stalled note is accepted when its queue has room, or its player no longer takes notes (04 R62). -/
theorem Device.stallFree_append {size : Nat} {ws : List Work} (stalled : (d.decoder p).state = .stalledLane)
    (hand : (d.decoder p).inHand = some { size := size, task := .notes (.append k n :: ws) })
    (lane : queueOf d.session.style p k = some q) : d.stallFree p = (d.appendAnswer p q != .full) := by
  simp only [Device.stallFree, stalled, hand, lane]

theorem Device.appendAnswer_eq (appends : d.appendsFor p = true) :
    d.appendAnswer p q = if (d.lane q).queue.length < 24 then .accepted else .full := by
  rw [Device.appendAnswer, appends]
  rfl

/-- While the queue is full the decoder waits (04 R62). -/
theorem Device.releaseStall_full {size : Nat} {ws : List Work} (stalled : (d.decoder p).state = .stalledLane)
    (hand : (d.decoder p).inHand = some { size := size, task := .notes (.append k n :: ws) })
    (lane : queueOf d.session.style p k = some q) (appends : d.appendsFor p = true)
    (full : 24 ≤ (d.lane q).queue.length) : d.releaseStall p = d := by
  refine if_neg ?_
  rw [Device.stallFree_append stalled hand lane, Device.appendAnswer_eq appends, if_neg (Nat.not_lt.2 full)]
  decide

/-- With room the decoder goes on with the work in hand (04 R62). -/
theorem Device.releaseStall_room {size : Nat} {ws : List Work} (stalled : (d.decoder p).state = .stalledLane)
    (hand : (d.decoder p).inHand = some { size := size, task := .notes (.append k n :: ws) })
    (lane : queueOf d.session.style p k = some q) (appends : d.appendsFor p = true)
    (room : (d.lane q).queue.length < 24) :
    d.releaseStall p = runWork p (.append k n :: ws) (d.onDecoder p fun c => { c with state := .decoding }) := by
  have free : d.stallFree p = true := by
    rw [Device.stallFree_append stalled hand lane, Device.appendAnswer_eq appends, if_pos room]
    decide
  rw [Device.releaseStall, if_pos free, hand]

end

end Sys2Proof.Machine

section
open Sys2Proof.Machine Sys2Proof.Safety

/-- Settles O38: the append is refused and kept as the work in hand, and its retry is the same append. -/
theorem fullQueueStallsAndReleases : Obligations.FullQueueStallsAndReleases := by
  unfold Obligations.FullQueueStallsAndReleases
  rintro s p k q c n rfl lane rfl
  constructor
  · intro hi lo rest buffer mask decoding alone inPlay full noHold new
    refine ⟨_, rfl, ?_⟩
    rw [State.onDevice_device]
    generalize s.device = d at *
    have appends : d.appendsFor p = true := by simpa [Device.appendsFor] using inPlay
    rw [Device.takeKind_tap decoding alone buffer mask lane]
    set e := d.onDecoder p fun c => c.takeInHand 3 (.notes [.place .tap k]) with he
    have decoder : e.decoder p = (d.decoder p).takeInHand 3 (.notes [.place .tap k]) := by simp [he]
    have stall : e.workStep p (.place .tap k) = .stall e ((e.decoder p).noteAt .tap) :=
      (Device.placeNote_free .tap (by rw [decoder]; exact noHold) (by rw [decoder]; exact new)).trans
        (Device.appendStep_full lane appends full)
    rw [runWork_stall (by rw [decoder]; exact decoding ▸ DecoderState.noConfusion) stall, decoder, he,
      Device.onDecoder_onDecoder]
    rfl
  · intro stalled size hand run playing
    refine ⟨_, rfl, fun full => ?_, fun room waits within => ?_⟩
    · have appends : s.device.appendsFor p = true := by simp [Device.appendsFor, playing]
      rw [State.onDevice, Device.releaseStall_full stalled hand lane appends full]
    · rw [State.onDevice_device]
      generalize s.device = d at *
      have appends : d.appendsFor p = true := by simp [Device.appendsFor, playing]
      rw [Device.releaseStall_room stalled hand lane appends room]
      set e := d.onDecoder p fun c => { c with state := .decoding } with he
      have decoder : e.decoder p = { d.decoder p with state := .decoding } := by simp [he]
      obtain ⟨queue, others, after, units, ring, ports⟩ := Device.runWork_within (d := e) (w := .append k _)
        (by rw [decoder]; exact DecoderState.noConfusion) (Device.appendStep_accepted lane appends room) rfl rfl
        waits within
      refine ⟨queue, others, ?_, ?_, ring, ports⟩
      · rw [after, decoder]
        simp [Decoder.notesFinished, Decoder.finished, Decoder.appended, hand]
      · rw [units, decoder]
        rfl

end
end

