-- ==== Sys2Proof/Proofs/NotesEntries.lean ====
section
/-!
A NOTES entry of several lanes in PRELOAD, lane by lane, and a TAP in RUN, on time or swept at once (O35).
-/
namespace Sys2Proof.Safety
open Sys2Proof.Machine

/-! ## Fault sets -/

theorem withFaults_getLsbD (faults : BitVec 13) (kinds : List FaultKind) (j : Nat) :
    (withFaults faults kinds).getLsbD j = (faults.getLsbD j || kinds.any fun k => k.mask.getLsbD j) := by
  induction kinds generalizing faults with
  | nil => simp [withFaults]
  | cons k kinds ih =>
    change (withFaults (faults ||| k.mask) kinds).getLsbD j = _
    rw [ih, BitVec.getLsbD_or, List.any_cons, Bool.or_assoc]

/-- What a fault set gains does not depend on order or repetition (04 R66). -/
theorem withFaults_congr (faults : BitVec 13) {kinds kinds' : List FaultKind} (same : ∀ k, k ∈ kinds ↔ k ∈ kinds') :
    withFaults faults kinds = withFaults faults kinds' := by
  apply BitVec.eq_of_getLsbD_eq
  intro j _
  have any_ : (kinds.any fun k => k.mask.getLsbD j) = kinds'.any fun k => k.mask.getLsbD j := by
    rw [Bool.eq_iff_iff, List.any_eq_true, List.any_eq_true]
    simp only [same]
  rw [withFaults_getLsbD, withFaults_getLsbD, any_]

section
variable {d e : Device} {p : Player} {c : Decoder} {kinds kinds' : List FaultKind}

theorem DecoderOnly.congr (h : DecoderOnly d e p c kinds) (same : ∀ k, k ∈ kinds ↔ k ∈ kinds') :
    DecoderOnly d e p c kinds' := by
  obtain ⟨only, raised⟩ := h
  refine ⟨by rw [← withFaults_congr _ same]; exact only, fun i => ?_⟩
  simp only [← same]
  exact raised i

/-- What the judge and the score keeper do leaves the decoder and its faults as they are. -/
theorem DecoderOnly.aside {j j' : Judge} {k k' : ScoreKeeper}
    (h : DecoderOnly { d with judge := j, score := k } e p c kinds) :
    DecoderOnly { d with judge := j', score := k' } { e with judge := j', score := k' } p c kinds := by
  obtain ⟨only, raised⟩ := h
  refine ⟨?_, raised⟩
  rw [only]

end

end Sys2Proof.Safety

namespace Sys2Proof.Machine
open Sys2Proof.Safety

theorem Device.addFault_frame (d : Device) (p : Player) (k : FaultKind) : (d.addFault p k).judge = d.judge
    ∧ (d.addFault p k).score = d.score ∧ (d.addFault p k).session = d.session ∧ (d.addFault p k).ring = d.ring := by
  rcases d.addFault_cases p k with ⟨-, e⟩ | ⟨-, e⟩
  · rw [e]
    exact ⟨rfl, rfl, rfl, rfl⟩
  · rw [e]
    exact ⟨rfl, rfl, rfl, rfl⟩

/-! ## The lanes of a mask -/

theorem mem_maskLanes {lanes mask : Nat} {k : Fin 12} :
    k ∈ maskLanes lanes mask ↔ (mask.testBit k.val && k.val < lanes) = true := by
  simp [maskLanes, and_comm]

theorem lt_of_mem_maskLanes {lanes mask : Nat} {k : Fin 12} (h : k ∈ maskLanes lanes mask) : k.val < lanes := by
  have named := mem_maskLanes.1 h
  simp only [Bool.and_eq_true, decide_eq_true_eq] at named
  exact named.2

theorem queueOf_of_lt {style : Style} {p : Player} {k : Fin 12} (small : k.val < laneCount style p) :
    ∃ q, queueOf style p k = some q := by
  cases style <;> cases p
  case doubles.p1 => exact ⟨k, rfl⟩
  case doubles.p2 => exact absurd small (Nat.not_lt_zero _)
  case versus.p1 => exact ⟨_, if_pos small⟩
  case versus.p2 => exact ⟨_, dif_pos small⟩

/-! ## Several notes of one row -/

/-- The lane has no note of the cursor row yet (04 R55). -/
def Decoder.fresh (c : Decoder) (k : Fin 12) : Bool := c.lastRow[k] ≠ some c.cursor

/-- The lanes of an entry on which it places a note (04 R55). -/
def Decoder.puts (c : Decoder) (lanes : List (Fin 12)) (k : Fin 12) : Bool := k ∈ lanes && c.fresh k

theorem Decoder.countP_maskLanes (c : Decoder) (lanes mask : Nat) :
    (maskLanes lanes mask).countP c.fresh = (List.finRange 12).countP (c.puts (maskLanes lanes mask)) := by
  conv_lhs => rw [maskLanes, List.countP_filter]
  refine List.countP_congr fun k _ => ?_
  simp [Decoder.puts, mem_maskLanes, and_comm]

theorem Decoder.puts_duplicate {c : Decoder} {k : Fin 12} (old : c.fresh k = false) (lanes : List (Fin 12)) :
    c.puts (lanes ++ [k]) = c.puts lanes := by
  funext j
  by_cases same : j = k
  · simp [Decoder.puts, same, old]
  · simp [Decoder.puts, same]

theorem Decoder.puts_fresh {c : Decoder} {k : Fin 12} (new : c.fresh k = true) (lanes : List (Fin 12)) (j : Fin 12) :
    c.puts (lanes ++ [k]) j = (decide (j = k) || c.puts lanes j) := by
  by_cases same : j = k
  · simp [Decoder.puts, same, new]
  · simp [Decoder.puts, same]

/-- The decoder when a NOTES entry has counted its notes on some lanes (04 R67). -/
def Decoder.counted (c after : Decoder) (kind : NoteKind) (count : Nat) : Decoder :=
  { c with
    lastRow := after.lastRow
    openHold := after.openHold
    taps := c.taps + if kind = .tap then count else 0
    holds := c.holds + if kind = .holdStart then count else 0
    avoids := c.avoids + if kind = .avoid then count else 0 }

theorem Decoder.appended_lastRow (c : Decoder) (k j : Fin 12) (n : Note) :
    (c.appended k n).lastRow[j] = if j = k then some n.row else c.lastRow[j] := by
  obtain ⟨-, -, -, -, -, lastRow⟩ := appended_fields c k n
  simp [lastRow, Vector.getElem_set, Fin.ext_iff, eq_comm]

theorem Decoder.appended_openHold (c : Decoder) (k j : Fin 12) (n : Note) :
    (c.appended k n).openHold[j] = if n.kind = .holdStart ∧ j = k then some n.row else c.openHold[j] := by
  unfold Decoder.appended
  cases n.kind with
  | tap | avoid => simp
  | holdStart => simp [Vector.getElem_set, Fin.ext_iff, eq_comm]

theorem Decoder.counted_appended (c after : Decoder) (kind : NoteKind) (count : Nat) (k : Fin 12) (faults : BitVec 13) :
    Decoder.appended { c.counted after kind count with faults := faults } k (c.noteAt kind)
      = { c.counted (after.appended k (c.noteAt kind)) kind (count + 1) with faults := faults } := by
  cases kind with
  | tap | holdStart | avoid => simp [Decoder.counted, Decoder.appended, Decoder.noteAt, Nat.add_assoc]

/-- A NOTES entry has placed its notes on some lanes, in PRELOAD: `c` is the decoder before. -/
structure NotesPut (d : Device) (p : Player) (c : Decoder) (kind : NoteKind) (kinds : List FaultKind)
    (lanes : List (Fin 12)) (e : Device) : Prop where
  only : DecoderOnly { d with judge := e.judge, score := e.score } e p
    (c.counted (e.decoder p) kind (lanes.countP c.fresh))
    (kinds ++ List.replicate (lanes.countP fun k => !c.fresh k) .duplicate)
  rows : ∀ k, (e.decoder p).lastRow[k] = if c.puts lanes k then some c.cursor else c.lastRow[k]
  marks : ∀ k, (e.decoder p).openHold[k]
    = if kind = .holdStart ∧ c.puts lanes k = true then some c.cursor else c.openHold[k]
  judge : e.judge = { d.judge with lanes := e.judge.lanes }
  score : e.score = { d.score with records := d.score.records.set p (e.record p) }
  queues : ∀ k q, queueOf d.session.style p k = some q →
    e.lane q = { d.lane q with queue := (d.lane q).queue ++ if c.puts lanes k then [c.noteAt kind] else [] }
  others : ∀ q, d.owner q ≠ p → e.lane q = d.lane q
  units : kind ≠ .avoid → lanes.countP c.fresh ≠ 0 → (e.record p).decodedUnits = (e.decoder p).decodedUnits

/-- The faults of such an entry: BAD_LANE by its mask, DUPLICATE by its lanes (04 R55). -/
theorem notesFaults_mem {mask lanes n : Nat} {k : FaultKind} {duplicates : Prop} [Decidable duplicates]
    (some_ : n ≠ 0 ↔ duplicates) :
    k ∈ (if mask / 2 ^ lanes != 0 then [.badLane] else []) ++ List.replicate n .duplicate
      ↔ k ∈ (if 2 ^ lanes ≤ mask then [.badLane] else []) ++ if duplicates then [.duplicate] else [] := by
  have bad : (mask / 2 ^ lanes != 0) = true ↔ 2 ^ lanes ≤ mask := by
    simp
  simp only [bad, List.mem_append, List.mem_replicate, some_, List.mem_ite_nil_right, List.mem_singleton]

section
variable {d e : Device} {p : Player} {c : Decoder} {kind : NoteKind} {kinds : List FaultKind} {lanes : List (Fin 12)}

theorem NotesPut.start (only : DecoderOnly d e p c kinds) : NotesPut d p c kind kinds [] e := by
  have judge : e.judge = d.judge := by rw [only.1]
  have score : e.score = d.score := by rw [only.1]
  have decoder := only.decoder
  have same : c.counted (e.decoder p) kind 0 = c := by rw [decoder]; simp [Decoder.counted]
  have record : d.score.records.set p (e.record p) = d.score.records := by
    rw [Device.record, score]
    exact PerPlayer.set_get ..
  refine ⟨?_, fun k => by rw [decoder]; rfl, fun k => by rw [decoder]; simp [Decoder.puts], by rw [judge],
    by rw [record, score], fun k q _ => ?_, fun q _ => by rw [Device.lane, judge]; rfl, fun _ some_ => absurd rfl some_⟩
  · rw [List.countP_nil, List.countP_nil, same, judge, score, List.replicate_zero, List.append_nil]
    exact only
  · rw [Device.lane, judge]
    simp [Decoder.puts]
    rfl

/-- A lane that has a note of the row already (04 R55). -/
theorem NotesPut.duplicate (h : NotesPut d p c kind kinds lanes e) (hc : c.faults = (d.decoder p).faults) {k : Fin 12}
    (old : c.fresh k = false) : NotesPut d p c kind kinds (lanes ++ [k]) (e.addFault p .duplicate) := by
  obtain ⟨judge, score, session, -⟩ := e.addFault_frame p .duplicate
  have count : (lanes ++ [k]).countP c.fresh = lanes.countP c.fresh := by simp [old]
  have decoder : (e.addFault p .duplicate).decoder p
      = { e.decoder p with faults := (e.decoder p).faults ||| FaultKind.duplicate.mask } := by
    rw [Device.decoder_addFault, if_pos rfl]
  have record : (e.addFault p .duplicate).record p = e.record p := by rw [Device.record, score]; rfl
  have lane (q : LaneQueue) : (e.addFault p .duplicate).lane q = e.lane q := by rw [Device.lane, judge]; rfl
  refine ⟨?_, fun j => ?_, fun j => ?_, ?_, ?_, fun j q at_ => ?_, fun q other => ?_, fun counts some_ => ?_⟩
  · have faulted := h.only.addFaultIf hc .duplicate true
    have more : (lanes ++ [k]).countP (fun k => !c.fresh k) = lanes.countP (fun k => !c.fresh k) + 1 := by simp [old]
    rw [count, more, decoder, judge, score, List.replicate_succ', ← List.append_assoc]
    exact faulted
  · rw [c.puts_duplicate old, decoder]
    exact h.rows j
  · rw [c.puts_duplicate old, decoder]
    exact h.marks j
  · rw [judge]
    exact h.judge
  · rw [score, record]
    exact h.score
  · rw [c.puts_duplicate old, lane]
    exact h.queues j q at_
  · rw [lane]
    exact h.others q other
  · rw [count] at some_
    rw [record, decoder]
    exact h.units counts some_

/-- A lane that has none gets a note (04 R55, R56). -/
theorem NotesPut.place (h : NotesPut d p c kind kinds lanes e) {k : Fin 12} {q : LaneQueue} (new : c.fresh k = true)
    (lane : queueOf d.session.style p k = some q) (apart : k ∉ lanes) :
    NotesPut d p c kind kinds (lanes ++ [k]) (e.notePlaced p k q (c.noteAt kind)) := by
  obtain ⟨r, placed, -⟩ := e.notePlaced_eq p k q (c.noteAt kind)
  obtain ⟨-, -, -, -, judge⟩ := Device.notePlaced_frame (d := e) (p := p) (k := k) (q := q) (n := c.noteAt kind)
  have decoder := Device.notePlaced_decoder (d := e) (p := p) (k := k) (q := q) (n := c.noteAt kind)
  have count : (lanes ++ [k]).countP c.fresh = lanes.countP c.fresh + 1 := by simp [new]
  have dups : (lanes ++ [k]).countP (fun k => !c.fresh k) = lanes.countP fun k => !c.fresh k := by simp [new]
  have record : (e.notePlaced p k q (c.noteAt kind)).record p = r := by
    rw [placed]
    exact (PerPlayer.get_set ..).trans (if_pos rfl)
  have untouched : c.puts lanes k = false := by simp [Decoder.puts, apart]
  refine ⟨?only, fun j => ?rows, fun j => ?marks, ?judge, ?score, fun j x at_ => ?queues, fun x other => ?others,
    fun counts _ => ?units⟩
  case only =>
    have counted := h.only.onDecoder
      (c' := c.counted ((e.decoder p).appended k (c.noteAt kind)) kind (lanes.countP c.fresh + 1))
      (fun c' => c'.appended k (c.noteAt kind)) (Decoder.counted_appended ..)
    rw [count, dups, decoder]
    have aside := counted.aside (j' := (e.notePlaced p k q (c.noteAt kind)).judge)
      (k' := (e.notePlaced p k q (c.noteAt kind)).score)
    have same : e.notePlaced p k q (c.noteAt kind) = { e.onDecoder p fun c' => c'.appended k (c.noteAt kind) with
        judge := (e.notePlaced p k q (c.noteAt kind)).judge
        score := (e.notePlaced p k q (c.noteAt kind)).score } := by
      rw [placed]
      rfl
    rw [← same] at aside
    exact aside
  case rows =>
    rw [decoder, Decoder.appended_lastRow, Decoder.puts_fresh new, h.rows j]
    by_cases own : j = k <;> simp [own, Decoder.noteAt]
  case marks =>
    rw [decoder, Decoder.appended_openHold, Decoder.puts_fresh new, h.marks j]
    by_cases own : j = k <;> simp [own, untouched, Decoder.noteAt]
  case judge =>
    rw [judge, h.judge]
  case score =>
    rw [record, placed]
    dsimp only
    rw [h.score]
    simp only [PerPlayer.set_set]
  case queues =>
    rw [Device.notePlaced_lane, Decoder.puts_fresh new]
    by_cases own : j = k
    · subst own
      obtain rfl : x = q := Option.some.inj (at_.symm.trans lane)
      have before := h.queues j x lane
      rw [untouched] at before
      simp [before]
    · have elsewhere : x ≠ q := fun same => own (queueOf_inj (same ▸ at_) lane)
      rw [if_neg elsewhere, h.queues j x at_]
      simp [own]
  case others =>
    have elsewhere : x ≠ q := fun same => other (by rw [same]; exact (queueOf_some lane).1.symm)
    rw [Device.notePlaced_lane, if_neg elsewhere]
    exact h.others x other
  case units =>
    rw [Device.notePlaced_record (n := c.noteAt kind) counts, decoder]
    rfl

/-- Behind the last lane the bytes leave the buffer (04 R51). -/
theorem NotesPut.finished {task : Task} {tag hi lo : Byte} {rest : List Byte}
    (h : NotesPut d p ((d.decoder p).takeInHand 3 task) kind kinds lanes e)
    (alone : (d.decoder p).pendingRepeat = none) (buffer : (d.decoder p).buffer = tag :: hi :: lo :: rest) :
    DecoderOnly { d with judge := e.judge, score := e.score } (e.onDecoder p Decoder.notesFinished) p
      { (d.decoder p).counted (e.decoder p) kind (lanes.countP (d.decoder p).fresh) with buffer := rest, inHand := none }
      (kinds ++ List.replicate (lanes.countP fun k => !(d.decoder p).fresh k) .duplicate) := by
  refine h.only.onDecoder _ ?_
  simp only [Decoder.notesFinished, Decoder.finished, Decoder.counted, Decoder.takeInHand, buffer, alone]
  rfl

theorem NotesPut.session (h : NotesPut d p c kind kinds lanes e) : e.session = d.session := by rw [h.only.1]

/-- The sub-kind of an entry that places notes of a kind (04 R49). -/
def NoteKind.sub : NoteKind → SubKind
  | .tap => .tap
  | .holdStart => .holdStart
  | .avoid => .avoid

theorem Device.workStep_place (d : Device) (p : Player) (kind : NoteKind) (k : Fin 12) :
    d.workStep p (.place kind.sub k) = d.placeNote p kind k := by
  cases kind with
  | tap | holdStart | avoid => rfl

theorem NotesPut.noteAt (h : NotesPut d p c kind kinds lanes e) : (e.decoder p).noteAt kind = c.noteAt kind := by
  rw [h.only.decoder]
  rfl

/-- One lane more, in PRELOAD, with no open hold and room in its queue (04 R55, R56). -/
theorem NotesPut.step (h : NotesPut d p c kind kinds lanes e) (hc : c.faults = (d.decoder p).faults)
    (preload : d.session.state = .preload) (joined : d.playerState p = .joined) {k : Fin 12} {q : LaneQueue}
    (apart : k ∉ lanes) (lane : queueOf d.session.style p k = some q) (noHold : c.openHold[k] = none)
    (room : (d.lane q).queue.length < 24) :
    ∃ e', e.workStep p (.place kind.sub k) = .done e' ∧ NotesPut d p c kind kinds (lanes ++ [k]) e' := by
  have session := h.session
  have cursor : (e.decoder p).cursor = c.cursor := by rw [h.only.decoder]; rfl
  have untouched : c.puts lanes k = false := by simp [Decoder.puts, apart]
  have row : (e.decoder p).lastRow[k] = c.lastRow[k] := by rw [h.rows k, untouched]; rfl
  have mark : (e.decoder p).openHold[k] = none := by rw [h.marks k, untouched, if_neg (by simp), noHold]
  rw [Device.workStep_place]
  by_cases new : c.fresh k = true
  · have free : (e.decoder p).lastRow[k] ≠ some (e.decoder p).cursor := by
      rw [row, cursor]
      simpa [Decoder.fresh] using new
    have queue : (e.lane q).queue.length < 24 := by
      rw [h.queues k q lane, untouched]
      simpa using room
    have appends : e.appendsFor p = true := by
      rw [Device.appendsFor, Device.playerState, session]
      simp [show d.session.players.get p = .joined from joined]
    refine ⟨_, ?_, h.place new lane apart⟩
    rw [Device.placeNote_free kind mark free, h.noteAt,
      Device.appendStep_accepted (by rw [session]; exact lane) appends queue,
      Device.acceptNote_still rfl (by rw [session, preload]; decide)]
  · have old : (e.decoder p).lastRow[k] = some (e.decoder p).cursor := by
      rw [row, cursor]
      simpa [Decoder.fresh] using new
    exact ⟨_, if_pos old, h.duplicate hc (Bool.eq_false_iff.2 new)⟩

/-- The rest of the lanes, to the end of the entry (04 R55). -/
theorem NotesPut.run (hc : c.faults = (d.decoder p).faults) (awake : c.state ≠ .discard)
    (preload : d.session.state = .preload) (joined : d.playerState p = .joined)
    (room : ∀ k q, queueOf d.session.style p k = some q → (d.lane q).queue.length < 24) (rest : List (Fin 12))
    (h : NotesPut d p c kind kinds lanes e) (distinct : (lanes ++ rest).Nodup)
    (known : ∀ k ∈ rest, ∃ q, queueOf d.session.style p k = some q) (noHold : ∀ k ∈ rest, c.openHold[k] = none) :
    ∃ e', NotesPut d p c kind kinds (lanes ++ rest) e'
      ∧ runWork p (placements kind.sub rest) e = e'.onDecoder p Decoder.notesFinished := by
  have awake' : (e.decoder p).state ≠ .discard := by rw [h.only.decoder]; exact awake
  induction rest generalizing lanes e with
  | nil => exact ⟨e, by rw [List.append_nil]; exact h, if_neg awake'⟩
  | cons k rest ih =>
    obtain ⟨q, lane⟩ := known k List.mem_cons_self
    have apart : k ∉ lanes := fun among => List.disjoint_of_nodup_append distinct among List.mem_cons_self
    obtain ⟨e', done, next⟩ := h.step hc preload joined apart lane (noHold k List.mem_cons_self) (room k q lane)
    obtain ⟨e'', last, ran⟩ := ih next (by simpa using distinct) (fun j hj => known j (List.mem_cons_of_mem k hj))
      (fun j hj => noHold j (List.mem_cons_of_mem k hj)) (by rw [next.only.decoder]; exact awake)
    exact ⟨e'', by simpa using last, (runWork_done awake' done).trans ran⟩

end

section
variable {d : Device} {p : Player} {kind : NoteKind}

/-- A NOTES entry in PRELOAD, to its end (04 R55). -/
theorem Device.takeKind_notes_preload {mask : Nat} (decoding : (d.decoder p).state = .decoding)
    (alone : (d.decoder p).pendingRepeat = none)
    (front : frontEntry (d.decoder p).buffer = some (.notes kind.sub mask)) (preload : d.session.state = .preload)
    (joined : d.playerState p = .joined)
    (room : ∀ k q, queueOf d.session.style p k = some q → (d.lane q).queue.length < 24)
    (noHold : ∀ k ∈ maskLanes (laneCount d.session.style p) mask, (d.decoder p).openHold[k] = none) :
    ∃ e task, NotesPut d p ((d.decoder p).takeInHand 3 task) kind
        (if mask / 2 ^ laneCount d.session.style p != 0 then [.badLane] else [])
        (maskLanes (laneCount d.session.style p) mask) e
      ∧ d.takeKind p .notes = e.onDecoder p Decoder.notesFinished := by
  set lanes := laneCount d.session.style p
  set task := Task.notes (placements kind.sub (maskLanes lanes mask))
  have begun := ((DecoderOnly.refl d p).addFaultIf rfl .badLane (mask / 2 ^ lanes != 0)).onDecoder
    (c' := (d.decoder p).takeInHand 3 task) (fun c => c.takeInHand 3 task) rfl
  rw [List.nil_append] at begun
  obtain ⟨e, put, ran⟩ := (NotesPut.start (kind := kind) begun).run (c := (d.decoder p).takeInHand 3 task) rfl
    (decoding ▸ DecoderState.noConfusion) preload joined room (maskLanes lanes mask)
    (show (maskLanes lanes mask).Nodup from (List.nodup_finRange 12).filter _)
    (fun k hk => queueOf_of_lt (lt_of_mem_maskLanes hk)) noHold
  exact ⟨e, task, put, (Device.takeKind_notes decoding alone front).trans ran⟩

end

/-! ## A TAP that is late in RUN -/

section
variable {d : Device} {p : Player} {k : Fin 12} {q : LaneQueue} {n : Note}

/-- The note with LATE_DECODE (04 R57). -/
def Note.late (n : Note) : Note := { n with lateDecode := true }

/-- The device after a late TAP has been placed on an empty lane and swept (04 R57, 08 R118). -/
def Device.lateSwept (d : Device) (p : Player) (k : Fin 12) (q : LaneQueue) (n : Note) : Device :=
  (d.notePlaced p k q n.late).swept q n.late

/-- A TAP that is past its window when it is appended to an empty lane is swept at once (04 R57, 08 R110). -/
theorem Device.acceptNote_late (run : d.session.state = .run) (playing : d.playerState p = .playing)
    (lane : queueOf d.session.style p k = some q) (chart : (d.decoder p).state ≠ .ended) (tap : n.kind = .tap)
    (empty : (d.lane q).queue = []) (late : (n.due : Int) + d.judge.windows.poor.late < d.laneTime q)
    (alive : (d.record p).reachesZero d.score .miss = false) : d.acceptNote p k q n = d.lateSwept p k q n := by
  obtain ⟨session, -, -, time, judge⟩ := Device.notePlaced_frame (d := d) (p := p) (k := k) (q := q) (n := n.late)
  obtain ⟨-, -, -, state, -, -⟩ := appended_fields (d.decoder p) k n.late
  obtain ⟨r, placed, -⟩ := d.notePlaced_eq p k q n.late
  have kind : n.late.kind = .tap := tap
  have counted : n.late.kind ≠ .avoid := by rw [kind]; decide
  have record := Device.notePlaced_record (d := d) (p := p) (k := k) (q := q) counted
  have isLate : d.isLate q n = true := by
    simp only [Device.isLate, run, Judge.pastWindow, tap, Judge.lateLimit, decide_true, Bool.true_and]
    exact decide_eq_true late
  have accepted : d.acceptNote p k q n = (d.notePlaced p k q n.late).examineAppended q n.late := by
    rw [Device.acceptNote, isLate]
    rfl
  rw [accepted]
  set e := d.notePlaced p k q n.late with he
  have owner : e.owner q = p := by
    rw [Device.owner, session]
    exact (queueOf_some lane).1.symm
  have inPlay : e.playerState p = .playing := by rw [Device.playerState, session]; exact playing
  have judged : e.judging q = true := by simp [Device.judging, owner, inPlay, session, run]
  have queue : (e.lane q).queue = [] ++ n.late :: [] := by rw [he, Device.notePlaced_lane, if_pos rfl, empty]
  have due : e.sweepDue q = some n.late := by
    refine Device.sweepDue_target judged queue nofun counted ?_
    rw [time, judge]
    exact late
  have swept : e.sweepLane q = e.swept q n.late := by
    rw [Device.sweepLane_alive due (by rw [owner]; exact inPlay)
      (by rw [owner, he, Device.notePlaced_decoder, state]; exact chart)
      (by rw [owner, record, placed]; exact alive) (fun hold => by cases kind.symm.trans hold)]
    exact if_neg (by rw [kind]; decide)
  have gone : (e.swept q n.late).sweepDue q = none := by
    obtain ⟨_, missed⟩ := Device.swept_eq (d := e) (q := q) (by rw [owner]; exact inPlay) n.late
    have judge' := congrArg Device.judge missed
    obtain ⟨left, -, -⟩ := Device.removeNote_target judge' queue nofun counted
    simp [Device.sweepDue, Lane.target, left]
  have length : (e.lane q).queue.length = 1 := by rw [queue]; rfl
  unfold Device.examineAppended
  rw [if_pos judged, kind]
  dsimp only
  rw [length, Device.sweepAll, if_pos (by rw [due]; rfl)]
  dsimp only
  rw [swept, gone]
  rfl

/-- What such a TAP leaves (04 R67, 08 R118, R126, R127): the lane as it was, the note counted, and its MISS. -/
theorem Device.lateSwept_spec (playing : d.playerState p = .playing) (lane : queueOf d.session.style p k = some q)
    (tap : n.kind = .tap) (empty : (d.lane q).queue = []) :
    (d.lateSwept p k q n).lane q = d.lane q ∧ (∀ x, x ≠ q → (d.lateSwept p k q n).lane x = d.lane x)
      ∧ (d.lateSwept p k q n).decoder p = (d.decoder p).appended k n.late
      ∧ (d.lateSwept p k q n).ring = d.ring.append
          { seq := 0, type := .tap .miss, player := p, lane := logicalLane d.session.style q, early := false,
            lateDecode := true, forcedEnd := false, timed := false, offset := 0, row := n.row }
      ∧ (d.lateSwept p k q n).record p
        = (({ d.record p with decodedUnits := ((d.decoder p).appended k n.late).decodedUnits }).recount).apply d.score
            d.session.failPolicy .miss := by
  obtain ⟨session, ring, -, -⟩ := Device.notePlaced_frame (d := d) (p := p) (k := k) (q := q) (n := n.late)
  obtain ⟨r, placed, -⟩ := d.notePlaced_eq p k q n.late
  have kind : n.late.kind = .tap := tap
  have counted : n.late.kind ≠ .avoid := by rw [kind]; decide
  have record := Device.notePlaced_record (d := d) (p := p) (k := k) (q := q) counted
  have decoder := Device.notePlaced_decoder (d := d) (p := p) (k := k) (q := q) (n := n.late)
  have lanes := Device.notePlaced_lane (d := d) (p := p) (k := k) (q := q) (n := n.late)
  have owner : (d.notePlaced p k q n.late).owner q = p := by
    rw [Device.owner, session]
    exact (queueOf_some lane).1.symm
  have inPlay : (d.notePlaced p k q n.late).playerState p = .playing := by
    rw [Device.playerState, session]
    exact playing
  have score (o : Outcome) (x : ScoreRecord) : x.apply (d.notePlaced p k q n.late).score d.session.failPolicy o
      = x.apply d.score d.session.failPolicy o := by rw [placed]; rfl
  have miss := (d.notePlaced p k q n.late).sweepRecord_eq q counted
  obtain ⟨_, missed⟩ := Device.swept_eq (by rw [owner]; exact inPlay) n.late
  have judge := congrArg Device.judge missed
  obtain ⟨left, others, -⟩ := Device.removeNote_target (pre := []) (post := []) judge
    (by rw [lanes, if_pos rfl, empty]) nofun counted
  refine ⟨left.trans ?_, fun x other => (others x other).trans ?_, ?_, ?_, ?_⟩
  · have same : ({ d.lane q with queue := [] } : Lane) = d.lane q := by rw [← empty]
    rw [lanes, if_pos rfl]
    exact same
  · rw [lanes, if_neg other]
  · rw [Device.lateSwept, missed]
    exact decoder
  · rw [Device.lateSwept, missed]
    dsimp only
    rw [ring, miss, owner, if_pos kind, session, kind]
    rfl
  · rw [Device.lateSwept, missed, owner, record, session, score]
    exact (PerPlayer.get_set ..).trans (if_pos rfl)

end

end Sys2Proof.Machine

section
open Sys2Proof.Machine Sys2Proof.Safety

/-- Settles O35: in PRELOAD lane by lane, and in RUN the one TAP with what the judge makes of it at once. -/
theorem notesPlaceNotes : Obligations.NotesPlaceNotes := by
  unfold Obligations.NotesPlaceNotes
  constructor
  · rintro s p tag hi lo rest mask lanes kind c onMask named kinds rfl buffer isKind rfl rfl decoding alone preload joined
      onMask_eq named_eq noHold room kinds_eq
    refine ⟨_, rfl, ?_⟩
    rw [State.onDevice_device]
    generalize s.device = d at *
    have front : frontEntry (d.decoder p).buffer = some (.notes kind.sub (hi.toNat * 256 + lo.toNat)) := by
      rw [buffer]
      cases kind with
      | tap | holdStart | avoid => exact frontEntry_notes hi lo rest (by rw [isKind]; rfl) (by rw [isKind]; rfl)
    obtain ⟨e, task, put, taken⟩ := Device.takeKind_notes_preload decoding alone front preload joined room fun k hk =>
      noHold k (by rw [onMask_eq]; exact mem_maskLanes.1 hk)
    rw [show d.takeKind p .notes = _ from taken]
    have among (k : Fin 12) : k ∈ maskLanes (laneCount d.session.style p) (hi.toNat * 256 + lo.toNat)
        ↔ onMask k = true := by
      rw [onMask_eq]
      exact mem_maskLanes
    have puts (k : Fin 12) : (d.decoder p).puts
        (maskLanes (laneCount d.session.style p) (hi.toNat * 256 + lo.toNat)) k = named k := by
      rw [named_eq, Bool.eq_iff_iff]
      simp only [Decoder.puts, among, Decoder.fresh, Bool.decide_eq_true]
    have count : (maskLanes (laneCount d.session.style p) (hi.toNat * 256 + lo.toNat)).countP
        (d.decoder p).fresh = (List.finRange 12).countP named := by
      rw [Decoder.countP_maskLanes, funext puts]
    have duplicates : (maskLanes (laneCount d.session.style p) (hi.toNat * 256 + lo.toNat)).countP
          (fun k => !(d.decoder p).fresh k) ≠ 0
        ↔ ∃ k, onMask k = true ∧ (d.decoder p).lastRow[k] = some (d.decoder p).cursor := by
      rw [← Nat.pos_iff_ne_zero, List.countP_pos_iff]
      refine exists_congr fun k => and_congr (among k) ?_
      rw [Bool.not_eq_true', Decoder.fresh, decide_eq_false_iff_not, not_not]
    have only := (put.finished alone buffer).congr (kinds' := kinds) fun x => by
      rw [kinds_eq]
      exact notesFaults_mem duplicates
    rw [count] at only
    have decoder := only.decoder
    refine ⟨?_, only.2, fun k q lane => ?_, put.others, fun k => ⟨?_, ?_⟩, ?_⟩
    · refine only.1.trans ?_
      have judge : e.judge = { d.judge with lanes := (e.onDecoder p Decoder.notesFinished).judge.lanes } := put.judge
      have score : e.score = { d.score with
          records := d.score.records.set p ((e.onDecoder p Decoder.notesFinished).record p) } := put.score
      rw [decoder, ← judge, ← score]
    · rw [← puts]
      exact put.queues k q lane
    · rw [decoder, ← puts]
      exact put.rows k
    · rw [decoder, ← puts]
      exact put.marks k
    · rintro n rfl
      refine ⟨?_, fun counts some_ => ?_⟩
      · rw [decoder]
        rfl
      · rw [Device.onDecoder_record, put.units counts (by rw [← count] at some_; exact some_),
          Device.decoder_onDecoder, if_pos rfl]
        rfl
  · rintro s p hi lo rest k q c n units rfl buffer mask decoding alone run playing lane noHold new room rfl rfl
    refine ⟨_, rfl, ?_⟩
    rw [State.onDevice_device]
    generalize s.device = d at *
    rw [Device.takeKind_tap decoding alone buffer mask lane]
    set e := d.onDecoder p fun c => c.takeInHand 3 (.notes [.place .tap k]) with he
    have decoder : e.decoder p = (d.decoder p).takeInHand 3 (.notes [.place .tap k]) := by simp [he]
    have awake : (e.decoder p).state ≠ .discard := by rw [decoder]; exact decoding ▸ DecoderState.noConfusion
    have appends : e.appendsFor p = true := by
      simp [Device.appendsFor, show e.playerState p = .playing from playing]
    have accepted : e.workStep p (.place .tap k) = .done (e.acceptNote p k q ((e.decoder p).noteAt .tap)) :=
      (Device.placeNote_free .tap (by rw [decoder]; exact noHold) (by rw [decoder]; exact new)).trans
        (Device.appendStep_accepted lane appends room)
    refine ⟨fun waits within => ?_, fun empty late alive => ?_⟩
    · obtain ⟨queue, others, after, units, ring, ports⟩ :=
        Device.runWork_within awake accepted rfl rfl waits (by rw [decoder]; exact within)
      rw [decoder] at queue after units
      refine ⟨queue, others, ?_, units, ring, ports⟩
      rw [after]
      simp [Decoder.notesFinished, Decoder.finished, Decoder.appended, Decoder.takeInHand, Decoder.noteAt, buffer,
        alone]
    · have late' : (((e.decoder p).noteAt .tap).due : Int) + e.judge.windows.poor.late < e.laneTime q := by
        rw [decoder]
        exact late
      have swept := Device.acceptNote_late (d := e) run playing lane
        (by rw [decoder]; exact decoding ▸ DecoderState.noConfusion) rfl empty late' alive
      obtain ⟨queue, others, after, ring, record⟩ := Device.lateSwept_spec (d := e) (k := k) playing lane
        (n := (e.decoder p).noteAt .tap) rfl empty
      rw [swept] at accepted
      rw [runWork_last awake accepted (by rw [after]; exact awake)]
      refine ⟨queue, others, ?_, ring.trans ?_, ?_⟩
      · rw [Device.decoder_onDecoder, if_pos rfl, after, decoder]
        simp [Decoder.notesFinished, Decoder.finished, Decoder.appended, Decoder.takeInHand, Decoder.noteAt, Note.late,
          buffer, alone]
      · rw [decoder]
        rfl
      · rintro r rfl
        rw [Device.onDecoder_record, record, decoder]
        rfl

end
end

