-- ==== Sys2Proof/Proofs/HoldEnds.lean ====
section
/-!
A HOLD_END on one lane, and a TAP that meets an open hold (O36): where the tail of the hold goes.
-/
namespace Sys2Proof.Machine
open Sys2Proof.Safety

section
variable {d : Device} {p : Player} {k : Fin 12} {q : LaneQueue} {row due : Nat} {forced : Bool} {h : ActiveHold}

/-! ## Where a tail goes -/

theorem holdsHead_iff {queue : List Note} :
    holdsHead row queue = true ↔ ∃ n ∈ queue, n.kind = .holdStart ∧ n.row = row := by
  simp [holdsHead]

/-- The head of the hold is still queued (08 R124). -/
theorem Device.takeTail_queued (head : ∃ n ∈ (d.lane q).queue, n.kind = .holdStart ∧ n.row = row) :
    d.takeTail q row due forced = d.onLane q fun l => { l with queue := tailQueue row due forced l.queue } :=
  if_pos (holdsHead_iff.2 head)

theorem holdsHead_absent {queue : List Note} (absent : ∀ n ∈ queue, n.kind = .holdStart → n.row ≠ row) :
    ¬holdsHead row queue = true := fun head => by
  obtain ⟨n, hn, kind, same⟩ := holdsHead_iff.1 head
  exact absent n hn kind same

/-- The hold has finished: the tail is consumed (08 R124). -/
theorem Device.takeTail_finished (absent : ∀ n ∈ (d.lane q).queue, n.kind = .holdStart → n.row ≠ row)
    (ended : ∀ h, (d.lane q).hold.active = some h → h.row ≠ row) : d.takeTail q row due forced = d := by
  rw [Device.takeTail, if_neg (holdsHead_absent absent)]
  cases hold : (d.lane q).hold with
  | idle => rfl
  | holding h => exact if_neg (ended h (by rw [hold]; rfl))
  | grace h expiry => exact if_neg (ended h (by rw [hold]; rfl))

theorem Device.setHold_hold (d : Device) (q : LaneQueue) (hold : HoldState) :
    ((d.setHold q hold).lane q).hold = hold := by
  simp

/-- The hold is active and held: the tail attaches to it, and lane time may have reached it (08 R122, R124). -/
theorem Device.takeTail_holding (absent : ∀ n ∈ (d.lane q).queue, n.kind = .holdStart → n.row ≠ row)
    (holding : (d.lane q).hold = .holding h) (same : h.row = row) :
    d.takeTail q row due forced = (d.setHold q (.holding (h.attach due forced))).tailLane q := by
  have hold := d.setHold_hold q (.holding (h.attach due forced))
  have noGrace : (d.setHold q (.holding (h.attach due forced))).graceDue q = none := by
    unfold Device.graceDue
    rw [hold, ite_self]
  rw [Device.takeTail, if_neg (holdsHead_absent absent), holding]
  dsimp only
  rw [if_pos same, Device.settleTail, noGrace]
  rfl

/-- A tail that lane time has not reached ends nothing (08 R122). -/
theorem Device.tailLane_ahead {u : Nat} (holding : (d.lane q).hold = .holding h) (tail : h.tail = some u)
    (ahead : d.laneTime q < u) : d.tailLane q = d := by
  have due : d.tailDue q = none := by
    have early : ¬(u : Int) ≤ d.laneTime q := Int.not_le.2 ahead
    simp [Device.tailDue, holding, HoldState.active, ActiveHold.tailBy, tail, early]
  rw [Device.tailLane, due]

/-- The record of a hold that has ended (08 R126). -/
def Device.holdRecord (d : Device) (q : LaneQueue) (h : ActiveHold) (held : Bool) : Record :=
  d.laneRecord q (.holdBody held) h.row false h.forcedEnd none

/-- A tail that lane time has reached ends the hold HELD (08 R122), and with life left and the chart going on nothing
more comes of it. -/
theorem Device.tailLane_reached {u : Nat} (judged : d.judging q = true) (holding : (d.lane q).hold = .holding h)
    (tail : h.tail = some u) (reached : (u : Int) ≤ d.laneTime q) (chart : (d.decoder (d.owner q)).state ≠ .ended)
    (alive : (d.record (d.owner q)).reachesZero d.score .held = false) :
    d.tailLane q = (d.setHold q .idle).handed q (d.holdRecord q h true) .held := by
  have due : d.tailDue q = some h := by
    simp [Device.tailDue, judged, holding, HoldState.active, ActiveHold.tailBy, tail, reached]
  have held : ({ device := d.setHold q .idle, owed := false, handed := false } : Flow).outcome q
      (some (d.holdRecord q h true)) .held
      = { device := (d.setHold q .idle).handed q (d.holdRecord q h true) .held, owed := false, handed := true } :=
    Flow.outcome_alive rfl (by simp [Device.outcomeReports, alive]) _
  have undone : ((d.setHold q .idle).handed q (d.holdRecord q h true) .held).doneHolds (d.owner q) = false :=
    Device.doneHolds_of_chart (by rw [Device.handed_decoder]; exact chart)
  have ended : (Flow.start d).endHold q h true
      = { device := (d.setHold q .idle).handed q (d.holdRecord q h true) .held, owed := false, handed := true } := by
    refine Eq.trans ?_ (Flow.handOff_undone (p := d.owner q) rfl undone)
    rw [← held]
    rfl
  rw [Device.tailLane, due]
  dsimp only
  rw [ended]
  exact Flow.finish_unowed rfl

/-! ## HOLD_END entries -/

/-- A HOLD_END entry of one lane (04 R59). -/
theorem Device.takeKind_holdEnd {hi lo : Byte} {rest : List Byte} (decoding : (d.decoder p).state = .decoding)
    (alone : (d.decoder p).pendingRepeat = none) (buffer : (d.decoder p).buffer = 0x32 :: hi :: lo :: rest)
    (one : hi.toNat * 256 + lo.toNat = 2 ^ k.val) (lane : queueOf d.session.style p k = some q) :
    d.takeKind p .notes = runWork p [.place .holdEnd k]
      (d.onDecoder p fun c => c.takeInHand 3 (.notes [.place .holdEnd k])) := by
  have front : frontEntry (d.decoder p).buffer = some (.notes .holdEnd (hi.toNat * 256 + lo.toNat)) := by
    rw [buffer]
    rfl
  exact Device.takeKind_notes_lane decoding alone front one lane

/-- The entry in hand and the mark of its lane cleared (04 R51, R59). -/
def Device.markCleared (d : Device) (p : Player) (k : Fin 12) (task : Task) : Device :=
  (d.onDecoder p fun c => c.takeInHand 3 task).clearMark p k

/-- The device behind an entry that has cleared the mark of its lane, but for what the judge makes of it. -/
def Device.unmarked (d : Device) (p : Player) (k : Fin 12) (rest : List Byte) : Device :=
  { d with decoders := d.decoders.set p { d.decoder p with
      buffer := rest, inHand := none, openHold := (d.decoder p).openHold.set k.val none k.isLt } }

variable {task : Task} {tag hi lo : Byte} {rest : List Byte}

theorem Device.markCleared_decoder : (d.markCleared p k task).decoder p
    = { (d.decoder p).takeInHand 3 task with openHold := (d.decoder p).openHold.set k.val none k.isLt } := by
  simp [Device.markCleared, Device.clearMark, Decoder.takeInHand]

theorem Device.markCleared_finished (alone : (d.decoder p).pendingRepeat = none)
    (buffer : (d.decoder p).buffer = tag :: hi :: lo :: rest) :
    (d.markCleared p k task).onDecoder p Decoder.notesFinished = d.unmarked p k rest := by
  simp only [Device.markCleared, Device.clearMark, Device.onDecoder_onDecoder]
  simp [Device.onDecoder, Device.unmarked, Decoder.notesFinished, Decoder.finished, Decoder.takeInHand, buffer, alone]

theorem Device.onLane_finished (alone : (d.decoder p).pendingRepeat = none)
    (buffer : (d.decoder p).buffer = tag :: hi :: lo :: rest) (f : Lane → Lane) :
    ((d.markCleared p k task).onLane q f).onDecoder p Decoder.notesFinished = (d.unmarked p k rest).onLane q f := by
  rw [← Device.markCleared_finished alone buffer]
  rfl

/-- A hold that its tail ends HELD (08 R122, R126, R127): the mark has been cleared before, the bytes go after it. -/
theorem Device.handed_finished (alone : (d.decoder p).pendingRepeat = none)
    (buffer : (d.decoder p).buffer = tag :: hi :: lo :: rest) (playing : d.playerState (d.owner q) = .playing)
    (h h' : ActiveHold) (hold : HoldState) (row : h'.row = h.row) (same : h'.forcedEnd = h.forcedEnd) :
    HoldEnded (d.unmarked p k rest)
      (((((d.markCleared p k task).setHold q hold).setHold q .idle).handed q
        (((d.markCleared p k task).setHold q hold).holdRecord q h' true) .held).onDecoder p Decoder.notesFinished)
      q h true := by
  have finished := Device.markCleared_finished (k := k) (task := task) alone buffer
  set m := d.markCleared p k task
  set x := (m.setHold q hold).holdRecord q h' true with hx
  have record : x = { seq := 0, type := .holdBody true, player := d.owner q, lane := logicalLane d.session.style q,
                      early := false, lateDecode := false, forcedEnd := h.forcedEnd, timed := false, offset := 0,
                      row := h.row } := by
    rw [← same, ← row]
    rfl
  have handed := Device.handed_eq (d := (m.setHold q hold).setHold q .idle) (q := q) playing x .held
  have raised := onlyRaised_handed ((m.setHold q hold).setHold q .idle) q x .held
  have lanes (y : LaneQueue) : ((((m.setHold q hold).setHold q .idle).handed q x .held).onDecoder p
      Decoder.notesFinished).lane y = ((m.setHold q hold).setHold q .idle).lane y := by
    rw [Device.onDecoder_lane, handed]
    rfl
  rw [← finished]
  refine ⟨⟨?_, fun y other => ?_, ?_, ?_, raised⟩, ?_, ?_⟩
  · rw [handed]
    rfl
  · rw [lanes, Device.lane_setHold, if_neg other, Device.lane_setHold, if_neg other]
    rfl
  · rw [handed]
    rfl
  · rw [handed]
    rfl
  · rw [lanes, Device.lane_setHold, if_pos rfl, Device.lane_setHold, if_pos rfl]
    rfl
  · rw [handed, record]
    rfl

/-- On a lane with no open hold a HOLD_END is a STRAY_END (04 R59). -/
theorem Device.holdEnd_stray (decoding : (d.decoder p).state = .decoding)
    (alone : (d.decoder p).pendingRepeat = none) (buffer : (d.decoder p).buffer = tag :: hi :: lo :: rest)
    (free : (d.decoder p).openHold[k] = none) :
    DecoderOnly d (runWork p [.place .holdEnd k] (d.onDecoder p fun c => c.takeInHand 3 task)) p
      { d.decoder p with buffer := rest, inHand := none } [.strayEnd] := by
  have begun := (DecoderOnly.refl d p).onDecoder (c' := (d.decoder p).takeInHand 3 task)
    (fun c => c.takeInHand 3 task) rfl
  have faulted := begun.addFaultIf rfl .strayEnd true
  set e := d.onDecoder p fun c => c.takeInHand 3 task
  have stray : e.workStep p (.place .holdEnd k) = .done (e.addFaultIf p .strayEnd true) := by
    have mark : (e.decoder p).openHold[k] = none := by rw [begun.decoder]; exact free
    simp only [Device.workStep, Device.placeHoldEnd, mark]
    rfl
  rw [runWork_last (by rw [begun.decoder]; exact decoding ▸ DecoderState.noConfusion) stray
    (by rw [faulted.decoder]; exact decoding ▸ DecoderState.noConfusion)]
  refine faulted.onDecoder _ ?_
  simp [Decoder.notesFinished, Decoder.finished, Decoder.takeInHand, buffer, alone]

/-- On a lane with an open hold a HOLD_END clears the mark and hands the tail on (04 R59). -/
theorem Device.holdEnd_tail {x : Device} (decoding : (d.decoder p).state = .decoding)
    (lane : queueOf d.session.style p k = some q) (held : (d.decoder p).openHold[k] = some row)
    (taken : (d.markCleared p k task).takeTail q row (d.decoder p).rowTime false = x)
    (kept : x.decoder p = (d.markCleared p k task).decoder p) :
    runWork p [.place .holdEnd k] (d.onDecoder p fun c => c.takeInHand 3 task)
      = x.onDecoder p Decoder.notesFinished := by
  have decoder : (d.onDecoder p fun c => c.takeInHand 3 task).decoder p = (d.decoder p).takeInHand 3 task := by simp
  have awake : (d.decoder p).state ≠ .discard := decoding ▸ DecoderState.noConfusion
  refine runWork_last (by rw [decoder]; exact awake) ?_ (by rw [kept, Device.markCleared_decoder]; exact awake)
  have mark : ((d.onDecoder p fun c => c.takeInHand 3 task).decoder p).openHold[k] = some row := by
    rw [decoder]
    exact held
  simp only [Device.workStep, Device.placeHoldEnd, mark]
  have style : ((d.onDecoder p fun c => c.takeInHand 3 task).clearMark p k).session = d.session := rfl
  rw [Device.handTail, style, lane, decoder]
  exact congrArg WorkResult.done taken

/-! ## A TAP that meets an open hold -/

/-- The device when the open hold that a TAP meets has its forced tail (04 R58). -/
def Device.overlapEnded (d : Device) (p : Player) (k : Fin 12) (q : LaneQueue) (row : Nat) : Device :=
  ((d.addFault p .holdOverlap).clearMark p k).onLane q fun l =>
    { l with queue := tailQueue row (d.decoder p).rowTime true l.queue }

theorem Device.addFault_lane (kind : FaultKind) (x : LaneQueue) : (d.addFault p kind).lane x = d.lane x := by
  rw [Device.lane, (d.addFault_frame p kind).1]
  rfl

theorem Device.overlapEnded_lane (x : LaneQueue) : (d.overlapEnded p k q row).lane x = if x = q then
    { d.lane q with queue := tailQueue row (d.decoder p).rowTime true (d.lane q).queue } else d.lane x := by
  have lane (y : LaneQueue) : ((d.addFault p .holdOverlap).clearMark p k).lane y = d.lane y := d.addFault_lane _ y
  rw [Device.overlapEnded, Device.lane_onLane, lane]
  split
  · rename_i same
    rw [same]
  · rfl

theorem Device.overlapEnded_session : (d.overlapEnded p k q row).session = d.session := by
  obtain ⟨-, -, session, -⟩ := d.addFault_frame p .holdOverlap
  exact session

theorem Device.overlapEnded_judge : (d.overlapEnded p k q row).judge
    = { d.judge with lanes := (d.overlapEnded p k q row).judge.lanes } :=
  congrArg (fun j : Judge => { j with lanes := (d.overlapEnded p k q row).judge.lanes })
    (d.addFault_frame p .holdOverlap).1

/-- The forced end of the hold, and the TAP behind it (04 R58). -/
theorem Device.placeNote_overlap (lane : queueOf d.session.style p k = some q) (preload : d.session.state = .preload)
    (joined : d.playerState p = .joined) (held : (d.decoder p).openHold[k] = some row)
    (new : (d.decoder p).lastRow[k] ≠ some (d.decoder p).cursor) (room : (d.lane q).queue.length < 24)
    (head : ∃ n ∈ (d.lane q).queue, n.kind = .holdStart ∧ n.row = row) :
    d.placeNote p .tap k = .done ((d.overlapEnded p k q row).notePlaced p k q ((d.decoder p).noteAt .tap)) := by
  have session : ((d.addFault p .holdOverlap).clearMark p k).session = d.session :=
    Device.overlapEnded_session (k := k) (q := q) (row := row)
  have lane' : ((d.addFault p .holdOverlap).clearMark p k).lane q = d.lane q := d.addFault_lane _ q
  have ended : d.endOverlap p k (d.decoder p).rowTime = d.overlapEnded p k q row := by
    simp only [Device.endOverlap, held]
    rw [Device.handTail, session, lane]
    exact Device.takeTail_queued (by rw [lane']; exact head)
  have appends : (d.overlapEnded p k q row).appendsFor p = true := by
    rw [Device.appendsFor, Device.playerState, Device.overlapEnded_session]
    simp [show d.session.players.get p = .joined from joined]
  have space : ((d.overlapEnded p k q row).lane q).queue.length < 24 := by
    rw [Device.overlapEnded_lane, if_pos rfl]
    simpa [tailQueue] using room
  rw [Device.placeNote]
  dsimp only
  rw [if_neg new, if_neg (by decide), ended,
    Device.appendStep_accepted (by rw [Device.overlapEnded_session]; exact lane) appends space,
    Device.acceptNote_still rfl (by rw [Device.overlapEnded_session, preload]; decide)]

/-- What such a TAP makes of its decoder (04 R58, R67). -/
theorem Device.overlapPlaced_only (n : Note) (tap : n.kind = .tap) :
    DecoderOnly { d with
        judge := ((d.overlapEnded p k q row).notePlaced p k q n).judge
        score := ((d.overlapEnded p k q row).notePlaced p k q n).score }
      ((d.overlapEnded p k q row).notePlaced p k q n) p
      { d.decoder p with
        openHold := (d.decoder p).openHold.set k.val none k.isLt
        lastRow := (d.decoder p).lastRow.set k.val (some n.row) k.isLt
        taps := (d.decoder p).taps + 1 } [.holdOverlap] := by
  obtain ⟨r, placed, -⟩ := (d.overlapEnded p k q row).notePlaced_eq p k q n
  have cleared := (DecoderOnly.addFault d p .holdOverlap).onDecoder
    (c' := { d.decoder p with openHold := (d.decoder p).openHold.set k.val none k.isLt })
    (fun c => { c with openHold := c.openHold.set k.val none k.isLt }) rfl
  have counted := cleared.onDecoder (c' := { d.decoder p with
      openHold := (d.decoder p).openHold.set k.val none k.isLt
      lastRow := (d.decoder p).lastRow.set k.val (some n.row) k.isLt
      taps := (d.decoder p).taps + 1 }) (fun c => c.appended k n) (by simp [Decoder.appended, tap])
  have aside := DecoderOnly.aside (j := d.judge) (k := d.score)
    (j' := ((d.overlapEnded p k q row).notePlaced p k q n).judge)
    (k' := ((d.overlapEnded p k q row).notePlaced p k q n).score) counted
  have same : (d.overlapEnded p k q row).notePlaced p k q n
      = { ((d.addFault p .holdOverlap).clearMark p k).onDecoder p fun c => c.appended k n with
          judge := ((d.overlapEnded p k q row).notePlaced p k q n).judge
          score := ((d.overlapEnded p k q row).notePlaced p k q n).score } := by
    rw [placed]
    rfl
  rw [same]
  exact aside

end

end Sys2Proof.Machine

section
open Sys2Proof.Machine Sys2Proof.Safety

/-- Settles O36: the tail of an open hold goes to its queued head, to the hold that is held, or nowhere. -/
theorem holdEndGivesTail : Obligations.HoldEndGivesTail := by
  unfold Obligations.HoldEndGivesTail
  constructor
  · rintro s p hi lo rest k q c rfl buffer one decoding alone lane
    refine ⟨_, rfl, ?_⟩
    rw [State.onDevice_device, Device.takeKind_holdEnd decoding alone buffer one lane]
    generalize s.device = d at *
    refine ⟨fun free => Device.holdEnd_stray decoding alone buffer free, ?_⟩
    rintro row dd held rfl
    refine ⟨fun head => ?_, fun absent ended => ?_,
      fun h holding same absent run playing => ⟨fun ahead => ?_, fun reached alive => ?_⟩⟩
    · rw [Device.holdEnd_tail decoding lane held (Device.takeTail_queued head) rfl, Device.onLane_finished alone buffer]
      refine ⟨rfl, rfl, fun x other => ?_, ?_⟩
      · rw [Device.lane_onLane, if_neg other]
        rfl
      · rw [Device.lane_onLane, if_pos rfl, tailQueue]
        simp only [Bool.or_false]
        rfl
    · rw [Device.holdEnd_tail decoding lane held (Device.takeTail_finished absent ended) rfl]
      exact Device.markCleared_finished alone buffer
    · have tail := (Device.takeTail_holding (d := d.markCleared p k (.notes [.place .holdEnd k]))
        (due := (d.decoder p).rowTime) (forced := false) absent holding same).trans
        (Device.tailLane_ahead (Device.setHold_hold ..) rfl ahead)
      rw [Device.holdEnd_tail decoding lane held tail rfl, Device.setHold, Device.onLane_finished alone buffer,
        ActiveHold.attach, Bool.or_false]
      rfl
    · have owner : d.owner q = p := (queueOf_some lane).1.symm
      set e := (d.markCleared p k (.notes [.place .holdEnd k])).setHold q
        (.holding (h.attach (d.decoder p).rowTime false))
      have owner' : e.owner q = p := owner
      have judged : e.judging q = true := by
        rw [Device.judging, owner', show e.playerState p = .playing from playing, show e.session.state = .run from run]
        rfl
      have chart : (e.decoder (e.owner q)).state ≠ .ended := by
        rw [owner', show e.decoder p = _ from Device.markCleared_decoder]
        exact decoding ▸ DecoderState.noConfusion
      have alive' : (e.record (e.owner q)).reachesZero e.score .held = false := by
        rw [owner']
        exact alive
      have tail := (Device.takeTail_holding (d := d.markCleared p k (.notes [.place .holdEnd k]))
        (due := (d.decoder p).rowTime) (forced := false) absent holding same).trans
        (Device.tailLane_reached judged (Device.setHold_hold ..) rfl reached chart alive')
      rw [Device.holdEnd_tail decoding lane held tail (Device.handed_decoder p)]
      exact Device.handed_finished alone buffer (by rw [owner]; exact playing) h _ _ rfl (Bool.or_false _)
  · rintro s p hi lo rest k q c row rfl buffer one decoding alone preload joined lane held new room head
    refine ⟨_, rfl, ?_⟩
    rw [State.onDevice_device]
    generalize s.device = d at *
    rw [Device.takeKind_tap decoding alone buffer one lane]
    set e := d.onDecoder p fun c => c.takeInHand 3 (.notes [.place .tap k]) with he
    have decoder : e.decoder p = (d.decoder p).takeInHand 3 (.notes [.place .tap k]) := by simp [he]
    have awake : (d.decoder p).state ≠ .discard := decoding ▸ DecoderState.noConfusion
    have placed : e.workStep p (.place .tap k) = _ := Device.placeNote_overlap (d := e) lane preload joined
      (by rw [decoder]; exact held) (by rw [decoder]; exact new) room head
    have only := Device.overlapPlaced_only (d := e) (p := p) (k := k) (q := q) (row := row)
      ((e.decoder p).noteAt .tap) rfl
    set x := (e.overlapEnded p k q row).notePlaced p k q ((e.decoder p).noteAt .tap) with hx
    rw [runWork_last (by rw [decoder]; exact awake) placed (by rw [only.decoder, decoder]; exact awake)]
    have whole := DecoderOnly.of_onDecoder (d := { d with judge := x.judge, score := x.score })
      (f := fun c => c.takeInHand 3 (.notes [.place .tap k])) only rfl
    refine ⟨?_, ?_, fun y other => ?_, ?_, ?_⟩
    · rw [decoder] at whole
      refine whole.onDecoder _ ?_
      simp [Decoder.notesFinished, Decoder.finished, Decoder.takeInHand, Decoder.noteAt, buffer, alone]
    · obtain ⟨-, -, -, -, judge⟩ := Device.notePlaced_frame (d := e.overlapEnded p k q row) (p := p) (k := k) (q := q)
        (n := (e.decoder p).noteAt .tap)
      rw [Device.overlapEnded_judge] at judge
      exact judge
    · rw [Device.onDecoder_lane, hx, Device.notePlaced_lane, if_neg other, Device.overlapEnded_lane, if_neg other]
      rfl
    · rw [Device.onDecoder_lane, hx, Device.notePlaced_lane, if_pos rfl, Device.overlapEnded_lane, if_pos rfl, decoder]
      simp only [tailQueue, Bool.or_true]
      rfl
    · have units : (x.record p).decodedUnits = (x.decoder p).decodedUnits := by
        rw [hx, Device.notePlaced_record (show NoteKind.tap ≠ .avoid by decide), Device.notePlaced_decoder]
        rfl
      rw [Device.onDecoder_record, units, only.decoder, decoder]
      rfl

end
end

