-- ==== Sys2Proof/Proofs/PanelEvents.lean ====
section
/-!
What the events of a panel make of it (06 R93 to R96): a panel's event, handed to a lane or not, moves that panel alone,
and the boards not at all.
-/
namespace Sys2Proof.Machine
open Sys2Proof.Safety

/-! ## Panels and their boards -/

@[simp] theorem stageOfPanel_panelOf (l : Stage) (a : Fin 6) : stageOfPanel (panelOf l a) = l := by
  cases l <;> simp [panelOf, stageOfPanel]

@[simp] theorem addressOfPanel_panelOf (l : Stage) (a : Fin 6) : addressOfPanel (panelOf l a) = a := by
  have := a.isLt
  cases l <;> simp only [panelOf, addressOfPanel, Fin.ext_iff] <;> omega

@[simp] theorem panelOf_stageOfPanel : ∀ p : Panel, panelOf (stageOfPanel p) (addressOfPanel p) = p := by decide

theorem boardOf_panelOf (d : Device) (l : Stage) (a : Fin 6) : boardOf d (panelOf l a) = (d.link l).boards[a] := by
  simp [boardOf]

theorem BoardState.answering_iff (x : BoardState) : x.answering = true ↔ x = .online ∨ x = .degraded := by
  cases x <;> simp [BoardState.answering]

/-- A board whose enable is written is DISABLED exactly where it is cleared (05 R83). -/
theorem Board.enabledTo_disabled {b : Board} {was now : Bool} (h : b.state = .disabled ↔ was = false) :
    (b.enabledTo was now).state = .disabled ↔ now = false := by
  unfold Board.enabledTo
  split
  · rename_i same
    rw [h, same]
  · split
    · rename_i set
      simp [set]
    · rename_i cleared
      simpa using cleared

/-- A miss takes a board that answers to OFFLINE, or it answers still (05 R80). -/
theorem Board.missed_answering {b : Board} (h : b.state.answering = true) (limit : Nat) :
    (b.missed limit).state = .offline ∨ (b.missed limit).state.answering = true := by
  rcases (BoardState.answering_iff _).1 h with online | degraded
  · simp only [Board.missed, BoardState.afterMiss, online]
    split <;> simp [BoardState.answering]
  · simp only [Board.missed, BoardState.afterMiss, degraded]
    split <;> simp [BoardState.answering]

theorem Link.not_discards {x : Link} {a : Fin 6} {void : Bool} (h : ¬x.discards a void = true) :
    void = false ∧ x.boards[a].state ≠ .disabled := by
  simpa [Link.discards] using h

/-! ## Press and release events -/

/-- A panel after the event that its change from a press state makes: a press is counted and starts the stuck timer, a
release stops it (06 R94, R96). -/
def PanelPress.changed (x : PanelPress) (before : Bool) (free : BitVec 32) : PanelPress :=
  { x with
    counter := if before = false ∧ x.pressed = true then x.counter + 1 else x.counter
    stuckSince := if before = x.pressed then x.stuckSince else if x.pressed then some free else none }

/-- Where the press state stays there is no event (06 R93). -/
theorem PanelPress.changed_same (x : PanelPress) (free : BitVec 32) : x.changed x.pressed free = x := by
  cases x with
  | mk _ _ _ _ pressed _ _ => cases pressed <;> rfl

theorem PanelPress.changed_pressed (x : PanelPress) (before : Bool) (free : BitVec 32) :
    (x.changed before free).pressed = x.pressed := rfl

theorem PanelPress.changed_sensors (x : PanelPress) (before : Bool) (free : BitVec 32) :
    (x.changed before free).sensors = x.sensors := rfl

theorem Device.onPanel_self {d : Device} {p : Panel} {f : PanelPress → PanelPress} (h : f (d.panel p) = d.panel p) :
    d.onPanel p f = d := by
  rw [Device.onPanel_congr (g := id) h]
  simp [Device.onPanel, vecModify]

section
variable (d : Device) (p : Panel)

/-- A panel's event moves that panel alone (06 R94, R96; 07 R105). -/
theorem Device.pressChange_press (before : Bool) :
    (d.pressChange p before).press = (d.onPanel p fun x => x.changed before d.clock.free).press := by
  have same (h : before = (d.panel p).pressed) :
      d.press = (d.onPanel p fun x => x.changed before d.clock.free).press := by
    rw [Device.onPanel_self (by rw [h, PanelPress.changed_same])]
  unfold Device.pressChange
  split <;> rename_i pressed
  · rw [(EntryFrame.routePress _ p).press, Device.countPress]
    exact congrArg Device.press (Device.onPanel_congr (by simp [PanelPress.changed, pressed]))
  · rw [(LaneFrame.routeRelease _ p).press, Device.stopStuck]
    exact congrArg Device.press (Device.onPanel_congr (by simp [PanelPress.changed, pressed]))
  · exact same pressed.symm
  · exact same pressed.symm

theorem Device.pressChange_panel (before : Bool) (x : Panel) :
    (d.pressChange p before).panel x
      = if x = p then (d.panel p).changed before d.clock.free else d.panel x := by
  rw [Device.panel, Device.pressChange_press]
  refine (Device.panel_onPanel d p x _).trans ?_
  split
  · rename_i h
    rw [h]
  · rfl

/-- A panel's event leaves the boards alone. -/
theorem Device.pressChange_links (before : Bool) : (d.pressChange p before).links = d.links := by
  unfold Device.pressChange
  split
  · exact (EntryFrame.routePress _ p).links
  · exact (LaneFrame.routeRelease _ p).links
  · rfl
  · rfl

/-! ## Good reports -/

theorem PanelPress.afterReport_stuckSince (x : PanelPress) (r : GoodReport) :
    (x.afterReport r).stuckSince = x.stuckSince := by
  unfold PanelPress.afterReport
  split
  · rfl
  · dsimp only
    split <;> rfl

theorem Device.takeGoodReport_links (r : GoodReport) : (d.takeGoodReport p r).links = d.links := by
  unfold Device.takeGoodReport
  rw [Device.pressChange_links]
  split <;> rfl

theorem Device.takeGoodReport_panel (r : GoodReport) (x : Panel) :
    (d.takeGoodReport p r).panel x
      = if x = p then ((d.panel p).afterReport r).changed (d.panel p).pressed d.clock.free else d.panel x := by
  have noticed (e : Device) (new : Bool) :
      (∀ y, (if new then e.raise .sensorFault else e).panel y = e.panel y)
        ∧ (if new then e.raise .sensorFault else e).clock = e.clock := by
    split <;> exact ⟨fun _ => rfl, rfl⟩
  unfold Device.takeGoodReport
  simp only [Device.pressChange_panel, noticed, Device.panel_onPanel, Device.onPanel_clock, if_true]
  split <;> rfl

/-! ## Boards lost -/

theorem Device.takeBoardLost_links : (d.takeBoardLost p).links = d.links := Device.pressChange_links ..

theorem Device.takeBoardLost_panel (x : Panel) :
    (d.takeBoardLost p).panel x = if x = p then (d.panel p).lost else d.panel x := by
  have released (y : PanelPress) (free : BitVec 32) : y.forcedUp.changed y.pressed free = y.lost := by
    cases h : y.pressed <;> simp [PanelPress.changed, PanelPress.lost, PanelPress.forcedUp, h]
  unfold Device.takeBoardLost
  rw [Device.pressChange_panel]
  by_cases here : x = p
  · simp [here, released]
  · simp [here]

/-! ## Stuck expiries -/

theorem Device.expireStuck_links : (d.expireStuck p).links = d.links := by
  unfold Device.expireStuck
  split
  · split
    · rfl
    · exact Device.pressChange_links ..
  · rfl

/-- A panel's stuck expiry under a hold restarts its timer; otherwise it is re-seeded, released, and the timer stopped
(06 R96). -/
theorem Device.expireStuck_panel (x : Panel) :
    (d.expireStuck p).panel x
      = if x = p ∧ d.stuckDue p = true then
          if d.feedsHold p then { d.panel p with stuckSince := some d.clock.free }
          else { (d.panel p).stuckReleased (d.boardLevels p) with stuckSince := none }
        else d.panel x := by
  unfold Device.expireStuck
  by_cases here : x = p
  · subst here
    split <;> rename_i due
    · split
      · simp [due]
      · rw [Device.stopStuck, Device.panel_onPanel, Device.raise_panel, Device.pressChange_panel]
        simp [due, PanelPress.changed, PanelPress.stuckReleased]
    · simp [due]
  · split
    · split
      · simp [here]
      · rw [Device.stopStuck, Device.panel_onPanel, Device.raise_panel, Device.pressChange_panel]
        simp [here]
    · simp [here]

end

end Sys2Proof.Machine
end

