-- ==== Sys2Proof/Proofs/PanelLaw.lean ====
section
/-!
Every step keeps the boards and the panels in agreement (O56). Between a board's loss and its panel's release (05 R81,
06 R95) the agreement fails for that panel alone, so the law is proved with a list of panels that are still to be
released.
-/
namespace Sys2Proof.Safety
open Sys2Proof.Machine

/-! ## Sensors and panels -/

/-- A baseline is unseeded or within 0 to 4,080 (06 R89). -/
def SensorLaw (x : Sensor) : Prop := ∀ b, x.baseline = some b → b ≤ 4080

/-- A panel's stuck timer runs exactly while it is pressed, and its baselines are in their range (06 R89, R96). -/
structure PressLaw (x : PanelPress) : Prop where
  stuck   : x.stuckSince.isSome = x.pressed
  sensors : ∀ k : Fin 4, SensorLaw x.sensors[k]

theorem seedOf_le (level : Byte) : seedOf level ≤ 4080 := by
  have := level.isLt
  simp only [seedOf]
  omega

/-- A tracked baseline stays between itself and the level's seed (06 R89). -/
theorem trackedBaseline_le {b : Nat} (h : b ≤ 4080) (level : Byte) : trackedBaseline b level ≤ 4080 := by
  have seed := seedOf_le level
  simp only [trackedBaseline]
  rcases le_total 0 ((seedOf level : Int) - b) with up | down
  · have := Int.tdiv_le_self 16 up
    omega
  · have := Int.tdiv_nonneg (a := -((seedOf level : Int) - b)) (b := 16) (by omega) (by decide)
    rw [Int.neg_tdiv] at this
    omega

theorem SensorLaw.seeded (level : Byte) (fault : Bool) : SensorLaw (.seeded level fault) := fun b h => by
  cases h
  exact seedOf_le level

theorem SensorLaw.report {x : Sensor} (h : SensorLaw x) (press release : Nat) (level : Byte) (fault : Bool) :
    SensorLaw (x.report press release level fault) := by
  unfold Sensor.report
  split
  · exact h
  · split
    · exact .seeded level false
    · exact h

theorem SensorLaw.track {x : Sensor} (h : SensorLaw x) (before : Sensor) (level : Byte) (fault : Bool) :
    SensorLaw (x.track before level fault) := by
  unfold Sensor.track
  split
  · exact h
  · intro b tracked
    obtain ⟨c, seeded, rfl⟩ := Option.map_eq_some_iff.1 tracked
    exact trackedBaseline_le (h c seeded) level

/-- A good report seeds, moves or tracks each sensor (06 R88 to R91). -/
theorem sensorLaw_afterReport {x : PanelPress} (h : ∀ k : Fin 4, SensorLaw x.sensors[k]) (r : GoodReport)
    (k : Fin 4) : SensorLaw (x.afterReport r).sensors[k] := by
  unfold PanelPress.afterReport
  split
  · simpa using SensorLaw.seeded r.levels[k] (r.faults.getLsbD k.val)
  · have reported := (h k).report x.press x.release r.levels[k] (r.faults.getLsbD k.val)
    dsimp only
    split
    · simpa using reported
    · simpa using reported.track x.sensors[k] r.levels[k] (r.faults.getLsbD k.val)

/-- A press or a release starts or stops the stuck timer (06 R96). -/
theorem PressLaw.changed {x y : PanelPress} (h : PressLaw x) (timer : y.stuckSince = x.stuckSince)
    (sensors : ∀ k : Fin 4, SensorLaw y.sensors[k]) (free : BitVec 32) : PressLaw (y.changed x.pressed free) := by
  refine ⟨?_, sensors⟩
  simp only [PanelPress.changed]
  split
  · rename_i same
    rw [timer, h.stuck, same]
  · cases y.pressed <;> rfl

theorem PressLaw.afterReport {x : PanelPress} (h : PressLaw x) (r : GoodReport) (free : BitVec 32) :
    PressLaw ((x.afterReport r).changed x.pressed free) :=
  h.changed (PanelPress.afterReport_stuckSince x r) (sensorLaw_afterReport h.sensors r) free

theorem PressLaw.lost {x : PanelPress} (h : PressLaw x) : PressLaw x.lost := by
  obtain ⟨shape, sensors⟩ := x.lost_eq
  refine ⟨?_, fun k => ?_⟩
  · rw [shape]
    cases pressed : x.pressed <;> simp [h.stuck, pressed]
  · rw [sensors k]
    exact h.sensors k

theorem PressLaw.stuckReleased (x : PanelPress) (levels : Vector Byte 4) :
    PressLaw { x.stuckReleased levels with stuckSince := none } :=
  ⟨rfl, fun k b h => by
    simp only [PanelPress.stuckReleased, Fin.getElem_fin, Vector.getElem_ofFn, Option.some.injEq] at h
    exact h ▸ seedOf_le _⟩

theorem PressLaw.calibrated {x : PanelPress} (h : PressLaw x) (press release quorum : Nat) :
    PressLaw (x.calibrated press release quorum) := ⟨h.stuck, h.sensors⟩

theorem PressLaw.reset : PressLaw .reset := ⟨rfl, fun k b h => by simp [PanelPress.reset, Sensor.reset] at h⟩

/-! ## Links -/

/-- A link's boards are DISABLED where their enable is clear, and its counts are in their ranges (05 R75, R76, R78,
R80). -/
structure LinkLaw (x : Link) : Prop where
  disabled : ∀ a : Fin 6, x.boards[a].state = .disabled ↔ x.enable.getLsbD a.val = false
  misses   : ∀ a : Fin 6, x.boards[a].misses ≤ 255
  parity   : x.parity ≤ 255
  round    : x.round < 8

/-- A link at another point of its schedule: its round number, its last polled address and its phase may differ. -/
def Rescheduled (x y : Link) : Prop :=
  ∃ round last phase, y = { x with round := round, last := last, phase := phase } ∧ (x.round < 8 → round < 8)

theorem LinkLaw.rescheduled {x y : Link} (h : LinkLaw x) (k : Rescheduled x y) : LinkLaw y := by
  obtain ⟨round, last, phase, rfl, small⟩ := k
  exact ⟨h.disabled, h.misses, h.parity, small h.round⟩

theorem rescheduled_phase (x : Link) (phase : LinkPhase) : Rescheduled x { x with phase := phase } :=
  ⟨x.round, x.last, phase, rfl, id⟩

theorem rescheduled_nextRound (x : Link) (level : Fin 6 → Byte) : Rescheduled x (x.nextRound.chooseFresh level) := by
  obtain ⟨last, phase, chosen⟩ := x.nextRound.chooseFresh_eq level
  exact ⟨_, last, phase, chosen, fun _ => Nat.mod_lt _ (by decide)⟩

theorem rescheduled_chooseInNextRound (x : Link) (level : Fin 6 → Byte) :
    Rescheduled x (x.chooseInNextRound level) := by
  unfold Link.chooseInNextRound
  split
  · exact rescheduled_phase x _
  · exact rescheduled_nextRound x level

theorem rescheduled_choose (x : Link) (level : Fin 6 → Byte) : Rescheduled x (x.choose level) := by
  unfold Link.choose
  split
  · exact rescheduled_phase x _
  · split
    · exact ⟨x.round, _, _, rfl, id⟩
    · split
      · exact rescheduled_nextRound x level
      · exact rescheduled_phase x _

theorem rescheduled_endPoll (x : Link) : Rescheduled x x.endPoll := by
  unfold Link.endPoll
  split <;> exact rescheduled_phase x _

theorem LinkLaw.onBoard {x : Link} (h : LinkLaw x) (a : Fin 6) (f : Board → Board)
    (state : (f x.boards[a]).state = .disabled ↔ x.boards[a].state = .disabled)
    (misses : (f x.boards[a]).misses ≤ 255) : LinkLaw (x.onBoard a f) := by
  refine ⟨fun b => ?_, fun b => ?_, h.parity, h.round⟩
  · rw [show (x.onBoard a f).enable = x.enable from rfl, ← h.disabled b, Link.onBoard, vecModify_get]
    split
    · rename_i here
      rw [here, state]
    · rfl
  · rw [Link.onBoard, vecModify_get]
    split
    · rename_i here
      rw [here]
      exact misses
    · exact h.misses b

/-- A miss counts, and takes no board into DISABLED or out of it (05 R80). -/
theorem LinkLaw.missed {x : Link} (h : LinkLaw x) (a : Fin 6) :
    LinkLaw (x.onBoard a fun b => b.missed x.missLimit) := by
  refine h.onBoard a _ ?_ (Nat.min_le_right _ _)
  cases state : x.boards[a].state <;> simp only [Board.missed, BoardState.afterMiss, state] <;> split <;> simp

theorem LinkLaw.withSettings {x : Link} (h : LinkLaw x) (enable : BitVec 6) (reply miss : Nat) :
    LinkLaw (x.withSettings enable reply miss) := by
  have board (a : Fin 6) : (x.withSettings enable reply miss).boards[a]
      = x.boards[a].enabledTo (x.enable.getLsbD a.val) (enable.getLsbD a.val) := by simp [Link.withSettings]
  refine ⟨fun a => ?_, fun a => ?_, h.parity, h.round⟩
  · rw [board]
    exact Board.enabledTo_disabled (h.disabled a)
  · rw [board, Board.enabledTo]
    split
    · exact h.misses a
    · split <;> exact Nat.zero_le _

theorem LinkLaw.softReset {x : Link} (h : LinkLaw x) : LinkLaw x.softReset := by
  have board (a : Fin 6) : x.softReset.boards[a] = x.boards[a].softReset := vecMap_get ..
  refine ⟨fun a => ?_, fun a => ?_, h.parity, h.round⟩
  · have enabled : ∀ a : Fin 6, (0x3F : BitVec 6).getLsbD a.val = true := by decide
    rw [board, show x.softReset.enable = 0x3F from rfl, enabled, Board.softReset]
    split
    · simp
    · rename_i awake
      simpa using awake
  · rw [board, Board.softReset]
    split
    · exact Nat.zero_le _
    · exact h.misses a

theorem LinkLaw.reset : LinkLaw .reset := ⟨by decide, by decide, by decide, by decide⟩

/-! ## The boards and the panels -/

/-- The law of the boards and the panels, but for panels that are still to be released. -/
structure PanelsAgree (lost : List Panel) (d : Device) : Prop where
  links    : ∀ l, LinkLaw (d.link l)
  panels   : ∀ p, PressLaw (d.panel p)
  answered : ∀ p, p ∉ lost → (d.panel p).pressed = true → (boardOf d p).state.answering = true

theorem panelLaw_iff (d : Device) : PanelLaw d ↔ PanelsAgree [] d := by
  constructor
  · rintro ⟨disabled, answered, stuck, baselines, misses, counts⟩
    refine ⟨fun l => ⟨fun a => ?_, fun a => ?_, (counts l).1, (counts l).2⟩,
      fun p => ⟨stuck p, baselines p⟩, fun p _ pressed => (BoardState.answering_iff _).2 (answered p pressed)⟩
    · simpa only [boardOf_panelOf, stageOfPanel_panelOf, addressOfPanel_panelOf] using disabled (panelOf l a)
    · simpa only [boardOf_panelOf] using misses (panelOf l a)
  · rintro ⟨links, panels, answered⟩
    exact ⟨fun p => (links _).disabled _, fun p pressed => (BoardState.answering_iff _).1 (answered p nofun pressed),
      fun p => (panels p).stuck, fun p => (panels p).sensors, fun p => (links _).misses _,
      fun l => ⟨(links l).parity, (links l).round⟩⟩

/-- The links and the press detector stand as they were. -/
structure PanelsStill (d e : Device) : Prop where
  links : e.links = d.links
  press : e.press = d.press

section
variable {d e : Device} {lost : List Panel}

theorem PanelsStill.refl (d : Device) : PanelsStill d d := ⟨rfl, rfl⟩

theorem PanelsStill.trans {g : Device} (h : PanelsStill d e) (k : PanelsStill e g) : PanelsStill d g :=
  ⟨k.links.trans h.links, k.press.trans h.press⟩

theorem PanelsStill.raise (d : Device) (k : Notice) : PanelsStill d (d.raise k) := ⟨rfl, rfl⟩

theorem PanelsStill.clock (d : Device) (c : Clock) : PanelsStill d { d with clock := c } := ⟨rfl, rfl⟩

theorem PanelsStill.entry (h : EntryFrame d e) : PanelsStill d e := ⟨h.links, h.press⟩

theorem PanelsStill.lane (h : LaneFrame d e) : PanelsStill d e := ⟨h.links, h.press⟩

theorem PanelsAgree.still (h : PanelsAgree lost d) (k : PanelsStill d e) : PanelsAgree lost e := by
  have link (l : Stage) : e.link l = d.link l := congrArg (PerStage.get · l) k.links
  have panel (p : Panel) : e.panel p = d.panel p := congrArg (fun x : PressDetector => x.panels[p]) k.press
  refine ⟨fun l => link l ▸ h.links l, fun p => panel p ▸ h.panels p, fun p kept pressed => ?_⟩
  rw [boardOf, link]
  exact h.answered p kept (panel p ▸ pressed)

/-- A change of one panel alone, after which that panel needs no release. -/
theorem PanelsAgree.onePanel {p : Panel} (h : PanelsAgree (p :: lost) d) (links : e.links = d.links)
    (others : ∀ x, x ≠ p → e.panel x = d.panel x) (law : PressLaw (e.panel p))
    (answered : (e.panel p).pressed = true → (boardOf d p).state.answering = true) : PanelsAgree lost e := by
  have link (l : Stage) : e.link l = d.link l := congrArg (PerStage.get · l) links
  refine ⟨fun l => link l ▸ h.links l, fun x => ?_, fun x kept pressed => ?_⟩
  · by_cases here : x = p
    · exact here ▸ law
    · exact others x here ▸ h.panels x
  · rw [boardOf, link]
    by_cases here : x = p
    · subst here
      exact answered pressed
    · exact h.answered x (by simp [here, kept]) (others x here ▸ pressed)

theorem PanelsAgree.weaken (h : PanelsAgree lost d) (p : Panel) : PanelsAgree (p :: lost) d :=
  ⟨h.links, h.panels, fun x kept => h.answered x fun among => kept (List.mem_cons_of_mem p among)⟩

/-- A change of one link, with the panels of the boards that it takes from ONLINE or DEGRADED still to be released. -/
theorem PanelsAgree.onLink (h : PanelsAgree [] d) (l : Stage) (f : Link → Link) (law : LinkLaw (f (d.link l)))
    (kept : ∀ a : Fin 6, panelOf l a ∉ lost → (d.link l).boards[a].state.answering = true →
      (f (d.link l)).boards[a].state.answering = true) : PanelsAgree lost (d.onLink l f) := by
  have boards (m : Stage) (a : Fin 6) (away : panelOf m a ∉ lost)
      (answers : (d.link m).boards[a].state.answering = true) :
      ((d.onLink l f).link m).boards[a].state.answering = true := by
    rw [Device.link_onLink]
    split
    · rename_i here
      subst here
      exact kept a away answers
    · exact answers
  refine ⟨fun m => ?_, h.panels, fun p away pressed => ?_⟩
  · rw [Device.link_onLink]
    split
    · exact law
    · exact h.links m
  · exact boards _ _ (by rwa [panelOf_stageOfPanel]) (h.answered p nofun pressed)

theorem PanelsAgree.reschedule (h : PanelsAgree [] d) (l : Stage) (f : Link → Link)
    (k : Rescheduled (d.link l) (f (d.link l))) : PanelsAgree [] (d.onLink l f) := by
  refine h.onLink l f ((h.links l).rescheduled k) fun a _ answers => ?_
  obtain ⟨round, last, phase, same, -⟩ := k
  rwa [same]

/-! ## Events of the panels -/

theorem PanelsAgree.takeGoodReport {p : Panel} (h : PanelsAgree [] d) (r : GoodReport)
    (answers : (boardOf d p).state.answering = true) : PanelsAgree [] (d.takeGoodReport p r) := by
  refine (h.weaken p).onePanel (Device.takeGoodReport_links d p r) (fun x away => ?_) ?_ fun _ => answers
  · rw [Device.takeGoodReport_panel, if_neg away]
  · rw [Device.takeGoodReport_panel, if_pos rfl]
    exact (h.panels p).afterReport r _

theorem PanelsAgree.takeBoardLost {p : Panel} (h : PanelsAgree (p :: lost) d) :
    PanelsAgree lost (d.takeBoardLost p) := by
  have here : (d.takeBoardLost p).panel p = (d.panel p).lost := by rw [Device.takeBoardLost_panel, if_pos rfl]
  refine h.onePanel (Device.takeBoardLost_links d p) (fun x away => ?_) ?_ fun pressed => ?_
  · rw [Device.takeBoardLost_panel, if_neg away]
  · rw [here]
    exact (h.panels p).lost
  · rw [here] at pressed
    cases pressed

theorem PanelsAgree.takeBoardsLost (ps : List Panel) (h : PanelsAgree ps d) :
    PanelsAgree [] (ps.foldl (fun d p => d.takeBoardLost p) d) := by
  induction ps generalizing d with
  | nil => exact h
  | cons p ps ih => exact ih h.takeBoardLost

theorem PanelsAgree.expireStuck (h : PanelsAgree [] d) (p : Panel) : PanelsAgree [] (d.expireStuck p) := by
  have here := Device.expireStuck_panel d p p
  refine (h.weaken p).onePanel (Device.expireStuck_links d p) (fun x away => ?_) ?_ ?_
  · rw [Device.expireStuck_panel, if_neg fun both => away both.1]
  · rw [here]
    split
    · rename_i due
      split
      · refine ⟨?_, (h.panels p).sensors⟩
        have running : (d.panel p).stuckSince.isSome = true := by
          have := due.2
          unfold Device.stuckDue at this
          split at this
          · cases this
          · rename_i started
            rw [started]
            rfl
        rw [← (h.panels p).stuck, running]
        rfl
      · exact .stuckReleased _ _
    · exact h.panels p
  · rw [here]
    split
    · split
      · exact h.answered p nofun
      · nofun
    · exact h.answered p nofun

theorem PanelsAgree.expireAllStuck (h : PanelsAgree [] d) : PanelsAgree [] d.expireAllStuck := by
  unfold Device.expireAllStuck
  induction allPanels generalizing d with
  | nil => exact h
  | cons p ps ih => exact ih (h.expireStuck p)

/-! ## Events of the links -/

theorem PanelsAgree.endTransaction (h : PanelsAgree [] d) (l : Stage) : PanelsAgree [] (d.endTransaction l) :=
  h.reschedule l _ (rescheduled_phase _ _)

theorem PanelsAgree.pollTransfer (h : PanelsAgree [] d) (x : PollTransfer) : PanelsAgree [] (d.pollTransfer x) := by
  have begun (l : Stage) : PanelsAgree [] (d.beginPoll l) := by
    unfold Device.beginPoll
    split
    · exact h.reschedule l _ (rescheduled_choose _ _)
    · exact h
  cases x with
  | whole l =>
    simp only [Device.pollTransfer]
    split
    · exact (begun l).reschedule l _ (rescheduled_endPoll _)
    · exact h
  | begins l => exact begun l
  | ends l => exact h.reschedule l _ (rescheduled_endPoll _)

theorem PanelsAgree.endEmptyRound (h : PanelsAgree [] d) (l : Stage) : PanelsAgree [] (d.endEmptyRound l) := by
  unfold Device.endEmptyRound
  split
  · exact h.reschedule l _ (rescheduled_chooseInNextRound _ _)
  · exact h

theorem PanelsAgree.wakeLink (h : PanelsAgree [] d) (l : Stage) (silent : Bool) :
    PanelsAgree [] (d.wakeLink l silent) := by
  unfold Device.wakeLink
  split
  · exact h.reschedule l _ (rescheduled_chooseInNextRound _ _)
  · exact h

/-- A board that goes OFFLINE has its panel released in the same step (05 R81, 06 R95). -/
theorem PanelsAgree.miss (h : PanelsAgree [] d) (l : Stage) (a : Fin 6) : PanelsAgree [] (d.miss l a) := by
  have board (b : Fin 6) : ((d.link l).onBoard a fun b => b.missed (d.link l).missLimit).boards[b]
      = if b = a then (d.link l).boards[b].missed (d.link l).missLimit else (d.link l).boards[b] := vecModify_get ..
  have after : ((d.onLink l fun x => x.onBoard a fun b => b.missed x.missLimit).link l).boards[a].state
      = ((d.link l).boards[a].missed (d.link l).missLimit).state := by
    simp only [Device.link_onLink, if_true, board]
  unfold Device.miss
  dsimp only
  rw [after]
  split
  · have offline : PanelsAgree [panelOf l a] (d.onLink l fun x => x.onBoard a fun b => b.missed x.missLimit) := by
      refine h.onLink l _ ((h.links l).missed a) fun b away answers => ?_
      have elsewhere : b ≠ a := fun here => away (by simp [here])
      rwa [board, if_neg elsewhere]
    exact (offline.still (.raise _ .boardOffline)).takeBoardLost
  · rename_i stays
    refine h.onLink l _ ((h.links l).missed a) fun b _ answers => ?_
    rw [board]
    split
    · rename_i here
      subst here
      rw [answers] at stays
      exact (Board.missed_answering answers _).resolve_left fun offline => stays (by rw [offline]; rfl)
    · exact answers

theorem PanelsAgree.goodReport (h : PanelsAgree [] d) (l : Stage) (a : Fin 6) (f : ReportFrame)
    (enabled : (d.link l).boards[a].state ≠ .disabled) : PanelsAgree [] (d.goodReport l a f) := by
  have board (b : Fin 6) (g : Board → Board) : ((d.link l).onBoard a g).boards[b]
      = if b = a then g (d.link l).boards[b] else (d.link l).boards[b] := vecModify_get ..
  refine PanelsAgree.takeGoodReport (h.onLink l _ ?_ fun b _ answers => ?_) _ ?_
  · exact (h.links l).onBoard a _ (iff_of_false nofun enabled) (Nat.zero_le _)
  · rw [board]
    split
    · rfl
    · exact answers
  · rw [boardOf_panelOf, Device.link_onLink, if_pos rfl, board, if_pos rfl]
    rfl

theorem PanelsAgree.judgeReport (h : PanelsAgree [] d) (l : Stage) (a : Fin 6) (f : ReportFrame)
    (enabled : (d.link l).boards[a].state ≠ .disabled) : PanelsAgree [] (d.judgeReport l a f) := by
  have counted : PanelsAgree [] (d.onLink l fun x => { x with parity := min (x.parity + 1) 255 }) := by
    obtain ⟨disabled, misses, -, round⟩ := h.links l
    exact h.onLink l _ ⟨disabled, misses, Nat.min_le_right _ _, round⟩ fun _ _ answers => answers
  unfold Device.judgeReport
  split
  · exact (counted.still (.raise _ .linkParity)).miss l a
  · split
    · exact h.miss l a
    · exact h.goodReport l a f enabled

theorem PanelsAgree.receiveReport (h : PanelsAgree [] d) (l : Stage) (f : ReportFrame) (quarters : Nat) :
    PanelsAgree [] (d.receiveReport l f quarters) := by
  unfold Device.receiveReport
  split
  case h_2 =>
    split
    · split
      · exact h.endTransaction l
      · rename_i judged
        refine (h.endTransaction l).judgeReport l _ f ?_
        rw [Device.endTransaction, Device.link_onLink, if_pos rfl]
        exact (Link.not_discards judged).2
    · exact h
  all_goals exact h

theorem PanelsAgree.passDeadline (h : PanelsAgree [] d) (l : Stage) : PanelsAgree [] (d.passDeadline l) := by
  unfold Device.passDeadline
  split
  case h_2 =>
    split
    · exact h.endTransaction l
    · exact (h.endTransaction l).miss l _
  all_goals exact h

/-- The boards that a new mask takes from ONLINE or DEGRADED have their panels released in the same step (05 R81, R83,
06 R95). -/
theorem PanelsAgree.setLink (h : PanelsAgree [] d) (l : Stage) (enable : BitVec 6) (reply miss : Nat) :
    PanelsAgree [] (d.setLink l enable reply miss) := by
  have settled : PanelsAgree (((d.link l).lostTo enable).map (panelOf l))
      (d.onLink l fun x => x.withSettings enable reply miss) := by
    refine h.onLink l _ ((h.links l).withSettings enable reply miss) fun a away answers => ?_
    have stays : a ∉ (d.link l).lostTo enable := fun among => away (List.mem_map_of_mem among)
    have board : ((d.link l).withSettings enable reply miss).boards[a]
        = (d.link l).boards[a].enabledTo ((d.link l).enable.getLsbD a.val) (enable.getLsbD a.val) := by
      simp [Link.withSettings]
    rw [Link.mem_lostTo, ← BoardState.answering_iff] at stays
    have was : (d.link l).enable.getLsbD a.val = true := by
      by_contra clear
      rw [((h.links l).disabled a).2 (by simpa using clear)] at answers
      cases answers
    have now : enable.getLsbD a.val = true := by
      by_contra clear
      exact stays ⟨was, by simpa using clear, answers⟩
    rw [board, Board.enabledTo, was, now, if_pos rfl]
    exact answers
  have released := PanelsAgree.takeBoardsLost _ settled
  rw [List.foldl_map] at released
  exact released.wakeLink l _

/-! ## The clock -/

theorem PanelsStill.recomputeBeat (d : Device) (p : Player) : PanelsStill d (d.recomputeBeat p) :=
  .entry (.recomputeBeat d p)

theorem PanelsStill.advanceTracker (d : Device) (p : Player) : PanelsStill d (d.advanceTracker p) :=
  .entry (.advanceTracker d p)

theorem PanelsStill.endStall (d : Device) : PanelsStill d d.endStall := by
  unfold Device.endStall
  split <;> exact ⟨rfl, rfl⟩

theorem PanelsStill.edge (d : Device) : PanelsStill d d.edge := by
  unfold Device.edge
  dsimp only
  split <;> exact ⟨rfl, rfl⟩

theorem PanelsStill.loseSync (d : Device) : PanelsStill d d.loseSync := by
  unfold Device.loseSync
  split <;> exact ⟨rfl, rfl⟩

theorem PanelsStill.reachTempo (d : Device) (p : Player) : PanelsStill d (d.reachTempo p) := by
  unfold Device.reachTempo
  split
  · exact .advanceTracker d p
  · exact .refl d

theorem PanelsStill.crossBeat (d : Device) (p : Player) : PanelsStill d (d.crossBeat p) := by
  unfold Device.crossBeat
  split
  · exact .recomputeBeat d p
  · exact .refl d

theorem PanelsStill.endFlash (d : Device) (p : Panel) : PanelsStill d (d.endFlash p) := by
  unfold Device.endFlash
  split <;> exact ⟨rfl, rfl⟩

theorem PanelsStill.endBeatPulse (d : Device) (p : Panel) : PanelsStill d (d.endBeatPulse p) := by
  unfold Device.endBeatPulse
  split <;> exact ⟨rfl, rfl⟩

theorem PanelsStill.correct (d : Device) (x : Capture) (reported : Int) : PanelsStill d (d.correct x reported) := by
  have clock : PanelsStill d (d.correctClock x reported) := by
    unfold Device.correctClock
    split <;> exact ⟨rfl, rfl⟩
  rw [Device.correct_eq]
  exact (clock.trans (.advanceTracker _ .p1)).trans (.advanceTracker _ .p2)

/-! ## The events of one instant -/

theorem PanelsAgree.takeEvent (h : PanelsAgree [] d) (x : Event) : PanelsAgree [] (d.takeEvent x) := by
  cases x with
  | lane k q => exact h.still (.lane (.takeLaneEvent d q k))
  | stallEnd => exact h.still (.endStall d)
  | syncTimeout => exact h.still (.loseSync d)
  | tempo p => exact h.still (.reachTempo d p)
  | beat p => exact h.still (.crossBeat d p)
  | stuck p => exact h.expireStuck p
  | flashEnd p => exact h.still (.endFlash d p)
  | beatPulseEnd p => exact h.still (.endBeatPulse d p)
  | entry p =>
    simp only [Device.takeEvent, Device.takeNext]
    split
    · exact h
    · exact h.still (.entry (.takeEntry d p _))
  | stallRelease p => exact h.still (.entry (.releaseStall d p))

theorem PanelsAgree.settle (h : PanelsAgree [] d) (due : Device → List Event) (fuel : Nat) :
    PanelsAgree [] (settle due fuel d) :=
  settle_induct due (fun d e => PanelsAgree [] d → PanelsAgree [] e) (fun _ => id) (fun f g => g ∘ f)
    (fun _ h => h.still ⟨rfl, rfl⟩) (fun e h => h.still (.lane (.headersMayFall e)))
    (fun _ _ x _ _ h => h.takeEvent x) fuel d h

theorem PanelsAgree.microsecond (h : PanelsAgree [] d) : PanelsAgree [] d.microsecond :=
  (h.settle Device.dueEvents eventFuel).still (.clock d.settleAll _)

/-! ## Commands -/

theorem PanelsAgree.setStage (h : PanelsAgree [] d) (fields : List Byte) : PanelsAgree [] (setStage fields d).2 := by
  unfold Machine.setStage
  split
  · exact h
  · split
    · exact h
    · exact ((h.still (.clock d _)).setLink .a _ _ _).setLink .b _ _ _

theorem PanelsAgree.setPanel (h : PanelsAgree [] d) (fields : List Byte) : PanelsAgree [] (setPanel fields d).2 := by
  rcases setPanel_cases d fields with same | calibrated
  · rw [same]
    exact h
  · rw [calibrated]
    have panel (p : Panel) : ∃ press release quorum,
        (d.calibrated fields).panel p = (d.panel p).calibrated press release quorum := by
      simp only [Device.panel, Device.calibrated, Fin.getElem_fin, Vector.getElem_ofFn]
      split
      · exact ⟨_, _, _, rfl⟩
      · exact ⟨(d.panel p).press, (d.panel p).release, (d.panel p).quorum, rfl⟩
    refine PanelsAgree.expireAllStuck ⟨h.links, fun p => ?_, fun p away pressed => ?_⟩ <;>
      obtain ⟨press, release, quorum, same⟩ := panel p
    · rw [same]
      exact (h.panels p).calibrated press release quorum
    · rw [same] at pressed
      exact h.answered p away pressed

theorem PanelsAgree.softReset (h : PanelsAgree [] d) : PanelsAgree [] d.softReset := by
  suffices blocks : PanelsAgree [] d.softResetBlocks by
    unfold Device.softReset
    exact ((blocks.wakeLink .a _).wakeLink .b _).expireAllStuck
  refine ⟨fun l => ?_, fun p => ?_, fun p away pressed => ?_⟩
  · rw [Device.link_softResetBlocks]
    exact (h.links l).softReset
  · rw [Device.softResetBlocks_panel]
    exact (h.panels p).calibrated 40 24 1
  · rw [Device.softResetBlocks_panel] at pressed
    have answers := h.answered p away pressed
    have board : boardOf d.softResetBlocks p = (boardOf d p).softReset := by
      rw [boardOf, Device.link_softResetBlocks]
      exact vecMap_get ..
    rw [board, Board.softReset, if_neg]
    · exact answers
    · intro disabled
      rw [disabled] at answers
      cases answers

/-- The device that a block's answer leaves, with the answer's code. -/
theorem PanelsStill.answer (h : PanelsStill d e) (code : ResultCode) : PanelsStill d (code, e).2 := h

theorem PanelsStill.startSong (d : Device) : PanelsStill d d.startSong := by
  have mapped (e : Device) : PanelsStill e e.freezeMap := by
    unfold Device.freezeMap
    dsimp only
    split <;> exact ⟨rfl, rfl⟩
  have timed : PanelsStill d
      { d with session := d.session.started, clock := d.clock.started d.session.leadIn } := ⟨rfl, rfl⟩
  unfold Device.startSong
  dsimp only
  exact ((timed.trans (mapped _)).trans (.lane (.mark _ _ _))).trans (.raise _ _)

theorem PanelsStill.position (d : Device) (fields : List Byte) : PanelsStill d (position fields d).2 := by
  unfold Machine.position
  split
  · exact .refl d
  · exact .answer ((PanelsStill.correct d _ _).trans (.entry (.settleLanes _))) _

/-- Every command but SET_STAGE, SET_PANEL and SOFT_RESET leaves the boards and the panels alone. -/
theorem handCommand_panelsStill (d : Device) (i : Port) {c : Command} (fields : List Byte)
    (hc : c ∉ [.setStage, .setPanel, .softReset]) : PanelsStill d (handCommand i c fields d).2 := by
  cases c with
  | setStage | setPanel | softReset => simp at hc
  | openSong =>
    simp only [handCommand, openSong]
    split_ifs <;> exact ⟨rfl, rfl⟩
  | start =>
    simp only [handCommand, start]
    split_ifs
    · exact .refl d
    · exact .answer ((((PanelsStill.startSong d).trans (.lane (.examineDone _ .p1))).trans
        (.lane (.examineDone _ .p2))).trans (.entry (.settleLanes _))) _
  | abort =>
    simp only [handCommand, abort]
    split <;> exact ⟨rfl, rfl⟩
  | close =>
    simp only [handCommand, close]
    split <;> exact ⟨rfl, rfl⟩
  | position => exact .position d fields
  | setSync =>
    simp only [handCommand, setSync]
    split_ifs <;> exact ⟨rfl, rfl⟩
  | setMap =>
    simp only [handCommand, setMap]
    split_ifs <;> exact ⟨rfl, rfl⟩
  | setWindows =>
    have judged (x : Judge) : PanelsStill d { d with judge := x } := ⟨rfl, rfl⟩
    simp only [handCommand, setWindows]
    split_ifs
    · exact .refl d
    · exact .refl d
    · exact judged _
  | setScoring =>
    simp only [handCommand, setScoring]
    split_ifs <;> exact ⟨rfl, rfl⟩
  | setLife =>
    simp only [handCommand, setLife]
    split_ifs <;> exact ⟨rfl, rfl⟩
  | setLamps => exact ⟨rfl, rfl⟩
  | subscribe =>
    simp only [handCommand, ringSubscribe]
    split_ifs <;> exact ⟨rfl, rfl⟩
  | unsubscribe => exact ⟨rfl, rfl⟩

theorem PanelsAgree.handCommand (h : PanelsAgree [] d) (i : Port) (c : Command) (fields : List Byte) :
    PanelsAgree [] (handCommand i c fields d).2 := by
  by_cases hc : c ∈ [.setStage, .setPanel, .softReset]
  · simp only [List.mem_cons, List.not_mem_nil, or_false] at hc
    rcases hc with rfl | rfl | rfl <;> simp only [Machine.handCommand]
    · exact h.setStage fields
    · exact h.setPanel fields
    · exact h.softReset
  · exact h.still (handCommand_panelsStill d i fields hc)

/-! ## Ports -/

variable (d) (i : Port)

theorem PanelsStill.readTaken (channel : ChannelField) : PanelsStill d (d.readTaken i channel) := by
  unfold Device.readTaken
  split_ifs <;> exact ⟨rfl, rfl⟩

theorem PanelsStill.noticeTaken (data : List Byte) : PanelsStill d (d.noticeTaken i data) := by
  unfold Device.noticeTaken
  split <;> exact ⟨rfl, rfl⟩

theorem PanelsStill.maskTaken (data : List Byte) : PanelsStill d (d.maskTaken i data) := by
  unfold Device.maskTaken
  split <;> exact ⟨rfl, rfl⟩

theorem PanelsStill.lampTaken (data : List Byte) : PanelsStill d (d.lampTaken i data) := by
  unfold Device.lampTaken
  split <;> exact ⟨rfl, rfl⟩

theorem PanelsStill.recordSent : PanelsStill d (d.recordSent i) := by
  unfold Device.recordSent
  split
  · split <;> exact ⟨rfl, rfl⟩
  · exact .refl d

theorem PanelsStill.chartByte (b : Byte) : PanelsStill d (d.chartByte i b) := by
  have entered (p : Player) : PanelsStill d (d.bufferByte p b) :=
    .entry ((EntryFrame.onDecoder d p _).trans (.discardAfterEnd _ p))
  unfold Device.chartByte
  split
  · split
    · exact (entered _).trans ⟨rfl, rfl⟩
    · exact ⟨rfl, rfl⟩
  · exact .refl d

theorem PanelsStill.chartRise : PanelsStill d (d.chartRise i) := by
  unfold Device.chartRise
  split
  case h_1 =>
    dsimp only
    split <;> exact ⟨rfl, rfl⟩
  all_goals exact .refl d

theorem PanelsStill.chartTaken (p : Player) (data : List Byte) : PanelsStill d (d.chartTaken i p data) := by
  have bytes (e : Device) : PanelsStill e (data.foldl (fun d b => d.chartByte i b) e) := by
    induction data generalizing e with
    | nil => exact .refl e
    | cons b data ih => exact (PanelsStill.chartByte e i b).trans (ih _)
  have begun : PanelsStill d (d.chartBegin i p) := ⟨rfl, rfl⟩
  exact (begun.trans (bytes _)).trans (.chartRise _ i)

variable {d}

theorem PanelsAgree.commandTaken (h : PanelsAgree [] d) (c : Command) (fields : List Byte) :
    PanelsAgree [] (d.commandTaken i c fields) := by
  unfold Device.commandTaken
  split
  · exact h.still ⟨rfl, rfl⟩
  · refine (h.handCommand i c fields).still ?_
    unfold leaveResult
    split <;> exact ⟨rfl, rfl⟩

theorem PanelsAgree.writeTaken (h : PanelsAgree [] d) (channel : ChannelField) (data : List Byte) :
    PanelsAgree [] (d.writeTaken i channel data) := by
  have command : PanelsAgree [] (d.commandBytesTaken i data) := by
    unfold Device.commandBytesTaken
    split
    · exact h.still ⟨rfl, rfl⟩
    · split
      · exact h.still ⟨rfl, rfl⟩
      · exact h.commandTaken i _ _
  unfold Device.writeTaken
  split
  · exact command
  · exact h.still (.noticeTaken d i data)
  · exact h.still (.maskTaken d i data)
  · exact h.still (.chartTaken d i _ data)
  · exact h.still (.chartTaken d i _ data)
  · exact h.still (.lampTaken d i data)
  · exact h.still ⟨rfl, rfl⟩

theorem PanelsAgree.rise (h : PanelsAgree [] d) : PanelsAgree [] (d.rise i) := by
  have closed : PanelsAgree [] (d.onPort i fun p => { p with transaction := none }) := h.still ⟨rfl, rfl⟩
  unfold Device.rise
  dsimp only
  split
  case h_4 channel data _ => exact closed.writeTaken i channel data
  case h_5 channel _ _ => exact closed.still (.readTaken _ i channel)
  case h_6 => exact h.still (.chartRise d i)
  all_goals exact closed

theorem PanelsAgree.headingRead (h : PanelsAgree [] d) (channel : ChannelField) :
    PanelsAgree [] (d.headingRead i channel) := by
  unfold Device.headingRead
  split
  · exact h.still ⟨rfl, rfl⟩
  all_goals exact (h.rise i).still ⟨rfl, rfl⟩

theorem PanelsAgree.chartTransfer (h : PanelsAgree [] d) (x : ChartTransfer) :
    PanelsAgree [] (d.chartTransfer i x) := by
  cases x with
  | whole p data => exact (h.rise i).still (.chartTaken _ i p data)
  | header p => exact (h.rise i).still ⟨rfl, rfl⟩
  | byte b => exact h.still (.chartByte d i b)
  | rise => exact h.still (.chartRise d i)

theorem PanelsAgree.writeTransfer (h : PanelsAgree [] d) (channel : ChannelField) (x : WriteTransfer) :
    PanelsAgree [] (d.writeTransfer i channel x) := by
  cases x with
  | whole data => exact (h.rise i).writeTaken i channel data
  | fall => exact (h.rise i).still ⟨rfl, rfl⟩
  | header =>
    refine (h.rise i).still ?_
    simp only [Device.writeTransfer, Device.writeHeader]
    split <;> exact ⟨rfl, rfl⟩
  | byte b =>
    refine h.still ?_
    simp only [Device.writeTransfer, Device.byteIn]
    split
    · exact ⟨rfl, rfl⟩
    · exact .chartByte d i b
    all_goals exact .refl d
  | rise => exact h.rise i

theorem PanelsAgree.readTransfer (h : PanelsAgree [] d) (x : ReadTransfer) : PanelsAgree [] (d.readTransfer i x) := by
  cases x with
  | whole channel => exact (h.rise i).still (.readTaken _ i channel)
  | fall => exact (h.rise i).still ⟨rfl, rfl⟩
  | heading channel => exact h.headingRead i channel
  | header channel => exact (h.rise i).still ⟨rfl, rfl⟩
  | rise => exact h.rise i

theorem PanelsAgree.ringTransfer (h : PanelsAgree [] d) (x : RingTransfer) : PanelsAgree [] (d.ringTransfer x) := by
  cases x with
  | whole i => exact (h.rise i).still (.readTaken _ i _)
  | heading i => exact h.headingRead i _
  | header i => exact (h.rise i).still ⟨rfl, rfl⟩
  | rise i => exact h.rise i

end

/-! ## The step -/

theorem PanelsAgree.powerOn (d : Device) (straps : Straps) : PanelsAgree [] (d.powerOn straps) := by
  have fresh : PanelsAgree [] { Device.reset (portsOf (grantedRoles straps)) with choices := d.choices } := by
    have panel (p : Panel) : (Vector.replicate 12 PanelPress.reset)[p] = .reset := by simp
    refine ⟨fun l => ?_, fun p => ?_, fun p _ pressed => ?_⟩
    · cases l <;> exact .reset
    · rw [Device.panel, show (Device.reset _).press.panels[p] = PanelPress.reset from panel p]
      exact .reset
    · have released : PanelPress.reset.pressed = true := by rwa [← panel p]
      cases released
  unfold Device.powerOn
  dsimp only
  split
  · exact fresh
  · exact fresh.still ⟨rfl, rfl⟩

/-- Every command keeps the boards and the panels in agreement. -/
theorem exec_panelsAgree {c : Instr} {s t : State} (answered : exec c s = .next t) (h : PanelsAgree [] s.device) :
    PanelsAgree [] t.device := by
  cases c <;> rw [answer_next answered]
  case openSong i fields | start i fields | abort i fields | close i fields | position i fields | setSync i fields
    | setStage i fields | setPanel i fields | setMap i fields | setWindows i fields | setScoring i fields
    | setLife i fields | setLamps i fields | subscribe i fields | unsubscribe i fields | softReset i fields =>
    exact (h.rise i).commandTaken i _ fields
  case chartWrite i x => exact h.chartTransfer i x
  case noticeWrite i data => exact (h.rise i).still (.noticeTaken _ i data)
  case noticeMaskWrite i data => exact (h.rise i).still (.maskTaken _ i data)
  case lampWrite i data => exact (h.rise i).still (.lampTaken _ i data)
  case registerWrite i channel x => exact h.writeTransfer i channel x
  case ringRead x => exact h.ringTransfer x
  case refusedRead i x => exact h.readTransfer i x
  case ringRecordConsumed i => exact h.still (.recordSent _ i)
  case powerOnReset straps => exact .powerOn _ straps
  case fsyncEdge => exact h.still (.edge _)
  case microsecondTick => exact h.microsecond
  case stallEnd => exact h.still (.endStall _)
  case syncTimeout => exact h.still (.loseSync _)
  case tempoEntryReached p => exact h.still (.reachTempo _ p)
  case beatCrossing p => exact h.still (.crossBeat _ p)
  case poll x => exact h.pollTransfer x
  case emptyRound l => exact h.endEmptyRound l
  case report l frame quarters => exact h.receiveReport l frame quarters
  case replyDeadline l => exact h.passDeadline l
  case stuckExpiry p => exact h.expireStuck p
  case sweep q => exact h.still (.lane (.sweepLane _ q))
  case avoidDue q => exact h.still (.lane (.avoidDueLane _ q))
  case avoidPastWindow q => exact h.still (.lane (.avoidPastLane _ q))
  case tailReached q => exact h.still (.lane (.tailLane _ q))
  case graceExpiry q => exact h.still (.lane (.graceLane _ q))
  case flashEnd p => exact h.still (.endFlash _ p)
  case beatPulseEnd p => exact h.still (.endBeatPulse _ p)
  case headerEntry p | rowsEntry p | notesEntry p | repeatEntry p | tempoEntry p | dwellEntry p | endEntry p
    | badTag p =>
    exact h.still (.entry (.takeKind _ p _))
  case stallRelease p => exact h.still (.entry (.releaseStall _ p))

end Sys2Proof.Safety

section
open Sys2Proof.Machine Sys2Proof.Safety

/-- Settles O56: every command keeps the boards and the panels in agreement, a board's loss with its panel's release. -/
theorem panelsFollowBoards : Obligations.PanelsFollowBoards := by
  intro s t h law
  rw [panelLaw_iff] at law ⊢
  unfold step at h
  split at h
  · cases h
    exact law
  · rename_i c rest _
    exact exec_panelsAgree (s := { s with pending := rest }) h law

end
end

