-- ==== Sys2Proof/Proofs/PollSchedule.lean ====
section
/-!
The poll schedule of a link (O20): which board it chooses, how its rounds follow one another, and the characters of a
POLL.
-/
namespace Sys2Proof.Machine
open Sys2Proof.Safety

/-! ## The board that is chosen -/

theorem Link.boardDue_iff (x : Link) (a : Fin 6) : x.boardDue a = true ↔ Due x a := by
  unfold Link.boardDue Due
  cases x.boards[a].state <;> simp

/-- A board is due above the last polled address (05 R76). -/
theorem Link.dueAbove_iff (x : Link) (a : Fin 6) : (x.boardDue a && x.last.all fun y => y < a) = true
    ↔ Due x a ∧ ∀ y, x.last = some y → y < a := by
  rw [Bool.and_eq_true, Link.boardDue_iff]
  refine and_congr_right fun _ => ?_
  cases x.last <;> simp

/-- The board that a link chooses in its round is the first that is due above the last polled (05 R76). -/
theorem Link.nextBoard_chosen {x : Link} {a : Fin 6} (h : Chosen x a) : x.nextBoard = some a := by
  obtain ⟨due, above, lowest⟩ := h
  cases found : x.nextBoard with
  | none => exact absurd ((x.dueAbove_iff a).2 ⟨due, above⟩) (List.find?_eq_none.1 found a (List.mem_finRange a))
  | some b =>
    obtain ⟨met, least⟩ := find_finRange_least found
    obtain ⟨due', above'⟩ := (x.dueAbove_iff b).1 met
    rw [le_antisymm (least a ((x.dueAbove_iff a).2 ⟨due, above⟩)) (lowest b due' above')]

theorem Link.nextBoard_noneAbove {x : Link} (h : NoneAbove x) : x.nextBoard = none := by
  refine List.find?_eq_none.2 fun b _ met => ?_
  obtain ⟨due, above⟩ := (x.dueAbove_iff b).1 met
  obtain ⟨y, last, le⟩ := h b due
  exact absurd (above y last) (not_lt.2 le)

theorem Link.enabled_of_due {x : Link} {a : Fin 6} (h : Due x a) : x.noneEnabled = false := by
  refine decide_eq_false fun silent => ?_
  obtain ⟨lit, -⟩ := h
  simp [silent] at lit

theorem Link.noneEnabled_eq_false {x : Link} (h : x.enable ≠ 0) : x.noneEnabled = false := decide_eq_false h

/-! ## Choices -/

/-- A round that has just begun polls the board chosen in it, or is empty (05 R76, R77). -/
theorem Link.nextRound_chosen (x : Link) (level : Fin 6 → Byte) :
    NextRound x (x.nextRound.chooseFresh level) level := by
  rintro next rfl
  refine ⟨fun a chosen => ?_, fun nobody => ?_⟩
  · have found : x.nextRound.nextBoard = some a := Link.nextBoard_chosen chosen
    rw [Link.chooseFresh, found]
    rfl
  · have found : x.nextRound.nextBoard = none := Link.nextBoard_noneAbove nobody
    rw [Link.chooseFresh, found]
    rfl

theorem Link.chooseInNextRound_enabled {x : Link} (enabled : x.enable ≠ 0) (level : Fin 6 → Byte) :
    NextRound x (x.chooseInNextRound level) level := by
  rw [Link.chooseInNextRound, Link.noneEnabled_eq_false enabled, if_neg Bool.false_ne_true]
  exact x.nextRound_chosen level

/-- A link with no enabled board is silent (05 R77). -/
theorem Link.choose_silent {x : Link} (silent : x.enable = 0) (gap : x.phase = .gap) (level : Fin 6 → Byte) :
    x.choose level = x := by
  rw [Link.choose, Link.noneEnabled, decide_eq_true silent, if_pos rfl, ← gap]

theorem Link.choose_chosen {x : Link} {a : Fin 6} (h : Chosen x a) (level : Fin 6 → Byte) :
    x.choose level = { x with last := some a, phase := .sending a (level a) false } := by
  rw [Link.choose, Link.enabled_of_due h.1, if_neg Bool.false_ne_true, Link.nextBoard_chosen h]
  rfl

theorem Link.choose_noneAbove {x : Link} (enabled : x.enable ≠ 0) (nobody : NoneAbove x) (level : Fin 6 → Byte) :
    x.choose level = if x.last.isSome then x.nextRound.chooseFresh level else { x with phase := .emptyRound } := by
  rw [Link.choose, Link.noneEnabled_eq_false enabled, if_neg Bool.false_ne_true, Link.nextBoard_noneAbove nobody]

/-! ## One link -/

theorem PerStage.set_get {α : Type} (v : PerStage α) (l : Stage) : v.set l (v.get l) = v := by cases l <;> rfl

theorem Device.onLink_self {d : Device} {l : Stage} {f : Link → Link} (h : f (d.link l) = d.link l) :
    d.onLink l f = d := by
  rw [Device.onLink, h, Device.link, PerStage.set_get]

/-- A change of one link is that link's alone. -/
theorem Device.onLink_only (d : Device) (l : Stage) (f : Link → Link) :
    d.onLink l f = { d with links := d.links.set l ((d.onLink l f).link l) } := by
  rw [Device.link_onLink, if_pos rfl]
  rfl

theorem State.onDevice_self {s : State} {f : Device → Device} (h : f s.device = s.device) : s.onDevice f = s := by
  rw [State.onDevice, h]

theorem Device.beginPoll_eq (d : Device) (l : Stage) :
    d.beginPoll l = d.onLink l fun x => if x.phase = .gap then x.choose (d.boardLevel l) else x := by
  unfold Device.beginPoll
  split
  · rename_i gap
    simp only [Device.onLink, gap, if_true]
  · rename_i busy
    exact (Device.onLink_self (if_neg busy)).symm

theorem Device.endEmptyRound_eq (d : Device) (l : Stage) :
    d.endEmptyRound l
      = d.onLink l fun x => if x.phase = .emptyRound then x.chooseInNextRound (d.boardLevel l) else x := by
  unfold Device.endEmptyRound
  split
  · rename_i empty
    simp only [Device.onLink, empty, if_true]
  · rename_i busy
    exact (Device.onLink_self (if_neg busy)).symm

/-- The end of a line gap: the board chosen in the round, the next round, an empty one, or silence (05 R76, R77). -/
theorem Device.beginPoll_link (d : Device) (l : Stage) :
    d.beginPoll l = { d with links := d.links.set l ((d.beginPoll l).link l) }
      ∧ ((d.link l).phase ≠ .gap ∨ (d.link l).enable = 0 → d.beginPoll l = d)
      ∧ ((d.link l).phase = .gap → (d.beginPoll l).link l = (d.link l).choose (d.boardLevel l)) := by
  rw [Device.beginPoll_eq]
  refine ⟨Device.onLink_only d l _, fun idle => Device.onLink_self ?_, fun gap => ?_⟩
  · split
    · rename_i gap
      exact Link.choose_silent (idle.resolve_left (not_not.2 gap)) gap _
    · rfl
  · rw [Device.link_onLink, if_pos rfl, if_pos gap]

theorem Device.endEmptyRound_link (d : Device) (l : Stage) :
    d.endEmptyRound l = { d with links := d.links.set l ((d.endEmptyRound l).link l) }
      ∧ ((d.link l).phase ≠ .emptyRound → d.endEmptyRound l = d)
      ∧ ((d.link l).phase = .emptyRound →
        (d.endEmptyRound l).link l = (d.link l).chooseInNextRound (d.boardLevel l)) := by
  rw [Device.endEmptyRound_eq]
  refine ⟨Device.onLink_only d l _, fun busy => Device.onLink_self (if_neg busy), fun empty => ?_⟩
  rw [Device.link_onLink, if_pos rfl, if_pos empty]

/-! ## Driver enable and characters -/

theorem Link.driverEnable_iff (x : Link) :
    x.driverEnable = true ↔ ∃ a level void, x.phase = .sending a level void := by
  unfold Link.driverEnable
  cases x.phase <;> simp

/-- Where no POLL is being sent, none ends and no character is sent (05 R71, R72). -/
theorem Link.driverEnable_low {x : Link} (h : x.driverEnable = false) : x.endPoll = x ∧ x.pollCharacters = [] := by
  cases phase : x.phase with
  | sending a level void => simp [Link.driverEnable, phase] at h
  | gap | transaction | emptyRound => simp only [Link.endPoll, Link.pollCharacters, phase, and_self]

theorem Link.endPoll_sending {x : Link} {a : Fin 6} {level : Byte} {void : Bool} (h : x.phase = .sending a level void) :
    x.endPoll = { x with phase := .transaction a level x.replyLimit void } := by
  simp only [Link.endPoll, h]

/-- A character that the controller sends has odd parity and a high stop bit (05 R71). -/
theorem sentCharacter_good (data : Byte) : (sentCharacter data).stop = true
    ∧ (onesIn (sentCharacter data).data + (sentCharacter data).parity.toNat) % 2 = 1 := by
  refine ⟨rfl, ?_⟩
  simp only [sentCharacter]
  rcases Nat.mod_two_eq_zero_or_one (onesIn data) with even | odd
  · simp only [even, decide_true, Bool.toNat_true]
    omega
  · simp only [odd, Nat.one_ne_zero, decide_false, Bool.toNat_false]
    omega

end Sys2Proof.Machine

section
open Sys2Proof.Machine Sys2Proof.Safety

/-- Settles O20. -/
theorem pollsAndRounds : Obligations.PollsAndRounds := by
  refine ⟨fun s l => ?_, fun s l => ?_, fun s l => ?_, fun x => ?_⟩
  · obtain ⟨only, idle, gap⟩ := s.device.beginPoll_link l
    refine ⟨_, rfl, only, fun quiet => State.onDevice_self (idle quiet), fun here a chosen => ?_,
      fun here enabled nobody first => ?_, fun here enabled nobody later => ?_⟩
    · exact (gap here).trans (Link.choose_chosen chosen _)
    · refine (gap here).trans ?_
      rw [Link.choose_noneAbove enabled nobody, if_neg (by simp [first])]
    · have chosen := gap here
      rw [Link.choose_noneAbove enabled nobody, if_pos (Option.isSome_iff_ne_none.2 later)] at chosen
      exact chosen ▸ Link.nextRound_chosen _ _
  · obtain ⟨only, busy, empty⟩ := s.device.endEmptyRound_link l
    refine ⟨_, rfl, only, fun other => State.onDevice_self (busy other), fun here enabled => ?_⟩
    exact empty here ▸ Link.chooseInNextRound_enabled enabled _
  · refine ⟨_, _, rfl, rfl, fun a level void sending => ?_, fun low => ?_, fun gap => ?_, fun busy => ?_⟩
    · exact congrArg (fun x => { s.device with links := s.device.links.set l x }) (Link.endPoll_sending sending)
    · exact State.onDevice_self (Device.onLink_self (Link.driverEnable_low low).1)
    · rw [State.onDevice, Device.pollTransfer, if_pos gap]
      rfl
    · exact State.onDevice_self (if_neg busy)
  · refine ⟨x.driverEnable_iff, fun low => (Link.driverEnable_low low).2, fun a level void sending => ?_⟩
    have characters : x.pollCharacters = [sentCharacter (BitVec.ofNat 8 a.val), sentCharacter level] := by
      simp only [Link.pollCharacters, sending]
    have address : a.val % 256 = a.val := Nat.mod_eq_of_lt (by omega)
    rw [characters]
    refine ⟨by simp [sentCharacter, address], fun c sent => ?_⟩
    obtain ⟨data, rfl⟩ : ∃ data, c = sentCharacter data := by
      simp only [List.mem_cons, List.not_mem_nil, or_false] at sent
      rcases sent with rfl | rfl <;> exact ⟨_, rfl⟩
    exact sentCharacter_good data

end
end

