-- ==== Sys2Proof/Proofs/GoodReports.lean ====
section
/-!
A good REPORT (O21): the board table, and what the report makes of its panel (05 R79, 06 R88 to R94).
-/
namespace Sys2Proof.Machine
open Sys2Proof.Safety

/-! ## Sensors -/

/-- A sensor after a report that does not seed its panel: moved, and tracked where the panel is not pressed (06 R89 to
R91, R93). -/
def Sensor.moved (x : PanelPress) (pressed : Bool) (before : Sensor) (level : Byte) (fault : Bool) : Sensor :=
  if pressed then before.report x.press x.release level fault
  else (before.report x.press x.release level fault).track before level fault

theorem Sensor.track_flags (x before : Sensor) (level : Byte) (fault : Bool) :
    (x.track before level fault).active = x.active ∧ (x.track before level fault).prevFault = x.prevFault := by
  unfold Sensor.track
  split <;> exact ⟨rfl, rfl⟩

section
variable (x : PanelPress) (pressed : Bool) (before : Sensor) (level : Byte)

/-- Tracking moves a baseline alone. -/
theorem Sensor.moved_flags (fault : Bool) :
    (Sensor.moved x pressed before level fault).active = (before.report x.press x.release level fault).active
      ∧ (Sensor.moved x pressed before level fault).prevFault = fault := by
  have reported : (before.report x.press x.release level fault).prevFault = fault := by
    unfold Sensor.report
    cases fault <;> simp [Sensor.seeded]
    split <;> rfl
  obtain ⟨active, prevFault⟩ :=
    (before.report x.press x.release level fault).track_flags before level fault
  unfold Sensor.moved
  split
  · exact ⟨rfl, reported⟩
  · exact ⟨active, prevFault.trans reported⟩

/-- A faulty sensor is inactive and keeps its baseline (06 R91). -/
theorem Sensor.moved_faulty :
    Sensor.moved x pressed before level true = { before with active := false, prevFault := true } := by
  simp [Sensor.moved, Sensor.report, Sensor.track]

/-- A sensor that is no longer faulty is seeded (06 R91). -/
theorem Sensor.moved_returned (h : before.prevFault = true) :
    Sensor.moved x pressed before level false = .seeded level false := by
  simp [Sensor.moved, Sensor.report, Sensor.track, h]

theorem sensorMoved_moved (fault : Bool) :
    SensorMoved x pressed before (Sensor.moved x pressed before level fault) level fault := by
  intro b seeded
  refine ⟨fun faulty => ?_, fun sound returned => ?_, fun sound working => ?_⟩
  · rw [faulty, Sensor.moved_faulty]
  · rw [sound, Sensor.moved_returned _ _ _ _ returned, Sensor.seeded, seedOf, Nat.mul_comm]
  · subst sound
    have reported : before.report x.press x.release level false = { before with
        active := activeAfter x.press x.release (riseOver level b) before.active, prevFault := false } := by
      simp [Sensor.report, working, seeded]
    obtain ⟨active, -⟩ := Sensor.moved_flags x pressed before level false
    rw [reported] at active
    refine ⟨active, ?_⟩
    rw [active, Sensor.moved, reported]
    cases pressed with
    | true => exact seeded
    | false =>
      simp only [Sensor.track, working, Bool.or_false, Bool.false_or, Bool.false_eq_true, if_false]
      split
      · exact seeded
      · simp only [seeded, Option.map_some, trackedBaseline, seedOf, Nat.cast_mul, Nat.cast_ofNat, Int.mul_comm]

end

/-! ## Panels -/

theorem countTrue_eq (v : Vector Bool 4) : countTrue v = (List.finRange 4).countP fun k => v[k] := by
  obtain ⟨⟨list⟩, length⟩ := v
  match list, length with
  | [a, b, c, e], _ => rfl

/-- The sensors of a panel moved by a report that does not seed it, before any is tracked (06 R90, R91). -/
def PanelPress.reported (x : PanelPress) (r : GoodReport) : Vector Sensor 4 :=
  Vector.ofFn fun k => x.sensors[k].report x.press x.release r.levels[k] (r.faults.getLsbD k.val)

theorem PanelPress.afterReport_seeding {x : PanelPress} {r : GoodReport} (h : x.seeds r = true) :
    x.afterReport r
      = { x with
          sensors := Vector.ofFn fun k => Sensor.seeded r.levels[k] (r.faults.getLsbD k.val), pressed := false } :=
  if_pos h

theorem PanelPress.afterReport_moving {x : PanelPress} {r : GoodReport} (h : ¬x.seeds r = true) :
    x.afterReport r
      = { x with
          sensors := Vector.ofFn fun k =>
            Sensor.moved x (quorumReached x.quorum (x.reported r) r.faults) x.sensors[k] r.levels[k]
              (r.faults.getLsbD k.val)
          pressed := quorumReached x.quorum (x.reported r) r.faults } := by
  rw [PanelPress.afterReport, if_neg h]
  change (if quorumReached x.quorum (x.reported r) r.faults = true then _ else _) = _
  cases quorumReached x.quorum (x.reported r) r.faults <;> simp [Sensor.moved]

theorem PanelPress.seeds_iff (x : PanelPress) (levels : Vector Byte 4) (faults : BitVec 4) (fresh : Bool)
    (board : BoardState) :
    x.seeds ⟨levels, faults, fresh, board = .offline || board = .absent⟩ = true ↔ Seeding x board fresh := by
  have unseeded : x.sensors.toList.any (·.baseline.isNone) = true ↔ ∃ k : Fin 4, x.sensors[k].baseline = none := by
    simp only [List.any_eq_true, Vector.mem_toList_iff, Option.isNone_iff_eq_none]
    constructor
    · rintro ⟨sensor, among, unseeded⟩
      obtain ⟨k, small, rfl⟩ := Vector.mem_iff_getElem.1 among
      exact ⟨⟨k, small⟩, unseeded⟩
    · rintro ⟨k, unseeded⟩
      exact ⟨_, Vector.getElem_mem k.isLt, unseeded⟩
  simp only [PanelPress.seeds, Bool.or_eq_true, unseeded, decide_eq_true_eq, Seeding, or_assoc]

/-- A panel is pressed where the active sensors reach the quorum of the working ones (06 R92). -/
theorem quorumReached_iff (quorum : Nat) (sensors : Vector Sensor 4) (faults : BitVec 4) {working : Nat}
    (h : working = (List.finRange 4).countP fun k => !faults.getLsbD k.val) :
    quorumReached quorum sensors faults = true
      ↔ working ≠ 0 ∧ min quorum working ≤ (List.finRange 4).countP fun k => sensors[k].active := by
  have counted : countTrue (Vector.ofFn fun i : Fin 4 => !faults.getLsbD i.val) = working := by
    rw [countTrue_eq, h]
    simp
  have active : countTrue (vecMap (·.active) sensors) = (List.finRange 4).countP fun k => sensors[k].active := by
    simp only [countTrue_eq, vecMap_get]
  rw [quorumReached, counted, active]
  by_cases none_ : working = 0 <;> simp [none_]

section
variable {x : PanelPress} {r : GoodReport}

theorem PanelPress.afterReport_shape (x : PanelPress) (r : GoodReport) :
    x.afterReport r = { x with sensors := (x.afterReport r).sensors, pressed := (x.afterReport r).pressed } := by
  by_cases h : x.seeds r = true
  · rw [PanelPress.afterReport_seeding h]
  · rw [PanelPress.afterReport_moving h]

theorem PanelPress.afterReport_seeded (h : x.seeds r = true) (k : Fin 4) :
    (x.afterReport r).sensors[k] = .seeded r.levels[k] (r.faults.getLsbD k.val) := by
  rw [PanelPress.afterReport_seeding h]
  exact Vector.getElem_ofFn ..

theorem PanelPress.afterReport_moved (h : ¬x.seeds r = true) (k : Fin 4) :
    (x.afterReport r).sensors[k]
      = .moved x (x.afterReport r).pressed x.sensors[k] r.levels[k] (r.faults.getLsbD k.val) := by
  rw [PanelPress.afterReport_moving h]
  exact Vector.getElem_ofFn ..

theorem PanelPress.afterReport_prevFault (x : PanelPress) (r : GoodReport) (k : Fin 4) :
    (x.afterReport r).sensors[k].prevFault = r.faults.getLsbD k.val := by
  by_cases h : x.seeds r = true
  · rw [PanelPress.afterReport_seeded h]
    rfl
  · rw [PanelPress.afterReport_moved h]
    exact (Sensor.moved_flags ..).2

/-- The press state follows from the sensors as they stand after the report (06 R92). -/
theorem PanelPress.afterReport_quorum (h : ¬x.seeds r = true) {working : Nat}
    (counted : working = (List.finRange 4).countP fun k => !r.faults.getLsbD k.val) :
    (x.afterReport r).pressed = true ↔ working ≠ 0
      ∧ min x.quorum working ≤ (List.finRange 4).countP fun k => (x.afterReport r).sensors[k].active := by
  have active (k : Fin 4) : (x.afterReport r).sensors[k].active = (x.reported r)[k].active := by
    rw [PanelPress.afterReport_moved h, (Sensor.moved_flags ..).1]
    simp only [PanelPress.reported, Fin.getElem_fin, Vector.getElem_ofFn]
  simp only [active]
  rw [← quorumReached_iff x.quorum (x.reported r) r.faults counted, PanelPress.afterReport_moving h]

/-- What a good report makes of its panel (06 R88 to R94, R96). -/
theorem panelMoved_afterReport {board : BoardState} {fresh : Bool} (seeds : x.seeds r = true ↔ Seeding x board fresh)
    (free : BitVec 32) :
    PanelMoved x ((x.afterReport r).changed x.pressed free) board fresh r.levels (fun k => r.faults.getLsbD k.val)
      free := by
  have shape := x.afterReport_shape r
  have counter : (x.afterReport r).counter = x.counter := by rw [shape]
  have timer : (x.afterReport r).stuckSince = x.stuckSince := x.afterReport_stuckSince r
  refine ⟨?_, x.afterReport_prevFault r, fun seeding => ⟨?_, fun k => ?_⟩,
    fun other => ⟨fun k => ?_, fun working counted => ?_⟩, ?_, ?_⟩
  · simp only [PanelPress.changed]
    rw [shape]
  · exact congrArg PanelPress.pressed (PanelPress.afterReport_seeding (seeds.2 seeding))
  · rw [PanelPress.changed_sensors, PanelPress.afterReport_seeded (seeds.2 seeding), Sensor.seeded, seedOf,
      Nat.mul_comm]
    exact ⟨rfl, rfl⟩
  · rw [PanelPress.changed_sensors, PanelPress.changed_pressed, PanelPress.afterReport_moved (mt seeds.1 other)]
    exact fun b => sensorMoved_moved x _ _ _ _ b
  · exact PanelPress.afterReport_quorum (mt seeds.1 other) counted
  · simp only [PanelPress.changed, counter]
  · simp only [PanelPress.changed, timer]

end

/-! ## Reports and deadlines -/

section
variable {d : Device} {l : Stage} {a : Fin 6} {level : Byte} {limit quarters : Nat} {void : Bool}

/-- A REPORT complete by its deadline, of a board that is not disabled, is judged and ends the transaction (05 R74,
R75). -/
theorem Device.receiveReport_judged (f : ReportFrame) (phase : (d.link l).phase = .transaction a level limit false)
    (inTime : quarters ≤ 4 * limit) (enabled : (d.link l).boards[a].state ≠ .disabled) :
    d.receiveReport l f quarters = (d.endTransaction l).judgeReport l a f := by
  have judged : ¬(d.link l).discards a false = true := by simpa [Link.discards] using enabled
  simp only [Device.receiveReport, phase, if_pos inTime, if_neg judged]

theorem Device.judgeReport_good {f : ReportFrame} (good : goodFrame f = true) (echo : f.echo.data.toNat = a.val) :
    d.judgeReport l a f = d.goodReport l a f := by
  simp [Device.judgeReport, good, echo]

theorem Device.endTransaction_link (d : Device) (l : Stage) :
    (d.endTransaction l).link l = { d.link l with phase := .gap } := by
  rw [Device.endTransaction, Device.link_onLink, if_pos rfl]

/-- What a link controller hands on with a good report of a board in some state (05 R79). -/
def reportOf (f : ReportFrame) (board : BoardState) : GoodReport :=
  ⟨frameLevels f, frameFaults f, frameFresh f, board = .offline || board = .absent⟩

theorem reportOf_seeds (f : ReportFrame) (board : BoardState) (x : PanelPress) :
    x.seeds (reportOf f board) = true ↔ Seeding x board (frameFresh f) := x.seeds_iff ..

theorem Device.goodReport_links (d : Device) (l : Stage) (a : Fin 6) (f : ReportFrame) :
    (d.goodReport l a f).links
      = d.links.set l ((d.link l).onBoard a fun b => b.reported (frameLevels f) (frameFaults f)) :=
  Device.takeGoodReport_links ..

theorem Device.goodReport_panel (d : Device) (l : Stage) (a : Fin 6) (f : ReportFrame) (x : Panel) :
    (d.goodReport l a f).panel x
      = if x = panelOf l a then
          ((d.panel x).afterReport (reportOf f (d.link l).boards[a].state)).changed (d.panel x).pressed d.clock.free
        else d.panel x := by
  refine (Device.takeGoodReport_panel ..).trans ?_
  split
  · rename_i here
    subst here
    rfl
  · rfl

/-- A fault flag that the panel's last report did not show raises SENSOR_FAULT (06 R91). -/
theorem Device.goodReport_sensorFault {f : ReportFrame} {k : Fin 4} (faulty : (frameFaults f).getLsbD k.val = true)
    (sound : (d.panel (panelOf l a)).sensors[k].prevFault = false) (i : Port) :
    Holds (d.goodReport l a f) i .sensorFault := by
  have new (r : GoodReport) (flag : r.faults.getLsbD k.val = true) :
      (d.panel (panelOf l a)).newFault r = true :=
    List.any_eq_true.2 ⟨k, List.mem_finRange k, by simp only [flag, sound, Bool.not_false, Bool.and_self]⟩
  unfold Device.goodReport Device.takeGoodReport
  dsimp only
  rw [Device.onLink_panel, if_pos (new _ faulty)]
  exact (Moves.pressChange _ _ _).holds (holds_raise _ _ i)

end

/-! ## Characters -/

/-- The characters of a REPORT (05 R73). -/
theorem goodFrame_iff (f : ReportFrame) :
    goodFrame f = true ↔ ∀ c ∈ [f.echo, f.s0, f.s1, f.s2, f.s3, f.status],
      c.stop = true ∧ (onesIn c.data + c.parity.toNat) % 2 = 1 := by
  have good (c : LineCharacter) :
      goodCharacter c = true ↔ c.stop = true ∧ (onesIn c.data + c.parity.toNat) % 2 = 1 := by
    rw [goodCharacter, Bool.and_eq_true, decide_eq_true_eq, and_comm]
  simp only [goodFrame, Bool.and_eq_true, good, List.forall_mem_cons, List.not_mem_nil, false_implies, implies_true,
    and_true, and_assoc]

end Sys2Proof.Machine

section
open Sys2Proof.Machine Sys2Proof.Safety

/-- Settles O21. -/
theorem goodReportEffect : Obligations.GoodReportEffect := by
  refine ⟨fun s l f quarters limit a level phase inTime enabled good echo => ⟨_, rfl, ?_⟩,
    fun s l f quarters limit a level phase inTime enabled good echo => ⟨_, rfl, ?_⟩, goodFrame_iff⟩ <;>
    rw [State.onDevice_device, Device.receiveReport_judged f phase inTime enabled,
      Device.judgeReport_good good echo] <;>
    generalize s.device = d at phase enabled ⊢
  · have links := (d.endTransaction l).goodReport_links l a f
    rw [Device.endTransaction_link] at links
    have link : ((d.endTransaction l).goodReport l a f).link l = _ :=
      (congrArg (PerStage.get · l) links).trans (by rw [PerStage.get_set, if_pos rfl])
    refine ⟨?_, ?_, ?_, fun b other => ?_⟩
    · rw [link, links]
      exact PerStage.set_set ..
    · rw [link]
      rfl
    · rw [link]
      refine (vecModify_get ..).trans ?_
      rw [if_pos rfl]
      rfl
    · rw [link]
      exact (vecModify_get ..).trans (if_neg other)
  · have panel := (d.endTransaction l).goodReport_panel l a f
    have flag (k : Fin 4) : (frameFaults f).getLsbD k.val = f.status.data.getLsbD k.val := by
      simp [frameFaults]
    refine ⟨?_, fun ⟨k, faulty, sound⟩ => Device.goodReport_sensorFault ((flag k).trans faulty) sound,
      fun p other => ?_⟩
    · have moved := panelMoved_afterReport (reportOf_seeds f (d.link l).boards[a].state (d.panel (panelOf l a)))
        d.clock.free
      simp only [reportOf, flag] at moved
      rw [panel, if_pos rfl, Device.endTransaction_link]
      exact moved
    · rw [panel, if_neg other]
      rfl

end
end

