-- ==== Sys2Proof/Proofs/MissesAndLateReports.lean ====
section
/-!
Misses, and REPORTs that come late, or to a link that waits for none (O22; 05 R73 to R75, R80, R81, R83, 06 R95).
-/
namespace Sys2Proof.Machine
open Sys2Proof.Safety

/-! ## Boards -/

theorem Board.missed_state (b : Board) (limit : Nat) :
    (b.missed limit).state = if b.state = .online ∨ b.state = .degraded then
        if (b.missed limit).misses < limit then .degraded else .offline
      else b.state := by
  cases state : b.state <;> simp [Board.missed, BoardState.afterMiss, state]

/-- A board after a miss, by its count and its state (05 R80). -/
theorem Board.missed_eq {b after : Board} {limit : Nat} (misses : after.misses = min (b.misses + 1) 255)
    (state : after.state = if b.state = .online ∨ b.state = .degraded then
        if after.misses < limit then .degraded else .offline
      else b.state) : b.missed limit = { b with misses := after.misses, state := after.state } := by
  have counted : (b.missed limit).misses = after.misses := misses.symm
  rw [state, ← counted, ← Board.missed_state]
  rfl

/-- A miss loses a board where it takes it from ONLINE or DEGRADED to OFFLINE (05 R81). -/
theorem Board.missed_lost_iff (b : Board) (limit : Nat) :
    (b.state.answering && (b.missed limit).state = .offline) = true
      ↔ (b.missed limit).state = .offline ∧ b.state ≠ .offline := by
  rw [Bool.and_eq_true, decide_eq_true_eq, BoardState.answering_iff, and_comm]
  refine and_congr_right fun offline => ⟨?_, fun other => ?_⟩
  · rintro (state | state) <;> simp [state]
  · by_contra quiet
    rw [Board.missed_state, if_neg quiet] at offline
    exact other offline

/-! ## Misses -/

section
variable (d : Device) (l : Stage) (a : Fin 6)

/-- The link of a miss, with its board's count and state (05 R80). -/
def Device.missCounted : Device := d.onLink l fun x => x.onBoard a fun b => b.missed x.missLimit

theorem Device.missCounted_board :
    ((d.missCounted l a).link l).boards[a] = (d.link l).boards[a].missed (d.link l).missLimit := by
  rw [Device.missCounted, Device.link_onLink, if_pos rfl]
  exact (vecModify_get ..).trans (if_pos rfl)

theorem Device.miss_eq :
    d.miss l a = if ((d.link l).boards[a].missed (d.link l).missLimit).state = .offline
        ∧ (d.link l).boards[a].state ≠ .offline then
          ((d.missCounted l a).raise .boardOffline).takeBoardLost (panelOf l a)
      else d.missCounted l a := by
  change (if ((d.link l).boards[a].state.answering
      && ((d.missCounted l a).link l).boards[a].state = .offline) = true then _ else _) = _
  rw [Device.missCounted_board]
  exact if_congr (Board.missed_lost_iff ..) rfl rfl

theorem Device.miss_links : (d.miss l a).links = (d.missCounted l a).links := by
  rw [Device.miss_eq]
  split
  · exact Device.takeBoardLost_links ..
  · rfl

theorem Device.miss_panel_other {x : Panel} (h : x ≠ panelOf l a) : (d.miss l a).panel x = d.panel x := by
  rw [Device.miss_eq]
  split
  · rw [Device.takeBoardLost_panel, if_neg h]
    rfl
  · rfl

variable {d l a}

/-- A board that goes OFFLINE raises BOARD_OFFLINE and has its panel released (05 R81, 06 R95). -/
theorem Device.miss_lost (h : ((d.link l).boards[a].missed (d.link l).missLimit).state = .offline)
    (other : (d.link l).boards[a].state ≠ .offline) :
    (∀ j, Holds (d.miss l a) j .boardOffline) ∧
      (d.miss l a).panel (panelOf l a) = (d.panel (panelOf l a)).lost := by
  rw [Device.miss_eq, if_pos ⟨h, other⟩]
  refine ⟨fun j => (Moves.takeBoardLost _ _).holds (holds_raise _ _ j), ?_⟩
  rw [Device.takeBoardLost_panel, if_pos rfl]
  rfl

theorem Device.miss_kept (h : ((d.link l).boards[a].missed (d.link l).missLimit).state ≠ .offline
    ∨ (d.link l).boards[a].state = .offline) : d.miss l a = d.missCounted l a := by
  rw [Device.miss_eq, if_neg]
  exact fun ⟨offline, left⟩ => h.elim (· offline) left

end

/-! ## What comes before the miss -/

/-- The link with its transaction ended, and a parity miss counted where a character was bad (05 R74, R75). -/
def Device.missBegun (d : Device) (l : Stage) (bad : Bool) : Device :=
  if bad then ((d.endTransaction l).onLink l fun x => { x with parity := min (x.parity + 1) 255 }).raise .linkParity
  else d.endTransaction l

section
variable {d : Device} {l : Stage} (bad : Bool)

theorem Device.missBegun_aside : d.missBegun l bad
    = { d with links := (d.missBegun l bad).links, ports := (d.missBegun l bad).ports } := by
  cases bad <;> rfl

theorem Device.missBegun_links : (d.missBegun l bad).links = d.links.set l { d.link l with
    parity := if bad then min ((d.link l).parity + 1) 255 else (d.link l).parity, phase := .gap } := by
  cases bad with
  | false => rfl
  | true =>
    rw [Device.missBegun, if_pos rfl, Device.raise_links, Device.onLink, Device.endTransaction_link]
    exact PerStage.set_set ..

theorem Device.missBegun_link : (d.missBegun l bad).link l = { d.link l with
    parity := if bad then min ((d.link l).parity + 1) 255 else (d.link l).parity, phase := .gap } :=
  (congrArg (PerStage.get · l) (Device.missBegun_links bad)).trans (by rw [PerStage.get_set, if_pos rfl])

theorem Device.missBegun_raised : OnlyRaised d (d.missBegun l bad) := by
  unfold Device.missBegun
  split
  · exact (onlyRaised_of_ports rfl).trans (onlyRaised_raise _ _)
  · exact onlyRaised_of_ports rfl

/-- What comes before a miss leaves its board as it was. -/
theorem Device.missBegun_board (d : Device) (l : Stage) (a : Fin 6) :
    ((d.missBegun l bad).link l).boards[a].missed ((d.missBegun l bad).link l).missLimit
        = (d.link l).boards[a].missed (d.link l).missLimit
      ∧ ((d.missBegun l bad).link l).boards[a].state = (d.link l).boards[a].state := by
  rw [Device.missBegun_link]
  exact ⟨rfl, rfl⟩

/-- The links after a miss, all that came before it counted in (05 R75, R80). -/
theorem Device.missBegun_miss_links (d : Device) (l : Stage) (a : Fin 6) :
    ((d.missBegun l bad).miss l a).links = d.links.set l { d.link l with
      boards := vecModify (d.link l).boards a fun b => b.missed (d.link l).missLimit
      parity := if bad then min ((d.link l).parity + 1) 255 else (d.link l).parity
      phase := .gap } := by
  rw [Device.miss_links, Device.missCounted, Device.onLink, Device.missBegun_link, Device.missBegun_links]
  exact PerStage.set_set ..

end

section
variable {d : Device} {l : Stage} {a : Fin 6} {level : Byte} {limit quarters : Nat} {void : Bool}

/-- The deadline of a board that is not disabled is a miss (05 R74). -/
theorem Device.passDeadline_missed (phase : (d.link l).phase = .transaction a level limit false)
    (enabled : (d.link l).boards[a].state ≠ .disabled) :
    d.passDeadline l = (d.missBegun l false).miss l a := by
  have missed : ¬(d.link l).discards a false = true := by simpa [Link.discards] using enabled
  simp only [Device.passDeadline, phase, if_neg missed]
  rfl

/-- A bad character, or an echo of another board, is a miss (05 R75). -/
theorem Device.judgeReport_missed {f : ReportFrame} :
    (goodFrame f = false → (d.endTransaction l).judgeReport l a f = (d.missBegun l true).miss l a)
      ∧ (goodFrame f = true → f.echo.data.toNat ≠ a.val →
        (d.endTransaction l).judgeReport l a f = (d.missBegun l false).miss l a) := by
  refine ⟨fun bad => ?_, fun good echo => ?_⟩
  · simp only [Device.judgeReport, bad, Bool.not_false, if_true]
    rfl
  · simp only [Device.judgeReport, good, Bool.not_true, Bool.false_eq_true, if_false, if_pos echo]
    rfl

/-- The three misses: the deadline, a bad character, and the echo of another board (05 R74, R75). -/
theorem exec_missed {s : State} {c : Instr} {f : ReportFrame} {bad : Bool}
    (phase : (s.device.link l).phase = .transaction a level limit false)
    (enabled : (s.device.link l).boards[a].state ≠ .disabled)
    (h : c = .replyDeadline l ∧ bad = false
      ∨ c = .report l f quarters ∧ quarters ≤ 4 * limit ∧ goodFrame f = false ∧ bad = true
      ∨ c = .report l f quarters ∧ quarters ≤ 4 * limit ∧ goodFrame f = true ∧ f.echo.data.toNat ≠ a.val
          ∧ bad = false) :
    ∃ t, exec c s = .next t ∧ t.device = (s.device.missBegun l bad).miss l a := by
  rcases h with ⟨rfl, rfl⟩ | ⟨rfl, inTime, damaged, rfl⟩ | ⟨rfl, inTime, good, echo, rfl⟩ <;>
    refine ⟨_, rfl, ?_⟩
  · exact Device.passDeadline_missed phase enabled
  · exact (Device.receiveReport_judged f phase inTime enabled).trans (Device.judgeReport_missed.1 damaged)
  · exact (Device.receiveReport_judged f phase inTime enabled).trans (Device.judgeReport_missed.2 good echo)

/-! ## Late and void reports -/

/-- Characters that belong to no REPORT, and a deadline that no transaction has, change nothing (05 R71, R73). -/
theorem Device.report_outside (f : ReportFrame)
    (h : (d.link l).phase = .gap ∨ (d.link l).phase = .emptyRound ∨ (d.link l).driverEnable = true) :
    d.receiveReport l f quarters = d ∧ d.passDeadline l = d := by
  cases phase : (d.link l).phase with
  | transaction => simp [phase, Link.driverEnable] at h
  | gap | emptyRound | sending => simp only [Device.receiveReport, Device.passDeadline, phase, and_self]

theorem Device.report_late (f : ReportFrame) (phase : (d.link l).phase = .transaction a level limit void)
    (late : 4 * limit < quarters) : d.receiveReport l f quarters = d := by
  simp only [Device.receiveReport, phase, if_neg (Nat.not_le.2 late)]

/-- The REPORT of a board disabled meanwhile, and its deadline, only end the transaction (05 R83). -/
theorem Device.report_discarded (f : ReportFrame) (phase : (d.link l).phase = .transaction a level limit void)
    (disabled : void = true ∨ (d.link l).boards[a].state = .disabled) :
    d.passDeadline l = d.endTransaction l
      ∧ (quarters ≤ 4 * limit → d.receiveReport l f quarters = d.endTransaction l) := by
  have discarded : (d.link l).discards a void = true := by simpa [Link.discards] using disabled
  refine ⟨?_, fun inTime => ?_⟩
  · simp only [Device.passDeadline, phase, if_pos discarded]
  · simp only [Device.receiveReport, phase, if_pos inTime, if_pos discarded]

end

end Sys2Proof.Machine

section
open Sys2Proof.Machine Sys2Proof.Safety

/-- Settles O22: a miss is counted on a link whose transaction has ended, and loses its board at most; any other REPORT
or deadline ends the transaction or changes nothing. -/
theorem missesAndLateReports : Obligations.MissesAndLateReports := by
  refine ⟨fun s l f quarters limit a level c bad before after phase board enabled miss misses state => ?_,
    fun s l f quarters => ⟨_, _, rfl, rfl, fun outside => ?_, fun a level limit void phase => ⟨fun late => ?_,
      fun disabled => ⟨?_, fun inTime => ?_⟩⟩⟩⟩
  · subst board
    obtain ⟨t, answer, device⟩ := exec_missed phase enabled miss
    refine ⟨t, answer, ?_⟩
    rw [device]
    clear device answer t miss phase
    generalize s.device = d at *
    have links := Device.missBegun_miss_links bad d l a
    have link : ((d.missBegun l bad).miss l a).link l = _ :=
      (congrArg (PerStage.get · l) links).trans (by rw [PerStage.get_set, if_pos rfl])
    have missed := Board.missed_eq misses state
    obtain ⟨begun, was⟩ := Device.missBegun_board bad d l a
    rw [missed] at begun
    refine ⟨?_, ?_, ?_, fun b other => ?_, fun parity j => ?_, fun offline left => ?_, fun kept => ?_,
      fun p other => ?_⟩
    · rw [link, links]
    · rw [link]
    · rw [link, ← missed]
      exact (vecModify_get ..).trans (if_pos rfl)
    · rw [link]
      exact (vecModify_get ..).trans (if_neg other)
    · subst parity
      exact (Moves.miss _ l a).holds (holds_raise _ _ j)
    · obtain ⟨notice, panel⟩ := Device.miss_lost (d := d.missBegun l bad)
        (by rw [begun]; exact offline) (was ▸ left)
      rw [panel]
      exact ⟨notice, rfl, fun k => by rw [(PanelPress.lost_eq _).2]⟩
    · rw [Device.miss_kept (by rw [begun, was]; exact kept)]
      refine ⟨?_, (Device.missBegun_raised bad).trans (onlyRaised_of_ports rfl)⟩
      rw [Device.missCounted, Device.onLink, Device.missBegun_aside]
    · rw [Device.miss_panel_other _ _ _ other, Device.missBegun_aside]
      rfl
  · obtain ⟨report, deadline⟩ := Device.report_outside (quarters := quarters) f outside
    exact ⟨State.onDevice_self report, State.onDevice_self deadline⟩
  · exact State.onDevice_self (Device.report_late f phase late)
  · exact (Device.report_discarded (quarters := quarters) f phase disabled).1
  · obtain ⟨deadline, report⟩ := Device.report_discarded (quarters := quarters) f phase disabled
    rw [State.onDevice, State.onDevice, deadline, report inTime]

end
end
